-- ==== Sys2Proof/Word.lean ====
section
/-! DEFINITION. The words of the part (bytes of a frame, 16-bit words) and the fixed-size table that holds a number
of like records (four ports, 32 call slots, 256 blocks). -/

namespace Sys2Proof

/-- A byte of a frame, of a reply or of the block memory. -/
abbrev Byte := BitVec 8

/-- A 16-bit word: a tag, an argument, a result word, a byte address of the block memory. -/
abbrev Word := BitVec 16

/-- `n` like records, numbered from 0. -/
structure Table (α : Type) (n : Nat) where
  items : List α
  len : items.length = n
deriving DecidableEq, Repr

/-- Every item of a list changed by its position; `k` is the position of the list's head. -/
def Table.mapFrom {α : Type} (n : Nat) (f : Fin n → α → α) : (k : Nat) → (l : List α) → k + l.length = n → List α
  | _, [], _ => []
  | k, a :: l, h =>
    f ⟨k, by rw [List.length_cons] at h; omega⟩ a ::
      Table.mapFrom n f (k + 1) l (by rw [List.length_cons] at h; omega)

theorem Table.mapFrom_length {α : Type} (n : Nat) (f : Fin n → α → α) :
    ∀ (k : Nat) (l : List α) (h : k + l.length = n), (Table.mapFrom n f k l h).length = l.length
  | _, [], _ => rfl
  | k, a :: l, h => by
    rw [Table.mapFrom, List.length_cons, List.length_cons, Table.mapFrom_length n f (k + 1) l]

/-- The positions of the items that satisfy a test, in ascending order. -/
def Table.indicesFrom {α : Type} (n : Nat) (t : α → Bool) : (k : Nat) → (l : List α) → k + l.length = n → List (Fin n)
  | _, [], _ => []
  | k, a :: l, h =>
    let rest := Table.indicesFrom n t (k + 1) l (by rw [List.length_cons] at h; omega)
    if t a then ⟨k, by rw [List.length_cons] at h; omega⟩ :: rest else rest

namespace Table

variable {α : Type} {n : Nat}

/-- The record at a position. -/
def get (t : Table α n) (i : Fin n) : α := t.items[i.val]'(by rw [t.len]; exact i.isLt)

/-- One record replaced. -/
def set (t : Table α n) (i : Fin n) (a : α) : Table α n := ⟨t.items.set i.val a, by rw [List.length_set, t.len]⟩

/-- Every record the same. -/
def replicate (n : Nat) (a : α) : Table α n := ⟨List.replicate n a, List.length_replicate⟩

/-- Every record changed, each by its own position. -/
def map (f : Fin n → α → α) (t : Table α n) : Table α n :=
  ⟨Table.mapFrom n f 0 t.items (by rw [t.len]; omega), by rw [Table.mapFrom_length, t.len]⟩

/-- The positions of the records that satisfy a test, in ascending order. -/
def indices (t : Table α n) (p : α → Bool) : List (Fin n) := Table.indicesFrom n p 0 t.items (by rw [t.len]; omega)

/-- How many records satisfy a test. -/
def count (t : Table α n) (p : α → Bool) : Nat := t.items.countP p

end Table

end Sys2Proof
end

