-- ==== Sys2Proof/Config.lean ====
section
/-! DEFINITION. What the part fixes once (capacities, the pulse length, the part code) and the free values: values the
spec leaves open, which nothing in Lean can evaluate. -/

namespace Sys2Proof.Config

/-- A service stack holds at most four entries (R46). -/
def stackDepth : Nat := 4

/-- The service directory holds up to 16 entries (R33). -/
def directorySize : Nat := 16

/-- A write staging buffer has 248 places (R131). -/
def stagingSize : Nat := 248

/-- The reset pulse, in ticks (R148, R162). -/
def pulseTicks : Nat := 200

/-- The part code that Part Status reports (R185). -/
def partCode : Word := 0x3416

/-- The revision that Part Status reports (R185). -/
def revision : Byte := 0x01

/-- FREE VALUE: the byte that an address holds after RESET# until its block's scrub completes. The spec says only that
it is unknown (R92, R118, R144). The first argument is fresh at each RESET#, the second is the address. -/
opaque freeByte (epoch address : Nat) : Byte

/-- FREE VALUE: the phase within the current tick at which the timebase stands when power returns (R195). -/
opaque freePhase (n : Nat) : Nat

/-- FREE VALUE: the port whose SCK has its next edge in the n-th step that finds no command waiting, or none. The link
clock may run at any rate and may stop and start again (R169), so the spec gives no rule for the choice. -/
opaque clockedPort (n : Nat) : Option (Fin 4)

/-- FREE VALUE: the level of that port's MOSI at that edge, which its processor drives (R169). -/
opaque mosiLevel (n : Nat) : Bool

end Sys2Proof.Config
end

