-- ==== Sys2Proof/Syntax.lean ====
section
/-! DEFINITION. The commands of the part: one constructor per row of spec/opcode_table.json. Twenty-seven rows are the
request frames of R190; the others are the link's other frame events, the edges of the inputs, and the timed events.

A request row stands for a frame whose check byte verifies, at the moment it verifies: the rising edge of SCK that samples
the check byte's eighth bit (R169, R173). Its operands are the port and the frame's L parameter bytes as they were sent
(R171), so that a frame of any length and with any field values can be written down: a wrong length or an out-of-range
field is refused by the command's meaning, as the part refuses it. The frame's bits that its port has not yet received
arrive with it. -/

namespace Sys2Proof

/-- Ports A to D, numbered 0 to 3. -/
abbrev Port := Fin 4

/-- Call slots 0 to 31 (R1). -/
abbrev SlotNo := Fin 32

/-- Blocks 0 to 255 (R92). -/
abbrev BlockNo := Fin 256

/-- A command: a row of the operation and event table. -/
inductive Instr where
  /-- Poll (R183). -/
  | poll (p : Port) (params : List Byte)
  /-- Port Status (R184). -/
  | portStatus (p : Port) (params : List Byte)
  /-- Part Status (R185). -/
  | partStatus (p : Port) (params : List Byte)
  /-- Last Reply (R182). -/
  | lastReply (p : Port) (params : List Byte)
  /-- Attach (R153, R154). -/
  | attach (p : Port) (params : List Byte)
  /-- Detach (R158). -/
  | detach (p : Port) (params : List Byte)
  /-- Reset Peer (R161, R162). -/
  | resetPeer (p : Port) (params : List Byte)
  /-- Register Service (R35 to R37). -/
  | registerService (p : Port) (params : List Byte)
  /-- Withdraw Service (R39, R40). -/
  | withdrawService (p : Port) (params : List Byte)
  /-- Query Service (R42). -/
  | queryService (p : Port) (params : List Byte)
  /-- Post Call (R8 to R11). -/
  | postCall (p : Port) (params : List Byte)
  /-- Cancel Call (R13 to R16). -/
  | cancelCall (p : Port) (params : List Byte)
  /-- Collect Answer (R18, R19). -/
  | collectAnswer (p : Port) (params : List Byte)
  /-- Call Status (R20). -/
  | callStatus (p : Port) (params : List Byte)
  /-- Take Call (R52 to R56). -/
  | takeCall (p : Port) (params : List Byte)
  /-- Answer Call (R61 to R64). -/
  | answerCall (p : Port) (params : List Byte)
  /-- Open Nesting (R58). -/
  | openNesting (p : Port) (params : List Byte)
  /-- Close Nesting (R59). -/
  | closeNesting (p : Port) (params : List Byte)
  /-- Stack Status (R67). -/
  | stackStatus (p : Port) (params : List Byte)
  /-- Read Notices (R82, R83). -/
  | readNotices (p : Port) (params : List Byte)
  /-- Claim Blocks (R100 to R102). -/
  | claimBlocks (p : Port) (params : List Byte)
  /-- Release Blocks (R104 to R106). -/
  | releaseBlocks (p : Port) (params : List Byte)
  /-- Block Status (R108). -/
  | blockStatus (p : Port) (params : List Byte)
  /-- Set Cursor (R121). -/
  | setCursor (p : Port) (params : List Byte)
  /-- Rewind Cursor (R122). -/
  | rewindCursor (p : Port) (params : List Byte)
  /-- Read Data (R123). -/
  | readData (p : Port) (params : List Byte)
  /-- The next data byte of the port's streamed read begins to be shifted out (R124, R125). -/
  | readDataByte (p : Port)
  /-- Write Data (R131 to R134). -/
  | writeData (p : Port) (params : List Byte)
  /-- A frame whose check byte verifies and whose command code is none of the 27 of R190 (R173). -/
  | badCommand (p : Port) (code : Byte) (params : List Byte)
  /-- A frame whose check byte does not verify, as received: code, parameter bytes, check byte (R174). -/
  | badCheck (p : Port) (code : Byte) (params : List Byte) (check : Byte)
  /-- SEL# rises before the check byte is complete (R174). `edges` is the further edges of SCK up to then, as the level of
  MOSI at each (R169). -/
  | frameCutShort (p : Port) (edges : List Bool)
  /-- SEL# rises during or after a reply (R176). `edges` is the further edges of SCK up to then, as the level of MOSI at
  each (R169). -/
  | frameEnd (p : Port) (edges : List Bool)
  /-- A falling edge of the port's PRST# (R159). -/
  | prstFalling (p : Port)
  /-- A rising edge of the port's PRST# (R160). -/
  | prstRising (p : Port)
  /-- A falling edge of RESET# (R166). -/
  | resetFalling
  /-- A rising edge of RESET# (R167). -/
  | resetRising
  /-- A tick of the timebase (R195). -/
  | tick
  /-- The expiry of a PENDING slot's deadline that a tick has brought to 0 (R24). -/
  | deadlineExpiry (n : SlotNo)
  /-- The overrun of an IN_SERVICE slot whose service limit a tick has brought to 0 (R27). -/
  | overrun (n : SlotNo)
  /-- The end of a HELD port's reset pulse that a tick has brought to 0 (R164). -/
  | pulseEnd (p : Port)
  /-- The completion of the scrub of the block in progress (R140). -/
  | scrubCompletion
  /-- A falling edge of the port's SEL# (R170). -/
  | selFalling (p : Port)
  /-- Power falls below the operating range (R194). -/
  | powerBelowRange
  /-- Power returns with RESET# held low (R194). -/
  | powerUp
deriving DecidableEq, Repr

end Sys2Proof
end

