-- ==== Sys2Proof/Decode.lean ====
section
/-! DEFINITION. The bytes of a request frame: its check byte (R172), the command codes and the lengths they allow (R190),
and which command a whole frame stands for (R171, R173, R174). The operation table gives no row any bits, so
`decodeTableWord` reads none. -/

namespace Sys2Proof

/-- One place of the CRC register toward its most significant bit, with 07h where a 1 falls out (R172). -/
def crcShift (r : Byte) : Byte := if r.msb then (r <<< 1) ^^^ 0x07 else r <<< 1

/-- One byte taken into the CRC register (R172). -/
def crcByte (r b : Byte) : Byte :=
  crcShift (crcShift (crcShift (crcShift (crcShift (crcShift (crcShift (crcShift (r ^^^ b))))))))

/-- The check value of some bytes: the register starts at FFh and is used without final inversion (R172). -/
def crc8 (bytes : List Byte) : Byte := bytes.foldl crcByte 0xFF

/-- A row of the request table: a command code and the shortest and longest parameter length it allows (R190). -/
structure RequestForm where
  code : Byte
  shortest : Nat
  longest : Nat
deriving DecidableEq, Repr

/-- R190's rows for the link, port, directory and caller commands. -/
def requestFormsLow : List RequestForm :=
  [⟨0x01, 0, 0⟩, ⟨0x02, 0, 0⟩, ⟨0x03, 0, 0⟩, ⟨0x04, 0, 0⟩,
   ⟨0x08, 3, 3⟩, ⟨0x09, 0, 0⟩, ⟨0x0A, 1, 1⟩,
   ⟨0x10, 5, 5⟩, ⟨0x11, 1, 1⟩, ⟨0x12, 1, 1⟩,
   ⟨0x20, 11, 255⟩, ⟨0x21, 1, 1⟩, ⟨0x22, 1, 1⟩, ⟨0x23, 1, 1⟩]

/-- R190's rows for the callee, notice and memory commands. -/
def requestFormsHigh : List RequestForm :=
  [⟨0x30, 0, 0⟩, ⟨0x31, 3, 255⟩, ⟨0x32, 0, 0⟩, ⟨0x33, 0, 0⟩, ⟨0x34, 0, 0⟩,
   ⟨0x38, 1, 1⟩, ⟨0x40, 1, 1⟩, ⟨0x41, 2, 2⟩, ⟨0x42, 1, 1⟩,
   ⟨0x48, 5, 5⟩, ⟨0x49, 1, 1⟩, ⟨0x4A, 3, 3⟩, ⟨0x4B, 2, 249⟩]

/-- The 27 commands of R190. -/
def requestForms : List RequestForm := requestFormsLow ++ requestFormsHigh

/-- The code is one of the 27 commands of R190. -/
def knownCode (code : Byte) : Bool := requestForms.any fun f => f.code == code

/-- The link port accepts this parameter length for this code (R173, R190). -/
def lengthAllowed (code : Byte) (len : Nat) : Bool :=
  requestForms.any fun f => f.code == code && decide (f.shortest ≤ len) && decide (len ≤ f.longest)

/-- Poll, Port Status, Part Status and Last Reply, which do not replace the last-reply record (R181). -/
def isStatusCode (code : Byte) : Bool := code == 0x01 || code == 0x02 || code == 0x03 || code == 0x04

/-- The command that a code of R190 names, with the frame's parameter bytes. -/
def requestCommand (p : Port) (code : Byte) (params : List Byte) : Option Instr :=
  match code.toNat with
  | 0x01 => some (.poll p params)
  | 0x02 => some (.portStatus p params)
  | 0x03 => some (.partStatus p params)
  | 0x04 => some (.lastReply p params)
  | 0x08 => some (.attach p params)
  | 0x09 => some (.detach p params)
  | 0x0A => some (.resetPeer p params)
  | 0x10 => some (.registerService p params)
  | 0x11 => some (.withdrawService p params)
  | 0x12 => some (.queryService p params)
  | 0x20 => some (.postCall p params)
  | 0x21 => some (.cancelCall p params)
  | 0x22 => some (.collectAnswer p params)
  | 0x23 => some (.callStatus p params)
  | 0x30 => some (.takeCall p params)
  | 0x31 => some (.answerCall p params)
  | 0x32 => some (.openNesting p params)
  | 0x33 => some (.closeNesting p params)
  | 0x34 => some (.stackStatus p params)
  | 0x38 => some (.readNotices p params)
  | 0x40 => some (.claimBlocks p params)
  | 0x41 => some (.releaseBlocks p params)
  | 0x42 => some (.blockStatus p params)
  | 0x48 => some (.setCursor p params)
  | 0x49 => some (.rewindCursor p params)
  | 0x4A => some (.readData p params)
  | 0x4B => some (.writeData p params)
  | _ => none

/-- The bits of a byte in the order sent: most significant first (R169). -/
def bitsOfByte (b : Byte) : List Bool := (List.range 8).map b.getMsbD

/-- The bits of some bytes in the order sent (R169). -/
def bitsOf (bytes : List Byte) : List Bool := bytes.flatMap bitsOfByte

/-- The byte whose bits are received, most significant first (R169). -/
def byteOfBits (bits : List Bool) : Byte := BitVec.ofNat 8 (bits.foldl (fun n b => 2 * n + b.toNat) 0)

/-- The bytes that some bits make, eight by eight; the bits of an incomplete byte do not count (R169). -/
def bytesOfBits : List Bool → List Byte
  | a :: b :: c :: d :: e :: f :: g :: h :: rest => byteOfBits [a, b, c, d, e, f, g, h] :: bytesOfBits rest
  | _ => []

/-- The bytes are the beginning of a frame whose check byte is not yet complete (R171, R174). -/
def partialFrame (bytes : List Byte) : Bool :=
  match bytes with
  | _ :: len :: rest => decide (rest.length ≤ len.toNat)
  | _ => true

/-- The data bytes of a Write Data among the first bytes of a frame (R131, R190): those after the cursor number, no more
than the staging buffer has places. The frame of any other command has none. -/
def writeDataBytes (bytes : List Byte) : List Byte :=
  match bytes with
  | code :: len :: _ :: data => if code = 0x4B then data.take (min (len.toNat - 1) Config.stagingSize) else []
  | _ => []

/-- The command that a whole frame's MOSI bytes stand for: code, length byte, that many parameter bytes, check byte
(R171). A check byte that does not verify gives BAD_CHECK (R174), an unknown code BAD_COMMAND (R173). Bytes that are not
exactly one frame stand for none. DEDUCED (log 28): the check byte is the byte after the Lth parameter, so the third byte of
a frame whose L is 0, as R171's list and chapter 10's Take Call of three bytes have it; R171 calls it "the fourth". -/
def frameCommand (p : Port) (bytes : List Byte) : Option Instr :=
  match bytes with
  | code :: len :: rest =>
    if rest.length = len.toNat + 1 then
      let params := rest.take len.toNat
      let check := rest.getD len.toNat 0
      if check = crc8 (code :: len :: params) then
        some ((requestCommand p code params).getD (.badCommand p code params))
      else some (.badCheck p code params check)
    else none
  | _ => none

/-- A request's bytes before its check byte: code, length, parameters (R171). -/
def requestHead (code : Byte) (params : List Byte) : List Byte := code :: BitVec.ofNat 8 params.length :: params

/-- A request's bytes with a check byte that verifies (R171, R172). DEDUCED (log 28), as `frameCommand`. -/
def requestBytes (code : Byte) (params : List Byte) : List Byte :=
  requestHead code params ++ [crc8 (requestHead code params)]

/-- The port, command code and parameter bytes of a frame whose check byte verifies; none for every other event. -/
def Instr.request : Instr → Option (Port × Byte × List Byte)
  | .poll p params => some (p, 0x01, params)
  | .portStatus p params => some (p, 0x02, params)
  | .partStatus p params => some (p, 0x03, params)
  | .lastReply p params => some (p, 0x04, params)
  | .attach p params => some (p, 0x08, params)
  | .detach p params => some (p, 0x09, params)
  | .resetPeer p params => some (p, 0x0A, params)
  | .registerService p params => some (p, 0x10, params)
  | .withdrawService p params => some (p, 0x11, params)
  | .queryService p params => some (p, 0x12, params)
  | .postCall p params => some (p, 0x20, params)
  | .cancelCall p params => some (p, 0x21, params)
  | .collectAnswer p params => some (p, 0x22, params)
  | .callStatus p params => some (p, 0x23, params)
  | .takeCall p params => some (p, 0x30, params)
  | .answerCall p params => some (p, 0x31, params)
  | .openNesting p params => some (p, 0x32, params)
  | .closeNesting p params => some (p, 0x33, params)
  | .stackStatus p params => some (p, 0x34, params)
  | .readNotices p params => some (p, 0x38, params)
  | .claimBlocks p params => some (p, 0x40, params)
  | .releaseBlocks p params => some (p, 0x41, params)
  | .blockStatus p params => some (p, 0x42, params)
  | .setCursor p params => some (p, 0x48, params)
  | .rewindCursor p params => some (p, 0x49, params)
  | .readData p params => some (p, 0x4A, params)
  | .writeData p params => some (p, 0x4B, params)
  | .badCommand p code params => some (p, code, params)
  | .readDataByte _ => none
  | .badCheck _ _ _ _ => none
  | .frameCutShort _ _ => none
  | .frameEnd _ _ => none
  | .prstFalling _ => none
  | .prstRising _ => none
  | .resetFalling => none
  | .resetRising => none
  | .tick => none
  | .deadlineExpiry _ => none
  | .overrun _ => none
  | .pulseEnd _ => none
  | .scrubCompletion => none
  | .selFalling _ => none
  | .powerBelowRange => none
  | .powerUp => none

/-- The MOSI bytes of a frame whose check byte verifies (R171, R172). -/
def frameBytes (i : Instr) : Option (List Byte) := i.request.map fun r => requestBytes r.2.1 r.2.2

/-- No row of the operation table has bits, so no word spells a command. -/
def decodeTableWord (_nbits _w : Nat) : Option Instr := none

end Sys2Proof
end

