-- ==== Sys2Proof/WellFormed.lean ====
section
/-! DEFINITION. Which commands can be an event of the part at all: a frame has at most 255 parameter bytes (R171), a
BAD_COMMAND's code is none of R190's, a BAD_CHECK's check byte does not verify, and a frame is cut short before its
check byte is complete (R173, R174). -/

namespace Sys2Proof

/-- The most edges of SCK that a frame which is cut short can have: the longest frame has 258 bytes (R171), and the
rising edge of its last bit completes it. -/
def longestCutShort : Nat := 2 * (8 * 258) - 2

/-- The check of one command's form. -/
def Instr.wf (i : Instr) : Bool :=
  match i with
  | .badCommand _ code params => decide (params.length ≤ 255) && !knownCode code
  | .badCheck _ code params check =>
    decide (params.length ≤ 255) && !(check == crc8 (code :: BitVec.ofNat 8 params.length :: params))
  | .frameCutShort _ edges => decide (edges.length ≤ longestCutShort)
  | .poll _ params => decide (params.length ≤ 255)
  | .portStatus _ params => decide (params.length ≤ 255)
  | .partStatus _ params => decide (params.length ≤ 255)
  | .lastReply _ params => decide (params.length ≤ 255)
  | .attach _ params => decide (params.length ≤ 255)
  | .detach _ params => decide (params.length ≤ 255)
  | .resetPeer _ params => decide (params.length ≤ 255)
  | .registerService _ params => decide (params.length ≤ 255)
  | .withdrawService _ params => decide (params.length ≤ 255)
  | .queryService _ params => decide (params.length ≤ 255)
  | .postCall _ params => decide (params.length ≤ 255)
  | .cancelCall _ params => decide (params.length ≤ 255)
  | .collectAnswer _ params => decide (params.length ≤ 255)
  | .callStatus _ params => decide (params.length ≤ 255)
  | .takeCall _ params => decide (params.length ≤ 255)
  | .answerCall _ params => decide (params.length ≤ 255)
  | .openNesting _ params => decide (params.length ≤ 255)
  | .closeNesting _ params => decide (params.length ≤ 255)
  | .stackStatus _ params => decide (params.length ≤ 255)
  | .readNotices _ params => decide (params.length ≤ 255)
  | .claimBlocks _ params => decide (params.length ≤ 255)
  | .releaseBlocks _ params => decide (params.length ≤ 255)
  | .blockStatus _ params => decide (params.length ≤ 255)
  | .setCursor _ params => decide (params.length ≤ 255)
  | .rewindCursor _ params => decide (params.length ≤ 255)
  | .readData _ params => decide (params.length ≤ 255)
  | .writeData _ params => decide (params.length ≤ 255)
  | .readDataByte _ => true
  | .frameEnd _ _ => true
  | .prstFalling _ => true
  | .prstRising _ => true
  | .resetFalling => true
  | .resetRising => true
  | .tick => true
  | .deadlineExpiry _ => true
  | .overrun _ => true
  | .pulseEnd _ => true
  | .scrubCompletion => true
  | .selFalling _ => true
  | .powerBelowRange => true
  | .powerUp => true

end Sys2Proof
end

