-- ==== Sys2Proof/Machine/State.lean ====
section
/-! DEFINITION. The state of the part, all of it plain data, and the state right after reset. Each block's records are
those of its own chapter's table; a field that the spec calls absent in some state is held by the constructor of the
states that have it. -/

namespace Sys2Proof.Machine

/-- A lease's mode (R1, R94). -/
inductive LeaseMode where
  | read
  | readWrite
deriving DecidableEq, Repr

/-- A span of blocks that a call carries, and its mode (R1). -/
structure Lease where
  first : Nat
  count : Nat
  mode : LeaseMode
deriving DecidableEq, Repr

/-- Why a call failed (R1). -/
inductive Failure where
  | expired
  | overrun
  | withdrawn
  | peerGone
deriving DecidableEq, Repr

/-- The state of an allocated slot with the fields that only that state has (R1). A countdown of 0 is one whose expiry or
overrun is due (R23, R26). -/
inductive CallState where
  | waiting (deadline : Option Nat)
  | inService (limit : Option Nat)
  | answered (result : Byte) (words : List Word)
  | failed (why : Failure)
deriving DecidableEq, Repr

/-- An allocated call slot (R1). -/
structure Call where
  caller : Port
  callee : Port
  service : Nat
  priority : Nat
  tag : Word
  args : List Word
  lease : Option Lease
  cancelAsked : Bool
  postOrder : Nat
  state : CallState
deriving DecidableEq, Repr

/-- An entry of the service directory (R33). -/
structure Service where
  id : Nat
  provider : Port
  concurrency : Nat
  limit : Option Nat
  leases : Bool
deriving DecidableEq, Repr

/-- The nesting flag NEST (R46). -/
inductive Nest where
  | closed
  | opened
deriving DecidableEq, Repr

/-- An entry of a service stack (R46). -/
structure StackEntry where
  slot : SlotNo
  service : Nat
  priority : Nat
  caller : Port
  tag : Word
  saved : Nest
  orphaned : Bool
deriving DecidableEq, Repr

/-- A notice (R75). A callee-side notice keeps the identity of the stack entry it was raised about (R65): the level on
which that entry stands, 0 for the bottom. DEDUCED: an entry never changes its level, and its notices leave with it. -/
inductive Notice where
  | answered (slot : SlotNo) (tag : Word)
  | failed (slot : SlotNo) (tag : Word) (why : Failure)
  | cancelAsked (level : Nat) (slot : SlotNo) (tag : Word)
  | overrun (level : Nat) (slot : SlotNo) (tag : Word)
  | callerGone (level : Nat) (slot : SlotNo) (tag : Word)
  | peerDetached (peer : Port)
deriving DecidableEq, Repr

/-- An entry of the block table (R94). -/
inductive Block where
  | free
  | scrub
  | owned (owner : Port)
  | pledged (owner : Port) (mode : LeaseMode) (slot : SlotNo)
  | lent (owner borrower : Port) (mode : LeaseMode) (slot : SlotNo)
deriving DecidableEq, Repr

/-- A cursor (R119). -/
structure Cursor where
  base : Word
  limit : Nat
  pointer : Nat
deriving DecidableEq, Repr

/-- The reply statuses (R193). -/
inductive Status where
  | ok | cancelled | asked | orphaned
  | badParam | offline | alreadyOnline | notOnline | notPermitted | noService | selfCall | quota | leaseRefused
  | notOwner | blockBusy | tableFull | notCaller | notDone | tooLate | alreadyAsked | stackFull | nestClosed
  | noneWaiting | notInService | notTop | directoryFull | duplicateService | notProvider | inUse | noRoom | access
  | accessLost | badCheck | badCommand | badLength | held | noReply
deriving DecidableEq, Repr

/-- The last-reply record, when it is not empty (R181). -/
structure LastReply where
  number : Nat
  code : Byte
  status : Status
  body : List Byte
deriving DecidableEq, Repr

/-- The options that Attach sets (R148). The consent set is kept in ascending order. -/
structure Options where
  quota : Nat
  wake : Bool
  consent : List Port
deriving DecidableEq, Repr

/-- The port state with the fields that only that state has (R148). A pulse of 0 is one whose end is due (R164). -/
inductive PortMode where
  | offline
  | online (options : Options)
  | held (pulse : Nat)
deriving DecidableEq, Repr

/-- A streamed read in progress (R123 to R128): the cursor, the bytes wanted, the data bytes begun, how many of them were
valid, whether one has failed its check, whether the byte on MISO is a valid byte whose eighth bit has not gone out yet,
whether the port has departed since the read was taken (R130), and the data bytes as they went out (R126). -/
structure Transfer where
  cursor : Fin 2
  wanted : Nat
  begun : Nat
  valid : Nat
  lost : Bool
  inFlight : Bool
  departed : Bool
  sent : List Byte
deriving DecidableEq, Repr

/-- A link port's frame assembler (R170), with the byte `shown` in the current byte position of MISO. A request holds the
bits received so far, in order; they count the bits of `shown` that have been shifted out, since the two travel together
(R169). In REPLY and TRAILER `shifted` counts them, 0 to 8. A reply's bytes yet to begin are `rest`, and after them come
the data bytes and the tail of a streamed read, when there is one. -/
inductive Assembler where
  | idle
  | request (shown : Byte) (received : List Bool)
  | reply (shown : Byte) (shifted : Nat) (rest : List Byte) (data : Option Transfer)
  | trailer (shown : Byte) (shifted : Nat)
deriving DecidableEq, Repr

/-- All that the part holds once per port, with the port's pins. `sel`, `sck` and `prst` are levels (true is high), and
`mosi` is MOSI's level at the last edge of SCK; `rsto` says that RSTO# is asserted. `staging` holds the staged bytes from the
first place of the buffer on (R131). -/
structure PortState where
  sel : Bool
  sck : Bool
  mosi : Bool
  prst : Bool
  rsto : Bool
  mode : PortMode
  asm : Assembler
  record : Option LastReply
  lastFrameBad : Bool
  stack : List StackEntry
  nest : Nest
  notices : List Notice
  cursors : Table Cursor 2
  staging : List Byte
deriving DecidableEq, Repr

/-- The block memory. `cells` lists written bytes by rising address; `unknown` lists the blocks whose bytes are unknown
since the last RESET#, and `epoch` is the number their free values are drawn with. An unlisted address reads as
`Memory.unlisted` of Machine/Ops.lean gives. -/
structure Memory where
  cells : List Host.Cell
  unknown : List Nat
  epoch : Nat
deriving DecidableEq, Repr

/-- The state of the part, and the queue of the commands that are waiting. -/
structure State where
  ports : Table PortState 4
  slots : Table (Option Call) 32
  posts : Nat
  directory : List Service
  blocks : Table Block 256
  mem : Memory
  scrubQueue : List BlockNo
  scrubBusy : Bool
  ready : Bool
  phase : Nat
  resetHigh : Bool
  powered : Bool
  freeCount : Nat
  pending : List Instr
deriving DecidableEq, Repr

/-- The part never stops: a command is refused with a reply (R177), a bad frame is discarded or answered BAD_CHECK (R174),
and every byte address exists (R92). So no meaning raises a fault; there is none. -/
inductive Fault where
deriving DecidableEq, Repr

/-- Why a command has no meaning in the model. -/
inductive Refusal where
  /-- The command's arm of `exec` is not written. Raised by no arm now. Safe: nothing is claimed of the command. -/
  | notModelled (mnemonic : String)
deriving DecidableEq, Repr

/-- A cursor's reset values (R137). -/
def Cursor.reset : Cursor := { base := 0, limit := 65536, pointer := 0 }

/-- What a port holds after RESET# (R166, R187), with its input pins as they are driven. -/
def PortState.reset (sel sck mosi prst : Bool) : PortState :=
  { sel := sel
    sck := sck
    mosi := mosi
    prst := prst
    rsto := false
    mode := .offline
    asm := .idle
    record := none
    lastFrameBad := false
    stack := []
    nest := .opened
    notices := []
    cursors := .replicate 2 .reset
    staging := [] }

/-- The block memory after RESET#: every byte unknown (R92, R118). -/
def Memory.reset (epoch : Nat) : Memory := { cells := [], unknown := List.range 256, epoch := epoch }

/-- The scrub queue's load at RESET#: 0 to 255 in ascending order (R144). -/
def initialScrubQueue : List BlockNo := (Table.replicate 256 ()).indices fun _ => true

/-- The part right after reset: RESET# has just risen, so the scrub engine is BUSY with block 0 (R139, R167). DESIGN
CHOICE: SEL# and PRST# of every port are high and MOSI is low, the timebase's phase is 0, and the free values are counted
from 1. SCK is low, as it rests between frames (R169). -/
def State.reset : State :=
  { ports := .replicate 4 (PortState.reset true false false true)
    slots := .replicate 32 none
    posts := 0
    directory := []
    blocks := .replicate 256 .scrub
    mem := .reset 0
    scrubQueue := initialScrubQueue
    scrubBusy := true
    ready := false
    phase := 0
    resetHigh := true
    powered := true
    freeCount := 1
    pending := [] }

end Sys2Proof.Machine
end

