-- ==== Sys2Proof/Machine/Operands.lean ====
section
/-! DEFINITION. The operand forms: how a request's parameter bytes are read (R171, R189, R190) and how every field of a
reply body, a notice record and a status byte is encoded (R189, R191 to R193). -/

namespace Sys2Proof.Machine

/-- The two bytes of a 16-bit field, most significant first (R189). -/
def wordBytes (w : Word) : List Byte := [w.extractLsb' 8 8, w.extractLsb' 0 8]

/-- A number of up to 255 as one byte (R189). -/
def byteOf (n : Nat) : Byte := BitVec.ofNat 8 n

/-- A number as a two-byte field, most significant byte first (R189). -/
def wordOf (n : Nat) : List Byte := wordBytes (BitVec.ofNat 16 n)

/-- The parameter byte at a position. -/
def paramByte (params : List Byte) (k : Nat) : Byte := params.getD k 0

/-- The parameter byte at a position, as a number. -/
def param (params : List Byte) (k : Nat) : Nat := (paramByte params k).toNat

/-- The two-byte parameter that begins at a position, most significant byte first (R171). -/
def paramWord (params : List Byte) (k : Nat) : Word := paramByte params k ++ paramByte params (k + 1)

/-- The bytes of some words, read two by two (R190). -/
def wordsOf : List Byte → List Word
  | hi :: lo :: rest => (hi ++ lo) :: wordsOf rest
  | _ => []

/-- The bytes that send some words (R189). -/
def bytesOfWords (ws : List Word) : List Byte := ws.flatMap wordBytes

/-- A yes/no or presence byte: 00h no, 01h yes, anything else out of range (R189). -/
def yesNo? (n : Nat) : Option Bool := if n = 0 then some false else if n = 1 then some true else none

/-- A lease mode byte: 00h READ, 01h READWRITE, anything else out of range (R189). -/
def leaseMode? (n : Nat) : Option LeaseMode := if n = 0 then some .read else if n = 1 then some .readWrite else none

/-- A port number byte (R189). -/
def port? (n : Nat) : Option Port := if h : n < 4 then some ⟨n, h⟩ else none

/-- A slot number byte (R189). -/
def slot? (n : Nat) : Option SlotNo := if h : n < 32 then some ⟨n, h⟩ else none

/-- A cursor number byte (R121). -/
def cursor? (n : Nat) : Option (Fin 2) := if h : n < 2 then some ⟨n, h⟩ else none

/-- A block number byte; it has no value out of range (R108). -/
def blockOfByte (b : Byte) : BlockNo := ⟨b.toNat, b.isLt⟩

/-- A tick count of 0 means none (R189). -/
def ticks? (n : Nat) : Option Nat := if n = 0 then none else some n

/-- The ports of a port-set byte, in ascending order (R189). -/
def portSet (b : Byte) : List Port := ([0, 1, 2, 3] : List Port).filter fun p => b.getLsbD p.val

/-- The port-set byte of some ports (R189). -/
def portSetByte (ps : List Port) : Byte :=
  BitVec.ofNat 8
    ((if ps.contains 0 then 1 else 0) + (if ps.contains 1 then 2 else 0) + (if ps.contains 2 then 4 else 0) +
      (if ps.contains 3 then 8 else 0))

/-- Attach's consent set is in range: bits 4 to 7 clear, and the attaching port's own bit clear (R153, R189). -/
def consentInRange (p : Port) (b : Byte) : Bool := decide (b.toNat < 16) && !(b.getLsbD p.val)

/-- A port as a byte (R189). -/
def portByte (p : Port) : Byte := byteOf p.val

/-- Yes/no as a byte (R189). -/
def yesNoByte (b : Bool) : Byte := if b then 0x01 else 0x00

/-- A lease or block mode as a byte (R189). -/
def modeByte : LeaseMode → Byte
  | .read => 0x00
  | .readWrite => 0x01

/-- NEST as a byte (R189). -/
def nestByte : Nest → Byte
  | .closed => 0x00
  | .opened => 0x01

/-- A port state as a byte (R189). -/
def portModeByte : PortMode → Byte
  | .offline => 0x00
  | .online _ => 0x01
  | .held _ => 0x02

/-- A slot state as a byte (R189). -/
def callStateByte : CallState → Byte
  | .waiting _ => 0x01
  | .inService _ => 0x02
  | .answered _ _ => 0x03
  | .failed _ => 0x04

/-- A failure reason as a byte; 00h is none (R189). -/
def failureByte : Failure → Byte
  | .expired => 0x01
  | .overrun => 0x02
  | .withdrawn => 0x03
  | .peerGone => 0x04

/-- A notice record of six bytes: kind, slot, tag, peer, reason, absent fields as 0 (R75, R189, chapter 10.3). -/
def noticeBytes : Notice → List Byte
  | .answered n tag => [0x01, byteOf n.val] ++ wordBytes tag ++ [0x00, 0x00]
  | .failed n tag why => [0x02, byteOf n.val] ++ wordBytes tag ++ [0x00, failureByte why]
  | .cancelAsked _ n tag => [0x03, byteOf n.val] ++ wordBytes tag ++ [0x00, 0x00]
  | .overrun _ n tag => [0x04, byteOf n.val] ++ wordBytes tag ++ [0x00, 0x00]
  | .callerGone _ n tag => [0x05, byteOf n.val] ++ wordBytes tag ++ [0x00, 0x00]
  | .peerDetached q => [0x06, 0x00, 0x00, 0x00, portByte q, 0x00]

/-- A Block Status body; absent fields are FFh (R108, R189, R192). -/
def blockBytes : Block → List Byte
  | .free => [0x00, 0xFF, 0xFF, 0xFF, 0xFF]
  | .scrub => [0x01, 0xFF, 0xFF, 0xFF, 0xFF]
  | .owned o => [0x02, portByte o, 0xFF, 0xFF, 0xFF]
  | .pledged o m n => [0x03, portByte o, 0xFF, modeByte m, byteOf n.val]
  | .lent o b m n => [0x04, portByte o, portByte b, modeByte m, byteOf n.val]

/-- The numeric value of each status (R193). -/
def Status.byte : Status → Byte
  | .ok => 0x00
  | .cancelled => 0x01
  | .asked => 0x02
  | .orphaned => 0x03
  | .badParam => 0x10
  | .offline => 0x11
  | .alreadyOnline => 0x12
  | .notOnline => 0x13
  | .notPermitted => 0x14
  | .noService => 0x15
  | .selfCall => 0x16
  | .quota => 0x17
  | .leaseRefused => 0x18
  | .notOwner => 0x19
  | .blockBusy => 0x1A
  | .tableFull => 0x1B
  | .notCaller => 0x1E
  | .notDone => 0x1F
  | .tooLate => 0x20
  | .alreadyAsked => 0x21
  | .stackFull => 0x22
  | .nestClosed => 0x23
  | .noneWaiting => 0x24
  | .notInService => 0x25
  | .notTop => 0x26
  | .directoryFull => 0x27
  | .duplicateService => 0x28
  | .notProvider => 0x29
  | .inUse => 0x2A
  | .noRoom => 0x2B
  | .access => 0x2C
  | .accessLost => 0x2F
  | .badCheck => 0x80
  | .badCommand => 0x81
  | .badLength => 0x82
  | .held => 0x83
  | .noReply => 0x84

/-- The tail of a streamed read: valid count, tail status (R126, R192). -/
def tailBytes (count : Nat) (lost : Bool) : List Byte :=
  wordOf count ++ [if lost then Status.accessLost.byte else Status.ok.byte]

/-- The lease bytes of a Take Call body: presence, first block, count, mode, all 00h without one (R192). -/
def leaseBytes : Option Lease → List Byte
  | none => [0x00, 0x00, 0x00, 0x00]
  | some l => [0x01, byteOf l.first, byteOf l.count, modeByte l.mode]

/-- A reply: its status and body; for a streamed read that begins, its body is the tail the record starts with, and the
read itself (R175). -/
structure Reply where
  status : Status
  body : List Byte
  stream : Option Transfer := none
deriving DecidableEq, Repr

end Sys2Proof.Machine
end

