-- ==== Sys2Proof/Machine/Ops.lean ====
section
/-! DEFINITION. The named operations over the records of the part: ports, block memory, block table, call slots, notice
queues, the scrub queue, the departure of a port, and the reset of the part. Meanings are written over these. -/

namespace Sys2Proof.Machine

/-! ### Ports and slots -/

/-- A port's records. -/
def State.port (s : State) (p : Port) : PortState := s.ports.get p

/-- A port's records changed. -/
def State.modPort (s : State) (p : Port) (f : PortState → PortState) : State :=
  { s with ports := s.ports.set p (f (s.ports.get p)) }

/-- A call slot: none when FREE. -/
def State.slot (s : State) (n : SlotNo) : Option Call := s.slots.get n

/-- A call slot replaced. -/
def State.setSlot (s : State) (n : SlotNo) (c : Option Call) : State := { s with slots := s.slots.set n c }

/-- A block's table entry. -/
def State.block (s : State) (b : BlockNo) : Block := s.blocks.get b

/-- The port is ONLINE. -/
def PortMode.isOnline : PortMode → Bool
  | .online _ => true
  | .offline => false
  | .held _ => false

/-- The port is HELD. -/
def PortMode.isHeld : PortMode → Bool
  | .held _ => true
  | .offline => false
  | .online _ => false

/-- The port is ONLINE (R148). -/
def State.online (s : State) (p : Port) : Bool := (s.port p).mode.isOnline

/-- Power and the reset inputs let the port's link act: power is on, RESET# and the port's PRST# are high (R152, R166). -/
def State.linkLive (s : State) (p : Port) : Bool := s.powered && s.resetHigh && (s.port p).prst

/-- The posting quota, 0 when not ONLINE (R148, R184). -/
def PortMode.quota : PortMode → Nat
  | .online o => o.quota
  | .offline => 0
  | .held _ => 0

/-- Wake-on-waiting was chosen, no when not ONLINE (R148). -/
def PortMode.wake : PortMode → Bool
  | .online o => o.wake
  | .offline => false
  | .held _ => false

/-- The consent set, empty when not ONLINE (R148). -/
def PortMode.consent : PortMode → List Port
  | .online o => o.consent
  | .offline => []
  | .held _ => []

/-! ### Notices -/

/-- A notice joins a port's queue at its tail (R74, R76). -/
def State.notify (s : State) (p : Port) (n : Notice) : State :=
  s.modPort p fun ps => { ps with notices := ps.notices ++ [n] }

/-- The notice is the ANSWERED or FAILED notice about a slot (R80). -/
def Notice.announces (n : SlotNo) : Notice → Bool
  | .answered m _ => m == n
  | .failed m _ _ => m == n
  | .cancelAsked _ _ _ => false
  | .overrun _ _ _ => false
  | .callerGone _ _ _ => false
  | .peerDetached _ => false

/-- The notice was raised about the stack entry at a level (R65, R81). -/
def Notice.raisedAbout (level : Nat) : Notice → Bool
  | .cancelAsked l _ _ => l == level
  | .overrun l _ _ => l == level
  | .callerGone l _ _ => l == level
  | .answered _ _ => false
  | .failed _ _ _ => false
  | .peerDetached _ => false

/-! ### Block memory -/

/-- The block that holds a byte address (R92). -/
def blockOf (a : Word) : BlockNo := ⟨a.toNat / 256, by have := a.isLt; omega⟩

/-- A byte looked for in a list of cells. -/
def lookupCell (a : Nat) : List Host.Cell → Option Byte
  | [] => none
  | c :: cs => if c.1 = a then some c.2 else lookupCell a cs

/-- A byte put into a list of cells in its place by rising address. -/
def insertCell (a : Nat) (v : Byte) : List Host.Cell → List Host.Cell
  | [] => [(a, v)]
  | c :: cs => if a < c.1 then (a, v) :: c :: cs else if a = c.1 then (a, v) :: cs else c :: insertCell a v cs

/-- What an unlisted address reads as: a free value in a block whose bytes are unknown since RESET#, else 00h, which a
scrub has left there (R92, R93). -/
def Memory.unlisted (m : Memory) (a : Nat) : Byte :=
  if m.unknown.contains (a / 256) then Config.freeByte m.epoch a else 0x00

/-- The byte at an address. -/
def Memory.read (m : Memory) (a : Word) : Byte := (lookupCell a.toNat m.cells).getD (m.unlisted a.toNat)

/-- One byte written; writing 00h into a block whose bytes are known removes the entry. -/
def Memory.write (m : Memory) (a : Word) (v : Byte) : Memory :=
  if v = 0x00 ∧ m.unknown.contains (a.toNat / 256) = false then
    { m with cells := m.cells.filter fun c => c.1 != a.toNat }
  else { m with cells := insertCell a.toNat v m.cells }

/-- Some bytes written, in order, each at its own address. -/
def Memory.writeAll (m : Memory) : List (Word × Byte) → Memory
  | [] => m
  | (a, v) :: rest => (m.write a v).writeAll rest

/-- All 256 bytes of a block set to 00h (R140). -/
def Memory.clearBlock (m : Memory) (b : BlockNo) : Memory :=
  { m with
    cells := m.cells.filter fun c => c.1 / 256 != b.val
    unknown := m.unknown.filter fun u => u != b.val }

/-- The canonical form: addresses strictly rising and below 65536, no byte 00h listed in a block whose bytes are known,
and the unknown blocks strictly rising and below 256. -/
abbrev Memory.wf (m : Memory) : Prop :=
  m.cells.Pairwise (fun c d => c.1 < d.1) ∧
  (∀ c ∈ m.cells, c.1 < 65536 ∧ (c.2 = 0x00 → m.unknown.contains (c.1 / 256) = true)) ∧
  m.unknown.Pairwise (· < ·) ∧ (∀ b ∈ m.unknown, b < 256)

/-! ### Block table -/

/-- The port may read a byte of the block (R97). -/
def Block.readableBy (p : Port) : Block → Bool
  | .free => false
  | .scrub => false
  | .owned o => o == p
  | .pledged o _ _ => o == p
  | .lent o b _ _ => o == p || b == p

/-- The port may write a byte of the block (R98). -/
def Block.writableBy (p : Port) : Block → Bool
  | .free => false
  | .scrub => false
  | .owned o => o == p
  | .pledged _ _ _ => false
  | .lent _ b m _ => b == p && m == .readWrite

/-- The block's owner, when it has one (R94). -/
def Block.owner : Block → Option Port
  | .free => none
  | .scrub => none
  | .owned o => some o
  | .pledged o _ _ => some o
  | .lent o _ _ _ => some o

/-- The block's borrower, when it has one (R94). -/
def Block.borrower : Block → Option Port
  | .free => none
  | .scrub => none
  | .owned _ => none
  | .pledged _ _ _ => none
  | .lent _ b _ _ => some b

/-- The block is FREE. -/
def Block.isFree : Block → Bool
  | .free => true
  | .scrub => false
  | .owned _ => false
  | .pledged _ _ _ => false
  | .lent _ _ _ _ => false

/-- The block is in SCRUB. -/
def Block.isScrub : Block → Bool
  | .scrub => true
  | .free => false
  | .owned _ => false
  | .pledged _ _ _ => false
  | .lent _ _ _ _ => false

/-- The block lies in the lease's span. -/
def Lease.covers (l : Lease) (b : BlockNo) : Bool := decide (l.first ≤ b.val) && decide (b.val < l.first + l.count)

/-- OWNED to PLEDGED at Post Call (R109). -/
def Block.pledge (l : Lease) (n : SlotNo) : Block → Block
  | .owned o => .pledged o l.mode n
  | .free => .free
  | .scrub => .scrub
  | .pledged o m k => .pledged o m k
  | .lent o b m k => .lent o b m k

/-- PLEDGED to LENT at Take Call (R110). -/
def Block.lend (callee : Port) : Block → Block
  | .pledged o m k => .lent o callee m k
  | .free => .free
  | .scrub => .scrub
  | .owned o => .owned o
  | .lent o b m k => .lent o b m k

/-- PLEDGED or LENT back to OWNED by the block's owner (R111, R112, R113). -/
def Block.giveBack : Block → Block
  | .pledged o _ _ => .owned o
  | .lent o _ _ _ => .owned o
  | .free => .free
  | .scrub => .scrub
  | .owned o => .owned o

/-- The blocks of a call's lease changed, all in one event (chapter 5.7). -/
def State.modLease (s : State) (l : Option Lease) (f : Block → Block) : State :=
  match l with
  | none => s
  | some l => { s with blocks := s.blocks.map fun b k => if l.covers b then f k else k }

/-! ### The scrub queue -/

/-- An IDLE engine starts on the head of a non-empty queue while RESET# is high (R139). -/
def State.startScrub (s : State) : State := 
  { s with scrubBusy := s.scrubBusy || (s.resetHigh && !s.scrubQueue.isEmpty) }

/-- Blocks given up join the queue's tail in the order given (R138, R141). -/
def State.appendScrub (s : State) (bs : List BlockNo) : State :=
  { s with scrubQueue := s.scrubQueue ++ bs }.startScrub

/-! ### Calls -/

/-- The call is PENDING. -/
def Call.isPending (c : Call) : Bool :=
  match c.state with
  | .waiting _ => true
  | .inService _ => false
  | .answered _ _ => false
  | .failed _ => false

/-- The call is IN_SERVICE. -/
def Call.isInService (c : Call) : Bool :=
  match c.state with
  | .inService _ => true
  | .waiting _ => false
  | .answered _ _ => false
  | .failed _ => false

/-- The number of FREE slots (R4). -/
def State.freeSlots (s : State) : Nat := s.slots.count fun c => c.isNone

/-- The lowest-numbered FREE slot (R2). -/
def State.lowestFree (s : State) : Option SlotNo := (s.slots.indices fun c => c.isNone).head?

/-- The number of allocated slots whose caller is the port (R4). -/
def State.allocatedCount (s : State) (p : Port) : Nat := s.slots.count fun c => c.any fun c => c.caller == p

/-- The number of IN_SERVICE slots of a service (R4). -/
def State.inServiceCount (s : State) (service : Nat) : Nat :=
  s.slots.count fun c => c.any fun c => c.isInService && c.service == service

/-- The number of PENDING slots of a service (R42). -/
def State.pendingCount (s : State) (service : Nat) : Nat :=
  s.slots.count fun c => c.any fun c => c.isPending && c.service == service

/-- A slot with its call. -/
abbrev NumberedCall := SlotNo × Call

/-- Higher priority first, then older post order (R5). -/
def comesBefore (x y : NumberedCall) : Bool :=
  decide (y.2.priority < x.2.priority) ||
    (decide (x.2.priority = y.2.priority) && decide (x.2.postOrder ≤ y.2.postOrder))

/-- A call put into a pending order in its sorted place. -/
def insertPending (x : NumberedCall) : List NumberedCall → List NumberedCall
  | [] => [x]
  | y :: ys => if comesBefore x y then x :: y :: ys else y :: insertPending x ys

/-- The slots whose calls satisfy a test, with their calls, by slot number. -/
def State.callsWhere (s : State) (t : Call → Bool) : List NumberedCall :=
  (s.slots.indices fun c => c.any t).filterMap fun n => (s.slot n).map fun c => (n, c)

/-- The pending order of a port: its PENDING calls as callee, by priority, then by post order (R5). -/
def State.pendingCalls (s : State) (q : Port) : List NumberedCall :=
  (s.callsWhere fun c => c.isPending && c.callee == q).foldr insertPending []

/-- The directory entry of a service (R33, R34). -/
def State.entry (s : State) (service : Nat) : Option Service := s.directory.find? fun e => e.id == service

/-- The in-service count of the service is below its concurrency limit: condition 6 of R50 (R43). -/
def State.underLimit (s : State) (service : Nat) : Bool :=
  (s.entry service).any fun e => decide (s.inServiceCount service < e.concurrency)

/-- The stack is empty, or the priority is strictly above its top entry's: condition 5 of R50. -/
def PortState.outranks (ps : PortState) (priority : Nat) : Bool :=
  match ps.stack.getLast? with
  | none => true
  | some e => decide (e.priority < priority)

/-- The port can take a call at all: conditions 1, 3 and 4 of R50. -/
def PortState.canTake (ps : PortState) : Bool :=
  ps.mode.isOnline && decide (ps.stack.length < Config.stackDepth) &&
    (ps.stack.isEmpty || decide (ps.nest = .opened))

/-- A call is eligible for the port: the six conditions of R50. -/
def State.eligibleCall (s : State) (q : Port) (c : Call) : Bool :=
  (s.port q).canTake && c.isPending && c.callee == q && (s.port q).outranks c.priority && s.underLimit c.service

/-- A slot is eligible for the port (R50). -/
def State.eligible (s : State) (q : Port) (n : SlotNo) : Bool := (s.slot n).any fun c => s.eligibleCall q c

/-- The level of the live stack entry of a port that refers to a slot (R48). -/
def liveLevel (n : SlotNo) (stack : List StackEntry) : Option Nat :=
  stack.findIdx? fun e => e.slot == n && !e.orphaned

/-- The live entry that refers to a slot becomes orphaned, wherever it stands (R68). -/
def orphanSlot (n : SlotNo) (stack : List StackEntry) : List StackEntry :=
  stack.map fun e => if e.slot == n && !e.orphaned then { e with orphaned := true } else e

/-- A PENDING or IN_SERVICE call fails: its slot becomes FAILED, its lease goes back to its owner, and a FAILED notice
joins the caller's queue (R24, R27, R29, R31, R112). A slot in another state is not touched. -/
def State.failCall (s : State) (n : SlotNo) (why : Failure) : State :=
  match s.slot n with
  | none => s
  | some c =>
    if c.isPending || c.isInService then
      ((s.setSlot n (some { c with state := .failed why })).modLease c.lease Block.giveBack).notify c.caller
        (.failed n c.tag why)
    else s

/-- Several calls fail, in the order given. -/
def State.failCalls (s : State) (why : Failure) : List SlotNo → State
  | [] => s
  | n :: ns => (s.failCall n why).failCalls why ns

/-! ### The departure of a port (R156) -/

/-- The calls a port is to serve, in the order R31 gives: its pending order, then its stack's live entries from the
bottom. -/
def State.servedSlots (s : State) (p : Port) : List SlotNo :=
  (s.pendingCalls p).map Prod.fst ++ ((s.port p).stack.filter fun e => !e.orphaned).map StackEntry.slot

/-- The CALLER_GONE notices for the live entries of a stack whose calls port `p` posted, bottom first; `level` is the
level of the list's head (R70, R90). -/
def callerGoneNotices (p : Port) : (level : Nat) → List StackEntry → List Notice
  | _, [] => []
  | level, e :: es =>
    if e.caller == p && !e.orphaned then .callerGone level e.slot e.tag :: callerGoneNotices p (level + 1) es
    else callerGoneNotices p (level + 1) es

/-- The live entries whose calls port `p` posted become orphaned (R70). -/
def orphanCaller (p : Port) (stack : List StackEntry) : List StackEntry :=
  stack.map fun e => if e.caller == p && !e.orphaned then { e with orphaned := true } else e

/-- Every allocated slot that `p` posted becomes FREE; live stack entries for them are orphaned, each with its
CALLER_GONE notice (R30, R70). -/
def State.freePosted (s : State) (p : Port) : State :=
  { s with
    slots := s.slots.map fun _ c => if c.any (fun c => c.caller == p) then none else c
    ports := s.ports.map fun _ ps =>
      { ps with
        stack := orphanCaller p ps.stack
        notices := ps.notices ++ callerGoneNotices p 0 ps.stack } }

/-- Every directory entry that `p` provides is removed (R44). -/
def State.removeProvider (s : State) (p : Port) : State :=
  { s with directory := s.directory.filter fun e => e.provider != p }

/-- A block at the departure of `p`: one that `p` owns passes to SCRUB, one that `p` borrows returns to its owner (R115,
R116). -/
def Block.afterDeparture (p : Port) (k : Block) : Block :=
  if k.owner = some p then .scrub else if k.borrower = some p then k.giveBack else k

/-- The blocks that `p` owns pass to SCRUB and join the scrub queue in ascending order; those it borrows return to their
owners with their contents (R115, R116, R141). A departure that appends nothing leaves the engine as it is (R146). -/
def State.surrenderBlocks (s : State) (p : Port) : State :=
  { s with blocks := s.blocks.map fun _ k => k.afterDeparture p }.appendScrub
    (s.blocks.indices fun k => k.owner == some p)

/-- A streamed read whose port has departed makes no further read and no further advance (R130, R157). -/
def Assembler.depart : Assembler → Assembler
  | .idle => .idle
  | .request b received => .request b received
  | .reply b k rest data => .reply b k rest (data.map fun t => { t with departed := true })
  | .trailer b k => .trailer b k

/-- What a departing port holds of its own is emptied; its frame in progress stands as R157 says. -/
def PortState.depart (next : PortMode) (ps : PortState) : PortState :=
  { ps with
    mode := next
    asm := ps.asm.depart
    record := none
    lastFrameBad := false
    stack := []
    nest := .opened
    notices := []
    cursors := .replicate 2 .reset
    staging := [] }

/-- A PEER_DETACHED notice naming `p` joins every other ONLINE port's queue that holds none (R79). -/
def State.announceDeparture (s : State) (p : Port) : State :=
  { s with
    ports := s.ports.map fun q ps =>
      if q ≠ p ∧ ps.mode.isOnline = true ∧ ps.notices.contains (.peerDetached p) = false then
        { ps with notices := ps.notices ++ [.peerDetached p] }
      else ps }

/-- The departure of `p`, which passes to the port state `next`: every owner of state tied to `p` applies its own rule,
and the notices join the survivors' queues in R90's order (R156). -/
def State.departure (s : State) (p : Port) (next : PortMode) : State :=
  ((((((s.failCalls .peerGone (s.servedSlots p)).freePosted p).removeProvider p).surrenderBlocks p).modPort p
    (PortState.depart next)).announceDeparture p)

/-! ### Cursors -/

/-- The byte address that a cursor designates, moved on by some bytes of its window (R119, R120). -/
def Cursor.addressAt (c : Cursor) (k : Nat) : Word := c.base + BitVec.ofNat 16 ((c.pointer + k) % c.limit)

/-- The byte address that a cursor designates: base plus pointer modulo 65536 (R119). -/
def Cursor.address (c : Cursor) : Word := c.base + BitVec.ofNat 16 c.pointer

/-- The pointer advanced by some bytes, modulo the limit (R120). -/
def Cursor.advance (c : Cursor) (k : Nat) : Cursor := { c with pointer := (c.pointer + k) % c.limit }

/-- One of a port's cursors. -/
def State.cursor (s : State) (p : Port) (k : Fin 2) : Cursor := (s.port p).cursors.get k

/-- One of a port's cursors changed. -/
def State.modCursor (s : State) (p : Port) (k : Fin 2) (f : Cursor → Cursor) : State :=
  s.modPort p fun ps => { ps with cursors := ps.cursors.set k (f (ps.cursors.get k)) }

/-- The port may read the byte at an address now (R97). -/
def State.mayRead (s : State) (p : Port) (a : Word) : Bool := (s.block (blockOf a)).readableBy p

/-- The port may write the byte at an address now (R98). -/
def State.mayWrite (s : State) (p : Port) (a : Word) : Bool := (s.block (blockOf a)).writableBy p

/-! ### The reset of the part (R166) -/

/-- Every block of the part at its reset value, RESET# low: what R166 lists. The pins that the board drives, the
timebase's phase (R195) and the queue of waiting commands are left as they are. -/
def State.resetPart (s : State) : State :=
  { s with
    ports := s.ports.map fun _ ps => PortState.reset ps.sel ps.sck ps.mosi ps.prst
    slots := .replicate 32 none
    posts := 0
    directory := []
    blocks := .replicate 256 .scrub
    mem := .reset s.freeCount
    scrubQueue := initialScrubQueue
    scrubBusy := false
    ready := false
    resetHigh := false
    freeCount := s.freeCount + 1 }

end Sys2Proof.Machine
end

