-- ==== Sys2Proof/Machine/Flags.lean ====
section
/-! DEFINITION. The indications and the outputs that the part computes from its state: the waiting condition (R86), the
attention output (R88), the summary byte (R179, R193), and what MISO carries (R169). -/

namespace Sys2Proof.Machine

/-- The port's waiting condition: it has an eligible call (R86). -/
def State.waiting (s : State) (p : Port) : Bool := s.slots.items.any fun c => c.any fun c => s.eligibleCall p c

/-- A bit of the summary byte when its indication is set. -/
def bitIf (b : Bool) (value : Nat) : Nat := if b then value else 0

/-- The port's summary byte: READY, LAST_FRAME_BAD, NEST_OPEN, SERVING, WAITING, NOTICE, HELD, ONLINE in bits 7 to 0
(R179, R193). -/
def State.summary (s : State) (p : Port) : Byte :=
  let ps := s.port p
  BitVec.ofNat 8
    (bitIf s.ready 128 + bitIf ps.lastFrameBad 64 + bitIf (decide (ps.nest = .opened)) 32 + bitIf (!ps.stack.isEmpty) 16 +
      bitIf (s.waiting p) 8 + bitIf (!ps.notices.isEmpty) 4 + bitIf ps.mode.isHeld 2 + bitIf ps.mode.isOnline 1)

/-- The port's ATTN# is asserted: the port is ONLINE, and its queue holds a notice or it chose wake-on-waiting and has an
eligible call (R88). With power, RESET# or the port's PRST# low it is released (R152, R166, R194). -/
def State.attn (s : State) (p : Port) : Bool :=
  s.linkLive p && s.online p && (!(s.port p).notices.isEmpty || ((s.port p).mode.wake && s.waiting p))

/-- The byte in the current byte position of MISO; none while no frame is open (R170). -/
def Assembler.shown : Assembler → Option Byte
  | .idle => none
  | .request b _ => some b
  | .reply b _ _ _ => some b
  | .trailer b _ => some b

/-- The level that an assembler drives on MISO: while SCK is low the next bit of the current byte, most significant first,
and while SCK is high the bit that its rising edge sampled, since MISO changes after the falling edge; none is
high-impedance (R169). -/
def Assembler.level (sck : Bool) : Assembler → Option Bool
  | .idle => none
  | .request b received => some (b.getMsbD (if sck then (received.length - 1) % 8 else received.length % 8))
  | .reply b k _ _ => some (b.getMsbD (if sck then k - 1 else k))
  | .trailer b k => some (b.getMsbD (if sck then k - 1 else k))

/-- The port's MISO: its level while a frame is open, else high-impedance (R169). -/
def State.miso (s : State) (p : Port) : Option Bool :=
  if s.linkLive p then (s.port p).asm.level (s.port p).sck else none

end Sys2Proof.Machine
end

