-- ==== Sys2Proof/Machine/Frames.lean ====
section
/-! DEFINITION. How a request frame is received and answered (R169 to R175, R180, R181). The meanings of the request commands
are written over these operations. -/

namespace Sys2Proof.Machine

/-! ### The request -/

/-- The assembler is in REQUEST, and the bits it has received are the beginning of a frame's bits, with some still to come
(R170, R171). -/
def Assembler.awaits (bits : List Bool) : Assembler → Bool
  | .request _ received => received.isPrefixOf bits && decide (received.length < bits.length)
  | .idle => false
  | .reply _ _ _ _ => false
  | .trailer _ _ => false

/-- The port's link is receiving the frame of these bytes: when the last of their bits has been sampled, the frame is
examined (R152, R170). -/
def State.receiving (s : State) (p : Port) (bytes : List Byte) : Bool :=
  s.linkLive p && (s.port p).asm.awaits (bitsOf bytes)

/-- The summary byte in the last byte position of a request: the one on MISO now when that position has begun, else the one
that its beginning will show (R178). -/
def State.lastShown (s : State) (p : Port) (bytes : List Byte) : Byte :=
  match (s.port p).asm with
  | .request shown received =>
    let left := (bitsOf bytes).length - received.length
    if left < 8 ∨ (left = 8 ∧ (s.port p).sck = false) then shown else s.summary p
  | .idle => s.summary p
  | .reply _ _ _ _ => s.summary p
  | .trailer _ _ => s.summary p

/-- The rest of a frame's bits arrive, up to the rising edge of SCK that samples the last one (R169, R173). -/
def State.receive (s : State) (p : Port) (bytes : List Byte) : State :=
  s.modPort p fun ps =>
    { ps with
      sck := true
      mosi := (bitsOf bytes).getLast?.getD false
      asm := .request (s.lastShown p bytes) (bitsOf bytes) }

/-! ### The answer -/

/-- The record number that follows: 1 from empty, 1 after 255 (R181). -/
def nextNumber : Option LastReply → Nat
  | none => 1
  | some r => if r.number = 255 then 1 else r.number + 1

/-- The port's last-reply record is replaced (R181). -/
def State.recordReply (s : State) (p : Port) (code : Byte) (r : Reply) : State :=
  s.modPort p fun ps =>
    { ps with record := some { number := nextNumber ps.record, code := code, status := r.status, body := r.body } }

/-- The bytes of a reply that are known when it begins: status, body and the reply check byte over both; of a streamed read
only the status (R175). -/
def Reply.bytes (r : Reply) : List Byte :=
  r.status.byte :: (if r.stream.isSome then [] else r.body ++ [crc8 (r.status.byte :: r.body)])

/-- The assembler passes from REQUEST to REPLY. The eighth bit of the summary byte `shown` has just been shifted out, and the
reply's first byte follows it (R169, R170, R175). -/
def State.startReply (s : State) (p : Port) (shown : Byte) (r : Reply) : State :=
  s.modPort p fun ps => { ps with asm := .reply shown 8 r.bytes r.stream }

/-- LAST_FRAME_BAD set or cleared (R180). -/
def State.setFrameBad (s : State) (p : Port) (bad : Bool) : State :=
  s.modPort p fun ps => { ps with lastFrameBad := bad }

/-- A reply of a status alone, the state unchanged. -/
def refuse (status : Status) (s : State) : State × Reply := (s, { status := status, body := [] })

/-- A refusal with a body, the state unchanged. -/
def refuseWith (status : Status) (body : List Byte) (s : State) : State × Reply :=
  (s, { status := status, body := body })

/-- A reply after an effect. -/
def reply (status : Status) (body : List Byte) (s : State) : State × Reply :=
  (s, { status := status, body := body })

/-- The command's own check that its port is ONLINE, else OFFLINE (R149, R150). -/
def whenOnline (p : Port) (act : State → State × Reply) (s : State) : State × Reply :=
  if s.online p then act s else refuse .offline s

/-- A frame whose check byte verifies is answered at the moment of that byte's last bit (R173): with HELD while the port is
HELD (R151); else it clears LAST_FRAME_BAD (R180), a length its command does not allow gives BAD_LENGTH, and otherwise the
command is taken and `act` is its effect and its reply. Its reply replaces the last-reply record but for the four status
commands (R181). A frame that the link is not receiving is not examined (R152, R170). -/
def State.answer (s : State) (p : Port) (code : Byte) (params : List Byte) (lengthOk : Bool)
    (act : State → State × Reply) : State :=
  if s.receiving p (requestBytes code params) then
    let shown := s.lastShown p (requestBytes code params)
    let t := s.receive p (requestBytes code params)
    if (s.port p).mode.isHeld then t.startReply p shown { status := .held, body := [] }
    else
      let r := if lengthOk then act (t.setFrameBad p false) else refuse .badLength (t.setFrameBad p false)
      (if isStatusCode code then r.1 else r.1.recordReply p code r.2).startReply p shown r.2
  else s

/-- The frame of one of R190's commands, whose allowed lengths are the table's. -/
def State.runCommand (s : State) (p : Port) (code : Byte) (params : List Byte) (act : State → State × Reply) : State :=
  s.answer p code params (lengthAllowed code params.length) act

end Sys2Proof.Machine
end

