-- ==== Sys2Proof/Machine/Blocks.lean ====
section
/-! DEFINITION. The block table's commands (chapter 5): CLAIM_BLOCKS, RELEASE_BLOCKS, BLOCK_STATUS, and the examination of
a span's blocks that Release Blocks and Post Call share. -/

namespace Sys2Proof.Machine

/-- The blocks of a span in ascending order. -/
def spanBlocks (first count : Nat) : List BlockNo :=
  (List.range count).filterMap fun i => if h : first + i < 256 then some ⟨first + i, h⟩ else none

/-- The first block of a span that is not OWNED by the port decides the refusal: BLOCK_BUSY when the port owns it but it is
PLEDGED or LENT, else NOT_OWNER (R10, R105). -/
def decidingBlock (s : State) (p : Port) : List BlockNo → Option (Status × BlockNo)
  | [] => none
  | b :: bs =>
    if s.block b = .owned p then decidingBlock s p bs
    else if (s.block b).owner = some p then some (.blockBusy, b)
    else some (.notOwner, b)

/-- The run of blocks from `b` on is all FREE and does not wrap past block 255 (R100). -/
def freeRun (s : State) (count b : Nat) : Bool :=
  decide (b + count ≤ 256) && (spanBlocks b count).all fun k => (s.block k).isFree

/-- The lowest run of consecutive FREE blocks of a length (R101). -/
def lowestRun (s : State) (count : Nat) : Option Nat := (List.range 256).find? (freeRun s count)

/-- The longest run of consecutive FREE blocks of a list, given the run that ends before it and the longest so far
(R102). -/
def longestRun : (current best : Nat) → List Block → Nat
  | _, best, [] => best
  | current, best, k :: ks =>
    if k.isFree then longestRun (current + 1) (max best (current + 1)) ks else longestRun 0 best ks

/-- The blocks of a span become OWNED by the port (R101). -/
def State.claim (s : State) (p : Port) (first count : Nat) : State :=
  { s with
    blocks := s.blocks.map fun b k => if first ≤ b.val ∧ b.val < first + count then .owned p else k }

/-- Claim Blocks's effect (R100 to R102). -/
def claimBlocks (p : Port) (count : Nat) (s : State) : State × Reply :=
  if count < 1 ∨ 64 < count then refuse .badParam s
  else
    whenOnline p
      (fun s =>
        match lowestRun s count with
        | some first => reply .ok [byteOf first] (s.claim p first count)
        | none =>
          refuseWith .noRoom ([byteOf (longestRun 0 0 s.blocks.items)] ++ wordOf (s.blocks.count Block.isScrub)) s)
      s

/-- CLAIM_BLOCKS (R100 to R102). -/
def execClaimBlocks (p : Port) (params : List Byte) (s : State) : Host.Outcome State Fault Refusal :=
  .next (s.runCommand p 0x40 params (claimBlocks p (param params 0)))

/-- The blocks of a span pass to SCRUB and join the scrub queue's tail in ascending order, as one event (R106, R141). -/
def State.release (s : State) (first count : Nat) : State :=
  { s with
    blocks := s.blocks.map fun b k => if first ≤ b.val ∧ b.val < first + count then .scrub else k }.appendScrub
    (spanBlocks first count)

/-- Release Blocks's effect (R104 to R106). -/
def releaseBlocks (p : Port) (first count : Nat) (s : State) : State × Reply :=
  if count < 1 ∨ 64 < count ∨ 255 < first + count - 1 then refuse .badParam s
  else
    whenOnline p
      (fun s =>
        match decidingBlock s p (spanBlocks first count) with
        | some (status, b) => refuseWith status [byteOf b.val] s
        | none => reply .ok [] (s.release first count))
      s

/-- RELEASE_BLOCKS (R104 to R106). -/
def execReleaseBlocks (p : Port) (params : List Byte) (s : State) : Host.Outcome State Fault Refusal :=
  .next (s.runCommand p 0x41 params (releaseBlocks p (param params 0) (param params 1)))

/-- Block Status's reply (R108). -/
def blockStatus (p : Port) (b : BlockNo) (s : State) : State × Reply :=
  whenOnline p (fun s => reply .ok (blockBytes (s.block b)) s) s

/-- BLOCK_STATUS (R108). -/
def execBlockStatus (p : Port) (params : List Byte) (s : State) : Host.Outcome State Fault Refusal :=
  .next (s.runCommand p 0x42 params (blockStatus p (blockOfByte (paramByte params 0))))

end Sys2Proof.Machine
end

