-- ==== Sys2Proof/Machine/Board.lean ====
section
/-! DEFINITION. The board's events for the whole part: RESET_FALLING, RESET_RISING (chapter 8), POWER_BELOW_RANGE, POWER_UP
(chapter 12). -/

namespace Sys2Proof.Machine

/-- RESET_FALLING: every block takes its reset value, every port is OFFLINE and every frame is abandoned (R166). Without
power only the pin changes. Without an edge nothing changes. -/
def execResetFalling (s : State) : Host.Outcome State Fault Refusal :=
  .next (if s.resetHigh then (if s.powered then s.resetPart else { s with resetHigh := false }) else s)

/-- RESET_RISING: the scrub engine starts on block 0, and the ports may receive frames from their next falling edge of
SEL# (R139, R144, R167). Without power only the pin changes. Without an edge nothing changes. -/
def execResetRising (s : State) : Host.Outcome State Fault Refusal :=
  .next
    (if s.resetHigh then s
    else if s.powered then { s with resetHigh := true }.startScrub
    else { s with resetHigh := true })

/-- POWER_BELOW_RANGE: every output is high-impedance and the part holds no state (R194). DESIGN CHOICE: while there is no
power the fields stand at their reset values, which nothing reads; the pins that the board drives stay. -/
def execPowerBelowRange (s : State) : Host.Outcome State Fault Refusal :=
  .next (if s.powered then { s.resetPart with powered := false, resetHigh := s.resetHigh } else s)

/-- POWER_UP: power returns with RESET# held low, and the part takes the state that RESET# gives; the timebase starts at
an unknown phase, a free value (R194, R195). -/
def execPowerUp (s : State) : Host.Outcome State Fault Refusal :=
  .next (if s.powered then s else { s.resetPart with powered := true, phase := Config.freePhase s.freeCount })

end Sys2Proof.Machine
end

