-- ==== Sys2Proof/Machine/Calls.lean ====
section
/-! DEFINITION. The call table's commands (chapter 1): POST_CALL, CANCEL_CALL, COLLECT_ANSWER, CALL_STATUS. -/

namespace Sys2Proof.Machine

/-! ### Post Call -/

/-- Post Call's parameters, when every field is in range (R8). -/
structure PostRequest where
  service : Nat
  priority : Nat
  tag : Word
  deadline : Option Nat
  lease : Option Lease
  args : List Word
deriving DecidableEq, Repr

/-- The lease fields of a Post Call: none in range but absent, or present with count, span and mode in range; the outer
none is a field out of range (R8). -/
def postLease? (params : List Byte) : Option (Option Lease) :=
  match yesNo? (param params 6) with
  | none => none
  | some false => some none
  | some true =>
    if param params 8 < 1 ∨ 16 < param params 8 ∨ 255 < param params 7 + param params 8 - 1 then none
    else (leaseMode? (param params 9)).map fun m => some { first := param params 7, count := param params 8, mode := m }

/-- Post Call's range check (R8). -/
def postRequest? (params : List Byte) : Option PostRequest :=
  if param params 0 < 1 ∨ 254 < param params 0 ∨ 7 < param params 1 ∨ 6 < param params 10 then none
  else
    (postLease? params).map fun lease =>
      { service := param params 0
        priority := param params 1
        tag := paramWord params 2
        deadline := ticks? (paramWord params 4).toNat
        lease := lease
        args := wordsOf (params.drop 11) }

/-- The block that decides a refusal of the lease, if any (R10). -/
def leaseRefusal (s : State) (p : Port) (lease : Option Lease) : Option (Status × BlockNo) :=
  match lease with
  | none => none
  | some l => decidingBlock s p (spanBlocks l.first l.count)

/-- The call that a post makes (R11). -/
def postedCall (p : Port) (r : PostRequest) (e : Service) (order : Nat) : Call :=
  { caller := p
    callee := e.provider
    service := r.service
    priority := r.priority
    tag := r.tag
    args := r.args
    lease := r.lease
    cancelAsked := false
    postOrder := order
    state := .waiting r.deadline }

/-- A post that passes all checks: the slot becomes PENDING, younger than every call in the table, and its lease's blocks
are PLEDGED (R3, R11, R109). -/
def State.post (s : State) (n : SlotNo) (c : Call) : State :=
  ({ s with posts := s.posts + 1 }.setSlot n (some c)).modLease c.lease
    (match c.lease with
     | some l => Block.pledge l n
     | none => id)

/-- Post Call's checks from the service on, and its effect (R9 to R11). -/
def postCallOnline (p : Port) (r : PostRequest) (s : State) : State × Reply :=
  match s.entry r.service with
  | none => refuse .noService s
  | some e =>
    if e.provider = p then refuse .selfCall s
    else if (s.port p).mode.quota ≤ s.allocatedCount p then refuse .quota s
    else if r.lease.isSome = true ∧ e.leases = false then refuse .leaseRefused s
    else
      match leaseRefusal s p r.lease with
      | some (status, b) => refuseWith status [byteOf b.val] s
      | none =>
        match s.lowestFree with
        | none => refuse .tableFull s
        | some n => reply .ok [byteOf n.val] (s.post n (postedCall p r e s.posts))

/-- Post Call's effect: length, ranges, port state, and the rest (R8 to R11). -/
def postCall (p : Port) (params : List Byte) (s : State) : State × Reply :=
  if params.length ≠ 11 + 2 * param params 10 then refuse .badLength s
  else
    match postRequest? params with
    | none => refuse .badParam s
    | some r => whenOnline p (postCallOnline p r) s

/-- POST_CALL (R8 to R11). -/
def execPostCall (p : Port) (params : List Byte) (s : State) : Host.Outcome State Fault Refusal :=
  .next (s.runCommand p 0x20 params (postCall p params))

/-! ### The commands that name a slot of the caller -/

/-- The checks that Cancel Call, Collect Answer and Call Status share: slot in range, port ONLINE, and the slot allocated
to this caller, else NOT_CALLER (R13, R18, R20). -/
def withOwnCall (p : Port) (n : Option SlotNo) (act : SlotNo → Call → State → State × Reply) (s : State) :
    State × Reply :=
  match n with
  | none => refuse .badParam s
  | some n =>
    whenOnline p
      (fun s =>
        match s.slot n with
        | none => refuse .notCaller s
        | some c => if c.caller = p then act n c s else refuse .notCaller s)
      s

/-- A cancel of a PENDING call: the slot is freed and its pledge released (R14, R112). -/
def State.cancelPending (s : State) (n : SlotNo) (c : Call) : State :=
  (s.setSlot n none).modLease c.lease Block.giveBack

/-- The first cancel of an IN_SERVICE call: cancel asked, and a CANCEL_ASKED notice to the callee about the entry that
refers to the slot (R15, R65). -/
def State.askCancel (s : State) (n : SlotNo) (c : Call) : State :=
  let s' := s.setSlot n (some { c with cancelAsked := true })
  match liveLevel n (s.port c.callee).stack with
  | some level => s'.notify c.callee (.cancelAsked level n c.tag)
  | none => s'

/-- Cancel Call's effect by the slot's state (R14 to R16). -/
def cancelCall (n : SlotNo) (c : Call) (s : State) : State × Reply :=
  match c.state with
  | .waiting _ => reply .cancelled [] (s.cancelPending n c)
  | .inService _ => if c.cancelAsked then refuse .alreadyAsked s else reply .asked [] (s.askCancel n c)
  | .answered _ _ => refuseWith .tooLate [callStateByte c.state] s
  | .failed _ => refuseWith .tooLate [callStateByte c.state] s

/-- CANCEL_CALL (R13 to R16). -/
def execCancelCall (p : Port) (params : List Byte) (s : State) : Host.Outcome State Fault Refusal :=
  .next (s.runCommand p 0x21 params (withOwnCall p (slot? (param params 0)) cancelCall))

/-- A collected slot is freed, and the notice that announced its outcome leaves the caller's queue (R19, R80). -/
def State.collect (s : State) (p : Port) (n : SlotNo) : State :=
  (s.setSlot n none).modPort p fun ps => { ps with notices := ps.notices.filter fun k => !k.announces n }

/-- The body of Collect Answer (R19, R191). -/
def outcomeBytes (c : Call) : List Byte :=
  match c.state with
  | .answered result words =>
    [callStateByte c.state] ++ wordBytes c.tag ++ [yesNoByte c.cancelAsked, 0x00, result, byteOf words.length] ++
      bytesOfWords words
  | .failed why => [callStateByte c.state] ++ wordBytes c.tag ++ [yesNoByte c.cancelAsked, failureByte why, 0x00, 0x00]
  | .waiting _ => []
  | .inService _ => []

/-- Collect Answer's effect (R18, R19). -/
def collectAnswer (p : Port) (n : SlotNo) (c : Call) (s : State) : State × Reply :=
  match c.state with
  | .answered _ _ => reply .ok (outcomeBytes c) (s.collect p n)
  | .failed _ => reply .ok (outcomeBytes c) (s.collect p n)
  | .waiting _ => refuse .notDone s
  | .inService _ => refuse .notDone s

/-- COLLECT_ANSWER (R18, R19). -/
def execCollectAnswer (p : Port) (params : List Byte) (s : State) : Host.Outcome State Fault Refusal :=
  .next (s.runCommand p 0x22 params (withOwnCall p (slot? (param params 0)) (collectAnswer p)))

/-- The failure reason byte of a call, 00h unless it is FAILED (R191). -/
def reasonByte (c : Call) : Byte :=
  match c.state with
  | .failed why => failureByte why
  | .waiting _ => 0x00
  | .inService _ => 0x00
  | .answered _ _ => 0x00

/-- The countdown kind and the ticks remaining: DEADLINE, LIMIT, or NONE with 0 (R20, R189). -/
def countdownBytes (c : Call) : List Byte :=
  match c.state with
  | .waiting (some d) => 0x01 :: wordOf d
  | .inService (some l) => 0x02 :: wordOf l
  | .waiting none => [0x00, 0x00, 0x00]
  | .inService none => [0x00, 0x00, 0x00]
  | .answered _ _ => [0x00, 0x00, 0x00]
  | .failed _ => [0x00, 0x00, 0x00]

/-- Call Status's reply (R20, R191). -/
def callStatus (_n : SlotNo) (c : Call) (s : State) : State × Reply :=
  reply .ok
    ([callStateByte c.state, portByte c.callee, byteOf c.service, byteOf c.priority] ++ wordBytes c.tag ++
      [yesNoByte c.cancelAsked, reasonByte c] ++ countdownBytes c)
    s

/-- CALL_STATUS (R20). -/
def execCallStatus (p : Port) (params : List Byte) (s : State) : Host.Outcome State Fault Refusal :=
  .next (s.runCommand p 0x23 params (withOwnCall p (slot? (param params 0)) callStatus))

end Sys2Proof.Machine
end

