-- ==== Sys2Proof/Machine/Cursors.lean ====
section
/-! DEFINITION. The cursor unit (chapter 6): SET_CURSOR, REWIND_CURSOR, READ_DATA, READ_DATA_BYTE, WRITE_DATA. -/

namespace Sys2Proof.Machine

/-! ### A streamed read byte by byte -/

/-- The tail kept in the last-reply record of a Read Data (R128). -/
def State.setTail (s : State) (p : Port) (count : Nat) (lost : Bool) : State :=
  s.modPort p fun ps => { ps with record := ps.record.map fun r => { r with body := tailBytes count lost } }

/-- The eighth bit of the byte on MISO has gone out: a valid byte advances its cursor by one and is counted in the record
(R127, R128); after a departure it does neither (R130). -/
def State.creditByte (s : State) (p : Port) (t : Transfer) : State :=
  if t.inFlight && !t.departed then (s.modCursor p t.cursor fun c => c.advance 1).setTail p t.valid t.lost else s

/-- The streamed read goes on from here with the first bit of a byte on MISO. -/
def State.streaming (s : State) (p : Port) (v : Byte) (t : Transfer) : State :=
  s.modPort p fun ps => { ps with asm := .reply v 0 [] (some t) }

/-- The next data byte begins to be shifted out: it is checked and read at this moment, or it is filler (R124, R125). -/
def State.beginDataByte (s : State) (p : Port) (t : Transfer) : State :=
  let a := (s.cursor p t.cursor).address
  if !t.lost && !t.departed && s.mayRead p a then
    let v := s.mem.read a
    s.streaming p v { t with begun := t.begun + 1, valid := t.valid + 1, inFlight := true, sent := t.sent ++ [v] }
  else
    (if t.departed then s else s.setTail p t.valid true).streaming p 0x00
      { t with begun := t.begun + 1, lost := true, inFlight := false, sent := t.sent ++ [0x00] }

/-- After the last data byte: the tail, and the reply check byte over status, data bytes and tail (R126, R175). -/
def State.beginTail (s : State) (p : Port) (t : Transfer) : State :=
  let tail := tailBytes t.valid t.lost
  s.modPort p fun ps =>
    { ps with
      asm := .reply (tail.getD 0 0) 0 (tail.drop 1 ++ [crc8 (Status.ok.byte :: (t.sent ++ tail))]) none }

/-- The streamed read in progress on the port, if any. -/
def Assembler.stream? : Assembler → Option Transfer
  | .reply _ _ _ data => data
  | .idle => none
  | .request _ _ => none
  | .trailer _ _ => none

/-- READ_DATA_BYTE: the link is clocked up to the falling edge of SCK at which the next data byte of the port's streamed read
begins (R124, R125, R169); the byte on MISO until then goes out whole. With none to come the event does not occur, and
nothing changes. -/
def execReadDataByte (p : Port) (s : State) : Host.Outcome State Fault Refusal :=
  .next
    (match (s.port p).asm.stream? with
     | some t =>
       if t.begun < t.wanted then
         ((s.creditByte p t).modPort p fun ps => { ps with sck := false }).beginDataByte p t
       else s
     | none => s)

/-! ### The commands -/

/-- Set Cursor's effect (R121). -/
def setCursor (p : Port) (k : Option (Fin 2)) (base : Word) (limit : Nat) (s : State) : State × Reply :=
  match k with
  | none => refuse .badParam s
  | some k =>
    whenOnline p
      (fun s =>
        reply .ok [] (s.modCursor p k fun _ => { base := base, limit := if limit = 0 then 65536 else limit, pointer := 0 }))
      s

/-- SET_CURSOR (R121). -/
def execSetCursor (p : Port) (params : List Byte) (s : State) : Host.Outcome State Fault Refusal :=
  .next (s.runCommand p 0x48 params
    (setCursor p (cursor? (param params 0)) (paramWord params 1) (paramWord params 3).toNat))

/-- Rewind Cursor's effect (R122). -/
def rewindCursor (p : Port) (k : Option (Fin 2)) (s : State) : State × Reply :=
  match k with
  | none => refuse .badParam s
  | some k =>
    whenOnline p
      (fun s => reply .ok (wordOf (s.cursor p k).pointer) (s.modCursor p k fun c => { c with pointer := 0 }))
      s

/-- REWIND_CURSOR (R122). -/
def execRewindCursor (p : Port) (params : List Byte) (s : State) : Host.Outcome State Fault Refusal :=
  .next (s.runCommand p 0x49 params (rewindCursor p (cursor? (param params 0))))

/-- Read Data's effect: the checks, and the start of the streamed reply (R123, R124). The record starts with the tail of a
read of which nothing has been shifted out yet (R128). -/
def readData (p : Port) (k : Option (Fin 2)) (wanted : Nat) (s : State) : State × Reply :=
  match k with
  | none => refuse .badParam s
  | some k =>
    if wanted < 1 ∨ 256 < wanted then refuse .badParam s
    else
      whenOnline p
        (fun s =>
          if s.mayRead p (s.cursor p k).address then
            (s,
              { status := .ok
                body := tailBytes 0 false
                stream := some
                  { cursor := k, wanted := wanted, begun := 0, valid := 0, lost := false, inFlight := false
                    departed := false, sent := [] } })
          else refuse .access s)
        s

/-- READ_DATA (R123). -/
def execReadData (p : Port) (params : List Byte) (s : State) : Host.Outcome State Fault Refusal :=
  .next (s.runCommand p 0x4A params (readData p (cursor? (param params 0)) (paramWord params 1).toNat))

/-- The target bytes of a write of `n` bytes from a cursor's pointer onward (R132). -/
def targets (c : Cursor) (n : Nat) : List Word := (List.range n).map c.addressAt

/-- The position and block of the first target byte that the port may not write, if any (R133). -/
def firstUnwritable (s : State) (p : Port) : (k : Nat) → List Word → Option (Nat × BlockNo)
  | _, [] => none
  | k, a :: as => if s.mayWrite p a then firstUnwritable s p (k + 1) as else some (k, blockOf a)

/-- The staged bytes are discarded (R135). -/
def State.discardStaged (s : State) (p : Port) : State := s.modPort p fun ps => { ps with staging := [] }

/-- The bytes of a write that is committed: memory and cursor together (R134). -/
def State.commit (s : State) (p : Port) (k : Fin 2) (data : List Byte) : State :=
  { s with mem := s.mem.writeAll ((targets (s.cursor p k) data.length).zip data) }.modCursor p k
    fun c => c.advance data.length

/-- Write Data's effect on the bytes staged for it (R132 to R135). -/
def writeData (p : Port) (k : Option (Fin 2)) (s : State) : State × Reply :=
  match k with
  | none => refuse .badParam (s.discardStaged p)
  | some k =>
    if s.online p then
      let data := (s.port p).staging
      match firstUnwritable s p 0 (targets (s.cursor p k) data.length) with
      | some (position, b) => refuseWith .access [byteOf position, byteOf b.val] (s.discardStaged p)
      | none => reply .ok [] (s.commit p k data)
    else refuse .offline (s.discardStaged p)

/-- The data bytes of a Write Data frame that had not arrived arrive with its row, so that all of them stand in the staging
buffer, from its first place, when its check byte verifies (R131). They are discarded where the frame is answered HELD or
BAD_LENGTH (R135, R137). -/
def State.stage (s : State) (p : Port) (params : List Byte) : State :=
  if s.receiving p (requestBytes 0x4B params) then
    s.modPort p fun ps =>
      { ps with staging := if !ps.mode.isHeld && lengthAllowed 0x4B params.length then params.drop 1 else [] }
  else s

/-- WRITE_DATA (R131 to R135). -/
def execWriteData (p : Port) (params : List Byte) (s : State) : Host.Outcome State Fault Refusal :=
  .next ((s.stage p params).runCommand p 0x4B params (writeData p (cursor? (param params 0))))

end Sys2Proof.Machine
end

