-- ==== Sys2Proof/Machine/Directory.lean ====
section
/-! DEFINITION. The service directory (chapter 2): REGISTER_SERVICE, WITHDRAW_SERVICE, QUERY_SERVICE. -/

namespace Sys2Proof.Machine

/-- A service id in range (R35, R39, R42). -/
def serviceInRange (id : Nat) : Bool := decide (1 ≤ id) && decide (id ≤ 254)

/-- Register Service's effect on an entry whose parameters are in range (R36, R37). -/
def registerEntry (p : Port) (e : Service) (s : State) : State × Reply :=
  match s.entry e.id with
  | some old => refuseWith .duplicateService [portByte old.provider] s
  | none =>
    if Config.directorySize ≤ s.directory.length then refuse .directoryFull s
    else reply .ok [] { s with directory := s.directory ++ [{ e with provider := p }] }

/-- Register Service's effect: ranges first, then the port and the directory (R35 to R37). -/
def registerService (p : Port) (params : List Byte) (s : State) : State × Reply :=
  match yesNo? (param params 4) with
  | none => refuse .badParam s
  | some leases =>
    if serviceInRange (param params 0) = false ∨ param params 1 < 1 ∨ 4 < param params 1 then refuse .badParam s
    else
      whenOnline p
        (registerEntry p
          { id := param params 0, provider := p, concurrency := param params 1
            limit := ticks? (paramWord params 2).toNat, leases := leases })
        s

/-- REGISTER_SERVICE (R35 to R37). -/
def execRegisterService (p : Port) (params : List Byte) (s : State) : Host.Outcome State Fault Refusal :=
  .next (s.runCommand p 0x10 params (registerService p params))

/-- The PENDING slots of a service of the port, in the pending order (R29). -/
def State.waitingOf (s : State) (p : Port) (service : Nat) : List SlotNo :=
  ((s.pendingCalls p).filter fun x => x.2.service == service).map Prod.fst

/-- A withdrawal: the entry is removed, and the service's PENDING slots fail WITHDRAWN in the pending order (R29, R40). -/
def State.withdraw (s : State) (p : Port) (service : Nat) : State :=
  { s with directory := s.directory.filter fun e => e.id != service }.failCalls .withdrawn (s.waitingOf p service)

/-- Withdraw Service's effect: its five checks in order, and the withdrawal (R39, R40). -/
def withdrawService (p : Port) (id : Nat) (s : State) : State × Reply :=
  if serviceInRange id = false then refuse .badParam s
  else
    whenOnline p
      (fun s =>
        match s.entry id with
        | none => refuse .noService s
        | some e =>
          if e.provider ≠ p then refuse .notProvider s
          else if s.inServiceCount id ≠ 0 then refuseWith .inUse [byteOf (s.inServiceCount id)] s
          else reply .ok [byteOf (s.waitingOf p id).length] (s.withdraw p id))
      s

/-- WITHDRAW_SERVICE (R39, R40). -/
def execWithdrawService (p : Port) (params : List Byte) (s : State) : Host.Outcome State Fault Refusal :=
  .next (s.runCommand p 0x11 params (withdrawService p (param params 0)))

/-- Query Service's reply (R42, R191). -/
def queryService (p : Port) (id : Nat) (s : State) : State × Reply :=
  if serviceInRange id = false then refuse .badParam s
  else
    whenOnline p
      (fun s =>
        match s.entry id with
        | none => refuse .noService s
        | some e =>
          reply .ok
            ([byteOf e.id, portByte e.provider, byteOf e.concurrency] ++ wordOf (e.limit.getD 0) ++
              [yesNoByte e.leases, byteOf (s.inServiceCount id), byteOf (s.pendingCount id)])
            s)
      s

/-- QUERY_SERVICE (R42). -/
def execQueryService (p : Port) (params : List Byte) (s : State) : Host.Outcome State Fault Refusal :=
  .next (s.runCommand p 0x12 params (queryService p (param params 0)))

end Sys2Proof.Machine
end

