-- ==== Sys2Proof/Machine/Lifecycle.lean ====
section
/-! DEFINITION. The port controller (chapter 8): ATTACH, DETACH, RESET_PEER, PRST_FALLING, PRST_RISING, PULSE_END. -/

namespace Sys2Proof.Machine

/-- Attach's effect: the form of its options, then OFFLINE, else ALREADY_ONLINE (R153, R154). -/
def attach (p : Port) (params : List Byte) (s : State) : State × Reply :=
  match yesNo? (param params 1) with
  | none => refuse .badParam s
  | some wake =>
    if param params 0 < 1 ∨ 16 < param params 0 ∨ consentInRange p (paramByte params 2) = false then refuse .badParam s
    else if s.online p then refuse .alreadyOnline s
    else
      reply .ok []
        (s.modPort p fun ps =>
          { ps with
            mode := .online { quota := param params 0, wake := wake, consent := portSet (paramByte params 2) } })

/-- ATTACH (R153, R154). -/
def execAttach (p : Port) (params : List Byte) (s : State) : Host.Outcome State Fault Refusal :=
  .next (s.runCommand p 0x08 params (attach p params))

/-- Detach's effect: the port departs and is OFFLINE; its own reply is recorded after the departure has emptied the record
(R158). -/
def detach (p : Port) (s : State) : State × Reply :=
  whenOnline p (fun s => reply .ok [] (s.departure p .offline)) s

/-- DETACH (R158). -/
def execDetach (p : Port) (params : List Byte) (s : State) : Host.Outcome State Fault Refusal :=
  .next (s.runCommand p 0x09 params (detach p))

/-- The target of a Reset Peer departs, becomes HELD with a pulse of 200 ticks, and its RSTO# is asserted (R162). -/
def State.resetTarget (s : State) (t : Port) : State :=
  (s.departure t (.held Config.pulseTicks)).modPort t fun ps => { ps with rsto := true }

/-- Reset Peer's effect: its five checks in order, and the reset of the target (R161, R162). -/
def resetPeer (p : Port) (target : Option Port) (s : State) : State × Reply :=
  match target with
  | none => refuse .badParam s
  | some t =>
    whenOnline p
      (fun s =>
        if t = p then refuse .badParam s
        else if s.online t = false then refuseWith .notOnline [portModeByte (s.port t).mode] s
        else if (s.port t).mode.consent.contains p = false then refuse .notPermitted s
        else reply .ok [] (s.resetTarget t))
      s

/-- RESET_PEER (R161, R162). -/
def execResetPeer (p : Port) (params : List Byte) (s : State) : Host.Outcome State Fault Refusal :=
  .next (s.runCommand p 0x0A params (resetPeer p (port? (param params 0))))

/-- PRST_FALLING: an ONLINE port departs and becomes OFFLINE; in every state the frame in progress is abandoned, MISO is
high-impedance, and the pin is low (R152, R157, R159). While RESET# or the power is low only the pin changes. Without an
edge nothing changes. -/
def execPrstFalling (p : Port) (s : State) : Host.Outcome State Fault Refusal :=
  .next
    (if (s.port p).prst then
      (if s.powered && s.resetHigh && s.online p then s.departure p .offline else s).modPort p fun ps =>
        { ps with prst := false, asm := .idle, staging := [] }
    else s)

/-- PRST_RISING: no change of port state; the pin is high, and the link receives from the next falling edge of SEL#
(R152, R160). -/
def execPrstRising (p : Port) (s : State) : Host.Outcome State Fault Refusal :=
  .next (s.modPort p fun ps => { ps with prst := true })

/-- PULSE_END: a HELD port whose pulse a tick has brought to 0 becomes OFFLINE and its RSTO# is released (R164). On any
other port the event does not occur, and nothing changes. -/
def execPulseEnd (p : Port) (s : State) : Host.Outcome State Fault Refusal :=
  .next
    (match (s.port p).mode with
     | .held 0 => s.modPort p fun ps => { ps with mode := .offline, rsto := false }
     | .held (_ + 1) => s
     | .offline => s
     | .online _ => s)

end Sys2Proof.Machine
end

