-- ==== Sys2Proof/Machine/Link.lean ====
section
/-! DEFINITION. The link port (chapter 9): the edges of SCK and SEL# (SEL_FALLING, FRAME_CUT_SHORT, FRAME_END), the four status
commands, BAD_COMMAND and BAD_CHECK. -/

namespace Sys2Proof.Machine

/-! ### The edges of SCK -/

/-- The eighth bit of a reply's byte has been shifted out (R169): a valid byte of a streamed read is counted (R127), and after
the reply check byte the assembler passes to TRAILER (R170). -/
def State.byteShifted (s : State) (p : Port) (shown : Byte) (rest : List Byte) (data : Option Transfer) : State :=
  match rest, data with
  | [], none => s.modPort p fun ps => { ps with asm := .trailer shown 8 }
  | b :: rest, none => s.modPort p fun ps => { ps with asm := .reply shown 8 (b :: rest) none }
  | rest, some t =>
    (s.creditByte p t).modPort p fun ps => { ps with asm := .reply shown 8 rest (some { t with inFlight := false }) }

/-- The staging buffer after one more bit of a request. With the eighth bit of a Write Data's k-th data byte that byte stands
in place k, the first in the first place, which ends what an earlier frame left (R131). When a departure has discarded the
bytes before it (R137) it is not placed (log 11). -/
def stagedAfter (received : List Bool) (level : Bool) (staging : List Byte) : List Byte :=
  let before := writeDataBytes (bytesOfBits received)
  match (writeDataBytes (bytesOfBits (received ++ [level]))).drop before.length with
  | b :: _ => if before.length ≤ staging.length then staging.take before.length ++ [b] else staging
  | [] => staging

/-- A rising edge of SCK: MOSI is sampled into a request, with its eighth bit a data byte of a Write Data is staged, and a bit
of MISO is shifted out (R131, R169). -/
def State.sckRise (s : State) (p : Port) (level : Bool) : State :=
  match (s.port p).asm with
  | .idle => s
  | .request b received =>
    s.modPort p fun ps =>
      { ps with asm := .request b (received ++ [level]), staging := stagedAfter received level ps.staging }
  | .reply b k rest data =>
    if k < 7 then s.modPort p fun ps => { ps with asm := .reply b (k + 1) rest data } else s.byteShifted p b rest data
  | .trailer b k => s.modPort p fun ps => { ps with asm := .trailer b (k + 1) }

/-- The next byte of a reply begins (R124, R175). -/
def State.nextReplyByte (s : State) (p : Port) (rest : List Byte) (data : Option Transfer) : State :=
  match rest, data with
  | b :: rest, data => s.modPort p fun ps => { ps with asm := .reply b 0 rest data }
  | [], some t => if t.begun < t.wanted then s.beginDataByte p t else s.beginTail p t
  | [], none => s

/-- A falling edge of SCK: MISO changes to the next bit, and after the eighth bit of a byte the next byte begins: the summary
byte as it stands now (R178), or the next byte of the reply (R169, R175). -/
def State.sckFall (s : State) (p : Port) : State :=
  match (s.port p).asm with
  | .idle => s
  | .request _ received =>
    if received ≠ [] ∧ received.length % 8 = 0 then
      s.modPort p fun ps => { ps with asm := .request (s.summary p) received }
    else s
  | .reply _ k rest data => if k = 8 then s.nextReplyByte p rest data else s
  | .trailer _ k => if k = 8 then s.modPort p fun ps => { ps with asm := .trailer (s.summary p) 0 } else s

/-- An edge of a port's SCK, with the level of its MOSI: the pins, and what the edge does in a frame that is open. With none
open neither is examined (R169). -/
def State.sckEdge (s : State) (p : Port) (level : Bool) : State :=
  let t := s.modPort p fun ps => { ps with sck := !ps.sck, mosi := level }
  if (s.port p).sck then t.sckFall p else t.sckRise p level

/-- Some edges of a port's SCK, in order. -/
def State.sckEdges (s : State) (p : Port) : List Bool → State
  | [] => s
  | level :: levels => (s.sckEdge p level).sckEdges p levels

/-! ### The status commands -/

/-- Poll's reply: the summary byte (R183). -/
def poll (p : Port) (s : State) : State × Reply := reply .ok [s.summary p] s

/-- POLL (R183). -/
def execPoll (p : Port) (params : List Byte) (s : State) : Host.Outcome State Fault Refusal :=
  .next (s.runCommand p 0x01 params (poll p))

/-- The record number of a last-reply record, 0 when it is empty (R184). -/
def recordNumber (r : Option LastReply) : Nat := (r.map LastReply.number).getD 0

/-- The body of Port Status (R184, R191). -/
def portStatusBody (p : Port) (s : State) : List Byte :=
  let ps := s.port p
  [portModeByte ps.mode, byteOf ps.mode.quota, yesNoByte ps.mode.wake, portSetByte ps.mode.consent, 0x00, 0x00,
    byteOf (s.allocatedCount p), byteOf (s.directory.countP fun e => e.provider == p), byteOf ps.stack.length,
    nestByte ps.nest, byteOf ps.notices.length] ++
  wordOf (s.blocks.count fun k => k.owner == some p) ++ wordOf (s.blocks.count fun k => k.borrower == some p) ++
  [byteOf (recordNumber ps.record), s.summary p]

/-- Port Status's reply (R184). -/
def portStatus (p : Port) (s : State) : State × Reply := reply .ok (portStatusBody p s) s

/-- PORT_STATUS (R184). -/
def execPortStatus (p : Port) (params : List Byte) (s : State) : Host.Outcome State Fault Refusal :=
  .next (s.runCommand p 0x02 params (portStatus p))

/-- The ports whose state satisfies a test, in ascending order (R149). -/
def State.portsIn (s : State) (t : PortMode → Bool) : List Port := s.ports.indices fun ps => t ps.mode

/-- The body of Part Status (R185, R191). -/
def partStatusBody (s : State) : List Byte :=
  wordBytes Config.partCode ++
  [Config.revision, portSetByte (s.portsIn PortMode.isOnline), portSetByte (s.portsIn PortMode.isHeld),
    byteOf s.freeSlots] ++
  wordOf (s.blocks.count Block.isFree) ++ wordOf s.scrubQueue.length ++ [byteOf s.directory.length]

/-- Part Status's reply (R185). -/
def partStatus (s : State) : State × Reply := reply .ok (partStatusBody s) s

/-- PART_STATUS (R185). -/
def execPartStatus (p : Port) (params : List Byte) (s : State) : Host.Outcome State Fault Refusal :=
  .next (s.runCommand p 0x03 params partStatus)

/-- Last Reply's reply: the record, or NO_REPLY (R182). -/
def lastReply (p : Port) (s : State) : State × Reply :=
  match (s.port p).record with
  | some r => reply .ok ([byteOf r.number, r.code, r.status.byte, byteOf r.body.length] ++ r.body) s
  | none => refuse .noReply s

/-- LAST_REPLY (R182). -/
def execLastReply (p : Port) (params : List Byte) (s : State) : Host.Outcome State Fault Refusal :=
  .next (s.runCommand p 0x04 params (lastReply p))

/-! ### Frames that are not one of the 27 commands -/

/-- BAD_COMMAND: an unknown code is answered BAD_COMMAND and recorded as received; a HELD port's frame is answered HELD
(R151, R173, R181). With a code of R190 the event does not occur, and nothing changes. -/
def execBadCommand (p : Port) (code : Byte) (params : List Byte) (s : State) : Host.Outcome State Fault Refusal :=
  .next (if knownCode code then s else s.answer p code params true (refuse .badCommand))

/-- LAST_FRAME_BAD is set, but not on a HELD port (R180). -/
def State.markFrameBad (s : State) (p : Port) : State :=
  if (s.port p).mode.isHeld then s else s.setFrameBad p true

/-- A Write Data's staged bytes are discarded with its frame (R131, R135). -/
def State.discardFrame (s : State) (p : Port) (code : Byte) : State :=
  if code = 0x4B then s.discardStaged p else s

/-- BAD_CHECK: nothing of the frame is used, LAST_FRAME_BAD is set, and the reply is BAD_CHECK (R174). With a check byte
that verifies the event does not occur, and nothing changes. -/
def execBadCheck (p : Port) (code : Byte) (params : List Byte) (check : Byte) (s : State) :
    Host.Outcome State Fault Refusal :=
  .next
    (if s.receiving p (requestHead code params ++ [check]) ∧ check ≠ crc8 (requestHead code params) then
      (((s.receive p (requestHead code params ++ [check])).markFrameBad p).discardFrame p code).startReply p
        (s.lastShown p (requestHead code params ++ [check])) { status := .badCheck, body := [] }
    else s)

/-! ### The edges of SEL# -/

/-- The assembler of a port becomes idle, MISO high-impedance (R170). -/
def State.closeFrame (s : State) (p : Port) : State := s.modPort p fun ps => { ps with asm := .idle }

/-- What the rise of SEL# ends, by the assembler's state (R170): a request is cut short and discarded (R174), a reply or a
trailer ends (R176). The bits of an incomplete byte are ignored (R169). -/
def State.endFrame (s : State) (p : Port) : State :=
  match (s.port p).asm with
  | .idle => s
  | .request _ received =>
    if s.linkLive p then ((s.markFrameBad p).discardFrame p ((bytesOfBits received).getD 0 0x00)).closeFrame p
    else s.closeFrame p
  | .reply _ _ _ _ => s.closeFrame p
  | .trailer _ _ => s.closeFrame p

/-- The frame in progress is not a request whose check byte is complete. -/
def Assembler.unfinished : Assembler → Bool
  | .request _ received => partialFrame (bytesOfBits received)
  | .idle => true
  | .reply _ _ _ _ => true
  | .trailer _ _ => true

/-- SEL# rises after some more edges of SCK: the pin's level, and the end of the frame that is open. Without an edge of SEL#,
or with edges of SCK that complete a request, the event does not occur, and nothing changes. -/
def State.selRise (s : State) (p : Port) (edges : List Bool) : State :=
  let t := s.sckEdges p edges
  if (s.port p).sel || !(t.port p).asm.unfinished then s
  else (t.endFrame p).modPort p fun ps => { ps with sel := true }

/-- FRAME_CUT_SHORT: SEL# rises before the check byte is complete; the frame is discarded (R174). -/
def execFrameCutShort (p : Port) (edges : List Bool) (s : State) : Host.Outcome State Fault Refusal :=
  .next (s.selRise p edges)

/-- FRAME_END: SEL# rises during or after a reply (R176). -/
def execFrameEnd (p : Port) (edges : List Bool) (s : State) : Host.Outcome State Fault Refusal :=
  .next (s.selRise p edges)

/-- SEL_FALLING: with power, RESET# and PRST# high a frame opens, SCK being at rest, and MISO carries the first bit of the
summary byte (R169, R170, R178); else only the pin's level changes. Without an edge nothing changes. -/
def execSelFalling (p : Port) (s : State) : Host.Outcome State Fault Refusal :=
  .next
    (if (s.port p).sel then
      (if s.linkLive p then
        s.modPort p fun ps => { ps with sel := false, sck := false, asm := .request (s.summary p) [] }
      else s.modPort p fun ps => { ps with sel := false })
    else s)

end Sys2Proof.Machine
end

