-- ==== Sys2Proof/Machine/Notices.lean ====
section
/-! DEFINITION. The notice queue's command (chapter 4): READ_NOTICES. -/

namespace Sys2Proof.Machine

/-- Read Notices's effect: the oldest notices, at most `n`, are returned and removed (R82, R83). -/
def readNotices (p : Port) (n : Nat) (s : State) : State × Reply :=
  if n < 1 ∨ 8 < n then refuse .badParam s
  else
    whenOnline p
      (fun s =>
        let taken := (s.port p).notices.take n
        let left := (s.port p).notices.drop n
        reply .ok ([byteOf taken.length, byteOf left.length] ++ taken.flatMap noticeBytes)
          (s.modPort p fun ps => { ps with notices := left }))
      s

/-- READ_NOTICES (R82, R83). -/
def execReadNotices (p : Port) (params : List Byte) (s : State) : Host.Outcome State Fault Refusal :=
  .next (s.runCommand p 0x38 params (readNotices p (param params 0)))

end Sys2Proof.Machine
end

