-- ==== Sys2Proof/Machine/Stacks.lean ====
section
/-! DEFINITION. The service stacks (chapter 3): TAKE_CALL, ANSWER_CALL, OPEN_NESTING, CLOSE_NESTING, STACK_STATUS. -/

namespace Sys2Proof.Machine

/-! ### Take Call -/

/-- The search of the pending order: the first call that does not outrank the top entry ends it, a call held back by its
service's concurrency limit is passed over, and the first call that passes both is chosen (R53). -/
def chooseCall (s : State) (p : Port) : List NumberedCall → Option NumberedCall
  | [] => none
  | x :: xs =>
    if (s.port p).outranks x.2.priority = false then none
    else if s.underLimit x.2.service then some x
    else chooseCall s p xs

/-- The service limit that a take copies into the slot (R21). -/
def State.limitOf (s : State) (service : Nat) : Option Nat := (s.entry service).bind Service.limit

/-- The entry that a take pushes (R54). -/
def takenEntry (n : SlotNo) (c : Call) (nest : Nest) : StackEntry :=
  { slot := n, service := c.service, priority := c.priority, caller := c.caller, tag := c.tag, saved := nest
    orphaned := false }

/-- A chosen call is put in service: the slot, its loan, the new top entry, NEST CLOSED (R21, R54, R110). -/
def State.take (s : State) (p : Port) (n : SlotNo) (c : Call) : State :=
  ((s.setSlot n (some { c with state := .inService (s.limitOf c.service) })).modLease c.lease (Block.lend c.callee)).modPort
    p fun ps => { ps with stack := ps.stack ++ [takenEntry n c ps.nest], nest := .closed }

/-- The body of a successful Take Call (R55, R192). -/
def takenBytes (s : State) (n : SlotNo) (c : Call) : List Byte :=
  [byteOf n.val, portByte c.caller, byteOf c.service, byteOf c.priority] ++ wordBytes c.tag ++ leaseBytes c.lease ++
    wordOf ((s.limitOf c.service).getD 0) ++ [byteOf c.args.length] ++ bytesOfWords c.args

/-- The slots of the pending order that are held back by concurrency alone (R56). -/
def State.heldBack (s : State) (p : Port) : Nat :=
  (s.pendingCalls p).countP fun x => (s.port p).outranks x.2.priority && !s.underLimit x.2.service

/-- Take Call's effect (R52 to R56). -/
def takeCall (p : Port) (s : State) : State × Reply :=
  whenOnline p
    (fun s =>
      if Config.stackDepth ≤ (s.port p).stack.length then refuse .stackFull s
      else if (s.port p).stack ≠ [] ∧ (s.port p).nest = .closed then refuse .nestClosed s
      else
        match chooseCall s p (s.pendingCalls p) with
        | some (n, c) => reply .ok (takenBytes s n c) (s.take p n c)
        | none => refuseWith .noneWaiting [byteOf (s.pendingCalls p).length, byteOf (s.heldBack p)] s)
    s

/-- TAKE_CALL (R52 to R56). -/
def execTakeCall (p : Port) (params : List Byte) (s : State) : Host.Outcome State Fault Refusal :=
  .next (s.runCommand p 0x30 params (takeCall p))

/-! ### Answer Call -/

/-- The pop of the top entry: NEST takes its saved value, and the notices raised about it leave the port's queue (R60,
R81). -/
def State.pop (s : State) (p : Port) (e : StackEntry) : State :=
  s.modPort p fun ps =>
    { ps with
      stack := ps.stack.dropLast
      nest := e.saved
      notices := ps.notices.filter fun k => !k.raisedAbout (ps.stack.length - 1) }

/-- An IN_SERVICE slot becomes ANSWERED: its loan ends and an ANSWERED notice joins the caller's queue (R22, R111). -/
def State.answerSlot (s : State) (n : SlotNo) (result : Byte) (words : List Word) : State :=
  match s.slot n with
  | none => s
  | some c =>
    if c.isInService then
      ((s.setSlot n (some { c with state := .answered result words })).modLease c.lease Block.giveBack).notify c.caller
        (.answered n c.tag)
    else s

/-- The answer of the top entry: a live one answers its call (R63), an orphaned one discards the answer (R64). -/
def answerTop (p : Port) (e : StackEntry) (result : Byte) (words : List Word) (s : State) : State × Reply :=
  if e.orphaned then reply .orphaned (wordBytes e.tag) (s.pop p e)
  else reply .ok [] ((s.answerSlot e.slot result words).pop p e)

/-- Answer Call's effect: length, ranges, port, stack and top entry (R61 to R64). -/
def answerCall (p : Port) (params : List Byte) (s : State) : State × Reply :=
  if params.length ≠ 3 + 2 * param params 2 then refuse .badLength s
  else if 31 < param params 0 ∨ 6 < param params 2 then refuse .badParam s
  else
    whenOnline p
      (fun s =>
        match (s.port p).stack.getLast? with
        | none => refuse .notInService s
        | some e =>
          if e.slot.val ≠ param params 0 then refuseWith .notTop [byteOf e.slot.val, yesNoByte e.orphaned] s
          else answerTop p e (paramByte params 1) (wordsOf (params.drop 3)) s)
      s

/-- ANSWER_CALL (R61 to R64). -/
def execAnswerCall (p : Port) (params : List Byte) (s : State) : Host.Outcome State Fault Refusal :=
  .next (s.runCommand p 0x31 params (answerCall p params))

/-! ### Nesting -/

/-- NEST set while the stack holds an entry, else NOT_IN_SERVICE (R58, R59). -/
def setNesting (p : Port) (nest : Nest) (s : State) : State × Reply :=
  whenOnline p
    (fun s =>
      if (s.port p).stack.isEmpty then refuse .notInService s
      else reply .ok [] (s.modPort p fun ps => { ps with nest := nest }))
    s

/-- OPEN_NESTING (R58). -/
def execOpenNesting (p : Port) (params : List Byte) (s : State) : Host.Outcome State Fault Refusal :=
  .next (s.runCommand p 0x32 params (setNesting p .opened))

/-- CLOSE_NESTING (R59). -/
def execCloseNesting (p : Port) (params : List Byte) (s : State) : Host.Outcome State Fault Refusal :=
  .next (s.runCommand p 0x33 params (setNesting p .closed))

/-! ### Stack Status -/

/-- The cancel-asked flag and the remaining service limit of a live entry's slot; no and 0 for an orphaned one (R67). -/
def liveBytes (s : State) (e : StackEntry) : List Byte :=
  if e.orphaned then [0x00, 0x00, 0x00]
  else
    match s.slot e.slot with
    | none => [0x00, 0x00, 0x00]
    | some c =>
      yesNoByte c.cancelAsked ::
        wordOf
          (match c.state with
           | .inService (some l) => l
           | .inService none => 0
           | .waiting _ => 0
           | .answered _ _ => 0
           | .failed _ => 0)

/-- A Stack Status entry group of ten bytes (R67, R192). -/
def entryBytes (s : State) (e : StackEntry) : List Byte :=
  [byteOf e.slot.val, byteOf e.service, byteOf e.priority, portByte e.caller] ++ wordBytes e.tag ++ [yesNoByte e.orphaned] ++
    liveBytes s e

/-- Stack Status's reply (R67, R192). -/
def stackStatus (p : Port) (s : State) : State × Reply :=
  whenOnline p
    (fun s =>
      reply .ok
        ([nestByte (s.port p).nest, byteOf (s.port p).stack.length] ++ (s.port p).stack.flatMap (entryBytes s) ++
          [byteOf (s.pendingCalls p).length])
        s)
    s

/-- STACK_STATUS (R67). -/
def execStackStatus (p : Port) (params : List Byte) (s : State) : Host.Outcome State Fault Refusal :=
  .next (s.runCommand p 0x34 params (stackStatus p))

end Sys2Proof.Machine
end

