-- ==== Sys2Proof/Machine/Timers.lean ====
section
/-! DEFINITION. The timed events: TICK (chapter 12), DEADLINE_EXPIRY and OVERRUN (chapter 1), SCRUB_COMPLETION (chapter 7). -/

namespace Sys2Proof.Machine

/-- A countdown lowered by one; one that is at 0 already is due and stays so. -/
def countDown (t : Option Nat) : Option Nat := t.map fun n => n - 1

/-- A slot at a tick: a PENDING slot's deadline and an IN_SERVICE slot's service limit are lowered by one (R23, R26). -/
def Call.tick (c : Call) : Call :=
  { c with
    state :=
      match c.state with
      | .waiting d => .waiting (countDown d)
      | .inService l => .inService (countDown l)
      | .answered r w => .answered r w
      | .failed why => .failed why }

/-- A port at a tick: a HELD port's pulse is lowered by one (R164). -/
def PortMode.tick : PortMode → PortMode
  | .held n => .held (n - 1)
  | .offline => .offline
  | .online o => .online o

/-- TICK: every countdown is lowered by one, and a new tick begins (R23, R26, R164, R195). Without power the timebase does
not run. -/
def execTick (s : State) : Host.Outcome State Fault Refusal :=
  .next
    (if s.powered then
      { s with
        slots := s.slots.map fun _ c => c.map Call.tick
        ports := s.ports.map fun _ ps => { ps with mode := ps.mode.tick }
        phase := 0 }
    else s)

/-- DEADLINE_EXPIRY: a PENDING slot whose deadline a tick has brought to 0 fails EXPIRED (R24). On any other slot the event
does not occur, and nothing changes. -/
def execDeadlineExpiry (n : SlotNo) (s : State) : Host.Outcome State Fault Refusal :=
  .next
    (match (s.slot n).map Call.state with
     | some (.waiting (some 0)) => s.failCall n .expired
     | some (.waiting (some (_ + 1))) => s
     | some (.waiting none) => s
     | some (.inService _) => s
     | some (.answered _ _) => s
     | some (.failed _) => s
     | none => s)

/-- An overrun's effect on the callee: the entry that refers to the slot becomes orphaned, and an OVERRUN notice about it
joins the queue (R27, R68). -/
def State.orphanOverrun (s : State) (q : Port) (n : SlotNo) (tag : Word) : State :=
  s.modPort q fun ps =>
    { ps with
      stack := orphanSlot n ps.stack
      notices :=
        match liveLevel n ps.stack with
        | some level => ps.notices ++ [.overrun level n tag]
        | none => ps.notices }

/-- OVERRUN: an IN_SERVICE slot whose service limit a tick has brought to 0 fails OVERRUN, its loan ends, and its entry is
orphaned in its place (R27, R68). On any other slot the event does not occur, and nothing changes. -/
def execOverrun (n : SlotNo) (s : State) : Host.Outcome State Fault Refusal :=
  .next
    (match s.slot n with
     | none => s
     | some c =>
       if c.state = .inService (some 0) then (s.orphanOverrun c.callee n c.tag).failCall n .overrun else s)

/-- SCRUB_COMPLETION: the block in progress holds 00h throughout, becomes FREE and leaves the queue; the engine starts on
the next, or becomes IDLE; the first completion that empties the queue since RESET# sets READY (R140, R145). While the
engine is IDLE the event does not occur, and nothing changes. -/
def execScrubCompletion (s : State) : Host.Outcome State Fault Refusal :=
  .next
    (match s.scrubQueue with
     | [] => s
     | b :: rest =>
       if s.scrubBusy then
         { s with
           mem := s.mem.clearBlock b
           blocks := s.blocks.set b .free
           scrubQueue := rest
           scrubBusy := !rest.isEmpty
           ready := s.ready || rest.isEmpty }
       else s)

end Sys2Proof.Machine
end

