-- ==== Sys2Proof/Machine/Dispatch.lean ====
section
/-! DEFINITION. Which meaning each command has: one arm per row of the operation table, and nothing else. -/

namespace Sys2Proof.Machine

/-- A command's effect on everything but the queue of waiting commands. -/
def exec (i : Instr) (s : State) : Host.Outcome State Fault Refusal :=
  match i with
  | .poll p params => Sys2Proof.Machine.execPoll p params s
  | .portStatus p params => Sys2Proof.Machine.execPortStatus p params s
  | .partStatus p params => Sys2Proof.Machine.execPartStatus p params s
  | .lastReply p params => Sys2Proof.Machine.execLastReply p params s
  | .attach p params => Sys2Proof.Machine.execAttach p params s
  | .detach p params => Sys2Proof.Machine.execDetach p params s
  | .resetPeer p params => Sys2Proof.Machine.execResetPeer p params s
  | .registerService p params => Sys2Proof.Machine.execRegisterService p params s
  | .withdrawService p params => Sys2Proof.Machine.execWithdrawService p params s
  | .queryService p params => Sys2Proof.Machine.execQueryService p params s
  | .postCall p params => Sys2Proof.Machine.execPostCall p params s
  | .cancelCall p params => Sys2Proof.Machine.execCancelCall p params s
  | .collectAnswer p params => Sys2Proof.Machine.execCollectAnswer p params s
  | .callStatus p params => Sys2Proof.Machine.execCallStatus p params s
  | .takeCall p params => Sys2Proof.Machine.execTakeCall p params s
  | .answerCall p params => Sys2Proof.Machine.execAnswerCall p params s
  | .openNesting p params => Sys2Proof.Machine.execOpenNesting p params s
  | .closeNesting p params => Sys2Proof.Machine.execCloseNesting p params s
  | .stackStatus p params => Sys2Proof.Machine.execStackStatus p params s
  | .readNotices p params => Sys2Proof.Machine.execReadNotices p params s
  | .claimBlocks p params => Sys2Proof.Machine.execClaimBlocks p params s
  | .releaseBlocks p params => Sys2Proof.Machine.execReleaseBlocks p params s
  | .blockStatus p params => Sys2Proof.Machine.execBlockStatus p params s
  | .setCursor p params => Sys2Proof.Machine.execSetCursor p params s
  | .rewindCursor p params => Sys2Proof.Machine.execRewindCursor p params s
  | .readData p params => Sys2Proof.Machine.execReadData p params s
  | .readDataByte p => Sys2Proof.Machine.execReadDataByte p s
  | .writeData p params => Sys2Proof.Machine.execWriteData p params s
  | .badCommand p code params => Sys2Proof.Machine.execBadCommand p code params s
  | .badCheck p code params check => Sys2Proof.Machine.execBadCheck p code params check s
  | .frameCutShort p edges => Sys2Proof.Machine.execFrameCutShort p edges s
  | .frameEnd p edges => Sys2Proof.Machine.execFrameEnd p edges s
  | .prstFalling p => Sys2Proof.Machine.execPrstFalling p s
  | .prstRising p => Sys2Proof.Machine.execPrstRising p s
  | .resetFalling => Sys2Proof.Machine.execResetFalling s
  | .resetRising => Sys2Proof.Machine.execResetRising s
  | .tick => Sys2Proof.Machine.execTick s
  | .deadlineExpiry n => Sys2Proof.Machine.execDeadlineExpiry n s
  | .overrun n => Sys2Proof.Machine.execOverrun n s
  | .pulseEnd p => Sys2Proof.Machine.execPulseEnd p s
  | .scrubCompletion => Sys2Proof.Machine.execScrubCompletion s
  | .selFalling p => Sys2Proof.Machine.execSelFalling p s
  | .powerBelowRange => Sys2Proof.Machine.execPowerBelowRange s
  | .powerUp => Sys2Proof.Machine.execPowerUp s

end Sys2Proof.Machine
end

