-- ==== Sys2Proof/Machine/Clock.lean ====
section
/-! DEFINITION. An edge of a link's SCK as an event of its own, and what the part does when no command waits. -/

namespace Sys2Proof.Machine

/-- The command of the frame that the next edge of SCK completes, if it completes one: the rising edge that samples the last
bit of its check byte (R169, R173, R174). -/
def State.completedBy (s : State) (p : Port) (level : Bool) : Option Instr :=
  match (s.port p).asm with
  | .request _ received => if (s.port p).sck then none else frameCommand p (bytesOfBits (received ++ [level]))
  | .idle => none
  | .reply _ _ _ _ => none
  | .trailer _ _ => none

/-- An edge of a port's SCK: the command of the frame that it completes, or the edge alone. -/
def State.clock (s : State) (p : Port) (level : Bool) : Host.Outcome State Fault Refusal :=
  match s.completedBy p level with
  | some c => exec c s
  | none => .next (s.sckEdge p level)

/-- What a step does when no command waits: SCK of one port, or of none, has an edge; free values say which and with what
level of MOSI (R169). DESIGN CHOICE (log 7): no row of the operation table is an edge of SCK. -/
def State.idle (s : State) : Host.Outcome State Fault Refusal :=
  match Config.clockedPort s.freeCount with
  | some p => { s with freeCount := s.freeCount + 1 }.clock p (Config.mosiLevel s.freeCount)
  | none => .next { s with freeCount := s.freeCount + 1 }

end Sys2Proof.Machine
end

