-- ==== Sys2Proof/Machine/Step.lean ====
section
/-! DEFINITION. One step of the part: the command at the front of the queue, or, when none waits, an edge of a link's clock. -/

namespace Sys2Proof.Machine

/-- One step. With a command waiting: its effect on the state with the queue's rest. With none: the links' clock runs on
(see `State.idle`). -/
def step (s : State) : Host.Outcome State Fault Refusal :=
  match s.pending with
  | c :: rest => exec c { s with pending := rest }
  | [] => s.idle

/-- `s` with the command that a word spells put at the front of its queue; no word spells one. -/
def State.withFetchWord (s : State) (nbits w : Nat) : State :=
  match decodeTableWord nbits w with
  | some c => { s with pending := c :: s.pending }
  | none => s

end Sys2Proof.Machine
end

