-- ==== Sys2Proof/Safety.lean ====
section
/-! DEFINITION. What holds of every state the part can be in: the laws that the spec states for the whole part, each over
one state. -/

namespace Sys2Proof.Safety

open Sys2Proof.Machine

/-- R47, R60: at most four entries, priorities strictly rising from the bottom, every saved NEST OPEN, and NEST OPEN on an
empty stack. -/
abbrev StackLaw (s : State) : Prop :=
  ∀ p : Port,
    (s.port p).stack.length ≤ 4 ∧ (s.port p).stack.Pairwise (fun e f => e.priority < f.priority) ∧
    (∀ e ∈ (s.port p).stack, e.saved = .opened) ∧ ((s.port p).stack = [] → (s.port p).nest = .opened)

/-- R119: every cursor's pointer is less than its limit, and no limit exceeds 65536. -/
abbrev CursorLaw (s : State) : Prop :=
  ∀ (p : Port) (k : Fin 2), (s.cursor p k).pointer < (s.cursor p k).limit ∧ (s.cursor p k).limit ≤ 65536

/-- R165: a port's RSTO# is asserted exactly while it is HELD. -/
abbrev PulseLaw (s : State) : Prop := ∀ p : Port, (s.port p).rsto = (s.port p).mode.isHeld

/-- R138, R139: the scrub queue holds each block at most once, and exactly the blocks in SCRUB; the engine is BUSY exactly
while the queue is non-empty with power on and RESET# high. -/
abbrev ScrubLaw (s : State) : Prop :=
  s.scrubQueue.Nodup ∧ (∀ b : BlockNo, b ∈ s.scrubQueue ↔ s.block b = .scrub) ∧
  s.scrubBusy = (s.powered && s.resetHigh && !s.scrubQueue.isEmpty)

/-- R93: every byte of a FREE block holds 00h. -/
def CleanLaw (s : State) : Prop := ∀ a : Word, s.block (blockOf a) = .free → s.mem.read a = 0x00

/-- R33, R44: at most 16 entries, no two with one service id, every field in range, every provider ONLINE. -/
abbrev DirectoryLaw (s : State) : Prop :=
  s.directory.length ≤ 16 ∧ (s.directory.map Service.id).Nodup ∧
  ∀ e ∈ s.directory,
    (1 ≤ e.id ∧ e.id ≤ 254) ∧ (1 ≤ e.concurrency ∧ e.concurrency ≤ 4) ∧ s.online e.provider = true

/-- R7: a port is the caller of no more slots than its posting quota, and of none while it is not ONLINE. -/
abbrev QuotaLaw (s : State) : Prop :=
  ∀ p : Port, (s.slots.count fun c => c.any fun c => c.caller == p) ≤ (s.port p).mode.quota

/-- R169, R170: a frame is open only with power on, RESET# and PRST# high and SEL# low. -/
abbrev FrameLaw (s : State) : Prop :=
  ∀ p : Port, (s.port p).asm ≠ .idle → s.linkLive p = true ∧ (s.port p).sel = false

/-- The bits of an open frame are as R169, R170 and R174 have them: a request's check byte is not complete; at most eight bits
of a byte on MISO have been shifted out, the eighth only at a rising edge of SCK, a data byte whose eighth bit has been
shifted out is no longer in flight (R127), and a reply whose current byte has gone out has more to come, since its check byte
passes the assembler to TRAILER (R170). -/
def lawfulBits (sck : Bool) : Assembler → Bool
  | .idle => true
  | .request _ received => partialFrame (bytesOfBits received)
  | .reply _ k rest data =>
    decide (k ≤ 8) && (decide (k < 8) || (sck && (data.all fun t => !t.inFlight) && (!rest.isEmpty || data.isSome)))
  | .trailer _ k => decide (k ≤ 8) && (decide (k < 8) || sck)

/-- R127, R169, R170, R174: the bits of every open frame are lawful. -/
abbrev LinkLaw (s : State) : Prop := ∀ p : Port, lawfulBits (s.port p).sck (s.port p).asm = true

/-- R131: the data bytes of a Write Data that have arrived stand in the staging buffer, in the order received, from the first
place of its 248. Data bytes past the places are not placed (log 11). -/
def lawfulStaging (staging : List Byte) : Assembler → Bool
  | .request _ received =>
    match bytesOfBits received with
    | code :: _ :: _ :: b :: data => code != 0x4B || staging == (b :: data).take 248
    | _ => true
  | .idle => true
  | .reply _ _ _ _ => true
  | .trailer _ _ => true

/-- R131: the staging buffer of an ONLINE port holds what has arrived of the Write Data in progress. -/
abbrev StagingLaw (s : State) : Prop :=
  ∀ p : Port, s.online p = true → lawfulStaging (s.port p).staging (s.port p).asm = true

/-- R151, R180: a HELD port's last-reply record is empty and its LAST_FRAME_BAD is clear. -/
abbrev HeldLaw (s : State) : Prop :=
  ∀ p : Port, (s.port p).mode.isHeld = true → (s.port p).record = none ∧ (s.port p).lastFrameBad = false

/-- R1, R3, R6, R7: caller and callee of a call differ, no two calls have one post order and each is older than the next
post's, a lease's span is in range, and the callee of a PENDING or IN_SERVICE call is ONLINE and provides its service. -/
abbrev CallLaw (s : State) : Prop :=
  (∀ n c, s.slot n = some c →
    c.caller ≠ c.callee ∧ c.postOrder < s.posts ∧
    (∀ l, c.lease = some l → (1 ≤ l.count ∧ l.count ≤ 16) ∧ l.first + l.count ≤ 256) ∧
    (c.isPending = true ∨ c.isInService = true →
      s.online c.callee = true ∧ ∃ e, s.entry c.service = some e ∧ e.provider = c.callee)) ∧
  ∀ n m c d, s.slot n = some c → s.slot m = some d → c.postOrder = d.postOrder → n = m

/-- R48: a live stack entry refers to an IN_SERVICE slot of that callee and has its call's fields; every IN_SERVICE slot has
such an entry on its callee's stack; no two live entries of a stack refer to one slot. -/
abbrev ServiceLaw (s : State) : Prop :=
  (∀ p : Port, ∀ e ∈ (s.port p).stack, e.orphaned = false →
    ∃ c, s.slot e.slot = some c ∧ c.isInService = true ∧ c.callee = p ∧ c.service = e.service ∧ c.priority = e.priority ∧
      c.caller = e.caller ∧ c.tag = e.tag) ∧
  (∀ n c, s.slot n = some c → c.isInService = true →
    ∃ e ∈ (s.port c.callee).stack, e.slot = n ∧ e.orphaned = false) ∧
  ∀ p : Port, (((s.port p).stack.filter fun e => !e.orphaned).map StackEntry.slot).Nodup

/-- R96: a block is PLEDGED exactly when it lies in the lease of a PENDING call and LENT exactly when it lies in the lease of
an IN_SERVICE call, with that call's caller, callee, mode and slot. -/
abbrev LeaseLaw (s : State) : Prop :=
  (∀ b o m n, s.block b = .pledged o m n ↔
    ∃ c l, s.slot n = some c ∧ c.isPending = true ∧ c.lease = some l ∧ l.covers b = true ∧ l.mode = m ∧ c.caller = o) ∧
  ∀ b o q m n, s.block b = .lent o q m n ↔
    ∃ c l, s.slot n = some c ∧ c.isInService = true ∧ c.lease = some l ∧ l.covers b = true ∧ l.mode = m ∧ c.caller = o ∧
      c.callee = q

/-- R43: for every directory entry, no more calls of its service are IN_SERVICE than its concurrency limit. -/
abbrev ConcurrencyLaw (s : State) : Prop :=
  ∀ e ∈ s.directory, (s.slots.count fun c => c.any fun c => c.isInService && c.service == e.id) ≤ e.concurrency

/-- R46, R74, R117: a port that is not ONLINE has an empty stack and an empty notice queue, owns no block and borrows none. -/
abbrev DepartedLaw (s : State) : Prop :=
  ∀ p : Port, s.online p = false →
    (s.port p).stack = [] ∧ (s.port p).notices = [] ∧
    ∀ b : BlockNo, (s.block b).owner ≠ some p ∧ (s.block b).borrower ≠ some p

/-- The laws that tie ports, calls, stacks, directory, blocks and scrub queue together (R6, R7, R33, R43, R47, R48, R96, R117,
R138). -/
def PartLaw (s : State) : Prop :=
  StackLaw s ∧ DirectoryLaw s ∧ QuotaLaw s ∧ CallLaw s ∧ ServiceLaw s ∧ LeaseLaw s ∧ ConcurrencyLaw s ∧ DepartedLaw s ∧
    ScrubLaw s

/-- R79: no queue holds two PEER_DETACHED notices naming one peer, and none names the port itself. -/
abbrev PeerNoticeLaw (s : State) : Prop :=
  ∀ p q : Port, (s.port p).notices.count (.peerDetached q) ≤ if p = q then 0 else 1

/-- The notice announces a call's outcome: ANSWERED or FAILED (R77). -/
def isOutcome : Notice → Bool
  | .answered _ _ => true
  | .failed _ _ _ => true
  | .cancelAsked _ _ _ => false
  | .overrun _ _ _ => false
  | .callerGone _ _ _ => false
  | .peerDetached _ => false

/-- The notice asks about the stack entry at a level: CANCEL_ASKED (R78). -/
def asksAbout (level : Nat) : Notice → Bool
  | .cancelAsked l _ _ => l == level
  | .answered _ _ => false
  | .failed _ _ _ => false
  | .overrun _ _ _ => false
  | .callerGone _ _ _ => false
  | .peerDetached _ => false

/-- The notice tells that the stack entry at a level was orphaned: OVERRUN or CALLER_GONE (R78). -/
def orphansAt (level : Nat) : Notice → Bool
  | .overrun l _ _ => l == level
  | .callerGone l _ _ => l == level
  | .answered _ _ => false
  | .failed _ _ _ => false
  | .cancelAsked _ _ _ => false
  | .peerDetached _ => false

/-- The notice was raised about some stack entry: CANCEL_ASKED, OVERRUN or CALLER_GONE (R78). -/
def isAboutEntry : Notice → Bool
  | .cancelAsked _ _ _ => true
  | .overrun _ _ _ => true
  | .callerGone _ _ _ => true
  | .answered _ _ => false
  | .failed _ _ _ => false
  | .peerDetached _ => false

/-- The notice names a departed peer (R79). -/
def isAboutPeer : Notice → Bool
  | .peerDetached _ => true
  | .answered _ _ => false
  | .failed _ _ _ => false
  | .cancelAsked _ _ _ => false
  | .overrun _ _ _ => false
  | .callerGone _ _ _ => false

/-- R77, R80: a queue holds at most one outcome notice about a slot, and that slot is ANSWERED or FAILED, was posted by the
queue's port, and has the notice's tag and reason. -/
def OutcomeNoticeLaw (s : State) : Prop :=
  ∀ p : Port,
    (∀ n, (s.port p).notices.countP (Notice.announces n) ≤ 1) ∧
    (∀ n tag, .answered n tag ∈ (s.port p).notices →
      ∃ c, s.slot n = some c ∧ c.caller = p ∧ c.tag = tag ∧ ∃ r ws, c.state = .answered r ws) ∧
    ∀ n tag why, .failed n tag why ∈ (s.port p).notices →
      ∃ c, s.slot n = some c ∧ c.caller = p ∧ c.tag = tag ∧ c.state = .failed why

/-- R75, R78, R81: a queue holds at most one CANCEL_ASKED and at most one of OVERRUN and CALLER_GONE about an entry of its port's
stack, each with that entry's recorded slot and tag; a CANCEL_ASKED is about an entry whose live call has cancel asked or
that has been orphaned since, and an OVERRUN or CALLER_GONE is about an orphaned one. -/
def EntryNoticeLaw (s : State) : Prop :=
  ∀ p : Port,
    (∀ level, (s.port p).notices.countP (asksAbout level) ≤ 1 ∧ (s.port p).notices.countP (orphansAt level) ≤ 1) ∧
    (∀ level n tag, .cancelAsked level n tag ∈ (s.port p).notices →
      ∃ e, (s.port p).stack[level]? = some e ∧ e.slot = n ∧ e.tag = tag ∧
        (e.orphaned = true ∨ ∃ c, s.slot n = some c ∧ c.cancelAsked = true)) ∧
    ∀ level n tag, .overrun level n tag ∈ (s.port p).notices ∨ .callerGone level n tag ∈ (s.port p).notices →
      ∃ e, (s.port p).stack[level]? = some e ∧ e.slot = n ∧ e.tag = tag ∧ e.orphaned = true

/-- The laws of the notices about calls (R75, R77, R78, R80, R81). -/
def NoticeLaw (s : State) : Prop := OutcomeNoticeLaw s ∧ EntryNoticeLaw s

/-- A call's countdown: the deadline of a PENDING call, the service limit of an IN_SERVICE one (R1). -/
def countdownOf : CallState → Option Nat
  | .waiting d => d
  | .inService l => l
  | .answered _ _ => none
  | .failed _ => none

/-- The result words of an ANSWERED call (R1). -/
def resultWords : CallState → List Word
  | .answered _ ws => ws
  | .waiting _ => []
  | .inService _ => []
  | .failed _ => []

/-- The ticks remaining on a HELD port's pulse (R148). -/
def pulseOf : PortMode → Nat
  | .held n => n
  | .offline => 0
  | .online _ => 0

/-- A call's fields are in range (R1). A countdown that is due is held as 0 (log 4). -/
abbrev CallInRange (c : Call) : Prop :=
  (1 ≤ c.service ∧ c.service ≤ 254) ∧ c.priority ≤ 7 ∧ c.args.length ≤ 6 ∧
  (∀ l ∈ c.lease, 1 ≤ l.count ∧ l.count ≤ 16 ∧ l.first + l.count ≤ 256) ∧
  (∀ k ∈ countdownOf c.state, k ≤ 65535) ∧ (resultWords c.state).length ≤ 6

/-- A directory entry's fields are in range (R33). -/
abbrev EntryInRange (e : Service) : Prop :=
  (1 ≤ e.id ∧ e.id ≤ 254) ∧ (1 ≤ e.concurrency ∧ e.concurrency ≤ 4) ∧ ∀ l ∈ e.limit, 1 ≤ l ∧ l ≤ 65535

/-- A port's fields are in range: quota, consent set and pulse (R148), last-reply record (R181, R191), stack (R46) and staging
buffer (R131). A pulse that is due is held as 0 (log 4). -/
abbrev PortInRange (p : Port) (ps : PortState) : Prop :=
  (ps.mode.isOnline = true → 1 ≤ ps.mode.quota) ∧ ps.mode.quota ≤ 16 ∧ p ∉ ps.mode.consent ∧ ps.mode.consent.Nodup ∧
  pulseOf ps.mode ≤ 200 ∧ (∀ r ∈ ps.record, (1 ≤ r.number ∧ r.number ≤ 255) ∧ r.body.length ≤ 50) ∧
  ps.stack.length ≤ 4 ∧ (∀ e ∈ ps.stack, (1 ≤ e.service ∧ e.service ≤ 254) ∧ e.priority ≤ 7) ∧
  ps.staging.length ≤ 248

/-- Every field of the call table, the directory and the ports is in the range its rule gives (R1, R33, R46, R131, R148, R181,
R191). -/
abbrev FieldLaw (s : State) : Prop :=
  (∀ n, ∀ c ∈ s.slot n, CallInRange c) ∧ (∀ e ∈ s.directory, EntryInRange e) ∧ ∀ p, PortInRange p (s.port p)

end Sys2Proof.Safety
end

