-- ==== Sys2Proof/Certificates/Slice0/Obligations.lean ====
section
/-! DEFINITION. The statements. Each says, for every state and every operand that meets its hypotheses, what a command
answers, as an equation between states where it can: the equation is the result, the completion and the frame at once. -/

namespace Sys2Proof.Statement

open Sys2Proof.Machine

/-! ### The formats of chapter 10, written out from the spec -/

/-- The value of each reply status (R193). -/
def statusValue : Status → Byte
  | .ok => 0x00 | .cancelled => 0x01 | .asked => 0x02 | .orphaned => 0x03
  | .badParam => 0x10 | .offline => 0x11 | .alreadyOnline => 0x12 | .notOnline => 0x13 | .notPermitted => 0x14
  | .noService => 0x15 | .selfCall => 0x16 | .quota => 0x17 | .leaseRefused => 0x18 | .notOwner => 0x19
  | .blockBusy => 0x1A | .tableFull => 0x1B | .notCaller => 0x1E | .notDone => 0x1F
  | .tooLate => 0x20 | .alreadyAsked => 0x21 | .stackFull => 0x22 | .nestClosed => 0x23 | .noneWaiting => 0x24
  | .notInService => 0x25 | .notTop => 0x26 | .directoryFull => 0x27 | .duplicateService => 0x28
  | .notProvider => 0x29 | .inUse => 0x2A | .noRoom => 0x2B | .access => 0x2C | .accessLost => 0x2F
  | .badCheck => 0x80 | .badCommand => 0x81 | .badLength => 0x82 | .held => 0x83 | .noReply => 0x84

/-- One shift of the check register: toward its most significant bit, with 07h combined where a 1 is shifted out (R172). -/
def checkShift (r : Byte) : Byte := if r.getLsbD 7 then r <<< 1 ^^^ 0x07 else r <<< 1

/-- The check value of some bytes: the register starts at FFh, and each byte is combined into it and followed by eight
shifts (R172). -/
def checkValue (bytes : List Byte) : Byte := bytes.foldl (fun r b => Nat.repeat checkShift 8 (r ^^^ b)) 0xFF

/-- A call's state in a reply: PENDING, IN_SERVICE, ANSWERED, FAILED (R189). -/
def stateValue : CallState → Byte
  | .waiting _ => 0x01
  | .inService _ => 0x02
  | .answered _ _ => 0x03
  | .failed _ => 0x04

/-- A failure reason (R189). -/
def reasonValue : Failure → Byte
  | .expired => 0x01
  | .overrun => 0x02
  | .withdrawn => 0x03
  | .peerGone => 0x04

/-- A lease's or block's mode (R189). -/
def modeValue : LeaseMode → Byte
  | .read => 0x00
  | .readWrite => 0x01

/-- The high byte of a word, which is sent first (R189). -/
def high (w : Word) : Byte := w.extractLsb' 8 8

/-- The low byte of a word. -/
def low (w : Word) : Byte := w.extractLsb' 0 8

/-- The six bytes of a notice record: kind, slot, tag, peer, reason, an absent field as 0 (R75, R189, 10.3). -/
def noticeRecord : Notice → List Byte
  | .answered n tag => [0x01, byteOf n.val, high tag, low tag, 0x00, 0x00]
  | .failed n tag why => [0x02, byteOf n.val, high tag, low tag, 0x00, reasonValue why]
  | .cancelAsked _ n tag => [0x03, byteOf n.val, high tag, low tag, 0x00, 0x00]
  | .overrun _ n tag => [0x04, byteOf n.val, high tag, low tag, 0x00, 0x00]
  | .callerGone _ n tag => [0x05, byteOf n.val, high tag, low tag, 0x00, 0x00]
  | .peerDetached q => [0x06, 0x00, 0x00, 0x00, byteOf q.val, 0x00]

/-- The tail of a streamed read: the valid count, and 2Fh when a byte was lost (R126, R192). -/
def readTail (valid : Nat) (lost : Bool) : List Byte :=
  [high (BitVec.ofNat 16 valid), low (BitVec.ofNat 16 valid), if lost then 0x2F else 0x00]

/-- The request table: a command, its code, and the shortest and longest parameter length it allows (R190). -/
def requestTable : List ((Port → List Byte → Instr) × Byte × Nat × Nat) :=
  [(.poll, 0x01, 0, 0), (.portStatus, 0x02, 0, 0), (.partStatus, 0x03, 0, 0), (.lastReply, 0x04, 0, 0),
   (.attach, 0x08, 3, 3), (.detach, 0x09, 0, 0), (.resetPeer, 0x0A, 1, 1),
   (.registerService, 0x10, 5, 5), (.withdrawService, 0x11, 1, 1), (.queryService, 0x12, 1, 1),
   (.postCall, 0x20, 11, 255), (.cancelCall, 0x21, 1, 1), (.collectAnswer, 0x22, 1, 1), (.callStatus, 0x23, 1, 1),
   (.takeCall, 0x30, 0, 0), (.answerCall, 0x31, 3, 255), (.openNesting, 0x32, 0, 0), (.closeNesting, 0x33, 0, 0),
   (.stackStatus, 0x34, 0, 0), (.readNotices, 0x38, 1, 1),
   (.claimBlocks, 0x40, 1, 1), (.releaseBlocks, 0x41, 2, 2), (.blockStatus, 0x42, 1, 1),
   (.setCursor, 0x48, 5, 5), (.rewindCursor, 0x49, 1, 1), (.readData, 0x4A, 3, 3), (.writeData, 0x4B, 2, 249)]

/-! ### A request on the link -/

/-- The bits of some bytes on MOSI, in the order sent: most significant first (R169). -/
def sent (bytes : List Byte) : List Bool :=
  bytes.flatMap fun b =>
    [b.getLsbD 7, b.getLsbD 6, b.getLsbD 5, b.getLsbD 4, b.getLsbD 3, b.getLsbD 2, b.getLsbD 1, b.getLsbD 0]

/-- A request's bytes before its check byte: command code, length byte, parameters (R171). -/
def head (code : Byte) (params : List Byte) : List Byte := code :: BitVec.ofNat 8 params.length :: params

/-- A request's bytes with a check byte that verifies (R171, R172; where it stands when L is 0 is log 28). -/
def frame (code : Byte) (params : List Byte) : List Byte := head code params ++ [checkValue (head code params)]

/-- What a link port holds at the rising edge of SCK that samples the last bit of a request: the byte in the current byte
position of MISO, and the bits of the request. -/
structure Request where
  shown : Byte
  bits : List Bool
deriving DecidableEq, Repr

/-- The port's link is receiving the request of these bytes: power on, RESET# and PRST# high, the assembler in REQUEST with the
beginning of the request's bits received (R152, R170); and `req` is the link as the last of the bits is sampled. The byte on
MISO is then the summary byte of the last byte position, the one on MISO already when that position has begun, else the
summary byte as it stands (R169, R178). -/
def Receives (s : State) (p : Port) (bytes : List Byte) (req : Request) : Prop :=
  s.powered = true ∧ s.resetHigh = true ∧ (s.port p).prst = true ∧
  ∃ shown received rest,
    (s.port p).asm = .request shown received ∧ sent bytes = received ++ rest ∧ rest ≠ [] ∧
    req =
      { shown := if rest.length < 8 ∨ (rest.length = 8 ∧ (s.port p).sck = false) then shown else s.summary p
        bits := sent bytes }

/-- The port is ONLINE. -/
abbrev IsOnline (s : State) (p : Port) : Prop := ∃ o, (s.port p).mode = .online o

/-- A request of an ONLINE port that verifies when its last bit is sampled is taken. -/
abbrev TakenOnline (s : State) (p : Port) (code : Byte) (params : List Byte) (req : Request) : Prop :=
  Receives s p (frame code params) req ∧ IsOnline s p

/-- A request of a port that is not HELD is answered by the link port or taken when its last bit is sampled. -/
abbrev Taken (s : State) (p : Port) (code : Byte) (params : List Byte) (req : Request) : Prop :=
  Receives s p (frame code params) req ∧ ((s.port p).mode = .offline ∨ IsOnline s p)

/-! ### What the statements say of a port -/

/-- A port's records once the last bit of a request has been sampled: SCK high, MOSI at that bit, all its bits received
(R169). -/
def sampled (req : Request) (ps : PortState) : PortState :=
  { ps with sck := true, mosi := req.bits.getLast?.getD false, asm := .request req.shown req.bits }

/-- What a verified check byte does before the command takes its effect: its last bit is sampled, and LAST_FRAME_BAD is
cleared (R180). -/
def verified (req : Request) (ps : PortState) : PortState := { sampled req ps with lastFrameBad := false }

/-- A reply's bytes: status, body, and the check byte over both (R175). -/
def replyBytes (st : Status) (body : List Byte) : List Byte :=
  (statusValue st :: body) ++ [checkValue (statusValue st :: body)]

/-- The reply is due: the eighth bit of a summary byte has just gone out, and the reply's bytes follow (R169, R175). -/
def due (req : Request) (st : Status) (body : List Byte) : Assembler := .reply req.shown 8 (replyBytes st body) none

/-- A port's records once a status command is answered: the reply is due, LAST_FRAME_BAD is clear (R180, R181). -/
def answered (req : Request) (st : Status) (body : List Byte) (ps : PortState) : PortState :=
  { verified req ps with asm := due req st body }

/-- The last-reply record that follows a record (R181). -/
def nextRecord (old : Option LastReply) (code : Byte) (st : Status) (body : List Byte) : LastReply :=
  { number :=
      match old with
      | none => 1
      | some r => if r.number = 255 then 1 else r.number + 1
    code := code
    status := st
    body := body }

/-- A port's records once any other command is answered: the reply is also the new last-reply record (R181). -/
def replied (req : Request) (code : Byte) (st : Status) (body : List Byte) (ps : PortState) : PortState :=
  { answered req st body ps with record := some (nextRecord ps.record code st body) }

/-- A Write Data's staged bytes discarded; the frame of any other code stages none (R135). -/
def discarding (code : Byte) (ps : PortState) : PortState := if code = 0x4B then { ps with staging := [] } else ps

/-- A notice joined to a port's queue. -/
def told (k : Notice) (ps : PortState) : PortState := { ps with notices := ps.notices ++ [k] }

/-- PLEDGED or LENT back to OWNED by its owner. -/
def returned : Block → Block
  | .pledged o _ _ => .owned o
  | .lent o _ _ _ => .owned o
  | .owned o => .owned o
  | .free => .free
  | .scrub => .scrub

/-- PLEDGED to LENT to a borrower. -/
def lentTo (q : Port) : Block → Block
  | .pledged o m n => .lent o q m n
  | .lent o b m n => .lent o b m n
  | .owned o => .owned o
  | .free => .free
  | .scrub => .scrub

/-- The block lies in the lease. -/
def inLease (l : Option Lease) (b : BlockNo) : Bool :=
  match l with
  | none => false
  | some l => decide (l.first ≤ b.val) && decide (b.val < l.first + l.count)

/-- The block table with every block of a lease changed. -/
def leaseChanged (s : State) (l : Option Lease) (f : Block → Block) : Table Block 256 :=
  s.blocks.map fun b k => if inLease l b then f k else k

/-- A Post Call's parameters: length and ranges of R8. -/
def goodPost (params : List Byte) : Bool :=
  decide (params.length = 11 + 2 * param params 10) && decide (1 ≤ param params 0) && decide (param params 0 ≤ 254) &&
    decide (param params 1 ≤ 7) && decide (param params 10 ≤ 6) &&
    (decide (param params 6 = 0) ||
      (decide (param params 6 = 1) && decide (1 ≤ param params 8) && decide (param params 8 ≤ 16) &&
        decide (param params 7 + param params 8 ≤ 256) && decide (param params 9 ≤ 1)))

/-- The lease of a Post Call whose parameters are in range. -/
def postedLease (params : List Byte) : Option Lease :=
  if param params 6 = 1 then
    some
      { first := param params 7
        count := param params 8
        mode := if param params 9 = 0 then .read else .readWrite }
  else none

/-- The refusal that a command's own check of its form gives, in OFFLINE as in ONLINE (R8, R13, R18, R20, R35, R39, R42,
R61, R82, R100, R104, R121, R122, R123, R132, R153, R161). -/
def formRefusal : Instr → Option Status
  | .attach p ps =>
    if 1 ≤ param ps 0 ∧ param ps 0 ≤ 16 ∧ param ps 1 ≤ 1 ∧ param ps 2 < 16 ∧
        (paramByte ps 2).getLsbD p.val = false then none
    else some .badParam
  | .resetPeer _ ps => if param ps 0 ≤ 3 then none else some .badParam
  | .registerService _ ps =>
    if 1 ≤ param ps 0 ∧ param ps 0 ≤ 254 ∧ 1 ≤ param ps 1 ∧ param ps 1 ≤ 4 ∧ param ps 4 ≤ 1 then none else some .badParam
  | .withdrawService _ ps => if 1 ≤ param ps 0 ∧ param ps 0 ≤ 254 then none else some .badParam
  | .queryService _ ps => if 1 ≤ param ps 0 ∧ param ps 0 ≤ 254 then none else some .badParam
  | .postCall _ ps =>
    if ps.length ≠ 11 + 2 * param ps 10 then some .badLength else if goodPost ps then none else some .badParam
  | .cancelCall _ ps => if param ps 0 ≤ 31 then none else some .badParam
  | .collectAnswer _ ps => if param ps 0 ≤ 31 then none else some .badParam
  | .callStatus _ ps => if param ps 0 ≤ 31 then none else some .badParam
  | .answerCall _ ps =>
    if ps.length ≠ 3 + 2 * param ps 2 then some .badLength
    else if param ps 0 ≤ 31 ∧ param ps 2 ≤ 6 then none
    else some .badParam
  | .readNotices _ ps => if 1 ≤ param ps 0 ∧ param ps 0 ≤ 8 then none else some .badParam
  | .claimBlocks _ ps => if 1 ≤ param ps 0 ∧ param ps 0 ≤ 64 then none else some .badParam
  | .releaseBlocks _ ps =>
    if 1 ≤ param ps 1 ∧ param ps 1 ≤ 64 ∧ param ps 0 + param ps 1 ≤ 256 then none else some .badParam
  | .setCursor _ ps => if param ps 0 ≤ 1 then none else some .badParam
  | .rewindCursor _ ps => if param ps 0 ≤ 1 then none else some .badParam
  | .readData _ ps =>
    if param ps 0 ≤ 1 ∧ 1 ≤ (paramWord ps 1).toNat ∧ (paramWord ps 1).toNat ≤ 256 then none else some .badParam
  | .writeData _ ps => if param ps 0 ≤ 1 then none else some .badParam
  | _ => none

/-- The first block of a span that is not OWNED by the port is `b`, and it decides the refusal `st` (R10, R105). -/
def Decides (s : State) (p : Port) (first count : Nat) (b : BlockNo) (st : Status) : Prop :=
  (first ≤ b.val ∧ b.val < first + count) ∧ s.block b ≠ .owned p ∧
  (∀ k : BlockNo, first ≤ k.val → k.val < b.val → s.block k = .owned p) ∧
  st = if (s.block b).owner = some p then .blockBusy else .notOwner

/-- Every block of a span is OWNED by the port. -/
def AllOwned (s : State) (p : Port) (first count : Nat) : Prop :=
  ∀ b : BlockNo, first ≤ b.val → b.val < first + count → s.block b = .owned p

/-- The blocks from `first` on, `count` of them, are all FREE and do not wrap past block 255 (R100). -/
def FreeRun (s : State) (first count : Nat) : Prop :=
  first + count ≤ 256 ∧ ∀ b : BlockNo, first ≤ b.val → b.val < first + count → s.block b = .free

/-- The number of slots that port `p` posted: its allocated count (R4). -/
def allocatedOf (s : State) (p : Port) : Nat := s.slots.count fun c => c.any fun c => c.caller == p

/-- The number of IN_SERVICE slots of a service: its in-service count (R4). -/
def inServiceOf (s : State) (id : Nat) : Nat :=
  s.slots.count fun c =>
    c.any fun c =>
      (match c.state with
        | .inService _ => true
        | _ => false) && c.service == id

/-- The number of PENDING slots of a service (R42). -/
def pendingOf (s : State) (id : Nat) : Nat :=
  s.slots.count fun c =>
    c.any fun c =>
      (match c.state with
        | .waiting _ => true
        | _ => false) && c.service == id

/-- Call `c` stands before call `d` in a pending order (R5). -/
def Before (c d : Call) : Prop := d.priority < c.priority ∨ (c.priority = d.priority ∧ c.postOrder < d.postOrder)

/-- What the byte on MISO leaves of a port when its eighth bit has gone out: a valid byte advances its cursor and is counted
in the last-reply record, but not after a departure (R127, R128, R130). -/
def credited (t : Transfer) (ps : PortState) : PortState :=
  if t.inFlight = true ∧ t.departed = false then
    { ps with
      cursors :=
        ps.cursors.set t.cursor
          { ps.cursors.get t.cursor with
            pointer := ((ps.cursors.get t.cursor).pointer + 1) % (ps.cursors.get t.cursor).limit }
      record := ps.record.map fun r => { r with body := readTail t.valid t.lost } }
  else ps

/-- The bit of MOSI is the eighth of data byte `k` of a Write Data, counted from 0, with value `b`: the frame's code, length byte
and cursor number and the `k` data bytes before it have arrived (R131, R171), and the buffer of 248 places has a place `k`. -/
def CompletesDataByte (received : List Bool) (level : Bool) (k : Nat) (b : Byte) : Prop :=
  ∃ len cursor data,
    received ++ [level] = sent (0x4B :: len :: cursor :: data ++ [b]) ∧ data.length = k ∧ k + 1 < len.toNat ∧ k < 248

/-- The k-th target address of a transfer through a cursor (R120). -/
def target (c : Cursor) (k : Nat) : Word := c.base + BitVec.ofNat 16 ((c.pointer + k) % c.limit)

/-- The calls that port `p` is to serve are those that its stack and the call table agree on, one live entry each: the part
of R48 that concerns the stack of `p`. -/
def StackAgrees (s : State) (p : Port) : Prop :=
  (∀ n c, s.slot n = some c → c.isInService = true → c.callee = p →
    ∃ e ∈ (s.port p).stack, e.slot = n ∧ e.orphaned = false) ∧
  (∀ e ∈ (s.port p).stack, e.orphaned = false →
    ∃ c, s.slot e.slot = some c ∧ c.isInService = true ∧ c.callee = p) ∧
  (((s.port p).stack.filter fun e => !e.orphaned).map StackEntry.slot).Nodup

/-- The FAILED notices of port `q` for the calls of a list of slots, in the list's order. -/
def failedNotices (s : State) (q : Port) (why : Failure) (ns : List SlotNo) : List Notice :=
  ns.filterMap fun n =>
    match s.slot n with
    | some c => if c.caller = q then some (.failed n c.tag why) else none
    | none => none

end Sys2Proof.Statement

open Sys2Proof Sys2Proof.Machine Sys2Proof.Safety Sys2Proof.Statement

/-! ### The step -/

/-- A step runs the command at the front of the queue on the state with the queue's rest. -/
def Obligations.StepRunsFrontCommand : Prop :=
  ∀ (s : State) (c : Instr) (rest : List Instr), s.pending = c :: rest → step s = exec c { s with pending := rest }

/-- MODEL'S CHOICES (logs 7 and 28). With no command waiting a step is an edge of SCK of at most one link, which one by a
free value, with MOSI's level by another. The rising edge that samples the last bit of a frame's check byte is that frame's
command (R169, R173, R174); every other edge is `State.sckEdge`, which SckEdgeFollowsAssembler states. -/
def Obligations.EmptyQueueClocksAtMostOneLink : Prop :=
  ∀ s t : State, s.pending = [] → t = { s with freeCount := s.freeCount + 1 } →
    (Config.clockedPort s.freeCount = none → step s = .next t) ∧
    ∀ p level, Config.clockedPort s.freeCount = some p → level = Config.mosiLevel s.freeCount →
      (∀ shown received c,
        (s.port p).asm = .request shown received → (s.port p).sck = false →
        frameCommand p (bytesOfBits (received ++ [level])) = some c → step s = exec c t) ∧
      (((s.port p).sck = true ∨
        ∀ shown received, (s.port p).asm = .request shown received →
          frameCommand p (bytesOfBits (received ++ [level])) = none) →
        step s = .next (t.sckEdge p level))

/-- What one edge of SCK does, by the assembler's state. At a rising edge a bit of MOSI joins the request, with its eighth bit
a data byte of a Write Data stands in the staging buffer, and a bit of MISO has been shifted out: with the eighth bit a valid
byte of a streamed read is counted, and after the reply check byte the assembler passes to TRAILER. At the falling edge that
follows an eighth bit the next byte begins: the summary byte as it stands, the next byte of the reply, the next data byte, or
the tail with the reply check byte. With no frame open only the pins change (R126, R127, R131, R169, R170, R175, R178).
MODEL'S CHOICES: the tail in the last-reply record is rewritten with each data byte (log 16), READ_DATA_BYTE ends with such an
edge (log 27), the tail of a read whose bytes were all read before a departure stays OK, where R157 speaks of ACCESS_LOST
(log 17), and a data byte whose earlier ones a departure has discarded is not staged, nor one past the buffer's 248 places
(log 11). -/
def Obligations.SckEdgeFollowsAssembler : Prop :=
  ∀ (s : State) (p : Port) (level : Bool) (pins : PortState → PortState),
    pins = (fun ps => { ps with sck := !ps.sck, mosi := level }) →
    ((s.port p).asm = .idle → s.sckEdge p level = s.modPort p pins) ∧
    ((s.port p).sck = false →
      (∀ v received, (s.port p).asm = .request v received →
        ∃ staging,
          s.sckEdge p level =
            s.modPort p (fun ps => { pins ps with asm := .request v (received ++ [level]), staging := staging }) ∧
          (∀ k b, CompletesDataByte received level k b →
            staging =
              if k ≤ (s.port p).staging.length then (s.port p).staging.take k ++ [b] else (s.port p).staging) ∧
          ((∀ k b, ¬CompletesDataByte received level k b) → staging = (s.port p).staging)) ∧
      (∀ v k rest data, (s.port p).asm = .reply v k rest data → k < 7 →
        s.sckEdge p level = s.modPort p fun ps => { pins ps with asm := .reply v (k + 1) rest data }) ∧
      (∀ v b rest, (s.port p).asm = .reply v 7 (b :: rest) none →
        s.sckEdge p level = s.modPort p fun ps => { pins ps with asm := .reply v 8 (b :: rest) none }) ∧
      (∀ v, (s.port p).asm = .reply v 7 [] none →
        s.sckEdge p level = s.modPort p fun ps => { pins ps with asm := .trailer v 8 }) ∧
      (∀ v rest x, (s.port p).asm = .reply v 7 rest (some x) →
        s.sckEdge p level =
          s.modPort p fun ps =>
            { credited x (pins ps) with asm := .reply v 8 rest (some { x with inFlight := false }) }) ∧
      ∀ v k, (s.port p).asm = .trailer v k → k < 8 →
        s.sckEdge p level = s.modPort p fun ps => { pins ps with asm := .trailer v (k + 1) }) ∧
    ((s.port p).sck = true →
      (∀ v received, (s.port p).asm = .request v received →
        (received ≠ [] → received.length % 8 = 0 →
          s.sckEdge p level = s.modPort p fun ps => { pins ps with asm := .request (s.summary p) received }) ∧
        (received = [] ∨ received.length % 8 ≠ 0 → s.sckEdge p level = s.modPort p pins)) ∧
      (∀ v k rest data, (s.port p).asm = .reply v k rest data → k < 8 → s.sckEdge p level = s.modPort p pins) ∧
      (∀ v b rest data, (s.port p).asm = .reply v 8 (b :: rest) data →
        s.sckEdge p level = s.modPort p fun ps => { pins ps with asm := .reply b 0 rest data }) ∧
      (∀ v x, (s.port p).asm = .reply v 8 [] (some x) → x.begun < x.wanted → x.inFlight = false →
        exec (.readDataByte p) (s.modPort p fun ps => { ps with mosi := level }) = .next (s.sckEdge p level)) ∧
      (∀ v x first rest, (s.port p).asm = .reply v 8 [] (some x) → x.wanted ≤ x.begun →
        readTail x.valid x.lost = first :: rest →
        s.sckEdge p level =
          s.modPort p fun ps =>
            { pins ps with
              asm := .reply first 0 (rest ++ [checkValue (0x00 :: (x.sent ++ first :: rest))]) none }) ∧
      (∀ v, (s.port p).asm = .trailer v 8 →
        s.sckEdge p level = s.modPort p fun ps => { pins ps with asm := .trailer (s.summary p) 0 }) ∧
      ∀ v k, (s.port p).asm = .trailer v k → k < 8 → s.sckEdge p level = s.modPort p pins)

/-! ### Reset, power and the pins -/

/-- The state right after reset. The spec gives the reset values of the call table, the directory, the block table, the scrub
engine, READY and what a port holds, and SCK rests low (R169). MODEL'S CHOICES: State.reset is the powered part just after
the rise of RESET#, so `powered` and `resetHigh` are true (log 1), and its queue of commands is empty (log 25). The levels of
SEL#, MOSI and PRST# (log 1), the phase (log 6) and the memory's epoch and the count of free values (log 2) are the model's
too and are left open here. -/
def Obligations.ResetStateHoldsResetValues : Prop :=
  (∀ n, State.reset.slot n = none) ∧ State.reset.directory = [] ∧
  (∀ b, State.reset.block b = .scrub) ∧
  State.reset.scrubQueue.map Fin.val = List.range 256 ∧ State.reset.scrubBusy = true ∧ State.reset.ready = false ∧
  State.reset.resetHigh = true ∧ State.reset.powered = true ∧ State.reset.pending = [] ∧
  (∀ p, ∃ sel mosi prst, State.reset.port p =
    { sel := sel, sck := false, mosi := mosi, prst := prst, rsto := false, mode := .offline, asm := .idle, record := none
      lastFrameBad := false, stack := [], nest := .opened, notices := [], cursors := .replicate 2 ⟨0, 65536, 0⟩
      staging := [] }) ∧
  ∀ p, State.reset.summary p = 0x20

/-- The fall of RESET#, and a power-up, which finds RESET# held low, put the part in its reset state with RESET# low: every
port OFFLINE, the pins as the board drives them, every byte of memory unknown, the scrub engine loaded and IDLE (R118, R144,
R166, R194). From the loss of power until then the part holds no state (R194). The rise of RESET# starts the engine on the head
of its queue and changes nothing else (R139, R167). MODEL'S CHOICES: without power the fields stand at their reset values, as
placeholders for what the part does not hold (log 15); the unknown bytes are free values drawn with a fresh number, so that the
memory's epoch is the count of free values and the count goes up by one (log 2); without an edge nothing changes (log 3);
without power RESET# is a pin's level alone (log 15); the phase after a power-up is a free value (log 6). -/
def Obligations.ResetAndPowerEvents : Prop :=
  ∀ (s inReset : State),
    inReset =
      { s with
        ports := s.ports.map fun _ ps =>
          { sel := ps.sel, sck := ps.sck, mosi := ps.mosi, prst := ps.prst, rsto := false, mode := .offline, asm := .idle
            record := none, lastFrameBad := false, stack := [], nest := .opened, notices := []
            cursors := .replicate 2 ⟨0, 65536, 0⟩, staging := [] }
        slots := .replicate 32 none
        posts := 0
        directory := []
        blocks := .replicate 256 .scrub
        mem := { cells := [], unknown := List.range 256, epoch := s.freeCount }
        scrubQueue := State.reset.scrubQueue
        scrubBusy := false
        ready := false
        resetHigh := false
        freeCount := s.freeCount + 1 } →
    (s.powered = true → s.resetHigh = true → exec .resetFalling s = .next inReset) ∧
    (s.resetHigh = false → exec .resetFalling s = .next s) ∧
    (s.powered = false → s.resetHigh = true → exec .resetFalling s = .next { s with resetHigh := false }) ∧
    (s.powered = true → exec .powerBelowRange s = .next { inReset with powered := false, resetHigh := s.resetHigh }) ∧
    (s.powered = false → exec .powerBelowRange s = .next s) ∧
    (s.powered = false → exec .powerUp s = .next { inReset with powered := true, phase := Config.freePhase s.freeCount }) ∧
    (s.powered = true → exec .powerUp s = .next s) ∧
    (s.powered = true → s.resetHigh = false → s.scrubQueue ≠ [] →
      exec .resetRising s = .next { s with resetHigh := true, scrubBusy := true }) ∧
    (s.powered = true → s.resetHigh = false → s.scrubQueue = [] →
      exec .resetRising s = .next { s with resetHigh := true }) ∧
    (s.powered = false → s.resetHigh = false → exec .resetRising s = .next { s with resetHigh := true }) ∧
    (s.resetHigh = true → exec .resetRising s = .next s)

/-- The edges of PRST# and the end of a reset pulse (R152, R157, R159, R160, R164). MODEL'S CHOICES: without an edge,
and on a port with no pulse due, nothing changes (log 3), and a due pulse is held as 0 until its event (log 4). -/
def Obligations.PrstEdgesAndPulseEnd : Prop :=
  ∀ (p : Port) (s : State),
    (s.powered = true → s.resetHigh = true → (s.port p).prst = true → IsOnline s p →
      exec (.prstFalling p) s =
        .next ((s.departure p .offline).modPort p fun ps => { ps with prst := false, asm := .idle, staging := [] })) ∧
    ((s.port p).prst = true → ¬IsOnline s p →
      exec (.prstFalling p) s = .next (s.modPort p fun ps => { ps with prst := false, asm := .idle, staging := [] })) ∧
    ((s.port p).prst = false → exec (.prstFalling p) s = .next s) ∧
    exec (.prstRising p) s = .next (s.modPort p fun ps => { ps with prst := true }) ∧
    ((s.port p).mode = .held 0 →
      exec (.pulseEnd p) s = .next (s.modPort p fun ps => { ps with mode := .offline, rsto := false })) ∧
    ((s.port p).mode ≠ .held 0 → exec (.pulseEnd p) s = .next s)

/-! ### The link -/

/-- The fall of SEL# opens a frame on a live link, SCK at rest, with the summary byte on MISO and no bit received; else only
the pin changes (R169, R170, R178). MODEL'S CHOICES: without an edge nothing changes (log 3), and without power only the pin
changes (log 15). -/
def Obligations.SelFallingOpensFrame : Prop :=
  ∀ (p : Port) (s : State),
    ((s.port p).sel = true → s.powered = true → s.resetHigh = true → (s.port p).prst = true →
      exec (.selFalling p) s = .next (s.modPort p fun ps =>
        { ps with sel := false, sck := false, asm := .request (s.summary p) [] })) ∧
    ((s.port p).sel = true → (s.powered = false ∨ s.resetHigh = false ∨ (s.port p).prst = false) →
      exec (.selFalling p) s = .next (s.modPort p fun ps => { ps with sel := false })) ∧
    ((s.port p).sel = false → exec (.selFalling p) s = .next s)

/-- The rise of SEL#, after some more edges of SCK, which `State.sckEdges` takes one by one: by the assembler's state at that
moment a request is cut short and discarded, which marks LAST_FRAME_BAD but on a HELD port, a reply or a trailer ends, and
with no frame open only the pin changes (R170, R174, R176, R180). The bits of an incomplete byte do not count (R169).
MODEL'S CHOICES: the edges of SCK since the last command are the row's operand (log 8); both rows are this one edge, and the
assembler's state alone decides (log 10); with SEL# high already, or with edges that complete a request, the event does not
occur and nothing changes (log 3). -/
def Obligations.SelRisingEndsFrame : Prop :=
  ∀ (p : Port) (edges : List Bool) (row : Instr) (s t : State),
    row = .frameCutShort p edges ∨ row = .frameEnd p edges → t = s.sckEdges p edges →
    s.sckEdges p [] = s ∧
    (∀ level levels, s.sckEdges p (level :: levels) = (s.sckEdge p level).sckEdges p levels) ∧
    ((s.port p).sel = true → exec row s = .next s) ∧
    ((s.port p).sel = false →
      (∀ v received bytes, (t.port p).asm = .request v received → bytes = bytesOfBits received →
        (partialFrame bytes = true → t.powered = true → t.resetHigh = true → (t.port p).prst = true →
          exec row s =
            .next (t.modPort p fun ps =>
              { discarding (bytes.getD 0 0x00) ps with
                sel := true, asm := .idle, lastFrameBad := !ps.mode.isHeld || ps.lastFrameBad })) ∧
        (partialFrame bytes = false → exec row s = .next s)) ∧
      (∀ v k rest data, (t.port p).asm = .reply v k rest data →
        exec row s = .next (t.modPort p fun ps => { ps with sel := true, asm := .idle })) ∧
      (∀ v k, (t.port p).asm = .trailer v k →
        exec row s = .next (t.modPort p fun ps => { ps with sel := true, asm := .idle })) ∧
      ((t.port p).asm = .idle → exec row s = .next (t.modPort p fun ps => { ps with sel := true })))

/-- A frame whose check byte does not verify is answered BAD_CHECK and nothing of it is used (R174, R180); one with a code
that is none of the 27 is answered BAD_COMMAND and recorded as received (R173, R181). MODEL'S CHOICES: a frame that the link
is not receiving changes nothing (log 9, read from R152, R166, R170 and R171); the check byte is the byte after the last
parameter also when L is 0 (log 28). -/
def Obligations.BadFramesAreAnswered : Prop :=
  ∀ (p : Port) (code : Byte) (params : List Byte) (check : Byte) (s : State), params.length ≤ 255 →
    (check ≠ checkValue (head code params) →
      (∀ req, Receives s p (head code params ++ [check]) req →
        exec (.badCheck p code params check) s =
          .next (s.modPort p fun ps =>
            { discarding code (sampled req ps) with
              asm := due req .badCheck [], lastFrameBad := !ps.mode.isHeld || ps.lastFrameBad })) ∧
      ((∀ req, ¬Receives s p (head code params ++ [check]) req) →
        exec (.badCheck p code params check) s = .next s)) ∧
    (∀ req, knownCode code = false → Taken s p code params req →
      exec (.badCommand p code params) s = .next (s.modPort p (replied req code .badCommand [])))

/-- The answers given before any command acts: a frame that its link is not receiving is ignored; a HELD port's frame is
answered HELD; a length that the command does not allow is answered BAD_LENGTH, and recorded but for the four status
commands (R151, R152, R170, R173, R181). MODEL'S CHOICES: a frame that the link is not receiving changes nothing (log 9),
and the check byte of a frame without parameters is its third byte (log 28). -/
def Obligations.FrameAnsweredBeforeItsCommand : Prop :=
  ∀ (i : Instr) (p : Port) (code : Byte) (params : List Byte) (s : State),
    i.request = some (p, code, params) → i.wf = true →
    ((∀ req, ¬Receives s p (frame code params) req) → exec i s = .next s) ∧
    ∀ req,
      (∀ n, Receives s p (frame code params) req → (s.port p).mode = .held n →
        exec i s = .next (s.modPort p fun ps => { discarding code (sampled req ps) with asm := due req .held [] })) ∧
      (Taken s p code params req → knownCode code = true → lengthAllowed code params.length = false →
        exec i s =
          .next (s.modPort p fun ps =>
            if isStatusCode code then answered req .badLength [] (discarding code ps)
            else replied req code .badLength [] (discarding code ps)))

/-- A command's own check of its form comes before the port check, in OFFLINE as in ONLINE; a command of good form other
than Attach and the four status commands is refused OFFLINE on an OFFLINE port (R150, R177). MODEL'S CHOICE: the check byte
of a frame without parameters is its third byte (log 28). -/
def Obligations.FormCheckedBeforePort : Prop :=
  ∀ (i : Instr) (p : Port) (code : Byte) (params : List Byte) (req : Request) (s : State),
    i.request = some (p, code, params) → i.wf = true → lengthAllowed code params.length = true →
    Taken s p code params req →
    (∀ st, formRefusal i = some st → exec i s = .next (s.modPort p fun ps => replied req code st [] (discarding code ps))) ∧
    (formRefusal i = none → (s.port p).mode = .offline → isStatusCode code = false → code ≠ 0x08 →
      exec i s = .next (s.modPort p fun ps => replied req code .offline [] (discarding code ps)))

/-- Every frame of a port that is not HELD is answered, and a refusal changes the link port's records alone (R177). The
statuses from 10h up are the refusals (R193). MODEL'S CHOICE: the check byte of a frame without parameters is its third byte
(log 28). -/
def Obligations.RefusalChangesLinkRecordsAlone : Prop :=
  ∀ (i : Instr) (p : Port) (code : Byte) (params : List Byte) (req : Request) (s : State),
    i.request = some (p, code, params) → i.wf = true → Taken s p code params req →
    ∃ t st rest data,
      exec i s = .next t ∧ (t.port p).asm = .reply req.shown 8 (st :: rest) data ∧
      (0x10 ≤ st.toNat →
        t =
          s.modPort p fun ps =>
            { discarding code (verified req ps) with
              asm := .reply req.shown 8 (st :: rest) data, record := (t.port p).record })

/-- The bits of some bytes are sent most significant first, and the bytes are read back from them, an incomplete byte left out
(R169). The bytes of a frame stand for its command: no bit of a request is dropped (R171, R190), and its check byte is the
value of R172, which over covered bytes followed by their own check value gives 00h. The codes, the lengths and the
field encodings that the other statements use are those of R189 and R190. MODEL'S CHOICE: the check byte is the byte after
the last parameter also when L is 0 (log 28). -/
def Obligations.FramesAndFieldsFollowTheFormats : Prop :=
  (∀ (i : Instr) (p : Port) (code : Byte) (params : List Byte), i.wf = true → i.request = some (p, code, params) →
    frameBytes i = some (frame code params) ∧ frameCommand p (frame code params) = some i) ∧
  (∀ bytes short, short.length < 8 → bytesOfBits (sent bytes ++ short) = bytes) ∧
  (∀ p bytes, frameCommand p bytes ≠ none ↔ 2 ≤ bytes.length ∧ bytes.length = (bytes.getD 1 0x00).toNat + 3) ∧
  (∀ bytes, partialFrame bytes = true ↔ bytes.length < 2 ∨ bytes.length < (bytes.getD 1 0x00).toNat + 3) ∧
  (∀ p code params check, params.length ≤ 255 → check ≠ checkValue (head code params) →
    frameCommand p (head code params ++ [check]) = some (.badCheck p code params check)) ∧
  (∀ bytes, checkValue (bytes ++ [checkValue bytes]) = 0x00) ∧ checkValue [0x00] = 0xF3 ∧ checkValue [0x00, 0x00] = 0xD7 ∧
  (∀ row ∈ requestTable, ∀ p params, (row.1 p params).request = some (p, row.2.1, params)) ∧
  (∀ code, knownCode code = true ↔ ∃ row ∈ requestTable, row.2.1 = code) ∧
  (∀ code len, lengthAllowed code len = true ↔ ∃ row ∈ requestTable, row.2.1 = code ∧ row.2.2.1 ≤ len ∧ len ≤ row.2.2.2) ∧
  (∀ code, isStatusCode code = true ↔ 1 ≤ code.toNat ∧ code.toNat ≤ 4) ∧
  (∀ n, n ≤ 255 → (byteOf n).toNat = n) ∧
  (∀ n, n ≤ 65535 → wordOf n = [byteOf (n / 256), byteOf (n % 256)]) ∧
  (∀ w : Word, wordBytes w = [high w, low w] ∧ high w ++ low w = w) ∧
  (∀ w ws, bytesOfWords [] = [] ∧ bytesOfWords (w :: ws) = high w :: low w :: bytesOfWords ws) ∧
  (∀ ws, wordsOf (bytesOfWords ws) = ws) ∧
  yesNoByte false = 0x00 ∧ yesNoByte true = 0x01 ∧
  (∀ (ps : List Port) (q : Port), (portSetByte ps).getLsbD q.val = true ↔ q ∈ ps) ∧
  (∀ ps : List Port, (portSetByte ps).toNat < 16) ∧
  ∀ (params : List Byte) (k : Nat),
    (∀ b, params[k]? = some b → paramByte params k = b ∧ param params k = b.toNat) ∧
    ∀ b c, params[k]? = some b → params[k + 1]? = some c → paramWord params k = b ++ c

/-- The summary byte's eight bits (R179, R193), WAITING by R86; and MISO: in an open frame the bits of the byte in its
current byte position, most significant first, the next one from each falling edge of SCK on and the first from the fall
of SEL# on; high-impedance with no frame open, with power, RESET# or PRST# low, and while SEL# is high (R169, R170, R194).
The frame's law is a premise of the clause on SEL#. -/
def Obligations.SummaryByteAndMisoFollowTheState : Prop :=
  ∀ (s : State) (p : Port),
    (s.powered = true → s.resetHigh = true → (s.port p).prst = true →
      (∀ v received, (s.port p).asm = .request v received →
        ((s.port p).sck = false → s.miso p = some (v.getLsbD (7 - received.length % 8))) ∧
        ((s.port p).sck = true → s.miso p = some (v.getLsbD (7 - (received.length - 1) % 8)))) ∧
      (∀ v k, (s.port p).asm = .trailer v k ∨ (∃ rest data, (s.port p).asm = .reply v k rest data) →
        ((s.port p).sck = false → k < 8 → s.miso p = some (v.getLsbD (7 - k))) ∧
        ((s.port p).sck = true → 1 ≤ k → k ≤ 8 → s.miso p = some (v.getLsbD (8 - k))))) ∧
    ((s.port p).asm = .idle → s.miso p = none) ∧
    ((s.powered = false ∨ s.resetHigh = false ∨ (s.port p).prst = false) → s.miso p = none) ∧
    (FrameLaw s → (s.port p).sel = true → s.miso p = none) ∧
    ((s.port p).sel = true → s.powered = true → s.resetHigh = true → (s.port p).prst = true →
      ∃ t, exec (.selFalling p) s = .next t ∧ t.miso p = some ((s.summary p).getLsbD 7)) ∧
    (s.summary p).getLsbD 7 = s.ready ∧ (s.summary p).getLsbD 6 = (s.port p).lastFrameBad ∧
    ((s.summary p).getLsbD 5 = true ↔ (s.port p).nest = .opened) ∧
    ((s.summary p).getLsbD 4 = true ↔ (s.port p).stack ≠ []) ∧
    ((s.summary p).getLsbD 3 = true ↔ ∃ n, s.eligible p n = true) ∧
    ((s.summary p).getLsbD 2 = true ↔ (s.port p).notices ≠ []) ∧
    ((s.summary p).getLsbD 1 = true ↔ ∃ n, (s.port p).mode = .held n) ∧
    ((s.summary p).getLsbD 0 = true ↔ IsOnline s p)

/-- ATTN# of a live link: asserted exactly for an ONLINE port with a notice queued, or with wake-on-waiting and an eligible
call (R88); with RESET#, PRST# or power low it is released (R152, R166, R194). -/
def Obligations.AttentionFollowsNoticesAndWaiting : Prop :=
  ∀ (s : State) (p : Port),
    (s.powered = true → s.resetHigh = true → (s.port p).prst = true →
      (s.attn p = true ↔
        ∃ o, (s.port p).mode = .online o ∧
          ((s.port p).notices ≠ [] ∨ (o.wake = true ∧ ∃ n, s.eligible p n = true)))) ∧
    ((s.powered = false ∨ s.resetHigh = false ∨ (s.port p).prst = false) → s.attn p = false)

/-! ### The status commands -/

/-- Poll returns the summary byte, with LAST_FRAME_BAD clear, Last Reply the record, or NO_REPLY, and Port Status and Part
Status their counts as they stand (R182 to R185, R191). MODEL'S CHOICE: the check byte of a frame without parameters is its
third byte (log 28). -/
def Obligations.StatusCommandsReport : Prop :=
  ∀ (p : Port) (req : Request) (s : State),
    (Taken s p 0x01 [] req →
      exec (.poll p []) s = .next (s.modPort p (answered req .ok [(s.modPort p (verified req)).summary p]))) ∧
    (Taken s p 0x04 [] req →
      (∀ r, (s.port p).record = some r →
      exec (.lastReply p []) s =
        .next (s.modPort p (answered req .ok ([byteOf r.number, r.code, statusValue r.status, byteOf r.body.length] ++ r.body)))) ∧
      ((s.port p).record = none → exec (.lastReply p []) s = .next (s.modPort p (answered req .noReply [])))) ∧
    (Taken s p 0x02 [] req → ∀ quota wake consent state,
      (∃ o, (s.port p).mode = .online o ∧ quota = byteOf o.quota ∧ wake = yesNoByte o.wake ∧
        consent = portSetByte o.consent ∧ state = (0x01 : Byte)) ∨
      ((s.port p).mode = .offline ∧ quota = 0x00 ∧ wake = 0x00 ∧ consent = 0x00 ∧ state = 0x00) →
      exec (.portStatus p []) s =
        .next (s.modPort p (answered req .ok
          ([state, quota, wake, consent, 0x00, 0x00,
            byteOf (allocatedOf s p),
            byteOf (s.directory.countP fun e => e.provider == p),
            byteOf (s.port p).stack.length,
            (if (s.port p).nest = .opened then 0x01 else 0x00),
            byteOf (s.port p).notices.length] ++
          wordOf (s.blocks.count fun k => k.owner == some p) ++
          wordOf (s.blocks.count fun k => k.borrower == some p) ++
          [byteOf (match (s.port p).record with
            | none => 0
            | some r => r.number),
            (s.modPort p (verified req)).summary p])))) ∧
    (Taken s p 0x03 [] req →
      exec (.partStatus p []) s =
      .next (s.modPort p (answered req .ok
        ([0x34, 0x16, 0x01,
          portSetByte (([0, 1, 2, 3] : List Port).filter fun q => (s.port q).mode.isOnline),
          portSetByte (([0, 1, 2, 3] : List Port).filter fun q => (s.port q).mode.isHeld),
          byteOf (s.slots.count fun c => c.isNone)] ++
        wordOf (s.blocks.count fun k => k == .free) ++ wordOf s.scrubQueue.length ++ [byteOf s.directory.length]))))

/-! ### Port lifecycle -/

/-- Attach: BAD_PARAM on a bad form, ALREADY_ONLINE on an ONLINE port, else the port becomes ONLINE with the options given
(R153, R154). MODEL'S CHOICE: the consent set is listed in ascending order (log 20). -/
def Obligations.AttachMakesOfflinePortOnline : Prop :=
  ∀ (p : Port) (quota wake consent : Byte) (req : Request) (s : State), Taken s p 0x08 [quota, wake, consent] req →
    ((quota.toNat < 1 ∨ 16 < quota.toNat ∨ 1 < wake.toNat ∨ 16 ≤ consent.toNat ∨ consent.getLsbD p.val = true) →
      exec (.attach p [quota, wake, consent]) s = .next (s.modPort p (replied req 0x08 .badParam []))) ∧
    (1 ≤ quota.toNat → quota.toNat ≤ 16 → wake.toNat ≤ 1 → consent.toNat < 16 → consent.getLsbD p.val = false →
      (IsOnline s p →
        exec (.attach p [quota, wake, consent]) s = .next (s.modPort p (replied req 0x08 .alreadyOnline []))) ∧
      ((s.port p).mode = .offline →
        exec (.attach p [quota, wake, consent]) s =
          .next (s.modPort p fun ps =>
            replied req 0x08 .ok []
              { ps with
                mode := .online
                  { quota := quota.toNat
                    wake := decide (wake.toNat = 1)
                    consent := ([0, 1, 2, 3] : List Port).filter fun q => consent.getLsbD q.val } })))

/-- Detach is the departure of the port, which is OFFLINE then; its own reply is recorded with number 1 (R158, R181).
MODEL'S CHOICE: the check byte of a frame without parameters is its third byte (log 28). -/
def Obligations.DetachDepartsAndRecordsItsReply : Prop :=
  ∀ (p : Port) (req : Request) (s : State), TakenOnline s p 0x09 [] req →
    exec (.detach p []) s =
      .next (((s.modPort p (verified req)).departure p .offline).modPort p fun ps =>
        { ps with asm := due req .ok [], record := some { number := 1, code := 0x09, status := .ok, body := [] } })

/-- Reset Peer: its checks in order, and the reset of the target: its departure, HELD with a pulse of 200 ticks, RSTO#
asserted (R161, R162). -/
def Obligations.ResetPeerResetsConsentingTarget : Prop :=
  ∀ (p q : Port) (req : Request) (s : State), TakenOnline s p 0x0A [byteOf q.val] req →
    (q = p → exec (.resetPeer p [byteOf q.val]) s = .next (s.modPort p (replied req 0x0A .badParam []))) ∧
    (q ≠ p → (s.port q).mode = .offline →
      exec (.resetPeer p [byteOf q.val]) s = .next (s.modPort p (replied req 0x0A .notOnline [0x00]))) ∧
    (∀ n, q ≠ p → (s.port q).mode = .held n →
      exec (.resetPeer p [byteOf q.val]) s = .next (s.modPort p (replied req 0x0A .notOnline [0x02]))) ∧
    (∀ o, q ≠ p → (s.port q).mode = .online o → p ∉ o.consent →
      exec (.resetPeer p [byteOf q.val]) s = .next (s.modPort p (replied req 0x0A .notPermitted []))) ∧
    ∀ o, q ≠ p → (s.port q).mode = .online o → p ∈ o.consent →
      exec (.resetPeer p [byteOf q.val]) s =
        .next ((((s.modPort p (verified req)).departure q (.held 200)).modPort q fun ps => { ps with rsto := true }).modPort p
          (replied req 0x0A .ok []))

/-- What a departure leaves of the departing port and of the directory, and what it leaves alone (R44, R72, R90, R130, R137,
R156, R187). -/
def Obligations.DepartureEmptiesThePort : Prop :=
  ∀ (p : Port) (after : PortMode) (s t : State), t = s.departure p after →
    t.port p =
      { s.port p with
        mode := after, asm := (t.port p).asm, record := none, lastFrameBad := false, stack := [], nest := .opened
        notices := [], cursors := .replicate 2 ⟨0, 65536, 0⟩, staging := [] } ∧
    (∀ v k rest x, (s.port p).asm = .reply v k rest (some x) →
      (t.port p).asm = .reply v k rest (some { x with departed := true })) ∧
    ((∀ v k rest x, (s.port p).asm ≠ .reply v k rest (some x)) → (t.port p).asm = (s.port p).asm) ∧
    (∀ q, q ≠ p → t.port q = { s.port q with stack := (t.port q).stack, notices := (t.port q).notices }) ∧
    t =
      { s with
        ports := t.ports
        slots := t.slots
        directory := s.directory.filter fun e => decide (e.provider ≠ p)
        blocks := t.blocks
        scrubQueue := t.scrubQueue
        scrubBusy := t.scrubBusy }

/-- The call table at a departure: calls the port posted are freed, PENDING and IN_SERVICE calls it was to serve fail
PEER_GONE, every other slot is unchanged (R30, R31). The premise is the law R48 on the port's stack. -/
def Obligations.DepartureFreesPostedAndFailsServedCalls : Prop :=
  ∀ (p : Port) (after : PortMode) (s : State), StackAgrees s p → ∀ n,
    (s.departure p after).slot n =
      match s.slot n with
      | none => none
      | some c =>
        if c.caller = p then none
        else if c.callee = p ∧ (c.isPending = true ∨ c.isInService = true) then some { c with state := .failed .peerGone }
        else some c

/-- The blocks at a departure: those the port owns pass to SCRUB and join the scrub queue in ascending order, those lent to
it return to their owners, and a block pledged to a call it was to serve is OWNED again (R31, R112, R115, R116, R141). Every
other block stands: FREE, SCRUB and other ports' OWNED blocks, and, under the law R48 on the port's stack, every block that
it neither owns nor borrows and that lies in no lease of a call it was to serve; with the law R96 these are the blocks
PLEDGED or LENT to the calls of other callees. -/
def Obligations.DepartureScrubsOwnedAndReturnsBorrowedBlocks : Prop :=
  ∀ (p : Port) (after : PortMode) (s t : State), t = s.departure p after →
    (∀ b, (s.block b).owner = some p → t.block b = .scrub) ∧
    (∀ b o m n, s.block b = .lent o p m n → o ≠ p → t.block b = .owned o) ∧
    (∀ b o m n c, s.block b = .pledged o m n → o ≠ p → s.slot n = some c → c.isPending = true → c.callee = p →
      inLease c.lease b = true → t.block b = .owned o) ∧
    (∀ b, s.block b = .free → t.block b = .free) ∧ (∀ b, s.block b = .scrub → t.block b = .scrub) ∧
    (∀ b o, s.block b = .owned o → o ≠ p → t.block b = .owned o) ∧
    (StackAgrees s p → ∀ b, (s.block b).owner ≠ some p → (s.block b).borrower ≠ some p →
      (∀ n c, s.slot n = some c → c.callee = p → c.isPending = true ∨ c.isInService = true →
        inLease c.lease b = false) →
      t.block b = s.block b) ∧
    (StackAgrees s p → LeaseLaw s → ∀ b o n c, o ≠ p → s.slot n = some c → c.callee ≠ p →
      (∀ m, s.block b = .pledged o m n → t.block b = .pledged o m n) ∧
      ∀ q m, s.block b = .lent o q m n → t.block b = .lent o q m n) ∧
    (∃ bs : List BlockNo,
      t.scrubQueue = s.scrubQueue ++ bs ∧ bs.Pairwise (· < ·) ∧ ∀ b, b ∈ bs ↔ (s.block b).owner = some p) ∧
    (t.scrubBusy = true ↔ s.scrubBusy = true ∨ (s.resetHigh = true ∧ t.scrubQueue ≠ []))

/-- The survivors of a departure: live stack entries for calls the port posted are orphaned in place; FAILED, then
CALLER_GONE, then PEER_DETACHED notices join their queues (R31, R70, R79, R90). The premise is the law R48 on the port's
stack. MODEL'S CHOICE: a stack entry's identity is its level (log 12). -/
def Obligations.DepartureNotifiesSurvivorsInOrder : Prop :=
  ∀ (p q : Port) (after : PortMode) (s t : State), StackAgrees s p → q ≠ p → t = s.departure p after →
    (t.port q).stack =
      (s.port q).stack.map (fun e => if e.caller = p ∧ e.orphaned = false then { e with orphaned := true } else e) ∧
    (t.port q).notices =
      (s.port q).notices ++
      failedNotices s q .peerGone
        ((s.pendingCalls p).map Prod.fst ++ ((s.port p).stack.filter fun e => !e.orphaned).map StackEntry.slot) ++
      ((s.port q).stack.zipIdx.filterMap fun x =>
        if x.1.caller = p ∧ x.1.orphaned = false then some (.callerGone x.2 x.1.slot x.1.tag) else none) ++
      (if (s.port q).mode.isOnline = true ∧ Notice.peerDetached p ∉ (s.port q).notices then [.peerDetached p] else [])

/-! ### The directory -/

/-- Register Service: a duplicate, a full directory, or one entry more (R36, R37). MODEL'S CHOICE: the directory is
listed in the order of registration (log 20). -/
def Obligations.RegisterServiceAddsOneEntry : Prop :=
  ∀ (p : Port) (id conc hi lo leases : Byte) (req : Request) (s : State),
    TakenOnline s p 0x10 [id, conc, hi, lo, leases] req →
    1 ≤ id.toNat → id.toNat ≤ 254 → 1 ≤ conc.toNat → conc.toNat ≤ 4 → leases.toNat ≤ 1 →
    (∀ e, s.entry id.toNat = some e →
      exec (.registerService p [id, conc, hi, lo, leases]) s =
        .next (s.modPort p (replied req 0x10 .duplicateService [byteOf e.provider.val]))) ∧
    (s.entry id.toNat = none → 16 ≤ s.directory.length →
      exec (.registerService p [id, conc, hi, lo, leases]) s = .next (s.modPort p (replied req 0x10 .directoryFull []))) ∧
    (s.entry id.toNat = none → s.directory.length < 16 →
      exec (.registerService p [id, conc, hi, lo, leases]) s =
        .next (({ s with
            directory :=
              s.directory ++
                [{ id := id.toNat
                   provider := p
                   concurrency := conc.toNat
                   limit := if hi ++ lo = (0 : Word) then none else some (hi ++ lo : Word).toNat
                   leases := decide (leases.toNat = 1) }] } : State).modPort p (replied req 0x10 .ok [])))

/-- Withdraw Service: NO_SERVICE, NOT_PROVIDER, IN_USE, or the entry is removed and every PENDING call of the service
fails WITHDRAWN, its pledge released and its caller told in the pending order (R29, R39, R40). The premise of the last
clause is the law R6: a PENDING call of the service has the provider as its callee. -/
def Obligations.WithdrawServiceFailsItsPendingCalls : Prop :=
  ∀ (p : Port) (id : Byte) (req : Request) (s : State), TakenOnline s p 0x11 [id] req → 1 ≤ id.toNat → id.toNat ≤ 254 →
    (s.entry id.toNat = none → exec (.withdrawService p [id]) s = .next (s.modPort p (replied req 0x11 .noService []))) ∧
    (∀ e, s.entry id.toNat = some e → e.provider ≠ p →
      exec (.withdrawService p [id]) s = .next (s.modPort p (replied req 0x11 .notProvider []))) ∧
    (∀ e, s.entry id.toNat = some e → e.provider = p → inServiceOf s id.toNat ≠ 0 →
      exec (.withdrawService p [id]) s =
        .next (s.modPort p (replied req 0x11 .inUse [byteOf (inServiceOf s id.toNat)]))) ∧
    ∀ e, s.entry id.toNat = some e → e.provider = p → inServiceOf s id.toNat = 0 →
      (∀ n c, s.slot n = some c → c.isPending = true → c.service = id.toNat → c.callee = p) →
      ∃ t,
        exec (.withdrawService p [id]) s = .next t ∧
        t =
          { s with
            ports := t.ports
            slots := s.slots.map fun _ c =>
              c.map fun c => if c.isPending = true ∧ c.service = id.toNat then { c with state := .failed .withdrawn } else c
            directory := s.directory.filter fun e => decide (e.id ≠ id.toNat)
            blocks := t.blocks } ∧
        (∀ b o m n c, s.block b = .pledged o m n → s.slot n = some c → c.isPending = true → c.service = id.toNat →
          inLease c.lease b = true → t.block b = .owned o) ∧
        (∀ b, (∀ n c, s.slot n = some c → c.isPending = true → c.service = id.toNat → inLease c.lease b = false) →
          t.block b = s.block b) ∧
        ∀ q,
          t.port q =
            (if q = p then replied req 0x11 .ok [byteOf (pendingOf s id.toNat)] else fun ps => ps)
              { s.port q with
                notices :=
                  (s.port q).notices ++
                    failedNotices s q .withdrawn
                      (((s.pendingCalls p).filter fun x => x.2.service == id.toNat).map Prod.fst) }

/-! ### Calls -/

/-- The pending order of a port: exactly its PENDING calls as callee, each once, by priority and then by post order (R5). -/
def Obligations.PendingOrderIsSorted : Prop :=
  ∀ (s : State) (q : Port),
    (∀ n c, (n, c) ∈ s.pendingCalls q ↔ s.slot n = some c ∧ c.isPending = true ∧ c.callee = q) ∧
    ((s.pendingCalls q).map Prod.fst).Nodup ∧
    (s.pendingCalls q).Pairwise fun x y =>
      y.2.priority < x.2.priority ∨ (x.2.priority = y.2.priority ∧ x.2.postOrder ≤ y.2.postOrder)

/-- A slot is eligible for a port exactly when the six conditions of R50 hold, and the port has an eligible call, its
waiting condition, exactly when some slot is eligible for it (R50, R86). -/
def Obligations.EligibleCallMeetsSixConditions : Prop :=
  ∀ (s : State) (q : Port),
    (∀ n : SlotNo,
      s.eligible q n = true ↔
        IsOnline s q ∧
        (∃ c, s.slot n = some c ∧ c.isPending = true ∧ c.callee = q ∧
          ((s.port q).stack = [] ∨ ∃ below e, (s.port q).stack = below ++ [e] ∧ e.priority < c.priority) ∧
          ∃ e, s.entry c.service = some e ∧ inServiceOf s c.service < e.concurrency) ∧
        (s.port q).stack.length < 4 ∧
        ((s.port q).stack = [] ∨ (s.port q).nest = .opened)) ∧
    (s.waiting q = true ↔ ∃ n, s.eligible q n = true)

/-- Post Call of good form, refused: the checks of R9 and R10 in their order. -/
def Obligations.PostCallRefusalsInOrder : Prop :=
  ∀ (p : Port) (params : List Byte) (req : Request) (s : State),
    Receives s p (frame 0x20 params) req → goodPost params = true → params.length ≤ 255 →
    ((s.port p).mode = .offline → exec (.postCall p params) s = .next (s.modPort p (replied req 0x20 .offline []))) ∧
    ∀ o, (s.port p).mode = .online o →
      (s.entry (param params 0) = none →
        exec (.postCall p params) s = .next (s.modPort p (replied req 0x20 .noService []))) ∧
      ∀ e, s.entry (param params 0) = some e →
        (e.provider = p → exec (.postCall p params) s = .next (s.modPort p (replied req 0x20 .selfCall []))) ∧
        (e.provider ≠ p → o.quota ≤ allocatedOf s p →
          exec (.postCall p params) s = .next (s.modPort p (replied req 0x20 .quota []))) ∧
        (e.provider ≠ p → allocatedOf s p < o.quota →
          (∀ l, postedLease params = some l → e.leases = false →
            exec (.postCall p params) s = .next (s.modPort p (replied req 0x20 .leaseRefused []))) ∧
          (∀ l b st, postedLease params = some l → e.leases = true → Decides s p l.first l.count b st →
            exec (.postCall p params) s = .next (s.modPort p (replied req 0x20 st [byteOf b.val]))) ∧
          ((∀ l, postedLease params = some l → e.leases = true ∧ AllOwned s p l.first l.count) →
            (∀ n, s.slot n ≠ none) →
            exec (.postCall p params) s = .next (s.modPort p (replied req 0x20 .tableFull []))))

/-- Post Call that passes all nine checks: the lowest-numbered FREE slot becomes PENDING with the posted fields, and the
lease's blocks become PLEDGED to it (R11, R109). MODEL'S CHOICE: its post order is the count of posts (log 13). -/
def Obligations.PostCallAllocatesLowestFreeSlot : Prop :=
  ∀ (p : Port) (params : List Byte) (req : Request) (s : State) (o : Options) (e : Service) (n : SlotNo),
    Receives s p (frame 0x20 params) req → (s.port p).mode = .online o → goodPost params = true → params.length ≤ 255 →
    s.entry (param params 0) = some e → e.provider ≠ p → allocatedOf s p < o.quota →
    (∀ l, postedLease params = some l → e.leases = true ∧ AllOwned s p l.first l.count) →
    s.slot n = none → (∀ m, m < n → s.slot m ≠ none) →
    exec (.postCall p params) s =
      .next (({ s with
          posts := s.posts + 1
          slots := s.slots.set n (some
            { caller := p
              callee := e.provider
              service := param params 0
              priority := param params 1
              tag := paramWord params 2
              args := wordsOf (params.drop 11)
              lease := postedLease params
              cancelAsked := false
              postOrder := s.posts
              state := .waiting (if paramWord params 4 = 0 then none else some (paramWord params 4).toNat) })
          blocks := s.blocks.map fun b k =>
            match postedLease params with
            | some l => if l.first ≤ b.val ∧ b.val < l.first + l.count then .pledged p l.mode n else k
            | none => k } : State).modPort p (replied req 0x20 .ok [byteOf n.val]))

/-- Cancel Call, Collect Answer and Call Status on a slot that is FREE or that another port posted (R13, R18, R20). -/
def Obligations.OtherPortsSlotIsNotCallers : Prop :=
  ∀ (p : Port) (n : SlotNo) (req : Request) (s : State), (∀ c, s.slot n = some c → c.caller ≠ p) →
    (TakenOnline s p 0x21 [byteOf n.val] req →
      exec (.cancelCall p [byteOf n.val]) s = .next (s.modPort p (replied req 0x21 .notCaller []))) ∧
    (TakenOnline s p 0x22 [byteOf n.val] req →
      exec (.collectAnswer p [byteOf n.val]) s = .next (s.modPort p (replied req 0x22 .notCaller []))) ∧
    (TakenOnline s p 0x23 [byteOf n.val] req →
      exec (.callStatus p [byteOf n.val]) s = .next (s.modPort p (replied req 0x23 .notCaller [])))

/-- Cancel Call by the slot's state: a PENDING call is freed and its pledge released; the first cancel of an IN_SERVICE call
marks it and tells the callee about the live entry; a further one changes nothing; an ended call is TOO_LATE (R14 to R16).
MODEL'S CHOICE: the entry's identity is its level (log 12). -/
def Obligations.CancelCallByState : Prop :=
  ∀ (p : Port) (n : SlotNo) (c : Call) (req : Request) (s : State),
    TakenOnline s p 0x21 [byteOf n.val] req → s.slot n = some c → c.caller = p →
    (∀ d, c.state = .waiting d →
      exec (.cancelCall p [byteOf n.val]) s =
        .next (({ s with slots := s.slots.set n none, blocks := leaseChanged s c.lease returned } : State).modPort p
          (replied req 0x21 .cancelled []))) ∧
    (∀ l below e above, c.state = .inService l → c.cancelAsked = false → (s.port c.callee).stack = below ++ e :: above →
      e.slot = n → e.orphaned = false → (∀ k ∈ below, k.slot = n → k.orphaned = true) →
      exec (.cancelCall p [byteOf n.val]) s =
        .next ((({ s with slots := s.slots.set n (some { c with cancelAsked := true }) } : State).modPort c.callee
          (told (.cancelAsked below.length n c.tag))).modPort p (replied req 0x21 .asked []))) ∧
    (∀ l, c.state = .inService l → c.cancelAsked = true →
      exec (.cancelCall p [byteOf n.val]) s = .next (s.modPort p (replied req 0x21 .alreadyAsked []))) ∧
    (∀ r ws, c.state = .answered r ws →
      exec (.cancelCall p [byteOf n.val]) s = .next (s.modPort p (replied req 0x21 .tooLate [0x03]))) ∧
    ∀ why, c.state = .failed why →
      exec (.cancelCall p [byteOf n.val]) s = .next (s.modPort p (replied req 0x21 .tooLate [0x04]))

/-- Collect Answer returns the outcome, frees the slot and removes its unread caller-side notice; a call that has not
ended is NOT_DONE (R18, R19, R80, R191). -/
def Obligations.CollectAnswerReturnsOutcomeAndFreesSlot : Prop :=
  ∀ (p : Port) (n : SlotNo) (c : Call) (req : Request) (s : State),
    TakenOnline s p 0x22 [byteOf n.val] req → s.slot n = some c → c.caller = p →
    (∀ body,
      (∃ r ws, c.state = .answered r ws ∧
        body = [0x03] ++ wordBytes c.tag ++ [yesNoByte c.cancelAsked, 0x00, r, byteOf ws.length] ++ bytesOfWords ws) ∨
      (∃ why, c.state = .failed why ∧
        body = [0x04] ++ wordBytes c.tag ++ [yesNoByte c.cancelAsked, reasonValue why, 0x00, 0x00]) →
      exec (.collectAnswer p [byteOf n.val]) s =
        .next (({ s with slots := s.slots.set n none } : State).modPort p fun ps =>
          replied req 0x22 .ok body
            { ps with
              notices := ps.notices.filter fun k =>
                match k with
                | .answered m _ => decide (m ≠ n)
                | .failed m _ _ => decide (m ≠ n)
                | _ => true })) ∧
    ((c.isPending = true ∨ c.isInService = true) →
      exec (.collectAnswer p [byteOf n.val]) s = .next (s.modPort p (replied req 0x22 .notDone [])))

/-- Call Status, Query Service and Block Status report an entry as it stands and change nothing but the link's records (R20,
R42, R108, R191, R192). -/
def Obligations.ReportsShowTheEntryAsItStands : Prop :=
  ∀ (p : Port) (req : Request) (s : State),
    (∀ (n : SlotNo) (c : Call) (kind reason : Byte) (ticks : Nat),
      TakenOnline s p 0x23 [byteOf n.val] req → s.slot n = some c → c.caller = p →
      (match c.state with
        | .waiting (some d) => kind = 0x01 ∧ ticks = d ∧ reason = 0x00
        | .waiting none => kind = 0x00 ∧ ticks = 0 ∧ reason = 0x00
        | .inService (some l) => kind = 0x02 ∧ ticks = l ∧ reason = 0x00
        | .inService none => kind = 0x00 ∧ ticks = 0 ∧ reason = 0x00
        | .answered _ _ => kind = 0x00 ∧ ticks = 0 ∧ reason = 0x00
        | .failed why => kind = 0x00 ∧ ticks = 0 ∧ reason = reasonValue why) →
      exec (.callStatus p [byteOf n.val]) s =
        .next (s.modPort p (replied req 0x23 .ok
          ([stateValue c.state, byteOf c.callee.val, byteOf c.service, byteOf c.priority] ++ wordBytes c.tag ++
            [yesNoByte c.cancelAsked, reason, kind] ++ wordOf ticks)))) ∧
    (∀ (id : Byte), TakenOnline s p 0x12 [id] req → 1 ≤ id.toNat → id.toNat ≤ 254 →
      (s.entry id.toNat = none → exec (.queryService p [id]) s = .next (s.modPort p (replied req 0x12 .noService []))) ∧
      ∀ e, s.entry id.toNat = some e →
        exec (.queryService p [id]) s =
          .next (s.modPort p (replied req 0x12 .ok
            ([byteOf e.id, byteOf e.provider.val, byteOf e.concurrency] ++
              wordOf (match e.limit with
                | none => 0
                | some l => l) ++
              [yesNoByte e.leases, byteOf (inServiceOf s id.toNat), byteOf (pendingOf s id.toNat)])))) ∧
    ∀ b : BlockNo, TakenOnline s p 0x42 [byteOf b.val] req →
      exec (.blockStatus p [byteOf b.val]) s =
        .next (s.modPort p (replied req 0x42 .ok
          (match s.block b with
            | .free => [0x00, 0xFF, 0xFF, 0xFF, 0xFF]
            | .scrub => [0x01, 0xFF, 0xFF, 0xFF, 0xFF]
            | .owned o => [0x02, byteOf o.val, 0xFF, 0xFF, 0xFF]
            | .pledged o m n => [0x03, byteOf o.val, 0xFF, modeValue m, byteOf n.val]
            | .lent o q m n => [0x04, byteOf o.val, byteOf q.val, modeValue m, byteOf n.val])))

/-! ### Service stacks -/

/-- Take Call refused: OFFLINE, then a full stack before closed nesting, and NONE_WAITING with its two counts when no call
is eligible (R52, R56). MODEL'S CHOICE: the check byte of a frame without parameters is its third byte (log 28). -/
def Obligations.TakeCallRefusalsInOrder : Prop :=
  ∀ (p : Port) (req : Request) (s : State), Receives s p (frame 0x30 []) req →
    ((s.port p).mode = .offline → exec (.takeCall p []) s = .next (s.modPort p (replied req 0x30 .offline []))) ∧
    (IsOnline s p →
      (4 ≤ (s.port p).stack.length → exec (.takeCall p []) s = .next (s.modPort p (replied req 0x30 .stackFull []))) ∧
      ((s.port p).stack.length < 4 → (s.port p).stack ≠ [] → (s.port p).nest = .closed →
        exec (.takeCall p []) s = .next (s.modPort p (replied req 0x30 .nestClosed []))) ∧
      ((s.port p).stack.length < 4 → ((s.port p).stack = [] ∨ (s.port p).nest = .opened) →
        (∀ n, s.eligible p n = false) →
        exec (.takeCall p []) s =
          .next (s.modPort p (replied req 0x30 .noneWaiting
            [byteOf (s.slots.count fun c => c.any fun c => c.isPending && c.callee == p),
              byteOf (s.slots.count fun c =>
                c.any fun c =>
                  c.isPending && c.callee == p &&
                  (match (s.port p).stack.getLast? with
                    | none => true
                    | some top => decide (top.priority < c.priority)) &&
                  !(s.entry c.service).any fun e => decide (inServiceOf s c.service < e.concurrency))]))))

/-- Take Call puts the eligible call that stands before every other eligible call in service: the slot, its loan, the pushed
entry, NEST CLOSED, and the reply with the whole record of the call (R21, R53 to R55, R110). MODEL'S CHOICE: the check byte
of a frame without parameters is its third byte (log 28). -/
def Obligations.TakeCallServesFirstEligibleCall : Prop :=
  ∀ (p : Port) (n : SlotNo) (c : Call) (e : Service) (req : Request) (s : State), TakenOnline s p 0x30 [] req →
    s.slot n = some c → s.eligible p n = true → (∀ m d, m ≠ n → s.slot m = some d → s.eligible p m = true → Before c d) →
    s.entry c.service = some e →
    exec (.takeCall p []) s =
      .next (({ s with
          slots := s.slots.set n (some { c with state := .inService e.limit })
          blocks := leaseChanged s c.lease (lentTo p) } : State).modPort p fun ps =>
        replied req 0x30 .ok
          ([byteOf n.val, byteOf c.caller.val, byteOf c.service, byteOf c.priority] ++ wordBytes c.tag ++
            (match c.lease with
              | none => [0x00, 0x00, 0x00, 0x00]
              | some l => [0x01, byteOf l.first, byteOf l.count, modeValue l.mode]) ++
            wordOf (match e.limit with
              | none => 0
              | some k => k) ++
            [byteOf c.args.length] ++ bytesOfWords c.args)
          { ps with
            stack :=
              ps.stack ++
                [{ slot := n, service := c.service, priority := c.priority, caller := c.caller, tag := c.tag
                   saved := ps.nest, orphaned := false }]
            nest := .closed })

/-- Answer Call on a live top entry: its call is ANSWERED, its loan ends, its caller is told, the entry is popped with its
notices, and NEST is restored (R22, R60, R63, R81, R111). MODEL'S CHOICE: the entry's identity is its level (log 12). -/
def Obligations.AnswerCallAnswersLiveTopEntry : Prop :=
  ∀ (p : Port) (result : Byte) (words : List Byte) (below : List StackEntry) (e : StackEntry) (c : Call) (req : Request) (s : State),
    TakenOnline s p 0x31 (byteOf e.slot.val :: result :: byteOf (words.length / 2) :: words) req →
    (s.port p).stack = below ++ [e] → e.orphaned = false → s.slot e.slot = some c →
    c.isInService = true → words.length % 2 = 0 → words.length ≤ 12 →
    exec (.answerCall p (byteOf e.slot.val :: result :: byteOf (words.length / 2) :: words)) s =
      .next ((({ s with
          slots := s.slots.set e.slot (some { c with state := .answered result (wordsOf words) })
          blocks := leaseChanged s c.lease returned } : State).modPort c.caller (told (.answered e.slot c.tag))).modPort p fun ps =>
        replied req 0x31 .ok []
          { ps with
            stack := below
            nest := e.saved
            notices := ps.notices.filter fun k => !k.raisedAbout below.length })

/-- Answer Call that answers no call: an empty stack, another slot than the top entry's, and an orphaned top entry, which is
popped with its notices (R62, R64). MODEL'S CHOICE: the entry's identity is its level (log 12). -/
def Obligations.AnswerCallWithoutLiveTopEntry : Prop :=
  ∀ (p : Port) (n : SlotNo) (result : Byte) (words : List Byte) (req : Request) (s : State),
    TakenOnline s p 0x31 (byteOf n.val :: result :: byteOf (words.length / 2) :: words) req →
    words.length % 2 = 0 → words.length ≤ 12 →
    ((s.port p).stack = [] →
      exec (.answerCall p (byteOf n.val :: result :: byteOf (words.length / 2) :: words)) s =
        .next (s.modPort p (replied req 0x31 .notInService []))) ∧
    (∀ below e, (s.port p).stack = below ++ [e] → e.slot ≠ n →
      exec (.answerCall p (byteOf n.val :: result :: byteOf (words.length / 2) :: words)) s =
        .next (s.modPort p (replied req 0x31 .notTop [byteOf e.slot.val, yesNoByte e.orphaned]))) ∧
    ∀ below e, (s.port p).stack = below ++ [e] → e.slot = n → e.orphaned = true →
      exec (.answerCall p (byteOf n.val :: result :: byteOf (words.length / 2) :: words)) s =
        .next (s.modPort p fun ps =>
          replied req 0x31 .orphaned (wordBytes e.tag)
            { ps with
              stack := below
              nest := e.saved
              notices := ps.notices.filter fun k => !k.raisedAbout below.length })

/-- Open Nesting and Close Nesting: OFFLINE, else NOT_IN_SERVICE on an empty stack, else they set NEST (R58, R59). MODEL'S
CHOICE: the check byte of a frame without parameters is its third byte (log 28). -/
def Obligations.NestingCommandsSetNest : Prop :=
  ∀ (p : Port) (req : Request) (s : State),
    (Receives s p (frame 0x32 []) req →
      ((s.port p).mode = .offline → exec (.openNesting p []) s = .next (s.modPort p (replied req 0x32 .offline []))) ∧
      (IsOnline s p → (s.port p).stack = [] →
        exec (.openNesting p []) s = .next (s.modPort p (replied req 0x32 .notInService []))) ∧
      (IsOnline s p → (s.port p).stack ≠ [] →
        exec (.openNesting p []) s = .next (s.modPort p fun ps => replied req 0x32 .ok [] { ps with nest := .opened }))) ∧
    (Receives s p (frame 0x33 []) req →
      ((s.port p).mode = .offline → exec (.closeNesting p []) s = .next (s.modPort p (replied req 0x33 .offline []))) ∧
      (IsOnline s p → (s.port p).stack = [] →
        exec (.closeNesting p []) s = .next (s.modPort p (replied req 0x33 .notInService []))) ∧
      (IsOnline s p → (s.port p).stack ≠ [] →
        exec (.closeNesting p []) s = .next (s.modPort p fun ps => replied req 0x33 .ok [] { ps with nest := .closed })))

/-- Stack Status reports NEST, the depth, ten bytes an entry from the bottom up, and the length of the pending order (R67,
R192). MODEL'S CHOICE: the check byte of a frame without parameters is its third byte (log 28). -/
def Obligations.StackStatusReportsEntriesBottomUp : Prop :=
  ∀ (p : Port) (req : Request) (s : State), TakenOnline s p 0x34 [] req →
    exec (.stackStatus p []) s =
      .next (s.modPort p (replied req 0x34 .ok
        ([(if (s.port p).nest = .opened then 0x01 else 0x00), byteOf (s.port p).stack.length] ++
        ((s.port p).stack.flatMap fun e =>
          [byteOf e.slot.val, byteOf e.service, byteOf e.priority, byteOf e.caller.val] ++ wordBytes e.tag ++
          [yesNoByte e.orphaned] ++
          (match e.orphaned, s.slot e.slot with
            | false, some c =>
              [yesNoByte c.cancelAsked] ++
                wordOf (match c.state with
                  | .inService (some l) => l
                  | _ => 0)
            | _, _ => [0x00, 0x00, 0x00])) ++
        [byteOf (s.pendingCalls p).length])))

/-! ### Notices -/

/-- Read Notices returns and removes the oldest notices, at most n of them (R82, R83). -/
def Obligations.ReadNoticesTakesTheOldest : Prop :=
  ∀ (p : Port) (n : Byte) (taken left : List Notice) (req : Request) (s : State),
    TakenOnline s p 0x38 [n] req → 1 ≤ n.toNat → n.toNat ≤ 8 →
    (s.port p).notices = taken ++ left → taken.length = min n.toNat (s.port p).notices.length →
    exec (.readNotices p [n]) s =
      .next (s.modPort p fun ps =>
        replied req 0x38 .ok ([byteOf taken.length, byteOf left.length] ++ taken.flatMap noticeRecord)
          { ps with notices := left })

/-! ### Blocks -/

/-- Claim Blocks takes the lowest run of FREE blocks, or is refused NO_ROOM with the longest run's length and the number of
blocks in SCRUB (R100 to R102). -/
def Obligations.ClaimBlocksTakesLowestFreeRun : Prop :=
  ∀ (p : Port) (count : Byte) (req : Request) (s : State),
    TakenOnline s p 0x40 [count] req → 1 ≤ count.toNat → count.toNat ≤ 64 →
    (∀ first, FreeRun s first count.toNat → (∀ b, b < first → ¬FreeRun s b count.toNat) →
      exec (.claimBlocks p [count]) s =
        .next (({ s with
            blocks :=
              s.blocks.map fun b k =>
                if first ≤ b.val ∧ b.val < first + count.toNat then .owned p else k } : State).modPort p
          (replied req 0x40 .ok [byteOf first]))) ∧
    ∀ longest, (∀ b, ¬FreeRun s b count.toNat) → (∃ b, FreeRun s b longest) → (∀ b, ¬FreeRun s b (longest + 1)) →
      exec (.claimBlocks p [count]) s =
        .next (s.modPort p (replied req 0x40 .noRoom
          ([byteOf longest] ++ wordOf (s.blocks.count fun k => k == .scrub))))

/-- Release Blocks gives the whole span up to the scrub queue's tail, in ascending order, or is refused by the first block
that is not OWNED by the port (R105, R106). -/
def Obligations.ReleaseBlocksGivesUpWholeSpan : Prop :=
  ∀ (p : Port) (first count : Byte) (req : Request) (s : State),
    TakenOnline s p 0x41 [first, count] req → 1 ≤ count.toNat → count.toNat ≤ 64 →
    first.toNat + count.toNat ≤ 256 →
    (∀ b st, Decides s p first.toNat count.toNat b st →
      exec (.releaseBlocks p [first, count]) s = .next (s.modPort p (replied req 0x41 st [byteOf b.val]))) ∧
    (AllOwned s p first.toNat count.toNat → ∀ bs : List BlockNo,
      bs.map Fin.val = (List.range count.toNat).map (first.toNat + ·) →
      exec (.releaseBlocks p [first, count]) s =
        .next (({ s with
            blocks := s.blocks.map fun b k =>
              if first.toNat ≤ b.val ∧ b.val < first.toNat + count.toNat then .scrub else k
            scrubQueue := s.scrubQueue ++ bs
            scrubBusy := true } : State).modPort p (replied req 0x41 .ok [])))

/-- Who may read and who may write a byte, by its block's entry (R97, R98). -/
def Obligations.AccessFollowsBlockEntry : Prop :=
  ∀ (s : State) (p : Port) (a : Word) (b : BlockNo), b.val = a.toNat / 256 →
    (s.mayRead p a = true ↔
      s.block b = .owned p ∨ (∃ m n, s.block b = .pledged p m n) ∨ (∃ q m n, s.block b = .lent p q m n) ∨
        ∃ o m n, s.block b = .lent o p m n) ∧
    (s.mayWrite p a = true ↔ s.block b = .owned p ∨ ∃ o n, s.block b = .lent o p .readWrite n)

/-! ### Cursors -/

/-- Set Cursor and Rewind Cursor (R121, R122). -/
def Obligations.SetAndRewindCursor : Prop :=
  ∀ (p : Port) (k : Fin 2) (bh bl lh ll : Byte) (req : Request) (s : State),
    (TakenOnline s p 0x48 [byteOf k.val, bh, bl, lh, ll] req →
      exec (.setCursor p [byteOf k.val, bh, bl, lh, ll]) s =
        .next (s.modPort p fun ps =>
          replied req 0x48 .ok []
            { ps with
              cursors := ps.cursors.set k
                { base := bh ++ bl
                  limit := if (lh ++ ll : Word) = 0 then 65536 else (lh ++ ll : Word).toNat
                  pointer := 0 } })) ∧
    (TakenOnline s p 0x49 [byteOf k.val] req →
      exec (.rewindCursor p [byteOf k.val]) s =
        .next (s.modPort p fun ps =>
          replied req 0x49 .ok (wordOf (ps.cursors.get k).pointer)
            { ps with cursors := ps.cursors.set k { ps.cursors.get k with pointer := 0 } }))

/-- Read Data begins a streamed reply when its first byte is readable, and is refused ACCESS when it is not (R123,
R124). The record starts with the tail of a read of which no byte has gone out (log 16). -/
def Obligations.ReadDataBeginsStreamOrIsRefused : Prop :=
  ∀ (p : Port) (k : Fin 2) (nh nl : Byte) (req : Request) (s : State),
    TakenOnline s p 0x4A [byteOf k.val, nh, nl] req → 1 ≤ (nh ++ nl : Word).toNat →
    (nh ++ nl : Word).toNat ≤ 256 →
    (s.mayRead p ((s.cursor p k).base + BitVec.ofNat 16 (s.cursor p k).pointer) = true →
      exec (.readData p [byteOf k.val, nh, nl]) s =
        .next (s.modPort p fun ps =>
          { replied req 0x4A .ok [0x00, 0x00, 0x00] ps with
            asm := .reply req.shown 8 [0x00] (some
              { cursor := k, wanted := (nh ++ nl : Word).toNat, begun := 0, valid := 0, lost := false
                inFlight := false, departed := false, sent := [] }) })) ∧
    (s.mayRead p ((s.cursor p k).base + BitVec.ofNat 16 (s.cursor p k).pointer) = false →
      exec (.readData p [byteOf k.val, nh, nl]) s = .next (s.modPort p (replied req 0x4A .access [])))

/-- A data byte of a streamed read: the byte before it goes out whole and is counted; then, at the falling edge of SCK, a
readable byte's value begins, and from the first byte that is not readable, or after a departure, filler does (R124, R125,
R127, R128, R130, R169). MODEL'S CHOICES: the row clocks the link up to that edge (log 27), the record follows byte by byte
(log 16), and with no byte to come, or no streamed read in progress, the event changes nothing (log 3). -/
def Obligations.ReadDataByteIsCheckedAsItGoesOut : Prop :=
  (∀ (p : Port) (s : State), (∀ v k rest x, (s.port p).asm ≠ .reply v k rest (some x)) →
    exec (.readDataByte p) s = .next s) ∧
  ∀ (p : Port) (v : Byte) (k : Nat) (rest : List Byte) (x : Transfer) (c : Cursor) (s : State),
    (s.port p).asm = .reply v k rest (some x) → c = (credited x (s.port p)).cursors.get x.cursor →
    (x.begun < x.wanted → x.lost = false → x.departed = false →
      s.mayRead p (c.base + BitVec.ofNat 16 c.pointer) = true → ∀ w, w = s.mem.read (c.base + BitVec.ofNat 16 c.pointer) →
      exec (.readDataByte p) s =
        .next (s.modPort p fun ps =>
          { credited x ps with
            sck := false
            asm := .reply w 0 [] (some
              { x with begun := x.begun + 1, valid := x.valid + 1, inFlight := true, sent := x.sent ++ [w] }) })) ∧
    (x.begun < x.wanted →
      (x.lost = true ∨ x.departed = true ∨ s.mayRead p (c.base + BitVec.ofNat 16 c.pointer) = false) →
      exec (.readDataByte p) s =
        .next (s.modPort p fun ps =>
          { credited x ps with
            sck := false
            record :=
              if x.departed then ps.record
              else (credited x ps).record.map fun r => { r with body := readTail x.valid true }
            asm := .reply 0x00 0 [] (some
              { x with begun := x.begun + 1, lost := true, inFlight := false, sent := x.sent ++ [0x00] }) })) ∧
    (x.wanted ≤ x.begun → exec (.readDataByte p) s = .next s)

/-- Write Data commits all its bytes when every target byte is writable: the last byte written to an address stands
there, every other byte of memory is unchanged, the pointer advances (R120, R132, R134). MODEL'S CHOICE: the staging
buffer keeps the bytes after the commit, where R131 leaves it open (log 11). -/
def Obligations.WriteDataCommitsAllBytes : Prop :=
  ∀ (p : Port) (k : Fin 2) (data : List Byte) (req : Request) (s : State),
    TakenOnline s p 0x4B (byteOf k.val :: data) req → 1 ≤ data.length → data.length ≤ 248 →
    (∀ i, i < data.length → s.mayWrite p (target (s.cursor p k) i) = true) →
    ∃ t,
      exec (.writeData p (byteOf k.val :: data)) s = .next t ∧
      t =
        (({ s with mem := t.mem } : State).modPort p fun ps =>
          replied req 0x4B .ok []
            { ps with
              cursors := ps.cursors.set k
                { ps.cursors.get k with
                  pointer := ((ps.cursors.get k).pointer + data.length) % (ps.cursors.get k).limit }
              staging := data }) ∧
      (∀ a, (∀ i, i < data.length → target (s.cursor p k) i ≠ a) → t.mem.read a = s.mem.read a) ∧
      ∀ i, i < data.length →
        (∀ j, i < j → j < data.length → target (s.cursor p k) j ≠ target (s.cursor p k) i) →
        t.mem.read (target (s.cursor p k) i) = data.getD i 0x00

/-- Write Data with a target byte that the port may not write is refused whole, with the position and block of the first
one; no byte is written and the cursor stands (R132, R133). -/
def Obligations.WriteDataRefusedWhole : Prop :=
  ∀ (p : Port) (k : Fin 2) (data : List Byte) (i : Nat) (req : Request) (s : State),
    TakenOnline s p 0x4B (byteOf k.val :: data) req → data.length ≤ 248 →
    i < data.length → s.mayWrite p (target (s.cursor p k) i) = false →
    (∀ j, j < i → s.mayWrite p (target (s.cursor p k) j) = true) →
    exec (.writeData p (byteOf k.val :: data)) s =
      .next (s.modPort p fun ps =>
        replied req 0x4B .access [byteOf i, byteOf ((target (s.cursor p k) i).toNat / 256)] { ps with staging := [] })

/-! ### Timed events -/

/-- A tick lowers every countdown by one and changes nothing else (R23, R26, R164, R195). MODEL'S CHOICES: a countdown
at 0 is due and stays 0 (log 4), the phase is 0 after a tick (log 6), and without power nothing changes (log 15). -/
def Obligations.TickLowersEveryCountdown : Prop :=
  ∀ s : State,
    (s.powered = true →
      exec .tick s =
        .next { s with
          slots := s.slots.map fun _ c =>
            c.map fun c =>
              match c.state with
              | .waiting (some d) => { c with state := .waiting (some (d - 1)) }
              | .inService (some l) => { c with state := .inService (some (l - 1)) }
              | _ => c
          ports := s.ports.map fun _ ps =>
            match ps.mode with
            | .held n => { ps with mode := .held (n - 1) }
            | _ => ps
          phase := 0 }) ∧
    (s.powered = false → exec .tick s = .next s)

/-- A deadline that a tick has brought to 0 fails its call: FAILED EXPIRED, the pledge released, a FAILED notice to the
caller and to no one else (R24). MODEL'S CHOICES: the expiry is an event after the tick, of a deadline held as 0 (log
4), and on any other slot it changes nothing (log 3). -/
def Obligations.DeadlineExpiryFailsTheCall : Prop :=
  ∀ (n : SlotNo) (s : State),
    (∀ c, s.slot n = some c → c.state = .waiting (some 0) →
      exec (.deadlineExpiry n) s =
        .next (({ s with
            slots := s.slots.set n (some { c with state := .failed .expired })
            blocks := leaseChanged s c.lease returned } : State).modPort c.caller (told (.failed n c.tag .expired)))) ∧
    ((∀ c, s.slot n = some c → c.state ≠ .waiting (some 0)) → exec (.deadlineExpiry n) s = .next s)

/-- A service limit that a tick has brought to 0 overruns its call: FAILED OVERRUN, the loan ended, the callee's live
entry orphaned in its place, an OVERRUN notice to the callee about that entry and a FAILED notice to the caller (R27,
R68). MODEL'S CHOICES: the overrun is an event after the tick, of a limit held as 0 (log 4), on any other slot it
changes nothing (log 3), and the entry's identity is its level (log 12). -/
def Obligations.OverrunFailsTheCallAndOrphansItsEntry : Prop :=
  ∀ (n : SlotNo) (s : State),
    (∀ c below e above, s.slot n = some c → c.state = .inService (some 0) →
      (s.port c.callee).stack = below ++ e :: above → e.slot = n → e.orphaned = false →
      (∀ k ∈ below ++ above, k.slot = n → k.orphaned = true) →
      exec (.overrun n) s =
        .next ((({ s with
            slots := s.slots.set n (some { c with state := .failed .overrun })
            blocks := leaseChanged s c.lease returned } : State).modPort c.callee fun ps =>
          told (.overrun below.length n c.tag) { ps with stack := below ++ { e with orphaned := true } :: above }).modPort
            c.caller (told (.failed n c.tag .overrun)))) ∧
    ((∀ c, s.slot n = some c → c.state ≠ .inService (some 0)) → exec (.overrun n) s = .next s)

/-- The completion of a scrub: the head block holds 00h throughout, is FREE and leaves the queue; the engine goes on or
becomes IDLE; the first completion that empties the queue sets READY (R140, R145). MODEL'S CHOICES: the completion comes
at any moment at which the engine is BUSY (log 5), and while it is IDLE it changes nothing (log 3). -/
def Obligations.ScrubCompletionFreesTheHeadBlock : Prop :=
  ∀ s : State,
    (∀ b rest, s.scrubQueue = b :: rest → s.scrubBusy = true →
      ∃ t,
        exec .scrubCompletion s = .next t ∧
        t =
          { s with
            mem := t.mem
            blocks := s.blocks.set b .free
            scrubQueue := rest
            scrubBusy := decide (rest ≠ [])
            ready := s.ready || decide (rest = []) } ∧
        ∀ a : Word, t.mem.read a = if a.toNat / 256 = b.val then 0x00 else s.mem.read a) ∧
    ((s.scrubQueue = [] ∨ s.scrubBusy = false) → exec .scrubCompletion s = .next s)

/-! ### The laws of the part -/

/-- Every step keeps the laws of the service stack (R47, R60). -/
def Obligations.EveryStepKeepsStackLaw : Prop := ∀ s t : State, StackLaw s → step s = .next t → StackLaw t

/-- Every step keeps the law of the cursors (R119), and the block memory in the form of `Memory.wf`: listed addresses strictly
rising and below 65536, no byte 00h listed in a block whose bytes are known, the blocks with unknown bytes strictly rising and
below 256. MODEL'S CHOICE: that form is the model's own form of the data of R92 (log 2). -/
def Obligations.EveryStepKeepsCursorLawAndMemoryCanonical : Prop :=
  ∀ s t : State, step s = .next t → (CursorLaw s → CursorLaw t) ∧ (s.mem.wf → t.mem.wf)

/-- Every step keeps the law of RSTO# (R165), the law of a HELD port's record (R151, R180), the law of an open frame (R169,
R170), and with it the law of its bits (R127, R169, R170, R174) and of the data bytes staged of a Write Data (R131). MODEL'S
CHOICE: of a frame with more data bytes than the buffer's 248 places, which is answered BAD_LENGTH, the bytes past the places
are not placed, so that the staging buffer holds the first 248 that have arrived (log 11). -/
def Obligations.EveryStepKeepsPortLaws : Prop :=
  ∀ s t : State, PulseLaw s → HeldLaw s → FrameLaw s → LinkLaw s → StagingLaw s → step s = .next t →
    PulseLaw t ∧ HeldLaw t ∧ FrameLaw t ∧ LinkLaw t ∧ StagingLaw t

/-- Every step keeps the law of the scrub queue and the law that FREE blocks hold 00h (R93, R138, R139). -/
def Obligations.EveryStepKeepsScrubAndCleanLaws : Prop :=
  ∀ s t : State, ScrubLaw s → CleanLaw s → step s = .next t → ScrubLaw t ∧ CleanLaw t

/-- Every step keeps the directory's law and the posting-quota law (R7, R33, R44), and every field in the range its rule
gives (R1, R33, R46, R131, R148, R181, R191). MODEL'S CHOICE: a countdown that is due is held as 0 (log 4). -/
def Obligations.EveryStepKeepsDirectoryQuotaAndFieldLaws : Prop :=
  ∀ s t : State, step s = .next t →
    (DirectoryLaw s → QuotaLaw s → DirectoryLaw t ∧ QuotaLaw t) ∧ (FieldLaw s → FieldLaw t)

/-- Every step keeps the law of the PEER_DETACHED notices (R79) and, with the laws of the whole part, the law of the other
notices (R75, R77, R78, R80, R81); and under these laws a queue never holds more than 27 notices, 16 of outcomes, 8 about
stack entries and 3 of departed peers, and none while its port is not ONLINE (R85). MODEL'S CHOICE: a stack entry's
identity is its level (log 12). -/
def Obligations.EveryStepKeepsNoticeLaws : Prop :=
  (∀ s t : State, step s = .next t →
    (PeerNoticeLaw s → PeerNoticeLaw t) ∧ (PartLaw s → NoticeLaw s → NoticeLaw t)) ∧
  ∀ s : State, PartLaw s → FieldLaw s → NoticeLaw s → PeerNoticeLaw s → ∀ p,
    (s.port p).notices.length ≤ 27 ∧ (s.port p).notices.countP isOutcome ≤ 16 ∧
    (s.port p).notices.countP isAboutEntry ≤ 8 ∧ (s.port p).notices.countP isAboutPeer ≤ 3 ∧
    (s.online p = false → (s.port p).notices = [])

/-- Every step keeps the laws that tie ports, calls, stacks, directory, blocks and scrub queue together: R6, R7, R33,
R43, R47, R48, R96, R117, R138. -/
def Obligations.EveryStepKeepsPartLaw : Prop := ∀ s t : State, PartLaw s → step s = .next t → PartLaw t

/-- The state right after reset meets every law. MODEL'S CHOICES: the form of `Memory.wf` is the model's own (log 2), and the
staging law leaves out the data bytes past the buffer's 248 places (log 11). -/
def Obligations.ResetStateMeetsEveryLaw : Prop :=
  StackLaw State.reset ∧ CursorLaw State.reset ∧ PulseLaw State.reset ∧ HeldLaw State.reset ∧ FrameLaw State.reset ∧
  LinkLaw State.reset ∧ StagingLaw State.reset ∧
  ScrubLaw State.reset ∧ CleanLaw State.reset ∧ DirectoryLaw State.reset ∧ QuotaLaw State.reset ∧ State.reset.mem.wf ∧
  PeerNoticeLaw State.reset ∧ PartLaw State.reset ∧ FieldLaw State.reset ∧ NoticeLaw State.reset
end

