-- ==== Sys2Proof/Laws/Bits.lean ====
section
/-! SUPPORT. The bits of bytes, most significant first (R169): how many they are, and that the bytes are read back from
them. Any bits are those of the bytes they make, with the bits of an incomplete byte after them. -/

namespace Sys2Proof

@[simp] theorem bitsOfByte_length (b : Byte) : (bitsOfByte b).length = 8 := by simp [bitsOfByte]

@[simp] theorem bitsOf_nil : bitsOf [] = [] := rfl

@[simp] theorem bitsOf_cons (b : Byte) (bytes : List Byte) : bitsOf (b :: bytes) = bitsOfByte b ++ bitsOf bytes := rfl

@[simp] theorem bitsOf_append (l m : List Byte) : bitsOf (l ++ m) = bitsOf l ++ bitsOf m := by simp [bitsOf]

@[simp] theorem bitsOf_length (bytes : List Byte) : (bitsOf bytes).length = 8 * bytes.length := by
  induction bytes with
  | nil => rfl
  | cons b bytes ih => simp only [bitsOf_cons, List.length_append, bitsOfByte_length, ih, List.length_cons]; omega

/-- A byte is read back from its bits. -/
theorem byteOfBits_bitsOfByte (b : Byte) : byteOfBits (bitsOfByte b) = b := by revert b; decide +kernel

/-- Fewer than eight bits make no byte. -/
theorem bytesOfBits_short : ∀ bits : List Bool, bits.length < 8 → bytesOfBits bits = []
  | [], _ => rfl
  | [_], _ => rfl
  | [_, _], _ => rfl
  | [_, _, _], _ => rfl
  | [_, _, _, _], _ => rfl
  | [_, _, _, _, _], _ => rfl
  | [_, _, _, _, _, _], _ => rfl
  | [_, _, _, _, _, _, _], _ => rfl
  | _ :: _ :: _ :: _ :: _ :: _ :: _ :: _ :: _, h => absurd h (by simp)

theorem bytesOfBits_byte (b : Byte) (bits : List Bool) :
    bytesOfBits (bitsOfByte b ++ bits) = byteOfBits (bitsOfByte b) :: bytesOfBits bits := rfl

/-- Bytes are read back from their bits, and the bits of an incomplete byte after them do not count. -/
theorem bytesOfBits_bitsOf_append (bytes : List Byte) {short : List Bool} (h : short.length < 8) :
    bytesOfBits (bitsOf bytes ++ short) = bytes := by
  induction bytes with
  | nil => exact bytesOfBits_short short h
  | cons b bytes ih =>
    rw [bitsOf_cons, List.append_assoc, bytesOfBits_byte, ih, byteOfBits_bitsOfByte]

@[simp] theorem bytesOfBits_bitsOf (bytes : List Byte) : bytesOfBits (bitsOf bytes) = bytes := by
  have := bytesOfBits_bitsOf_append bytes (short := []) (by simp)
  simpa using this

/-- Eight bits are the bits of the byte they make. -/
theorem bitsOfByte_byteOfBits : ∀ a b c d e f g h : Bool,
    bitsOfByte (byteOfBits [a, b, c, d, e, f, g, h]) = [a, b, c, d, e, f, g, h] := by decide +kernel

/-- Any bits are the bits of the bytes they make and those of an incomplete byte. -/
theorem bits_eq_bitsOf_append : ∀ bits : List Bool,
    ∃ short, bits = bitsOf (bytesOfBits bits) ++ short ∧ short.length < 8 := by
  intro bits
  induction bits using bytesOfBits.induct with
  | case1 a b c d e f g h rest ih =>
    obtain ⟨short, e1, e2⟩ := ih
    refine ⟨short, ?_, e2⟩
    rw [bytesOfBits, bitsOf_cons, bitsOfByte_byteOfBits, List.append_assoc, ← e1]
    rfl
  | case2 bits h =>
    have hs : bits.length < 8 := by
      match bits, h with
      | [], _ => simp
      | [_], _ => simp
      | [_, _], _ => simp
      | [_, _, _], _ => simp
      | [_, _, _, _], _ => simp
      | [_, _, _, _, _], _ => simp
      | [_, _, _, _, _, _], _ => simp
      | [_, _, _, _, _, _, _], _ => simp
      | a :: b :: c :: d :: e :: f :: g :: i :: r, h => exact absurd rfl (h a b c d e f g i r)
    exact ⟨bits, by rw [bytesOfBits_short bits hs]; rfl, hs⟩

/-- One more bit completes a byte, or it leaves the bytes as they are. -/
theorem bytesOfBits_snoc (bits : List Bool) (level : Bool) :
    (∃ b, bits ++ [level] = bitsOf (bytesOfBits bits ++ [b]) ∧ bytesOfBits (bits ++ [level]) = bytesOfBits bits ++ [b]) ∨
    ((bits ++ [level]).length % 8 ≠ 0 ∧ bytesOfBits (bits ++ [level]) = bytesOfBits bits) := by
  obtain ⟨short, e1, e2⟩ := bits_eq_bitsOf_append bits
  generalize bytesOfBits bits = m at e1
  subst e1
  by_cases h : short.length = 7
  · left
    match short, h with
    | [a, b, c, d, e, f, g], _ =>
      refine ⟨byteOfBits [a, b, c, d, e, f, g, level], ?_⟩
      have : bitsOf m ++ [a, b, c, d, e, f, g] ++ [level] =
          bitsOf (m ++ [byteOfBits [a, b, c, d, e, f, g, level]]) := by
        simp only [bitsOf_append, bitsOf_cons, bitsOf_nil, List.append_nil, bitsOfByte_byteOfBits, List.append_assoc,
          List.cons_append, List.nil_append]
      exact ⟨this, by rw [this, bytesOfBits_bitsOf]⟩
  · right
    have hs : (short ++ [level]).length < 8 := by simp only [List.length_append, List.length_singleton]; omega
    refine ⟨?_, by rw [List.append_assoc, bytesOfBits_bitsOf_append m hs]⟩
    simp only [List.length_append, bitsOf_length, List.length_singleton] at hs ⊢
    omega

end Sys2Proof
end

