-- ==== Sys2Proof/Laws/Table.lean ====
section
/-! SUPPORT. What a table's operations do, position by position. -/

namespace Sys2Proof.Table

variable {α : Type} {n : Nat}

theorem items_ext {t u : Table α n} (h : t.items = u.items) : t = u := by
  cases t; cases u; cases h; rfl

/-- Two tables that agree at every position are equal. -/
@[ext] theorem ext_get {t u : Table α n} (h : ∀ i, t.get i = u.get i) : t = u := by
  refine items_ext (List.ext_getElem (by rw [t.len, u.len]) fun k hk _ => ?_)
  exact h ⟨k, t.len ▸ hk⟩

@[simp] theorem get_set_self (t : Table α n) (i : Fin n) (a : α) : (t.set i a).get i = a := by
  simp [get, set]

@[simp] theorem get_set_ne (t : Table α n) {i j : Fin n} (a : α) (h : i ≠ j) : (t.set i a).get j = t.get j := by
  have : i.val ≠ j.val := fun e => h (Fin.ext e)
  simp [get, set, this]

theorem get_set (t : Table α n) (i j : Fin n) (a : α) : (t.set i a).get j = if i = j then a else t.get j := by
  split
  · next h => rw [h, get_set_self]
  · next h => exact get_set_ne t a h

@[simp] theorem set_get (t : Table α n) (i : Fin n) : t.set i (t.get i) = t := by
  ext j; rw [get_set]; split
  · next h => rw [h]
  · rfl

@[simp] theorem set_set (t : Table α n) (i : Fin n) (a b : α) : (t.set i a).set i b = t.set i b := by
  ext j; simp only [get_set]; split <;> rfl

theorem set_comm (t : Table α n) {i j : Fin n} (a b : α) (h : i ≠ j) : (t.set i a).set j b = (t.set j b).set i a := by
  ext k; simp only [get_set]
  by_cases hi : i = k <;> by_cases hj : j = k <;> simp [hi, hj]
  exact absurd (hi.trans hj.symm) h

@[simp] theorem get_replicate (i : Fin n) (a : α) : (replicate n a).get i = a := by
  simp [get, replicate]

theorem getElem_mapFrom (f : Fin n → α → α) :
    ∀ (k : Nat) (l : List α) (h : k + l.length = n) (i : Nat) (hi : i < (mapFrom n f k l h).length)
      (hi' : i < l.length) (hk : k + i < n), (mapFrom n f k l h)[i] = f ⟨k + i, hk⟩ l[i] := by
  intro k l
  induction l generalizing k with
  | nil => intro h i hi hi' hk; simp at hi'
  | cons a l ih =>
    intro h i hi hi' hk
    cases i with
    | zero => rfl
    | succ i =>
      simp only [mapFrom, List.getElem_cons_succ]
      rw [ih (k + 1) _ i _ (by simpa using hi') (by omega)]
      congr 2; omega

@[simp] theorem get_map (f : Fin n → α → α) (t : Table α n) (i : Fin n) : (t.map f).get i = f i (t.get i) := by
  simp only [get, map]
  rw [getElem_mapFrom f 0 t.items _ i.val _ (by rw [t.len]; exact i.isLt) (by omega)]
  congr 1; exact Fin.ext (by simp)

@[simp] theorem map_id (t : Table α n) : (t.map fun _ a => a) = t := by
  ext i; simp

theorem mem_indicesFrom (p : α → Bool) :
    ∀ (k : Nat) (l : List α) (h : k + l.length = n) (i : Fin n),
      i ∈ indicesFrom n p k l h ↔ ∃ hk : k ≤ i.val, p (l[i.val - k]'(by have := i.isLt; omega)) = true := by
  intro k l
  induction l generalizing k with
  | nil => intro h i; simp [indicesFrom]; intro hk; have := i.isLt; simp at h; omega
  | cons a l ih =>
    intro h i
    have h' : k + 1 + l.length = n := by rw [List.length_cons] at h; omega
    have hmem : i ∈ indicesFrom n p k (a :: l) h ↔
        (i.val = k ∧ p a = true) ∨ i ∈ indicesFrom n p (k + 1) l h' := by
      simp only [indicesFrom]
      split
      · next hp => simp [hp, Fin.ext_iff]
      · next hp => simp [hp]
    rw [hmem, ih]
    constructor
    · rintro (⟨rfl, hp⟩ | ⟨hk, hp⟩)
      · exact ⟨Nat.le_refl _, by simpa using hp⟩
      · refine ⟨by omega, ?_⟩
        have e : i.val - k = (i.val - (k + 1)) + 1 := by omega
        simp only [e, List.getElem_cons_succ]; exact hp
    · rintro ⟨hk, hp⟩
      by_cases e : i.val = k
      · left; refine ⟨e, ?_⟩; simpa [e] using hp
      · right
        have e' : i.val - k = (i.val - (k + 1)) + 1 := by omega
        refine ⟨by omega, ?_⟩
        simpa only [e', List.getElem_cons_succ] using hp

/-- A position is listed exactly when its record satisfies the test. -/
@[simp] theorem mem_indices (t : Table α n) (p : α → Bool) (i : Fin n) : i ∈ t.indices p ↔ p (t.get i) = true := by
  simp [indices, mem_indicesFrom, get]

theorem indicesFrom_lower (p : α → Bool) :
    ∀ (k : Nat) (l : List α) (h : k + l.length = n) (i : Fin n), i ∈ indicesFrom n p k l h → k ≤ i.val := by
  intro k l h i hi
  exact ((mem_indicesFrom p k l h i).1 hi).1

theorem indicesFrom_ascending (p : α → Bool) :
    ∀ (k : Nat) (l : List α) (h : k + l.length = n), (indicesFrom n p k l h).Pairwise (· < ·) := by
  intro k l
  induction l generalizing k with
  | nil => intro h; simp [indicesFrom]
  | cons a l ih =>
    intro h
    have h' : k + 1 + l.length = n := by rw [List.length_cons] at h; omega
    simp only [indicesFrom]
    split
    · refine List.pairwise_cons.2 ⟨fun i hi => ?_, ih (k + 1) h'⟩
      have := indicesFrom_lower p (k + 1) l h' i hi
      exact Fin.lt_def.2 (by simpa using this)
    · exact ih (k + 1) h'

/-- The positions are listed in ascending order. -/
theorem indices_ascending (t : Table α n) (p : α → Bool) : (t.indices p).Pairwise (· < ·) :=
  indicesFrom_ascending p 0 t.items _

/-- The positions listed are those of all positions that satisfy the test, in their order. -/
theorem indices_eq_filter (t : Table α n) (p : α → Bool) :
    t.indices p = (List.finRange n).filter fun i => p (t.get i) := by
  have hs : ((List.finRange n).filter fun i => p (t.get i)).Pairwise (· < ·) :=
    (List.pairwise_lt_finRange n).filter _
  have hp : (t.indices p).Perm ((List.finRange n).filter fun i => p (t.get i)) := by
    refine (List.perm_ext_iff_of_nodup ?_ ?_).2 fun i => by simp
    · exact (indices_ascending t p).imp fun h => Fin.ne_of_lt h
    · exact hs.imp fun h => Fin.ne_of_lt h
  exact hp.eq_of_pairwise (fun a b _ _ h1 h2 => absurd h1 (lt_asymm h2)) (indices_ascending t p) hs

theorem indices_nodup (t : Table α n) (p : α → Bool) : (t.indices p).Nodup :=
  (indices_ascending t p).imp fun h => Fin.ne_of_lt h

/-- Every record satisfies the test exactly when every item does. -/
theorem forall_items (t : Table α n) (q : α → Prop) : (∀ a ∈ t.items, q a) ↔ ∀ i, q (t.get i) := by
  constructor
  · intro h i; exact h _ (List.getElem_mem _)
  · intro h a ha
    obtain ⟨k, hk, rfl⟩ := List.mem_iff_getElem.1 ha
    exact h ⟨k, t.len ▸ hk⟩

theorem count_le (t : Table α n) (p : α → Bool) : t.count p ≤ n := by
  rw [count]; exact le_of_le_of_eq List.countP_le_length t.len

end Sys2Proof.Table
end

