-- ==== Sys2Proof/Laws/State.lean ====
section
/-! SUPPORT. What each update of the state leaves of each field, so that no proof unfolds a record update. -/

namespace Sys2Proof.Machine

/-! ### One port's records changed -/

@[simp] theorem modPort_ports (s : State) (p : Port) (f : PortState → PortState) :
    (s.modPort p f).ports = s.ports.set p (f (s.port p)) := rfl

@[simp] theorem modPort_slots (s : State) (p : Port) (f : PortState → PortState) : (s.modPort p f).slots = s.slots := rfl

@[simp] theorem modPort_posts (s : State) (p : Port) (f : PortState → PortState) : (s.modPort p f).posts = s.posts := rfl

@[simp] theorem modPort_directory (s : State) (p : Port) (f : PortState → PortState) : (s.modPort p f).directory = s.directory := rfl

@[simp] theorem modPort_blocks (s : State) (p : Port) (f : PortState → PortState) : (s.modPort p f).blocks = s.blocks := rfl

@[simp] theorem modPort_mem (s : State) (p : Port) (f : PortState → PortState) : (s.modPort p f).mem = s.mem := rfl

@[simp] theorem modPort_scrubQueue (s : State) (p : Port) (f : PortState → PortState) : (s.modPort p f).scrubQueue = s.scrubQueue := rfl

@[simp] theorem modPort_scrubBusy (s : State) (p : Port) (f : PortState → PortState) : (s.modPort p f).scrubBusy = s.scrubBusy := rfl

@[simp] theorem modPort_ready (s : State) (p : Port) (f : PortState → PortState) : (s.modPort p f).ready = s.ready := rfl

@[simp] theorem modPort_phase (s : State) (p : Port) (f : PortState → PortState) : (s.modPort p f).phase = s.phase := rfl

@[simp] theorem modPort_resetHigh (s : State) (p : Port) (f : PortState → PortState) : (s.modPort p f).resetHigh = s.resetHigh := rfl

@[simp] theorem modPort_powered (s : State) (p : Port) (f : PortState → PortState) : (s.modPort p f).powered = s.powered := rfl

@[simp] theorem modPort_freeCount (s : State) (p : Port) (f : PortState → PortState) : (s.modPort p f).freeCount = s.freeCount := rfl

@[simp] theorem modPort_pending (s : State) (p : Port) (f : PortState → PortState) : (s.modPort p f).pending = s.pending := rfl

@[simp] theorem modPort_port_self (s : State) (p : Port) (f : PortState → PortState) :
    (s.modPort p f).port p = f (s.port p) := by
  simp [State.port]

theorem modPort_port_ne (s : State) {p q : Port} (f : PortState → PortState) (h : p ≠ q) :
    (s.modPort p f).port q = s.port q := by
  simp [State.port, h]

theorem modPort_port (s : State) (p q : Port) (f : PortState → PortState) :
    (s.modPort p f).port q = if p = q then f (s.port q) else s.port q := by
  by_cases h : p = q
  · subst h; simp
  · simp [h, modPort_port_ne s f h]

/-- Two changes of one port's records are one change. -/
@[simp] theorem modPort_modPort (s : State) (p : Port) (f g : PortState → PortState) :
    (s.modPort p f).modPort p g = s.modPort p fun ps => g (f ps) := by
  simp [State.modPort]

theorem modPort_comm (s : State) {p q : Port} (f g : PortState → PortState) (h : p ≠ q) :
    (s.modPort p f).modPort q g = (s.modPort q g).modPort p f := by
  simp only [State.modPort, Table.get_set_ne _ _ h, Table.get_set_ne _ _ (Ne.symm h), Table.set_comm _ _ _ h]

@[simp] theorem modPort_id (s : State) (p : Port) : (s.modPort p fun ps => ps) = s := by
  simp [State.modPort]

theorem modPort_congr (s : State) (p : Port) {f g : PortState → PortState} (h : f (s.port p) = g (s.port p)) :
    s.modPort p f = s.modPort p g := by
  simp only [State.modPort]; exact congrArg (fun x => { s with ports := s.ports.set p x }) h

@[simp] theorem modPort_slot (s : State) (p : Port) (f : PortState → PortState) (n : SlotNo) :
    (s.modPort p f).slot n = s.slot n := rfl

@[simp] theorem modPort_block (s : State) (p : Port) (f : PortState → PortState) (b : BlockNo) :
    (s.modPort p f).block b = s.block b := rfl

@[simp] theorem modPort_entry (s : State) (p : Port) (f : PortState → PortState) (id : Nat) :
    (s.modPort p f).entry id = s.entry id := rfl

/-! ### One slot replaced -/

@[simp] theorem setSlot_ports (s : State) (n : SlotNo) (c : Option Call) : (s.setSlot n c).ports = s.ports := rfl

@[simp] theorem setSlot_slots (s : State) (n : SlotNo) (c : Option Call) : (s.setSlot n c).slots = s.slots.set n c := rfl

@[simp] theorem setSlot_posts (s : State) (n : SlotNo) (c : Option Call) : (s.setSlot n c).posts = s.posts := rfl

@[simp] theorem setSlot_directory (s : State) (n : SlotNo) (c : Option Call) : (s.setSlot n c).directory = s.directory := rfl

@[simp] theorem setSlot_blocks (s : State) (n : SlotNo) (c : Option Call) : (s.setSlot n c).blocks = s.blocks := rfl

@[simp] theorem setSlot_mem (s : State) (n : SlotNo) (c : Option Call) : (s.setSlot n c).mem = s.mem := rfl

@[simp] theorem setSlot_scrubQueue (s : State) (n : SlotNo) (c : Option Call) : (s.setSlot n c).scrubQueue = s.scrubQueue := rfl

@[simp] theorem setSlot_scrubBusy (s : State) (n : SlotNo) (c : Option Call) : (s.setSlot n c).scrubBusy = s.scrubBusy := rfl

@[simp] theorem setSlot_ready (s : State) (n : SlotNo) (c : Option Call) : (s.setSlot n c).ready = s.ready := rfl

@[simp] theorem setSlot_phase (s : State) (n : SlotNo) (c : Option Call) : (s.setSlot n c).phase = s.phase := rfl

@[simp] theorem setSlot_resetHigh (s : State) (n : SlotNo) (c : Option Call) : (s.setSlot n c).resetHigh = s.resetHigh := rfl

@[simp] theorem setSlot_powered (s : State) (n : SlotNo) (c : Option Call) : (s.setSlot n c).powered = s.powered := rfl

@[simp] theorem setSlot_freeCount (s : State) (n : SlotNo) (c : Option Call) : (s.setSlot n c).freeCount = s.freeCount := rfl

@[simp] theorem setSlot_pending (s : State) (n : SlotNo) (c : Option Call) : (s.setSlot n c).pending = s.pending := rfl

@[simp] theorem setSlot_slot_self (s : State) (n : SlotNo) (c : Option Call) : (s.setSlot n c).slot n = c := by
  simp [State.slot]

theorem setSlot_slot (s : State) (n m : SlotNo) (c : Option Call) :
    (s.setSlot n c).slot m = if n = m then c else s.slot m := by
  simp [State.slot, Table.get_set]

@[simp] theorem setSlot_port (s : State) (n : SlotNo) (c : Option Call) (p : Port) : (s.setSlot n c).port p = s.port p :=
  rfl

@[simp] theorem setSlot_block (s : State) (n : SlotNo) (c : Option Call) (b : BlockNo) :
    (s.setSlot n c).block b = s.block b := rfl

/-! ### A lease's blocks changed -/

@[simp] theorem modLease_ports (s : State) (l : Option Lease) (f : Block → Block) : (s.modLease l f).ports = s.ports := by
  cases l <;> rfl

@[simp] theorem modLease_slots (s : State) (l : Option Lease) (f : Block → Block) : (s.modLease l f).slots = s.slots := by
  cases l <;> rfl

@[simp] theorem modLease_posts (s : State) (l : Option Lease) (f : Block → Block) : (s.modLease l f).posts = s.posts := by
  cases l <;> rfl

@[simp] theorem modLease_directory (s : State) (l : Option Lease) (f : Block → Block) : (s.modLease l f).directory = s.directory := by
  cases l <;> rfl

@[simp] theorem modLease_mem (s : State) (l : Option Lease) (f : Block → Block) : (s.modLease l f).mem = s.mem := by
  cases l <;> rfl

@[simp] theorem modLease_scrubQueue (s : State) (l : Option Lease) (f : Block → Block) : (s.modLease l f).scrubQueue = s.scrubQueue := by
  cases l <;> rfl

@[simp] theorem modLease_scrubBusy (s : State) (l : Option Lease) (f : Block → Block) : (s.modLease l f).scrubBusy = s.scrubBusy := by
  cases l <;> rfl

@[simp] theorem modLease_ready (s : State) (l : Option Lease) (f : Block → Block) : (s.modLease l f).ready = s.ready := by
  cases l <;> rfl

@[simp] theorem modLease_phase (s : State) (l : Option Lease) (f : Block → Block) : (s.modLease l f).phase = s.phase := by
  cases l <;> rfl

@[simp] theorem modLease_resetHigh (s : State) (l : Option Lease) (f : Block → Block) : (s.modLease l f).resetHigh = s.resetHigh := by
  cases l <;> rfl

@[simp] theorem modLease_powered (s : State) (l : Option Lease) (f : Block → Block) : (s.modLease l f).powered = s.powered := by
  cases l <;> rfl

@[simp] theorem modLease_freeCount (s : State) (l : Option Lease) (f : Block → Block) : (s.modLease l f).freeCount = s.freeCount := by
  cases l <;> rfl

@[simp] theorem modLease_pending (s : State) (l : Option Lease) (f : Block → Block) : (s.modLease l f).pending = s.pending := by
  cases l <;> rfl

/-- The block table after a change of a lease's blocks. -/
theorem modLease_blocks (s : State) (l : Option Lease) (f : Block → Block) :
    (s.modLease l f).blocks = s.blocks.map fun b k => if l.any (·.covers b) = true then f k else k := by
  cases l
  · ext b : 1; simp [State.modLease]
  · rfl

@[simp] theorem modLease_port (s : State) (l : Option Lease) (f : Block → Block) (p : Port) :
    (s.modLease l f).port p = s.port p := by
  simp [State.port]

@[simp] theorem modLease_slot (s : State) (l : Option Lease) (f : Block → Block) (n : SlotNo) :
    (s.modLease l f).slot n = s.slot n := by
  simp [State.slot]

theorem modLease_block (s : State) (l : Option Lease) (f : Block → Block) (b : BlockNo) :
    (s.modLease l f).block b = if l.any (·.covers b) = true then f (s.block b) else s.block b := by
  simp only [State.block, modLease_blocks, Table.get_map]

/-! ### The scrub queue -/

@[simp] theorem startScrub_ports (s : State) : s.startScrub.ports = s.ports := rfl

@[simp] theorem startScrub_slots (s : State) : s.startScrub.slots = s.slots := rfl

@[simp] theorem startScrub_posts (s : State) : s.startScrub.posts = s.posts := rfl

@[simp] theorem startScrub_directory (s : State) : s.startScrub.directory = s.directory := rfl

@[simp] theorem startScrub_blocks (s : State) : s.startScrub.blocks = s.blocks := rfl

@[simp] theorem startScrub_mem (s : State) : s.startScrub.mem = s.mem := rfl

@[simp] theorem startScrub_scrubQueue (s : State) : s.startScrub.scrubQueue = s.scrubQueue := rfl

@[simp] theorem startScrub_ready (s : State) : s.startScrub.ready = s.ready := rfl

@[simp] theorem startScrub_phase (s : State) : s.startScrub.phase = s.phase := rfl

@[simp] theorem startScrub_resetHigh (s : State) : s.startScrub.resetHigh = s.resetHigh := rfl

@[simp] theorem startScrub_powered (s : State) : s.startScrub.powered = s.powered := rfl

@[simp] theorem startScrub_freeCount (s : State) : s.startScrub.freeCount = s.freeCount := rfl

@[simp] theorem startScrub_pending (s : State) : s.startScrub.pending = s.pending := rfl

@[simp] theorem appendScrub_ports (s : State) (bs : List BlockNo) : (s.appendScrub bs).ports = s.ports := rfl

@[simp] theorem appendScrub_slots (s : State) (bs : List BlockNo) : (s.appendScrub bs).slots = s.slots := rfl

@[simp] theorem appendScrub_posts (s : State) (bs : List BlockNo) : (s.appendScrub bs).posts = s.posts := rfl

@[simp] theorem appendScrub_directory (s : State) (bs : List BlockNo) : (s.appendScrub bs).directory = s.directory := rfl

@[simp] theorem appendScrub_blocks (s : State) (bs : List BlockNo) : (s.appendScrub bs).blocks = s.blocks := rfl

@[simp] theorem appendScrub_mem (s : State) (bs : List BlockNo) : (s.appendScrub bs).mem = s.mem := rfl

@[simp] theorem appendScrub_scrubQueue (s : State) (bs : List BlockNo) :
    (s.appendScrub bs).scrubQueue = s.scrubQueue ++ bs := rfl

@[simp] theorem appendScrub_ready (s : State) (bs : List BlockNo) : (s.appendScrub bs).ready = s.ready := rfl

@[simp] theorem appendScrub_phase (s : State) (bs : List BlockNo) : (s.appendScrub bs).phase = s.phase := rfl

@[simp] theorem appendScrub_resetHigh (s : State) (bs : List BlockNo) : (s.appendScrub bs).resetHigh = s.resetHigh := rfl

@[simp] theorem appendScrub_powered (s : State) (bs : List BlockNo) : (s.appendScrub bs).powered = s.powered := rfl

@[simp] theorem appendScrub_freeCount (s : State) (bs : List BlockNo) : (s.appendScrub bs).freeCount = s.freeCount := rfl

@[simp] theorem appendScrub_pending (s : State) (bs : List BlockNo) : (s.appendScrub bs).pending = s.pending := rfl

end Sys2Proof.Machine
end

