-- ==== Sys2Proof/Laws/Link.lean ====
section
/-! SUPPORT. What the shared operations of the link port do: every outcome of the answer to a frame, said once. -/

namespace Sys2Proof.Machine

@[simp] theorem refuse_fst (st : Status) (s : State) : (refuse st s).1 = s := rfl
@[simp] theorem refuse_snd (st : Status) (s : State) : (refuse st s).2 = { status := st, body := [] } := rfl
@[simp] theorem refuseWith_fst (st : Status) (b : List Byte) (s : State) : (refuseWith st b s).1 = s := rfl
@[simp] theorem refuseWith_snd (st : Status) (b : List Byte) (s : State) :
    (refuseWith st b s).2 = { status := st, body := b } := rfl
@[simp] theorem reply_fst (st : Status) (b : List Byte) (s : State) : (reply st b s).1 = s := rfl
@[simp] theorem reply_snd (st : Status) (b : List Byte) (s : State) : (reply st b s).2 = { status := st, body := b } :=
  rfl

/-- The link receives a frame exactly with power on, RESET# and PRST# high, the assembler in REQUEST, and the bits received
so far the beginning of the frame's, with some still to come. -/
theorem receiving_iff (s : State) (p : Port) (bytes : List Byte) :
    s.receiving p bytes = true ↔
      s.powered = true ∧ s.resetHigh = true ∧ (s.port p).prst = true ∧
      ∃ shown received rest,
        (s.port p).asm = .request shown received ∧ bitsOf bytes = received ++ rest ∧ rest ≠ [] := by
  have h : ∀ (a : Assembler) (bits : List Bool),
      a.awaits bits = true ↔ ∃ shown received rest, a = .request shown received ∧ bits = received ++ rest ∧ rest ≠ [] := by
    intro a bits
    cases a with
    | request v received =>
      simp only [Assembler.awaits, Bool.and_eq_true, List.isPrefixOf_iff_prefix, decide_eq_true_eq]
      constructor
      · rintro ⟨⟨rest, h⟩, hl⟩
        refine ⟨v, received, rest, rfl, h.symm, ?_⟩
        rintro rfl
        rw [← h, List.append_nil] at hl; omega
      · rintro ⟨v', received', rest, e, h, hr⟩
        cases e
        refine ⟨⟨rest, h.symm⟩, ?_⟩
        have := List.length_pos_of_ne_nil hr
        rw [h, List.length_append]; omega
    | _ => simp [Assembler.awaits]
  simp [State.receiving, State.linkLive, h, and_assoc]

theorem isHeld_iff (m : PortMode) : m.isHeld = true ↔ ∃ n, m = .held n := by
  cases m <;> simp [PortMode.isHeld]

theorem isOnline_iff (m : PortMode) : m.isOnline = true ↔ ∃ o, m = .online o := by
  cases m <;> simp [PortMode.isOnline]

@[simp] theorem online_modPort (s : State) (p q : Port) (f : PortState → PortState)
    (h : (f (s.port p)).mode = (s.port p).mode) : (s.modPort p f).online q = s.online q := by
  simp only [State.online, modPort_port]
  split
  · next e => subst e; rw [h]
  · rfl

theorem whenOnline_online {p : Port} {act : State → State × Reply} {s : State} (h : s.online p = true) :
    whenOnline p act s = act s := by
  simp [whenOnline, h]

theorem whenOnline_not {p : Port} {act : State → State × Reply} {s : State} (h : s.online p = false) :
    whenOnline p act s = refuse .offline s := by
  simp [whenOnline, h]

/-- The summary byte depends on five of its port's fields, and on no field of the link but LAST_FRAME_BAD (R179). -/
theorem summary_modPort_self (s : State) (p : Port) (f : PortState → PortState)
    (h1 : (f (s.port p)).mode = (s.port p).mode) (h2 : (f (s.port p)).lastFrameBad = (s.port p).lastFrameBad)
    (h3 : (f (s.port p)).nest = (s.port p).nest) (h4 : (f (s.port p)).stack = (s.port p).stack)
    (h5 : (f (s.port p)).notices = (s.port p).notices) : (s.modPort p f).summary p = s.summary p := by
  have hu : ∀ id, (s.modPort p f).underLimit id = s.underLimit id := fun _ => rfl
  have hw : (s.modPort p f).waiting p = s.waiting p := by
    simp only [State.waiting, State.eligibleCall, PortState.canTake, PortState.outranks, modPort_port_self, modPort_slots,
      hu, h1, h3, h4]
  simp only [State.summary, hw, modPort_port_self, modPort_ready, h1, h2, h3, h4, h5]

/-! ### The outcomes of a frame whose check byte verifies (R173) -/

/-- A frame that the link is not receiving changes nothing. -/
theorem answer_ignored {s : State} {p : Port} {code : Byte} {params : List Byte}
    (h : s.receiving p (requestBytes code params) = false) (ok : Bool) (act : State → State × Reply) :
    s.answer p code params ok act = s := by
  simp [State.answer, h]

variable {s : State} {p : Port} {code : Byte} {params : List Byte}

/-- A HELD port's frame is answered HELD, whatever it holds. -/
theorem answer_held (h : s.receiving p (requestBytes code params) = true) (hh : (s.port p).mode.isHeld = true)
    (ok : Bool) (act : State → State × Reply) :
    s.answer p code params ok act =
      (s.receive p (requestBytes code params)).startReply p (s.lastShown p (requestBytes code params))
        { status := .held, body := [] } := by
  simp [State.answer, h, hh]

/-- A length that the command does not allow. -/
theorem answer_badLength (h : s.receiving p (requestBytes code params) = true) (hh : (s.port p).mode.isHeld = false)
    (act : State → State × Reply) :
    s.answer p code params false act =
      ((if isStatusCode code then (s.receive p (requestBytes code params)).setFrameBad p false
        else ((s.receive p (requestBytes code params)).setFrameBad p false).recordReply p code
          { status := .badLength, body := [] })).startReply p (s.lastShown p (requestBytes code params))
        { status := .badLength, body := [] } := by
  simp only [State.answer, h, hh, if_true]
  rfl

/-- A frame that is taken: its last bit is sampled, LAST_FRAME_BAD is cleared, then the command acts, then its reply is
recorded, but for the status commands, and begins. -/
theorem answer_taken (h : s.receiving p (requestBytes code params) = true) (hh : (s.port p).mode.isHeld = false)
    (act : State → State × Reply) {r : State × Reply}
    (hr : act ((s.receive p (requestBytes code params)).setFrameBad p false) = r) :
    s.answer p code params true act =
      (if isStatusCode code then r.1 else r.1.recordReply p code r.2).startReply p
        (s.lastShown p (requestBytes code params)) r.2 := by
  subst hr
  simp only [State.answer, h, hh, if_true]
  rfl

/-- The record and the reply that a taken command leaves on its port. -/
theorem recordReply_startReply (s : State) (p : Port) (code shown : Byte) (r : Reply) :
    (s.recordReply p code r).startReply p shown r =
      s.modPort p fun ps =>
        { ps with
          record := some { number := nextNumber ps.record, code := code, status := r.status, body := r.body }
          asm := .reply shown 8 r.bytes r.stream } := by
  simp [State.recordReply, State.startReply]

/-- A command other than the four status commands, taken: its effect, then its reply recorded and begun. -/
theorem runCommand_recorded (h : s.receiving p (requestBytes code params) = true)
    (hh : (s.port p).mode.isHeld = false) (hl : lengthAllowed code params.length = true)
    (hc : isStatusCode code = false) (act : State → State × Reply) {r : State × Reply}
    (hr : act ((s.receive p (requestBytes code params)).setFrameBad p false) = r) :
    s.runCommand p code params act =
      r.1.modPort p fun ps =>
        { ps with
          record := some { number := nextNumber ps.record, code := code, status := r.2.status, body := r.2.body }
          asm := .reply (s.lastShown p (requestBytes code params)) 8 r.2.bytes r.2.stream } := by
  rw [State.runCommand, hl, answer_taken h hh act hr, hc]
  exact recordReply_startReply _ _ _ _ _

/-- A status command, taken: its reply begins, and no record is replaced. -/
theorem runCommand_status (h : s.receiving p (requestBytes code params) = true)
    (hh : (s.port p).mode.isHeld = false) (hl : lengthAllowed code params.length = true)
    (hc : isStatusCode code = true) (act : State → State × Reply) {r : State × Reply}
    (hr : act ((s.receive p (requestBytes code params)).setFrameBad p false) = r) :
    s.runCommand p code params act =
      r.1.modPort p fun ps =>
        { ps with asm := .reply (s.lastShown p (requestBytes code params)) 8 r.2.bytes r.2.stream } := by
  rw [State.runCommand, hl, answer_taken h hh act hr, hc]
  rfl

@[simp] theorem setFrameBad_port_self (s : State) (p : Port) (bad : Bool) :
    (s.setFrameBad p bad).port p = { s.port p with lastFrameBad := bad } := by
  simp [State.setFrameBad]

@[simp] theorem setFrameBad_online (s : State) (p q : Port) (bad : Bool) : (s.setFrameBad p bad).online q = s.online q := by
  simp [State.setFrameBad]

end Sys2Proof.Machine
end

