-- ==== Sys2Proof/Laws/Answers.lean ====
section
/-! SUPPORT. The answer to a frame in the words of the statements: from what a command's effect answers on the port with
LAST_FRAME_BAD clear, what the whole frame leaves. Every statement about one command goes through one of these. The formats
that the statements write out from the spec are the model's encodings. -/

namespace Sys2Proof.Statement

open Sys2Proof Sys2Proof.Machine

/-! ### The formats of the statements are the model's encodings -/

@[simp] theorem statusValue_eq (st : Status) : statusValue st = st.byte := by cases st <;> rfl

@[simp] theorem checkShift_eq (r : Byte) : checkShift r = crcShift r := rfl

@[simp] theorem checkValue_eq (bytes : List Byte) : checkValue bytes = crc8 bytes := rfl

@[simp] theorem stateValue_eq (c : CallState) : stateValue c = callStateByte c := by cases c <;> rfl

@[simp] theorem reasonValue_eq (why : Failure) : reasonValue why = failureByte why := by cases why <;> rfl

@[simp] theorem modeValue_eq (m : LeaseMode) : modeValue m = modeByte m := by cases m <;> rfl

@[simp] theorem noticeRecord_eq (k : Notice) : noticeRecord k = noticeBytes k := by
  cases k <;> simp only [noticeRecord, noticeBytes, reasonValue_eq] <;> rfl

@[simp] theorem readTail_eq (valid : Nat) (lost : Bool) : readTail valid lost = tailBytes valid lost := by cases lost <;> rfl

@[simp] theorem sent_eq (bytes : List Byte) : sent bytes = bitsOf bytes := rfl

@[simp] theorem head_eq (code : Byte) (params : List Byte) : head code params = requestHead code params := rfl

@[simp] theorem frame_eq (code : Byte) (params : List Byte) : frame code params = requestBytes code params := rfl

/-- The reply that is due is the one that the model's reply begins. -/
theorem due_eq (req : Request) (st : Status) (body : List Byte) :
    due req st body =
      .reply req.shown 8 (Reply.bytes { status := st, body := body }) (Reply.stream { status := st, body := body }) := by
  rw [due, replyBytes, statusValue_eq, checkValue_eq]; rfl

@[simp] theorem allocatedOf_eq (s : State) (p : Port) : allocatedOf s p = s.allocatedCount p := rfl

@[simp] theorem inServiceOf_eq (s : State) (id : Nat) : inServiceOf s id = s.inServiceCount id := by
  unfold inServiceOf State.inServiceCount
  congr 1; funext c
  cases c with
  | none => rfl
  | some c => simp only [Option.any_some, Call.isInService]; cases c.state <;> rfl

@[simp] theorem pendingOf_eq (s : State) (id : Nat) : pendingOf s id = s.pendingCount id := by
  unfold pendingOf State.pendingCount
  congr 1; funext c
  cases c with
  | none => rfl
  | some c => simp only [Option.any_some, Call.isPending]; cases c.state <;> rfl

/-! ### The hypotheses of the statements, as the model's tests -/

theorem receiving_of_receives {s : State} {p : Port} {bytes : List Byte} {req : Request} (h : Receives s p bytes req) :
    s.receiving p bytes = true := by
  obtain ⟨h1, h2, h3, v, received, rest, h4, h5, h6, _⟩ := h
  exact (receiving_iff s p bytes).2 ⟨h1, h2, h3, v, received, rest, h4, h5, h6⟩

theorem receives_of_receiving {s : State} {p : Port} {bytes : List Byte} (h : s.receiving p bytes = true) :
    ∃ req, Receives s p bytes req := by
  obtain ⟨h1, h2, h3, v, received, rest, h4, h5, h6⟩ := (receiving_iff s p bytes).1 h
  exact ⟨_, h1, h2, h3, v, received, rest, h4, h5, h6, rfl⟩

theorem not_receiving {s : State} {p : Port} {bytes : List Byte} (h : ∀ req, ¬Receives s p bytes req) :
    s.receiving p bytes = false := by
  by_contra hc
  obtain ⟨req, hr⟩ := receives_of_receiving (by simpa using hc)
  exact h req hr

/-- The rest of a request's bits, in the statements' words. -/
theorem lastShown_eq {s : State} {p : Port} {bytes : List Byte} {req : Request} (h : Receives s p bytes req) :
    s.lastShown p bytes = req.shown := by
  obtain ⟨_, _, _, v, received, rest, h4, h5, _, rfl⟩ := h
  rw [sent_eq] at h5
  have : (bitsOf bytes).length - received.length = rest.length := by rw [h5, List.length_append]; omega
  simp only [State.lastShown, h4, this]

theorem receive_eq {s : State} {p : Port} {bytes : List Byte} {req : Request} (h : Receives s p bytes req) :
    s.receive p bytes = s.modPort p (sampled req) := by
  have hs := lastShown_eq h
  obtain ⟨_, _, _, v, received, rest, h4, h5, _, rfl⟩ := h
  simp only [State.receive, hs]
  rfl

theorem verified_eq {s : State} {p : Port} {bytes : List Byte} {req : Request} (h : Receives s p bytes req) :
    (s.receive p bytes).setFrameBad p false = s.modPort p (verified req) := by
  rw [receive_eq h, State.setFrameBad, modPort_modPort]; rfl

theorem online_of_isOnline {s : State} {p : Port} (h : IsOnline s p) : s.online p = true := (isOnline_iff _).2 h

theorem not_online_of_not {s : State} {p : Port} (h : ¬IsOnline s p) : s.online p = false := by
  by_contra hc; exact h ((isOnline_iff _).1 (by simpa [State.online] using hc))

theorem not_online_of_offline {s : State} {p : Port} (h : (s.port p).mode = .offline) : s.online p = false := by
  rw [State.online, h]; rfl

theorem not_held_of_online {s : State} {p : Port} (h : IsOnline s p) : (s.port p).mode.isHeld = false := by
  obtain ⟨o, h⟩ := h; rw [h]; rfl

theorem not_held_of_taken {s : State} {p : Port} (h : (s.port p).mode = .offline ∨ IsOnline s p) :
    (s.port p).mode.isHeld = false := by
  rcases h with h | h
  · rw [h]; rfl
  · exact not_held_of_online h

/-! ### The state a command's effect starts from -/

variable {s s' : State} {p : Port} {code : Byte} {params : List Byte} {act : State → State × Reply} {st : Status}
  {body : List Byte} {req : Request}

theorem port_verified (s : State) (p : Port) (req : Request) :
    (s.modPort p (verified req)).port p = verified req (s.port p) := by simp

@[simp] theorem online_verified (s : State) (p q : Port) (req : Request) :
    (s.modPort p (verified req)).online q = s.online q :=
  online_modPort _ _ _ _ rfl

@[simp] theorem verified_stack (req : Request) (ps : PortState) : (verified req ps).stack = ps.stack := rfl
@[simp] theorem verified_nest (req : Request) (ps : PortState) : (verified req ps).nest = ps.nest := rfl
@[simp] theorem verified_mode (req : Request) (ps : PortState) : (verified req ps).mode = ps.mode := rfl
@[simp] theorem verified_notices (req : Request) (ps : PortState) : (verified req ps).notices = ps.notices := rfl
@[simp] theorem verified_cursors (req : Request) (ps : PortState) : (verified req ps).cursors = ps.cursors := rfl
@[simp] theorem verified_record (req : Request) (ps : PortState) : (verified req ps).record = ps.record := rfl
@[simp] theorem verified_staging (req : Request) (ps : PortState) : (verified req ps).staging = ps.staging := rfl
@[simp] theorem verified_sel (req : Request) (ps : PortState) : (verified req ps).sel = ps.sel := rfl
@[simp] theorem verified_prst (req : Request) (ps : PortState) : (verified req ps).prst = ps.prst := rfl
@[simp] theorem verified_rsto (req : Request) (ps : PortState) : (verified req ps).rsto = ps.rsto := rfl
@[simp] theorem verified_bad (req : Request) (ps : PortState) : (verified req ps).lastFrameBad = false := rfl

theorem whenOnline_verified (h : IsOnline s p) (act : State → State × Reply) :
    whenOnline p act (s.modPort p (verified req)) = act (s.modPort p (verified req)) :=
  whenOnline_online (by rw [online_verified]; exact online_of_isOnline h)

/-! ### From a command's effect to its frame -/

/-- A command other than the four status commands: its effect's state, with the reply recorded and due on MISO. -/
theorem runCommand_records (h : Receives s p (frame code params) req) (hh : (s.port p).mode.isHeld = false)
    (hl : lengthAllowed code params.length = true) (hc : isStatusCode code = false)
    (hact : act (s.modPort p (verified req)) = (s', { status := st, body := body })) :
    s.runCommand p code params act =
      s'.modPort p fun ps => { ps with asm := due req st body, record := some (nextRecord ps.record code st body) } := by
  have hr : act ((s.receive p (requestBytes code params)).setFrameBad p false) = _ :=
    (congrArg act (verified_eq h)).trans hact
  rw [runCommand_recorded (receiving_of_receives h) hh hl hc act hr, ← frame_eq, lastShown_eq h]
  refine modPort_congr _ _ ?_
  simp only [due_eq, nextRecord]
  cases (s'.port p).record <;> rfl

/-- The same for an effect that leaves the port's link as the verified check byte left it. -/
theorem runCommand_replies (h : Receives s p (frame code params) req) (hh : (s.port p).mode.isHeld = false)
    (hl : lengthAllowed code params.length = true) (hc : isStatusCode code = false)
    (hact : act (s.modPort p (verified req)) = (s', { status := st, body := body }))
    (hf : verified req (s'.port p) = s'.port p) :
    s.runCommand p code params act = s'.modPort p (replied req code st body) := by
  rw [runCommand_records h hh hl hc hact]
  refine modPort_congr _ _ ?_
  simp only [replied, answered, hf]

/-- The same for a reply that changes nothing else. -/
theorem runCommand_only_replies (h : Receives s p (frame code params) req) (hh : (s.port p).mode.isHeld = false)
    (hl : lengthAllowed code params.length = true) (hc : isStatusCode code = false)
    (hact : act (s.modPort p (verified req)) = (s.modPort p (verified req), { status := st, body := body })) :
    s.runCommand p code params act = s.modPort p (replied req code st body) := by
  rw [runCommand_replies h hh hl hc hact (by simp only [port_verified]; rfl), modPort_modPort]; rfl

/-- The same for an effect on the port's own records. -/
theorem runCommand_changes_port {f : PortState → PortState} (h : Receives s p (frame code params) req)
    (hh : (s.port p).mode.isHeld = false) (hl : lengthAllowed code params.length = true) (hc : isStatusCode code = false)
    (hact : act (s.modPort p (verified req)) =
      ((s.modPort p (verified req)).modPort p f, { status := st, body := body }))
    (hf : ∀ ps, verified req (f (verified req ps)) = f (verified req ps)) :
    s.runCommand p code params act = s.modPort p fun ps => replied req code st body (f (verified req ps)) := by
  rw [runCommand_replies h hh hl hc hact (by simp [hf]), modPort_modPort, modPort_modPort]

/-- A status command: the reply is due on MISO, and nothing is recorded. -/
theorem runCommand_answers (h : Receives s p (frame code params) req) (hh : (s.port p).mode.isHeld = false)
    (hl : lengthAllowed code params.length = true) (hc : isStatusCode code = true)
    (hact : act (s.modPort p (verified req)) = (s.modPort p (verified req), { status := st, body := body })) :
    s.runCommand p code params act = s.modPort p (answered req st body) := by
  have hr : act ((s.receive p (requestBytes code params)).setFrameBad p false) = _ :=
    (congrArg act (verified_eq h)).trans hact
  rw [runCommand_status (receiving_of_receives h) hh hl hc act hr, ← frame_eq, lastShown_eq h, modPort_modPort]
  refine modPort_congr _ _ ?_
  simp only [answered, due_eq]

/-! ### One-byte operands -/

theorem byteOf_toNat {n : Nat} (k : Fin n) (h : n ≤ 256) : (byteOf k.val).toNat = k.val := by
  have := k.isLt
  simp [byteOf]; omega

theorem cursor_operand (k : Fin 2) (l : List Byte) : cursor? (param (byteOf k.val :: l) 0) = some k := by
  have : param (byteOf k.val :: l) 0 = k.val := by simp [param, paramByte, byteOf_toNat k (by omega)]
  rw [this, cursor?, dif_pos k.isLt]

theorem slot_operand (k : SlotNo) (l : List Byte) : slot? (param (byteOf k.val :: l) 0) = some k := by
  have : param (byteOf k.val :: l) 0 = k.val := by simp [param, paramByte, byteOf_toNat k (by omega)]
  rw [this, slot?, dif_pos k.isLt]

theorem port_operand (k : Port) (l : List Byte) : port? (param (byteOf k.val :: l) 0) = some k := by
  have : param (byteOf k.val :: l) 0 = k.val := by simp [param, paramByte, byteOf_toNat k (by omega)]
  rw [this, port?, dif_pos k.isLt]

theorem block_operand (b : BlockNo) : blockOfByte (paramByte [byteOf b.val] 0) = b := by
  apply Fin.ext; simp [blockOfByte, paramByte, byteOf]

/-! ### Streamed reads -/

/-- The eighth bit of the byte on MISO has gone out, in the statements' words. -/
theorem creditByte_eq (s : State) (p : Port) (t : Transfer) : s.creditByte p t = s.modPort p (credited t) := by
  simp only [State.creditByte]
  by_cases hc : t.inFlight = true ∧ t.departed = false
  · simp only [hc.1, hc.2, Bool.not_false, Bool.and_self, if_true, State.setTail, State.modCursor, modPort_modPort]
    refine modPort_congr _ _ ?_
    simp only [credited, if_pos hc, readTail_eq]; rfl
  · have : (t.inFlight && !t.departed) = false := by
      cases h1 : t.inFlight <;> cases h2 : t.departed <;> simp_all
    simp only [this, Bool.false_eq_true, if_false]
    rw [show s.modPort p (credited t) = s.modPort p (fun ps => ps) from
      modPort_congr _ _ (by simp only [credited, if_neg hc]), modPort_id]

end Sys2Proof.Statement
end

