-- ==== Sys2Proof/Laws/Blocks.lean ====
section
/-! SUPPORT. Spans of blocks and runs of FREE blocks: which blocks they hold, which block decides a refusal, and what the
searches of Claim Blocks find. -/

namespace Sys2Proof.Machine

/-! ### Spans -/

/-- A span holds the blocks from its first on. -/
theorem mem_spanBlocks (first count : Nat) (b : BlockNo) :
    b ∈ spanBlocks first count ↔ first ≤ b.val ∧ b.val < first + count := by
  simp only [spanBlocks, List.mem_filterMap, List.mem_range]
  constructor
  · rintro ⟨i, hi, h⟩
    split at h
    · cases h; simp; omega
    · cases h
  · rintro ⟨h1, h2⟩
    refine ⟨b.val - first, by omega, ?_⟩
    have := b.isLt
    rw [dif_pos (by omega)]
    congr 1; apply Fin.ext; simp; omega

/-- A span stands in ascending order. -/
theorem spanBlocks_ascending (first count : Nat) : (spanBlocks first count).Pairwise (· < ·) := by
  simp only [spanBlocks, List.pairwise_filterMap]
  refine (List.pairwise_lt_range (n := count)).imp ?_
  intro a b hab x hx y hy
  split at hx
  · split at hy
    · cases hx; cases hy; exact Fin.lt_def.2 (by simp; omega)
    · cases hy
  · cases hx

/-- The numbers of a span that does not wrap determine it. -/
theorem eq_spanBlocks (first count : Nat) (h : first + count ≤ 256) (bs : List BlockNo)
    (hb : bs.map Fin.val = (List.range count).map (first + ·)) : bs = spanBlocks first count := by
  have : (spanBlocks first count).map Fin.val = (List.range count).map (first + ·) := by
    simp only [spanBlocks, List.map_filterMap]
    rw [← List.filterMap_eq_map]
    refine List.filterMap_congr ?_
    intro i hi
    have := List.mem_range.1 hi
    rw [dif_pos (by omega)]; rfl
  exact (List.map_injective_iff.2 Fin.val_injective) (hb.trans this.symm)

/-- With every block OWNED by the port no block decides a refusal. -/
theorem decidingBlock_none {s : State} {p : Port} {l : List BlockNo} (h : ∀ b ∈ l, s.block b = .owned p) :
    decidingBlock s p l = none := by
  induction l with
  | nil => rfl
  | cons b bs ih =>
    simp only [decidingBlock, if_pos (h b List.mem_cons_self)]
    exact ih fun k hk => h k (List.mem_cons_of_mem _ hk)

/-- The first block that is not OWNED by the port decides. -/
theorem decidingBlock_some {s : State} {p : Port} {l : List BlockNo} {b : BlockNo} {st : Status}
    (hasc : l.Pairwise (· < ·)) (hb : b ∈ l) (h1 : s.block b ≠ .owned p)
    (h2 : ∀ k ∈ l, k.val < b.val → s.block k = .owned p)
    (h3 : st = if (s.block b).owner = some p then .blockBusy else .notOwner) : decidingBlock s p l = some (st, b) := by
  induction l with
  | nil => cases hb
  | cons k ks ih =>
    obtain ⟨ha, hp⟩ := List.pairwise_cons.1 hasc
    rcases List.mem_cons.1 hb with rfl | hb'
    · simp only [decidingBlock, if_neg h1, h3]; split <;> rfl
    · have : s.block k = .owned p := h2 k List.mem_cons_self (ha b hb')
      simp only [decidingBlock, if_pos this]
      exact ih hp hb' fun j hj => h2 j (List.mem_cons_of_mem _ hj)

end Sys2Proof.Machine

namespace Sys2Proof.Statement

open Sys2Proof Sys2Proof.Machine

variable {req : Request}

/-- The refusal of a span, in the statements' words. -/
theorem decidingBlock_of_decides {s : State} {p : Port} {first count : Nat} {b : BlockNo} {st : Status}
    (h : Decides s p first count b st) :
    decidingBlock (s.modPort p (verified req)) p (spanBlocks first count) = some (st, b) := by
  obtain ⟨h1, h2, h3, h4⟩ := h
  refine decidingBlock_some (spanBlocks_ascending _ _) ((mem_spanBlocks _ _ _).2 h1) h2 ?_ h4
  intro k hk hlt
  exact h3 k ((mem_spanBlocks _ _ _).1 hk).1 hlt

/-- No refusal of a span that is OWNED throughout. -/
theorem decidingBlock_of_allOwned {s : State} {p : Port} {first count : Nat} (h : AllOwned s p first count) :
    decidingBlock (s.modPort p (verified req)) p (spanBlocks first count) = none :=
  decidingBlock_none fun b hb => h b ((mem_spanBlocks _ _ _).1 hb).1 ((mem_spanBlocks _ _ _).1 hb).2

/-! ### Runs of FREE blocks -/

/-- The model's test of a run. -/
theorem freeRun_iff (s : State) (p : Port) (count b : Nat) :
    freeRun (s.modPort p (verified req)) count b = true ↔ FreeRun s b count := by
  have : ∀ k : Block, k.isFree = true ↔ k = .free := by intro k; cases k <;> simp [Block.isFree]
  simp only [freeRun, Bool.and_eq_true, decide_eq_true_eq, List.all_eq_true, mem_spanBlocks, FreeRun, this, modPort_block]
  constructor
  · rintro ⟨h1, h2⟩; exact ⟨h1, fun b h3 h4 => h2 b ⟨h3, h4⟩⟩
  · rintro ⟨h1, h2⟩; exact ⟨h1, fun b h => h2 b h.1 h.2⟩

/-- The longest run that the search finds is one of the list, or the one that ends before it, or the best before. -/
theorem longestRun_is_run : ∀ (l : List Block) (cur best : Nat), cur ≤ best →
    (longestRun cur best l = best ∨
      (∃ i n, i + n ≤ l.length ∧ n = longestRun cur best l ∧
        ∀ j, i ≤ j → (hj : j < i + n) → ∀ h, (l[j]'h).isFree = true) ∨
      (∃ n, n ≤ l.length ∧ cur + n = longestRun cur best l ∧ ∀ j, j < n → ∀ h, (l[j]'h).isFree = true)) ∧
    best ≤ longestRun cur best l
  | [], cur, best, h => by simp [longestRun]
  | k :: ks, cur, best, h => by
    simp only [longestRun]
    split
    · next hk =>
      have ih := longestRun_is_run ks (cur + 1) (max best (cur + 1)) (by omega)
      refine ⟨?_, by omega⟩
      rcases ih.1 with h1 | ⟨i, n, h1, h2, h3⟩ | ⟨n, h1, h2, h3⟩
      · by_cases hb : cur + 1 ≤ best
        · left; rw [h1]; omega
        · right; right
          refine ⟨1, by simp, by rw [h1]; omega, ?_⟩
          intro j hj h; have : j = 0 := by omega
          subst this; simpa using hk
      · right; left
        refine ⟨i + 1, n, by simp; omega, h2, ?_⟩
        intro j h4 h5 h6
        obtain ⟨j, rfl⟩ : ∃ j', j = j' + 1 := ⟨j - 1, by omega⟩
        simpa using h3 j (by omega) (by omega) (by simpa using h6)
      · right; right
        refine ⟨n + 1, by simp; omega, by omega, ?_⟩
        intro j hj h
        cases j with
        | zero => simpa using hk
        | succ j => simpa using h3 j (by omega) (by simpa using h)
    · next hk =>
      have ih := longestRun_is_run ks 0 best (by omega)
      refine ⟨?_, ih.2⟩
      rcases ih.1 with h1 | ⟨i, n, h1, h2, h3⟩ | ⟨n, h1, h2, h3⟩
      · left; exact h1
      · right; left
        refine ⟨i + 1, n, by simp; omega, h2, ?_⟩
        intro j h4 h5 h6
        obtain ⟨j, rfl⟩ : ∃ j', j = j' + 1 := ⟨j - 1, by omega⟩
        simpa using h3 j (by omega) (by omega) (by simpa using h6)
      · right; left
        refine ⟨1, n, by simp; omega, by omega, ?_⟩
        intro j h4 h5 h6
        obtain ⟨j, rfl⟩ : ∃ j', j = j' + 1 := ⟨j - 1, by omega⟩
        simpa using h3 j (by omega) (by simpa using h6)

/-- No run of the list is longer than the longest that the search finds. -/
theorem longestRun_is_longest : ∀ (l : List Block) (cur best : Nat),
    (∀ i n, i + n ≤ l.length → (∀ j, i ≤ j → j < i + n → ∀ h, (l[j]'h).isFree = true) → n ≤ longestRun cur best l) ∧
    (∀ n, n ≤ l.length → (∀ j, j < n → ∀ h, (l[j]'h).isFree = true) → cur ≤ best → cur + n ≤ longestRun cur best l) ∧
    best ≤ longestRun cur best l
  | [], cur, best => by simp [longestRun]
  | k :: ks, cur, best => by
    simp only [longestRun]
    split
    · next hk =>
      have ih := longestRun_is_longest ks (cur + 1) (max best (cur + 1))
      refine ⟨?_, ?_, by omega⟩
      · intro i n h1 h2
        cases i with
        | zero =>
          cases n with
          | zero => omega
          | succ n =>
            have := ih.2.1 n (by simp at h1; omega) (fun j hj h => h2 (j+1) (by omega) (by omega) (by simpa using h)) (by omega)
            omega
        | succ i =>
          exact ih.1 i n (by simp at h1; omega) (fun j h3 h4 h => h2 (j+1) (by omega) (by omega) (by simpa using h))
      · intro n h1 h2 h3
        cases n with
        | zero => omega
        | succ n =>
          have := ih.2.1 n (by simp at h1; omega) (fun j hj h => h2 (j+1) (by omega) (by simpa using h)) (by omega)
          omega
    · next hk =>
      have ih := longestRun_is_longest ks 0 best
      refine ⟨?_, ?_, by omega⟩
      · intro i n h1 h2
        cases i with
        | zero =>
          cases n with
          | zero => omega
          | succ n => exact absurd (h2 0 (by omega) (by omega) (by simp)) hk
        | succ i =>
          exact ih.1 i n (by simp at h1; omega) (fun j h3 h4 h => h2 (j+1) (by omega) (by omega) (by simpa using h))
      · intro n h1 h2 h3
        cases n with
        | zero => omega
        | succ n => exact absurd (h2 0 (by omega) (by simp)) hk

/-- A run of the block table as a run of its list. -/
theorem freeRun_items (s : State) (i n : Nat) :
    FreeRun s i n ↔
      i + n ≤ s.blocks.items.length ∧ ∀ j, i ≤ j → j < i + n → ∀ h, (s.blocks.items[j]'h).isFree = true := by
  have hf : ∀ k : Block, k.isFree = true ↔ k = .free := by intro k; cases k <;> simp [Block.isFree]
  have hlen := s.blocks.len
  simp only [FreeRun, hf]
  constructor
  · rintro ⟨h1, h2⟩; exact ⟨by omega, fun j h3 h4 h => h2 ⟨j, by rw [s.blocks.len] at h; exact h⟩ h3 h4⟩
  · rintro ⟨h1, h2⟩; exact ⟨by omega, fun b h3 h4 => h2 b.val h3 h4 (by rw [s.blocks.len]; exact b.isLt)⟩

/-- The lowest run that the search finds. -/
theorem lowestRun_some {s : State} {p : Port} {first count : Nat} (hf : FreeRun s first count) (hc : 1 ≤ count)
    (hlow : ∀ b, b < first → ¬FreeRun s b count) : lowestRun (s.modPort p (verified req)) count = some first := by
  simp only [lowestRun]
  rw [List.find?_range_eq_some]
  refine ⟨(freeRun_iff _ _ _ _).2 hf, ?_, ?_⟩
  · have := hf.1; simp; omega
  · intro j hj
    have := hlow j hj
    rw [← freeRun_iff s p] at this
    simpa using this

/-- The search finds no run when there is none. -/
theorem lowestRun_none {s : State} {p : Port} {count : Nat} (hno : ∀ b, ¬FreeRun s b count) :
    lowestRun (s.modPort p (verified req)) count = none := by
  simp only [lowestRun, List.find?_eq_none]
  intro b _ h
  exact hno b ((freeRun_iff _ _ _ _).1 h)

/-- The longest run of the block table. -/
theorem longestRun_eq {s : State} {longest : Nat} (hex : ∃ b, FreeRun s b longest)
    (hmax : ∀ b, ¬FreeRun s b (longest + 1)) : longestRun 0 0 s.blocks.items = longest := by
  have hm := longestRun_is_longest s.blocks.items 0 0
  have hs := (longestRun_is_run s.blocks.items 0 0 (by omega)).1
  obtain ⟨b, hb⟩ := hex
  have h1 : longest ≤ longestRun 0 0 s.blocks.items := by
    obtain ⟨a1, a2⟩ := (freeRun_items s b longest).1 hb
    exact hm.1 b longest a1 a2
  by_contra hne
  have hlt : longest + 1 ≤ longestRun 0 0 s.blocks.items := by omega
  rcases hs with h | ⟨i, n, e1, e2, e3⟩ | ⟨n, e1, e2, e3⟩
  · omega
  · exact hmax i ((freeRun_items s i (longest + 1)).2 ⟨by omega, fun j h4 h5 h => e3 j h4 (by omega) h⟩)
  · exact hmax 0 ((freeRun_items s 0 (longest + 1)).2 ⟨by omega, fun j _ h5 h => e3 j (by omega) h⟩)

end Sys2Proof.Statement
end

