-- ==== Sys2Proof/Laws/Calls.lean ====
section
/-! SUPPORT. What the operations over the call table do: the changes of a lease, the failure of one call and of several, the
levels of live stack entries, and the pending order. -/

namespace Sys2Proof.Statement

open Sys2Proof Sys2Proof.Machine

variable {req : Request}

/-! ### Leases -/

theorem giveBack_eq : Block.giveBack = returned := by funext k; cases k <;> rfl

theorem lend_eq (q : Port) : Block.lend q = lentTo q := by funext k; cases k <;> rfl

theorem covers_eq (l : Lease) (b : BlockNo) : inLease (some l) b = l.covers b := rfl

/-- A lease's change of the block table, in the statements' words. -/
theorem modLease_eq (s u : State) (l : Option Lease) (f : Block → Block) (h : u.blocks = s.blocks := by rfl) :
    u.modLease l f = { u with blocks := leaseChanged s l f } := by
  cases l with
  | none =>
    have : leaseChanged s none f = s.blocks := by ext b : 1; simp [leaseChanged, inLease]
    rw [this, ← h]; rfl
  | some l => simp only [State.modLease, leaseChanged, h]; rfl

@[simp] theorem leaseChanged_get (s : State) (l : Option Lease) (f : Block → Block) (b : BlockNo) :
    (leaseChanged s l f).get b = if inLease l b then f (s.block b) else s.block b := by
  simp only [leaseChanged, Table.get_map]; rfl

@[simp] theorem returned_returned (k : Block) : returned (returned k) = returned k := by cases k <;> rfl

@[simp] theorem returned_owner (k : Block) : (returned k).owner = k.owner := by cases k <;> rfl

/-- A change of one port, of another, and of the first again, when the first change commutes with the last. -/
theorem modPort_around (u : State) (p q : Port) (g h k : PortState → PortState)
    (hk : ∀ ps, h (g (verified req ps)) = k (g ps)) (hc : ∀ ps, h (verified req ps) = k ps) :
    ((u.modPort p (verified req)).modPort q g).modPort p h = (u.modPort q g).modPort p k := by
  by_cases e : p = q
  · subst e; simp only [modPort_modPort, hk]
  · rw [modPort_comm _ _ _ e, modPort_modPort]
    exact modPort_congr _ _ (hc _)

/-! ### A caller's own slot -/

/-- The slot of a call that the port posted passes the checks of R13, R18 and R20. -/
theorem withOwnCall_own {s : State} {p : Port} {n : SlotNo} {c : Call} (ho : IsOnline s p) (hs : s.slot n = some c)
    (hc : c.caller = p) (act : SlotNo → Call → State → State × Reply) :
    withOwnCall p (slot? (param [byteOf n.val] 0)) act (s.modPort p (verified req)) = act n c (s.modPort p (verified req)) := by
  rw [slot_operand]; simp only [withOwnCall]; rw [whenOnline_verified ho]
  simp [hs, hc]

/-- Any other slot is NOT_CALLER. -/
theorem withOwnCall_other {s : State} {p : Port} {n : SlotNo} (ho : IsOnline s p)
    (h : ∀ c, s.slot n = some c → c.caller ≠ p) (act : SlotNo → Call → State → State × Reply) :
    withOwnCall p (slot? (param [byteOf n.val] 0)) act (s.modPort p (verified req)) =
      refuse .notCaller (s.modPort p (verified req)) := by
  rw [slot_operand]; simp only [withOwnCall]; rw [whenOnline_verified ho]
  simp only [modPort_slot]
  cases hs : s.slot n with
  | none => rfl
  | some c => simp [h c hs]

/-! ### Live stack entries -/

/-- The level of the one live entry that refers to a slot. -/
theorem liveLevel_eq {n : SlotNo} {below above : List StackEntry} {e : StackEntry} (h1 : e.slot = n)
    (h2 : e.orphaned = false) (h3 : ∀ k ∈ below, k.slot = n → k.orphaned = true) :
    liveLevel n (below ++ e :: above) = some below.length := by
  induction below with
  | nil => simp [liveLevel, List.findIdx?_cons, h1, h2]
  | cons k ks ih =>
    have := ih (fun k hk => h3 k (List.mem_cons_of_mem _ hk))
    have hk : (k.slot == n && !k.orphaned) = false := by
      by_cases e : k.slot = n
      · simp [h3 k List.mem_cons_self e]
      · simp [e]
    simp only [liveLevel, List.cons_append, List.findIdx?_cons, hk] at this ⊢
    simp [this]

/-- The one live entry that refers to a slot is orphaned in its place. -/
theorem orphanSlot_eq {n : SlotNo} {below above : List StackEntry} {e : StackEntry} (h1 : e.slot = n)
    (h2 : e.orphaned = false) (h3 : ∀ k ∈ below ++ above, k.slot = n → k.orphaned = true) :
    orphanSlot n (below ++ e :: above) = below ++ { e with orphaned := true } :: above := by
  have key : ∀ l : List StackEntry, (∀ k ∈ l, k.slot = n → k.orphaned = true) →
      (l.map fun e => if e.slot == n && !e.orphaned then { e with orphaned := true } else e) = l := by
    intro l hl
    induction l with
    | nil => rfl
    | cons k ks ih =>
      rw [List.map_cons, ih fun k hk => hl k (List.mem_cons_of_mem _ hk)]
      have hk : (k.slot == n && !k.orphaned) = false := by
        by_cases e : k.slot = n
        · simp [hl k List.mem_cons_self e]
        · simp [e]
      simp only [hk, Bool.false_eq_true, if_false]
  simp only [orphanSlot, List.map_append, List.map_cons, h1, h2, beq_self_eq_true, Bool.not_false, Bool.and_self,
    if_true]
  rw [key below fun k hk => h3 k (List.mem_append_left _ hk), key above fun k hk => h3 k (List.mem_append_right _ hk)]

/-! ### The failure of calls -/

/-- The call is PENDING or IN_SERVICE. -/
def Unended (c : Call) : Prop := c.isPending = true ∨ c.isInService = true

/-- One call fails: all that its slot, its lease and its caller see. -/
theorem failCall_eq {s : State} {n : SlotNo} {c : Call} {w : Failure} (hs : s.slot n = some c) (h : Unended c) :
    s.failCall n w =
      ({ s with
        slots := s.slots.set n (some { c with state := .failed w })
        blocks := leaseChanged s c.lease returned } : State).modPort c.caller (told (.failed n c.tag w)) := by
  simp only [State.failCall, hs]
  rw [if_pos (by simpa [Unended] using h), giveBack_eq,
    modLease_eq s (s.setSlot n (some { c with state := .failed w })) c.lease returned rfl]; rfl

/-- A slot whose call has ended, or that is FREE, does not fail. -/
theorem failCall_ended {s : State} {n : SlotNo} {w : Failure} (h : ∀ c, s.slot n = some c → ¬Unended c) :
    s.failCall n w = s := by
  simp only [State.failCall]
  cases hs : s.slot n with
  | none => rfl
  | some c =>
    have := h c hs
    simp only [Unended, ← Bool.or_eq_true] at this
    exact if_neg this

/-- Of any failure: nothing changes but slots, blocks and notice queues. -/
theorem failCall_frame (s : State) (n : SlotNo) (w : Failure) :
    s.failCall n w =
      { s with
        ports := (s.failCall n w).ports, slots := (s.failCall n w).slots, blocks := (s.failCall n w).blocks } := by
  by_cases h : ∃ c, s.slot n = some c ∧ Unended c
  · obtain ⟨c, hs, hu⟩ := h
    rw [failCall_eq hs hu]; rfl
  · rw [failCall_ended fun c hs hu => h ⟨c, hs, hu⟩]

theorem failCalls_frame (w : Failure) : ∀ (ns : List SlotNo) (s : State),
    s.failCalls w ns =
      { s with
        ports := (s.failCalls w ns).ports, slots := (s.failCalls w ns).slots, blocks := (s.failCalls w ns).blocks }
  | [], _ => rfl
  | n :: ns, s => by
    have h1 := failCall_frame s n w
    have h2 := failCalls_frame w ns (s.failCall n w)
    rw [State.failCalls]
    refine h2.trans ?_
    generalize (s.failCall n w).failCalls w ns = u
    rw [h1]

/-- Of any failures: a port's records but its notice queue stand. -/
theorem failCall_port (s : State) (n : SlotNo) (w : Failure) (p : Port) :
    ∃ l, (s.failCall n w).port p = { s.port p with notices := (s.port p).notices ++ l } := by
  by_cases h : ∃ c, s.slot n = some c ∧ Unended c
  · obtain ⟨c, hs, hu⟩ := h
    rw [failCall_eq hs hu, modPort_port]
    split
    · exact ⟨_, rfl⟩
    · exact ⟨[], by rw [List.append_nil]; rfl⟩
  · rw [failCall_ended fun c hs hu => h ⟨c, hs, hu⟩]
    exact ⟨[], by rw [List.append_nil]⟩

theorem failCalls_port (w : Failure) (p : Port) : ∀ (ns : List SlotNo) (s : State),
    ∃ l, (s.failCalls w ns).port p = { s.port p with notices := (s.port p).notices ++ l }
  | [], s => ⟨[], by rw [List.append_nil]; rfl⟩
  | n :: ns, s => by
    obtain ⟨l, h⟩ := failCall_port s n w p
    obtain ⟨l', h'⟩ := failCalls_port w p ns (s.failCall n w)
    exact ⟨l ++ l', by rw [State.failCalls, h', h, List.append_assoc]⟩

/-- Of any failures: a block stands or goes back to its owner. -/
theorem failCall_block (s : State) (n : SlotNo) (w : Failure) (b : BlockNo) :
    (s.failCall n w).block b = s.block b ∨ (s.failCall n w).block b = returned (s.block b) := by
  by_cases h : ∃ c, s.slot n = some c ∧ Unended c
  · obtain ⟨c, hs, hu⟩ := h
    rw [failCall_eq hs hu, modPort_block]
    simp only [State.block, leaseChanged_get]
    split
    · exact .inr rfl
    · exact .inl rfl
  · rw [failCall_ended fun c hs hu => h ⟨c, hs, hu⟩]; exact .inl rfl

theorem failCalls_block (w : Failure) (b : BlockNo) : ∀ (ns : List SlotNo) (s : State),
    (s.failCalls w ns).block b = s.block b ∨ (s.failCalls w ns).block b = returned (s.block b)
  | [], _ => .inl rfl
  | n :: ns, s => by
    rw [State.failCalls]
    rcases failCall_block s n w b with h | h <;> rcases failCalls_block w b ns (s.failCall n w) with h' | h' <;>
      simp [h, h']

/-- A slot after the failure of one. -/
theorem failCall_slot (s : State) (n m : SlotNo) (w : Failure) :
    (s.failCall n w).slot m =
      if n = m then (s.slot m).map fun c => if c.isPending || c.isInService then { c with state := .failed w } else c
      else s.slot m := by
  by_cases h : ∃ c, s.slot n = some c ∧ Unended c
  · obtain ⟨c, hs, hu⟩ := h
    rw [failCall_eq hs hu, modPort_slot]
    simp only [State.slot, Table.get_set]
    split
    · next e =>
      subst e
      have hs' : s.slots.get n = some c := hs
      have hu' : (c.isPending || c.isInService) = true := by simpa [Unended] using hu
      rw [hs', Option.map_some, if_pos hu']
    · rfl
  · rw [failCall_ended fun c hs hu => h ⟨c, hs, hu⟩]
    split
    · next e =>
      subst e
      cases hs : s.slot n with
      | none => rfl
      | some c =>
        have : ¬(c.isPending || c.isInService) = true := fun hu => h ⟨c, hs, by simpa [Unended] using hu⟩
        simp only [Option.map_some, if_neg this]
    · rfl

/-- A slot after the failure of several: exactly the listed ones that had not ended are FAILED. -/
theorem failCalls_slot (w : Failure) (m : SlotNo) : ∀ (ns : List SlotNo) (s : State),
    (s.failCalls w ns).slot m =
      if m ∈ ns then (s.slot m).map fun c => if c.isPending || c.isInService then { c with state := .failed w } else c
      else s.slot m
  | [], _ => rfl
  | n :: ns, s => by
    rw [State.failCalls, failCalls_slot w m ns, failCall_slot]
    by_cases h1 : n = m
    · subst h1
      simp only [if_true, List.mem_cons, true_or]
      split
      · cases s.slot n with
        | none => rfl
        | some c =>
          simp only [Option.map_some, Option.some.injEq]
          by_cases hu : (c.isPending || c.isInService) = true
          · simp only [if_pos hu]; rfl
          · simp only [if_neg hu]
      · rfl
    · have : m ≠ n := fun e => h1 e.symm
      simp only [if_neg h1, List.mem_cons, this, false_or]

/-- A block of the lease of a listed call that had not ended goes back to its owner. -/
theorem failCalls_returns (w : Failure) (b : BlockNo) : ∀ (ns : List SlotNo) (s : State) (n : SlotNo) (c : Call),
    n ∈ ns → s.slot n = some c → Unended c → inLease c.lease b = true → (s.failCalls w ns).block b = returned (s.block b)
  | [], _, _, _, h, _, _, _ => by cases h
  | m :: ns, s, n, c, h, hs, hu, hl => by
    rw [State.failCalls]
    by_cases e : n = m
    · subst e
      have h1 : (s.failCall n w).block b = returned (s.block b) := by
        rw [failCall_eq hs hu, modPort_block]
        simp only [State.block, leaseChanged_get, hl, if_true]
      rcases failCalls_block w b ns (s.failCall n w) with h' | h' <;> simp [h1, h']
    · have hs' : (s.failCall m w).slot n = some c := by rw [failCall_slot, if_neg fun h => e h.symm, hs]
      have hm : n ∈ ns := (List.mem_cons.1 h).resolve_left e
      rw [failCalls_returns w b ns (s.failCall m w) n c hm hs' hu hl]
      rcases failCall_block s m w b with h' | h' <;> simp [h']

/-- A block outside every listed call's lease stands. -/
theorem failCalls_keeps (w : Failure) (b : BlockNo) : ∀ (ns : List SlotNo) (s : State),
    (∀ n ∈ ns, ∀ c, s.slot n = some c → inLease c.lease b = false) → (s.failCalls w ns).block b = s.block b
  | [], _, _ => rfl
  | m :: ns, s, h => by
    have hm := h m List.mem_cons_self
    have h1 : (s.failCall m w).block b = s.block b := by
      by_cases hu : ∃ c, s.slot m = some c ∧ Unended c
      · obtain ⟨c, hs, hu⟩ := hu
        rw [failCall_eq hs hu, modPort_block]
        simp only [State.block, leaseChanged_get, hm c hs, Bool.false_eq_true, if_false]
      · rw [failCall_ended fun c hs h => hu ⟨c, hs, h⟩]
    rw [State.failCalls, failCalls_keeps w b ns (s.failCall m w), h1]
    intro n hn c hs
    rw [failCall_slot] at hs
    split at hs
    · next e =>
      subst e
      cases hs' : s.slot m with
      | none => rw [hs'] at hs; cases hs
      | some d =>
        rw [hs'] at hs
        simp only [Option.map_some, Option.some.injEq] at hs
        have := hm d hs'
        subst hs
        split <;> exact this
    · exact h n (List.mem_cons_of_mem _ hn) c hs

/-- Distinct calls that have not ended fail: their callers' queues, in the list's order. -/
theorem failCalls_notices (w : Failure) (q : Port) : ∀ (ns : List SlotNo) (s : State), ns.Nodup →
    (∀ n ∈ ns, ∃ c, s.slot n = some c ∧ Unended c) →
    (s.failCalls w ns).port q =
      { s.port q with notices := (s.port q).notices ++ failedNotices s q w ns }
  | [], s, _, _ => by simp [State.failCalls, failedNotices]
  | n :: ns, s, hd, h => by
    obtain ⟨c, hs, hu⟩ := h n List.mem_cons_self
    obtain ⟨hn, hd'⟩ := List.nodup_cons.1 hd
    have hsame : ∀ m ∈ ns, (s.failCall n w).slot m = s.slot m := by
      intro m hm
      rw [failCall_slot, if_neg]
      rintro rfl; exact hn hm
    have hnot : failedNotices (s.failCall n w) q w ns = failedNotices s q w ns := by
      simp only [failedNotices]
      refine List.filterMap_congr ?_
      intro m hm
      rw [hsame m hm]
    have hp : (s.failCall n w).port q =
        { s.port q with notices := (s.port q).notices ++ (if c.caller = q then [.failed n c.tag w] else []) } := by
      rw [failCall_eq hs hu, modPort_port]
      split
      · rfl
      · rw [List.append_nil]; rfl
    rw [State.failCalls, failCalls_notices w q ns (s.failCall n w) hd' fun m hm => by
      rw [hsame m hm]; exact h m (List.mem_cons_of_mem _ hm), hnot, hp]
    have : failedNotices s q w (n :: ns) =
        (if c.caller = q then [Notice.failed n c.tag w] else []) ++ failedNotices s q w ns := by
      simp only [failedNotices, List.filterMap_cons, hs]
      by_cases e : c.caller = q
      · simp only [if_pos e]; rfl
      · simp only [if_neg e]; rfl
    rw [this, List.append_assoc]

/-! ### The pending order -/

theorem insertPending_perm (x : NumberedCall) : ∀ l, (insertPending x l).Perm (x :: l)
  | [] => List.Perm.refl _
  | y :: ys => by
    simp only [insertPending]
    split
    · exact List.Perm.refl _
    · exact ((insertPending_perm x ys).cons y).trans (List.Perm.swap x y ys)

/-- The relation that the pending order is sorted by. -/
def NotAfter (x y : NumberedCall) : Prop :=
  y.2.priority < x.2.priority ∨ (x.2.priority = y.2.priority ∧ x.2.postOrder ≤ y.2.postOrder)

theorem comesBefore_iff (x y : NumberedCall) : comesBefore x y = true ↔ NotAfter x y := by
  simp [comesBefore, NotAfter]

theorem notAfter_total {x y : NumberedCall} (h : ¬NotAfter x y) : NotAfter y x := by
  simp only [NotAfter] at h ⊢; omega

theorem notAfter_trans {x y z : NumberedCall} (h : NotAfter x y) (h' : NotAfter y z) : NotAfter x z := by
  simp only [NotAfter] at h h' ⊢; omega

theorem insertPending_sorted (x : NumberedCall) : ∀ l, l.Pairwise NotAfter → (insertPending x l).Pairwise NotAfter
  | [], _ => by simp [insertPending]
  | y :: ys, h => by
    obtain ⟨h1, h2⟩ := List.pairwise_cons.1 h
    simp only [insertPending]
    split
    · next hc =>
      have hxy := (comesBefore_iff x y).1 hc
      refine List.pairwise_cons.2 ⟨fun z hz => ?_, h⟩
      rcases List.mem_cons.1 hz with rfl | hz
      · exact hxy
      · exact notAfter_trans hxy (h1 z hz)
    · next hc =>
      have hyx := notAfter_total fun e => hc ((comesBefore_iff x y).2 e)
      refine List.pairwise_cons.2 ⟨fun z hz => ?_, insertPending_sorted x ys h2⟩
      rcases List.mem_cons.1 ((insertPending_perm x ys).mem_iff.1 hz) with rfl | hz
      · exact hyx
      · exact h1 z hz

/-- The calls that a test holds of, each with its slot. -/
theorem mem_callsWhere (s : State) (t : Call → Bool) (n : SlotNo) (c : Call) :
    (n, c) ∈ s.callsWhere t ↔ s.slot n = some c ∧ t c = true := by
  simp only [State.callsWhere, List.mem_filterMap, Table.mem_indices]
  constructor
  · rintro ⟨m, hm, h⟩
    cases hs : s.slot m with
    | none => rw [hs] at h; cases h
    | some d =>
      rw [hs] at h
      simp only [Option.map_some, Option.some.injEq, Prod.mk.injEq] at h
      obtain ⟨rfl, rfl⟩ := h
      have hs' : s.slots.get m = some d := hs
      rw [hs'] at hm
      exact ⟨hs, by simpa using hm⟩
  · rintro ⟨hs, ht⟩
    have hs' : s.slots.get n = some c := hs
    exact ⟨n, by rw [hs']; simpa using ht, by rw [hs]; rfl⟩

theorem callsWhere_nodup (s : State) (t : Call → Bool) : ((s.callsWhere t).map Prod.fst).Nodup := by
  have : ∀ l : List SlotNo,
      (l.filterMap fun n => (s.slot n).map fun c => (n, c)).map Prod.fst = l.filter fun n => (s.slot n).isSome := by
    intro l
    induction l with
    | nil => rfl
    | cons n l ih =>
      simp only [List.filterMap_cons, List.filter_cons]
      cases s.slot n with
      | none => simpa using ih
      | some c => simp [ih]
  rw [State.callsWhere, this]
  exact (Table.indices_nodup _ _).filter _

theorem pendingCalls_perm (s : State) (q : Port) :
    (s.pendingCalls q).Perm (s.callsWhere fun c => c.isPending && c.callee == q) := by
  rw [State.pendingCalls]
  generalize (s.callsWhere fun c => c.isPending && c.callee == q) = l
  induction l with
  | nil => exact List.Perm.refl _
  | cons x l ih => exact (insertPending_perm x _).trans (ih.cons x)

/-- The pending order of a port holds exactly its PENDING calls as callee. -/
theorem mem_pendingCalls (s : State) (q : Port) (n : SlotNo) (c : Call) :
    (n, c) ∈ s.pendingCalls q ↔ s.slot n = some c ∧ c.isPending = true ∧ c.callee = q := by
  rw [(pendingCalls_perm s q).mem_iff, mem_callsWhere]; simp

theorem pendingCalls_sorted (s : State) (q : Port) : (s.pendingCalls q).Pairwise NotAfter := by
  rw [State.pendingCalls]
  generalize (s.callsWhere fun c => c.isPending && c.callee == q) = l
  induction l with
  | nil => exact List.Pairwise.nil
  | cons x l ih => exact insertPending_sorted x _ ih

theorem pendingCalls_nodup (s : State) (q : Port) : ((s.pendingCalls q).map Prod.fst).Nodup :=
  ((pendingCalls_perm s q).map _).nodup_iff.2 (callsWhere_nodup s _)

/-- A count over the pending order is a count over the slots. -/
theorem countP_callsWhere (s : State) (t : Call → Bool) (f : Call → Bool) :
    (s.callsWhere t).countP (fun x => f x.2) = s.slots.count fun c => c.any fun c => t c && f c := by
  have key : ∀ l : List SlotNo,
      ((l.filter fun n => (s.slot n).any t).filterMap fun n => (s.slot n).map fun c => (n, c)).countP (fun x => f x.2) =
        (l.map s.slot).countP fun c => c.any fun c => t c && f c := by
    intro l
    induction l with
    | nil => rfl
    | cons n l ih =>
      simp only [List.filter_cons, List.map_cons, List.countP_cons]
      cases hs : s.slot n with
      | none => simpa using ih
      | some c =>
        cases ht : t c <;> cases hf : f c <;> simp [ht, hf, hs, ih]
  have hi : s.slots.items = (List.finRange 32).map s.slot := by
    refine List.ext_getElem (by simp [s.slots.len]) ?_
    intro i h1 h2
    simp [State.slot, Table.get]
  rw [State.callsWhere, Table.indices_eq_filter, Table.count, hi]
  exact key _

/-! ### The search of Take Call -/

/-- The search finds nothing when no call of the order passes both tests. -/
theorem chooseCall_none {s : State} {p : Port} : ∀ {l : List NumberedCall},
    (∀ x ∈ l, (s.port p).outranks x.2.priority = true → s.underLimit x.2.service = false) → chooseCall s p l = none
  | [], _ => rfl
  | x :: xs, h => by
    simp only [chooseCall]
    split
    · rfl
    · next ho =>
      rw [if_neg]
      · exact chooseCall_none fun y hy => h y (List.mem_cons_of_mem _ hy)
      · have := h x List.mem_cons_self (by simpa using ho)
        simp [this]

/-- The search finds the first call that passes both tests, past calls held back by their limit alone. -/
theorem chooseCall_some {s : State} {p : Port} {x : NumberedCall} {after : List NumberedCall}
    (h1 : (s.port p).outranks x.2.priority = true) (h2 : s.underLimit x.2.service = true) :
    ∀ {before : List NumberedCall},
      (∀ y ∈ before, (s.port p).outranks y.2.priority = true ∧ s.underLimit y.2.service = false) →
      chooseCall s p (before ++ x :: after) = some x
  | [], _ => by simp [chooseCall, h1, h2]
  | y :: ys, h => by
    obtain ⟨h3, h4⟩ := h y List.mem_cons_self
    simp only [List.cons_append, chooseCall, h3, h4, Bool.true_eq_false, Bool.false_eq_true, if_false]
    exact chooseCall_some h1 h2 fun z hz => h z (List.mem_cons_of_mem _ hz)

end Sys2Proof.Statement
end

