-- ==== Sys2Proof/Laws/Clock.lean ====
section
/-! SUPPORT. What an edge of SCK and an empty queue can do, said once: which fields they leave alone, and that they answer. -/

namespace Sys2Proof.Machine

/-- The fields of a port that its link's clocking changes: pins, assembler, cursors, last-reply record and staging buffer. -/
structure Clocked where
  sck : Bool
  mosi : Bool
  asm : Assembler
  cursors : Table Cursor 2
  record : Option LastReply
  staging : List Byte

/-- A port's state with those fields. -/
def Clocked.on (k : Clocked) (ps : PortState) : PortState :=
  { ps with
    sck := k.sck, mosi := k.mosi, asm := k.asm, cursors := k.cursors, record := k.record, staging := k.staging }

/-- Those fields of a port's state. -/
def Clocked.of (ps : PortState) : Clocked := ⟨ps.sck, ps.mosi, ps.asm, ps.cursors, ps.record, ps.staging⟩

theorem Clocked.of_on (k : Clocked) (ps : PortState) : Clocked.of (k.on ps) = k := rfl

theorem Clocked.on_on (k m : Clocked) (ps : PortState) : k.on (m.on ps) = k.on ps := rfl

/-- The second state is the first, but for those fields of one port. -/
def OnlyClocked (p : Port) (s t : State) : Prop := ∃ k : Clocked, t = s.modPort p k.on

theorem OnlyClocked.refl (p : Port) (s : State) : OnlyClocked p s s :=
  ⟨.of (s.port p), (modPort_id s p).symm.trans (modPort_congr _ _ rfl)⟩

theorem OnlyClocked.trans {p : Port} {s t u : State} (h : OnlyClocked p s t) (h' : OnlyClocked p t u) : OnlyClocked p s u := by
  obtain ⟨k, rfl⟩ := h
  obtain ⟨m, rfl⟩ := h'
  exact ⟨m, by rw [modPort_modPort]; rfl⟩

theorem OnlyClocked.modPort {p : Port} {s t : State} (h : OnlyClocked p s t) {f : PortState → PortState}
    (hf : ∀ ps, f ps = (Clocked.of (f ps)).on ps) : OnlyClocked p s (t.modPort p f) :=
  h.trans ⟨.of (f (t.port p)), modPort_congr _ _ (hf _)⟩

theorem onlyClocked_setTail (s : State) (p : Port) (count : Nat) (lost : Bool) : OnlyClocked p s (s.setTail p count lost) :=
  (OnlyClocked.refl p s).modPort fun _ => rfl

theorem onlyClocked_creditByte (s : State) (p : Port) (t : Transfer) : OnlyClocked p s (s.creditByte p t) := by
  unfold State.creditByte
  split
  · exact ((OnlyClocked.refl p s).modPort fun _ => rfl).trans (onlyClocked_setTail _ p _ _)
  · exact .refl p s

theorem onlyClocked_beginDataByte (s : State) (p : Port) (t : Transfer) : OnlyClocked p s (s.beginDataByte p t) := by
  unfold State.beginDataByte
  simp only []
  split
  · exact (OnlyClocked.refl p s).modPort fun _ => rfl
  · split
    · exact (OnlyClocked.refl p s).modPort fun _ => rfl
    · exact (onlyClocked_setTail s p _ _).modPort fun _ => rfl

theorem onlyClocked_sckRise (s : State) (p : Port) (level : Bool) : OnlyClocked p s (s.sckRise p level) := by
  unfold State.sckRise
  split
  · exact .refl p s
  · exact (OnlyClocked.refl p s).modPort fun _ => rfl
  · split
    · exact (OnlyClocked.refl p s).modPort fun _ => rfl
    · unfold State.byteShifted
      split
      · exact (OnlyClocked.refl p s).modPort fun _ => rfl
      · exact (OnlyClocked.refl p s).modPort fun _ => rfl
      · exact (onlyClocked_creditByte s p _).modPort fun _ => rfl
  · exact (OnlyClocked.refl p s).modPort fun _ => rfl

theorem onlyClocked_sckFall (s : State) (p : Port) : OnlyClocked p s (s.sckFall p) := by
  unfold State.sckFall
  split
  · exact .refl p s
  · split
    · exact (OnlyClocked.refl p s).modPort fun _ => rfl
    · exact .refl p s
  · split
    · unfold State.nextReplyByte
      split
      · exact (OnlyClocked.refl p s).modPort fun _ => rfl
      · split
        · exact onlyClocked_beginDataByte s p _
        · unfold State.beginTail; exact (OnlyClocked.refl p s).modPort fun _ => rfl
      · exact .refl p s
    · exact .refl p s
  · split
    · exact (OnlyClocked.refl p s).modPort fun _ => rfl
    · exact .refl p s

/-- An edge of SCK changes nothing but its port's pins, assembler, cursors, last-reply record and staging buffer. -/
theorem onlyClocked_sckEdge (s : State) (p : Port) (level : Bool) : OnlyClocked p s (s.sckEdge p level) := by
  have h : OnlyClocked p s (s.modPort p fun ps => { ps with sck := !ps.sck, mosi := level }) :=
    (OnlyClocked.refl p s).modPort fun _ => rfl
  unfold State.sckEdge
  simp only []
  split
  · exact h.trans (onlyClocked_sckFall _ p)
  · exact h.trans (onlyClocked_sckRise _ p level)

/-- So do any number of edges. -/
theorem onlyClocked_sckEdges (p : Port) : ∀ (edges : List Bool) (s : State), OnlyClocked p s (s.sckEdges p edges)
  | [], s => .refl p s
  | level :: levels, s => (onlyClocked_sckEdge s p level).trans (onlyClocked_sckEdges p levels _)

/-- READ_DATA_BYTE is clocking and no more. -/
theorem execReadDataByte_next (p : Port) (s : State) : ∃ t, execReadDataByte p s = .next t ∧ OnlyClocked p s t := by
  refine ⟨_, rfl, ?_⟩
  split
  · split
    · exact ((onlyClocked_creditByte s p _).modPort fun _ => rfl).trans (onlyClocked_beginDataByte _ p _)
    · exact .refl p s
  · exact .refl p s

/-- A bit that completes no byte stages none. -/
theorem stagedAfter_partial {received : List Bool} {level : Bool}
    (h : bytesOfBits (received ++ [level]) = bytesOfBits received) (staging : List Byte) :
    stagedAfter received level staging = staging := by
  simp only [stagedAfter, h, List.drop_length]

/-- The bit that completes a byte after `code`, `len`, a cursor number and some data stages it when it is a data byte of a
Write Data, for which there is a place. -/
theorem stagedAfter_byte {received : List Bool} {level : Bool} {code len cursor b : Byte} {data : List Byte}
    (h1 : bytesOfBits received = code :: len :: cursor :: data)
    (h2 : bytesOfBits (received ++ [level]) = bytesOfBits received ++ [b]) (staging : List Byte) :
    stagedAfter received level staging =
      if code = 0x4B ∧ data.length + 1 < len.toNat ∧ data.length < 248 ∧ data.length ≤ staging.length then
        staging.take data.length ++ [b]
      else staging := by
  simp only [stagedAfter, h1, h2, List.cons_append, writeDataBytes, Config.stagingSize]
  by_cases hc : code = 0x4B
  · simp only [hc, if_true, true_and]
    by_cases hn : data.length < min (len.toNat - 1) 248
    · have e1 : data.take (min (len.toNat - 1) 248) = data := List.take_of_length_le (by omega)
      have e2 : (data ++ [b]).take (min (len.toNat - 1) 248) = data ++ [b] :=
        List.take_of_length_le (by simp only [List.length_append, List.length_singleton]; omega)
      simp only [e1, e2, List.drop_left]
      have : data.length + 1 < len.toNat ∧ data.length < 248 := by omega
      simp only [this.1, this.2, true_and]
    · have e : (data ++ [b]).take (min (len.toNat - 1) 248) = data.take (min (len.toNat - 1) 248) :=
        List.take_append_of_le_length (by omega)
      rw [e, List.drop_length]
      have : ¬(data.length + 1 < len.toNat ∧ data.length < 248 ∧ data.length ≤ staging.length) := by omega
      simp only [if_neg this]
  · simp only [hc, if_false, false_and, List.drop_nil]

/-- A byte among the first three of a frame is no data byte. -/
theorem stagedAfter_early {received : List Bool} {level : Bool} {b : Byte} (h : (bytesOfBits received).length < 3)
    (h2 : bytesOfBits (received ++ [level]) = bytesOfBits received ++ [b]) (staging : List Byte) :
    stagedAfter received level staging = staging := by
  unfold stagedAfter
  rw [h2]
  match bytesOfBits received, h with
  | [], _ => rfl
  | [_], _ => rfl
  | [_, _], _ => simp [writeDataBytes]

/-- An edge that completes no frame is the edge alone. -/
theorem clock_edge {s : State} {p : Port} {level : Bool} (h : s.completedBy p level = none) :
    s.clock p level = .next (s.sckEdge p level) := by
  simp only [State.clock, h]

/-- An edge that completes a frame is the frame's command. -/
theorem clock_command {s : State} {p : Port} {level : Bool} {c : Instr} (h : s.completedBy p level = some c) :
    s.clock p level = exec c s := by
  simp only [State.clock, h]

/-- The edge completes a frame exactly at a rising edge in REQUEST with which the bits received make a whole frame. -/
theorem completedBy_eq_some {s : State} {p : Port} {level : Bool} {c : Instr} :
    s.completedBy p level = some c ↔
      ∃ shown received, (s.port p).asm = .request shown received ∧ (s.port p).sck = false ∧
        frameCommand p (bytesOfBits (received ++ [level])) = some c := by
  unfold State.completedBy
  cases (s.port p).asm <;> cases (s.port p).sck <;> simp

/-- A step on an empty queue clocks the port that the free value names, or none. -/
theorem step_empty {s : State} (h : s.pending = []) : step s = s.idle := by
  simp only [step, h]

end Sys2Proof.Machine
end

