-- ==== Sys2Proof/Laws/Memory.lean ====
section
/-! SUPPORT. The block memory: what a byte reads as after each memory operation, and that each keeps the canonical form. -/

namespace Sys2Proof.Machine

/-! ### Lists of cells -/

theorem lookupCell_insert (a b : Nat) (v : Byte) (cs : List Host.Cell) :
    lookupCell b (insertCell a v cs) = if b = a then some v else lookupCell b cs := by
  induction cs with
  | nil => simp [insertCell, lookupCell, eq_comm]
  | cons c cs ih =>
    simp only [insertCell]
    split
    · simp [lookupCell, eq_comm]
    · split
      · next h => simp only [lookupCell, ← h]; split <;> simp_all [eq_comm]
      · next h =>
        simp only [lookupCell, ih]
        by_cases hb : b = a
        · subst hb; simp [Ne.symm h]
        · simp [hb]

theorem lookupCell_filter (b : Nat) (t : Nat → Bool) (cs : List Host.Cell) :
    lookupCell b (cs.filter fun c => t c.1) = if t b then lookupCell b cs else none := by
  induction cs with
  | nil => simp [lookupCell]
  | cons c cs ih =>
    by_cases hc : t c.1 = true
    · simp only [List.filter_cons, hc, if_true, lookupCell, ih]
      by_cases hb : c.1 = b
      · subst hb; simp [hc]
      · simp [hb]
    · simp only [List.filter_cons, hc, lookupCell]
      by_cases hb : c.1 = b
      · subst hb; simp [hc, ih]
      · simp [hb, ih]

theorem mem_insertCell (a : Nat) (v : Byte) (cs : List Host.Cell) (x : Host.Cell) :
    x ∈ insertCell a v cs → x = (a, v) ∨ x ∈ cs := by
  induction cs with
  | nil => simp [insertCell]
  | cons c cs ih =>
    simp only [insertCell]
    split
    · simp
    · split
      · simp only [List.mem_cons]; tauto
      · simp only [List.mem_cons]; intro h; rcases h with h | h
        · tauto
        · rcases ih h with h | h <;> tauto

theorem insertCell_rising (a : Nat) (v : Byte) (cs : List Host.Cell) (h : cs.Pairwise fun c d => c.1 < d.1) :
    (insertCell a v cs).Pairwise fun c d => c.1 < d.1 := by
  induction cs with
  | nil => simp [insertCell]
  | cons c cs ih =>
    obtain ⟨h1, h2⟩ := List.pairwise_cons.1 h
    simp only [insertCell]
    split
    · next lt =>
      refine List.pairwise_cons.2 ⟨fun x hx => ?_, h⟩
      rcases List.mem_cons.1 hx with rfl | hx
      · exact lt
      · exact lt_trans lt (h1 x hx)
    · split
      · next e => exact List.pairwise_cons.2 ⟨fun x hx => by simpa [e] using h1 x hx, h2⟩
      · next nlt ne =>
        refine List.pairwise_cons.2 ⟨fun x hx => ?_, ih h2⟩
        rcases mem_insertCell a v cs x hx with rfl | hx
        · simp only; omega
        · exact h1 x hx

/-! ### One byte read after each operation -/

/-- A byte read after a write: the written byte at its own address, every other byte as before. -/
theorem Memory.read_write (m : Memory) (a b : Word) (v : Byte) :
    (m.write a v).read b = if b = a then v else m.read b := by
  have hn : b.toNat = a.toNat ↔ b = a := ⟨fun h => BitVec.eq_of_toNat_eq h, fun h => by rw [h]⟩
  simp only [Memory.write]
  split
  · next h =>
    have e := lookupCell_filter b.toNat (fun k => k != a.toNat) m.cells
    simp only [Memory.read, Memory.unlisted, e]
    by_cases hb : b = a
    · subst hb; simp only [bne_self_eq_false, Bool.false_eq_true, if_false, Option.getD_none, if_true, h.2, h.1]
    · simp [hb, hn]
  · simp only [Memory.read, Memory.unlisted, lookupCell_insert]
    by_cases hb : b = a
    · subst hb; simp
    · simp [hb, hn]

/-- A byte outside a list of writes is as before. -/
theorem Memory.read_writeAll_of_not_mem (m : Memory) (ws : List (Word × Byte)) (b : Word) (h : b ∉ ws.map Prod.fst) :
    (m.writeAll ws).read b = m.read b := by
  induction ws generalizing m with
  | nil => rfl
  | cons w ws ih =>
    obtain ⟨a, v⟩ := w
    simp only [List.map_cons, List.mem_cons, not_or] at h
    rw [Memory.writeAll, ih _ h.2, Memory.read_write, if_neg h.1]

/-- A byte whose last write of a list is the last entry of that list with its address. -/
theorem Memory.read_writeAll_append (m : Memory) (xs ys : List (Word × Byte)) :
    m.writeAll (xs ++ ys) = (m.writeAll xs).writeAll ys := by
  induction xs generalizing m with
  | nil => rfl
  | cons x xs ih => obtain ⟨a, v⟩ := x; simp only [List.cons_append, Memory.writeAll, ih]

/-- A byte of a block whose scrub completes reads 00h; every other byte reads as before (R140). -/
theorem Memory.read_clearBlock (m : Memory) (b : BlockNo) (a : Word) :
    (m.clearBlock b).read a = if blockOf a = b then 0x00 else m.read a := by
  have e := lookupCell_filter a.toNat (fun k => k / 256 != b.val) m.cells
  by_cases h : blockOf a = b
  · subst h; simp only [Memory.clearBlock, Memory.read, Memory.unlisted, e]; simp [blockOf]
  · have h' : a.toNat / 256 ≠ b.val := fun e => h (Fin.ext e)
    have hc : (m.clearBlock b).unknown.contains (a.toNat / 256) = m.unknown.contains (a.toNat / 256) := by
      rw [Bool.eq_iff_iff]; simp [Memory.clearBlock, h']
    have hu : (m.clearBlock b).unlisted a.toNat = m.unlisted a.toNat := by
      unfold Memory.unlisted; exact if_congr (by rw [hc]) rfl rfl
    have hl : lookupCell a.toNat (m.clearBlock b).cells = lookupCell a.toNat m.cells := by
      rw [Memory.clearBlock, e, if_pos (bne_iff_ne.2 h')]
    rw [if_neg h, Memory.read, Memory.read, hu, hl]

/-! ### The canonical form -/

theorem Memory.wf_reset (epoch : Nat) : (Memory.reset epoch).wf := by
  have hu : (Memory.reset epoch).unknown = List.range 256 := by rw [Memory.reset]
  have hc : (Memory.reset epoch).cells = [] := by rw [Memory.reset]
  unfold Memory.wf
  rw [hu, hc]
  refine ⟨List.Pairwise.nil, ?_, List.pairwise_lt_range, ?_⟩
  · intro c hc; cases hc
  · intro b hb; exact List.mem_range.1 hb

theorem Memory.wf_write {m : Memory} (h : m.wf) (a : Word) (v : Byte) : (m.write a v).wf := by
  obtain ⟨h1, h2, h3, h4⟩ := h
  simp only [Memory.write]
  split
  · exact ⟨h1.filter _, fun c hc => h2 c (List.mem_filter.1 hc).1, h3, h4⟩
  · next hv =>
    refine ⟨insertCell_rising _ _ _ h1, fun c hc => ?_, h3, h4⟩
    rcases mem_insertCell _ _ _ c hc with rfl | hc
    · refine ⟨a.isLt, fun e => ?_⟩
      simp only at e
      by_contra hn
      exact hv ⟨e, by simpa using hn⟩
    · exact h2 c hc

theorem Memory.wf_writeAll {m : Memory} (h : m.wf) (ws : List (Word × Byte)) : (m.writeAll ws).wf := by
  induction ws generalizing m with
  | nil => exact h
  | cons w ws ih => obtain ⟨a, v⟩ := w; exact ih (Memory.wf_write h a v)

theorem Memory.wf_clearBlock {m : Memory} (h : m.wf) (b : BlockNo) : (m.clearBlock b).wf := by
  obtain ⟨h1, h2, h3, h4⟩ := h
  refine ⟨h1.filter _, fun c hc => ?_, h3.filter _, fun u hu => h4 u (List.mem_filter.1 hu).1⟩
  obtain ⟨hc, hb⟩ := List.mem_filter.1 hc
  refine ⟨(h2 c hc).1, fun e => ?_⟩
  have := (h2 c hc).2 e
  simp only [Memory.clearBlock] at *
  simp_all

end Sys2Proof.Machine
end

