-- ==== Sys2Proof/Laws/Cursors.lean ====
section
/-! SUPPORT. What the operations of a Write Data do: the staging of its bytes, the search for a target byte that may not be
written, and the bytes of memory after the commit. -/

namespace Sys2Proof.Statement

open Sys2Proof Sys2Proof.Machine

/-- A change of the staging buffer leaves the link receiving. -/
theorem receives_staging {s : State} {p : Port} {bytes : List Byte} {req : Request} (h : Receives s p bytes req)
    (f : PortState → List Byte) : Receives (s.modPort p fun ps => { ps with staging := f ps }) p bytes req := by
  obtain ⟨a, b, c, v, received, rest, d, e, g, k⟩ := h
  refine ⟨a, b, by simpa using c, v, received, rest, by simpa using d, e, g, ?_⟩
  rw [k, summary_modPort_self]
  · simp
  all_goals rfl

/-- The data bytes of a Write Data that is taken stand in the staging buffer. -/
theorem stage_eq {s : State} {p : Port} {params : List Byte} {req : Request} (h : Receives s p (frame 0x4B params) req)
    (hh : (s.port p).mode.isHeld = false) (hl : lengthAllowed 0x4B params.length = true) :
    s.stage p params = s.modPort p fun ps => { ps with staging := params.drop 1 } := by
  have hr : s.receiving p (requestBytes 0x4B params) = true := receiving_of_receives h
  simp only [State.stage, hr, if_true]
  refine modPort_congr _ _ ?_
  simp only [hh, hl]; rfl

theorem targets_eq (c : Cursor) (n : Nat) : targets c n = (List.range n).map (target c) := rfl

/-- With every target byte writable the search finds none. -/
theorem firstUnwritable_none {s : State} {p : Port} : ∀ {l : List Word} {k : Nat},
    (∀ a ∈ l, s.mayWrite p a = true) → firstUnwritable s p k l = none
  | [], _, _ => rfl
  | a :: as, k, h => by
    simp only [firstUnwritable, h a List.mem_cons_self, if_true]
    exact firstUnwritable_none fun b hb => h b (List.mem_cons_of_mem _ hb)

/-- The search finds the first target byte that may not be written. -/
theorem firstUnwritable_some {s : State} {p : Port} {a : Word} {after : List Word} (ha : s.mayWrite p a = false) :
    ∀ {before : List Word} {k : Nat}, (∀ b ∈ before, s.mayWrite p b = true) →
      firstUnwritable s p k (before ++ a :: after) = some (k + before.length, blockOf a)
  | [], k, _ => by simp [firstUnwritable, ha]
  | b :: bs, k, h => by
    simp only [List.cons_append, firstUnwritable, h b List.mem_cons_self, if_true]
    rw [firstUnwritable_some ha fun c hc => h c (List.mem_cons_of_mem _ hc)]
    simp only [List.length_cons, Option.some.injEq, Prod.mk.injEq, and_true]; omega

/-- The first of the targets of a write that may not be written, by its position. -/
theorem firstUnwritable_targets {s : State} {p : Port} {c : Cursor} {i n : Nat} (hi : i < n)
    (ha : s.mayWrite p (target c i) = false) (hb : ∀ j, j < i → s.mayWrite p (target c j) = true) :
    firstUnwritable s p 0 (targets c n) = some (i, blockOf (target c i)) := by
  have e : List.range n = List.range i ++ i :: (List.range (n - i - 1)).map (i + 1 + ·) := by
    have h1 : n = i + (1 + (n - i - 1)) := by omega
    rw [show n - i - 1 = n - i - 1 from rfl]
    conv => lhs; rw [h1]
    rw [List.range_add, List.range_add]
    simp [List.map_map, Function.comp_def, Nat.add_assoc]
  rw [targets_eq, e, List.map_append, List.map_cons, firstUnwritable_some ha]
  · simp
  · intro b hb'
    obtain ⟨j, hj, rfl⟩ := List.mem_map.1 hb'
    exact hb j (List.mem_range.1 hj)

/-- The writes of a commit: the byte of position i to target i. -/
theorem writes_eq (c : Cursor) (data : List Byte) :
    (targets c data.length).zip data = (List.range data.length).map fun i => (target c i, data.getD i 0x00) := by
  refine List.ext_getElem (by simp [targets_eq]) ?_
  intro i h1 h2
  have : i < data.length := by simpa using h2
  simp [targets_eq, List.getD_eq_getElem?_getD, this]

/-- A byte of memory that is no target of the commit stands. -/
theorem read_commit_other (m : Memory) (c : Cursor) (data : List Byte) (a : Word)
    (h : ∀ i, i < data.length → target c i ≠ a) :
    (m.writeAll ((targets c data.length).zip data)).read a = m.read a := by
  rw [writes_eq]
  refine Memory.read_writeAll_of_not_mem _ _ _ ?_
  simp only [List.map_map, List.mem_map, List.mem_range, Function.comp]
  rintro ⟨i, hi, e⟩
  exact h i hi e

/-- The last byte that the commit writes to an address stands there. -/
theorem read_commit_last (m : Memory) (c : Cursor) (data : List Byte) (i : Nat) (hi : i < data.length)
    (h : ∀ j, i < j → j < data.length → target c j ≠ target c i) :
    (m.writeAll ((targets c data.length).zip data)).read (target c i) = data.getD i 0x00 := by
  rw [writes_eq]
  have e : List.range data.length = List.range i ++ i :: (List.range (data.length - i - 1)).map (i + 1 + ·) := by
    have h1 : data.length = i + (1 + (data.length - i - 1)) := by omega
    conv => lhs; rw [h1]
    rw [List.range_add, List.range_add]
    simp [List.map_map, Function.comp_def, Nat.add_assoc]
  rw [e, List.map_append, List.map_cons, Memory.read_writeAll_append, Memory.writeAll]
  rw [Memory.read_writeAll_of_not_mem, Memory.read_write, if_pos rfl]
  simp only [List.map_map, List.mem_map, List.mem_range, Function.comp]
  rintro ⟨j, hj, e⟩
  exact h (i + 1 + j) (by omega) (by omega) e

end Sys2Proof.Statement
end

