-- ==== Sys2Proof/Laws/Departure.lean ====
section
/-! SUPPORT. What the departure of a port does to each record of the part, said once over any state. -/

namespace Sys2Proof.Statement

open Sys2Proof Sys2Proof.Machine

/-- The state in which every call that `p` was to serve has failed: the first part of the departure of `p`. -/
abbrev failed (s : State) (p : Port) : State := s.failCalls .peerGone (s.servedSlots p)

theorem port_eta (ps : PortState) : ps =
    { sel := ps.sel, sck := ps.sck, mosi := ps.mosi, prst := ps.prst, rsto := ps.rsto, mode := ps.mode, asm := ps.asm
      record := ps.record, lastFrameBad := ps.lastFrameBad, stack := ps.stack, nest := ps.nest, notices := ps.notices, cursors := ps.cursors
      staging := ps.staging } := rfl

/-- The departing port's own records. -/
theorem departure_port (s : State) (p : Port) (m : PortMode) :
    (s.departure p m).port p =
      { s.port p with
        mode := m, asm := (s.port p).asm.depart, record := none, lastFrameBad := false, stack := [], nest := .opened
        notices := [], cursors := .replicate 2 ⟨0, 65536, 0⟩, staging := [] } := by
  obtain ⟨l, h⟩ := failCalls_port .peerGone p (s.servedSlots p) s
  have h' : (failed s p).ports.get p = { s.port p with notices := (s.port p).notices ++ l } := h
  simp only [State.departure, State.announceDeparture, State.port, Table.get_map, ne_eq, not_true, false_and, if_false,
    State.modPort, Table.get_set_self, State.surrenderBlocks, State.removeProvider, State.freePosted, appendScrub_ports]
  rw [h']; rfl

/-- Another port's records: its stack and its notice queue alone; `ns` is its queue once the served calls have failed. -/
theorem departure_other (s : State) {p q : Port} (m : PortMode) (h : q ≠ p) (ns : List Notice)
    (hn : ((failed s p).port q).notices = ns) :
    (s.departure p m).port q =
      { s.port q with
        stack := orphanCaller p (s.port q).stack
        notices :=
          ns ++ callerGoneNotices p 0 (s.port q).stack ++
            if (s.port q).mode.isOnline = true ∧
                Notice.peerDetached p ∉ ns ++ callerGoneNotices p 0 (s.port q).stack then
              [.peerDetached p]
            else [] } := by
  obtain ⟨l, hl⟩ := failCalls_port .peerGone q (s.servedSlots p) s
  have hf : (failed s p).port q = { s.port q with notices := ns } := by
    rw [hl] at hn; rw [hl]; rw [← hn]
  have key : ∀ ps : PortState, (failed s p).port q = ps →
      (s.departure p m).port q =
        if (q ≠ p ∧ ps.mode.isOnline = true ∧
            (ps.notices ++ callerGoneNotices p 0 ps.stack).contains (.peerDetached p) = false) then
          { ps with
            stack := orphanCaller p ps.stack
            notices := (ps.notices ++ callerGoneNotices p 0 ps.stack) ++ [.peerDetached p] }
        else
          { ps with stack := orphanCaller p ps.stack, notices := ps.notices ++ callerGoneNotices p 0 ps.stack } := by
    rintro _ rfl
    simp only [State.departure, State.announceDeparture, State.port, Table.get_map, State.modPort,
      Table.get_set_ne _ _ (Ne.symm h), State.surrenderBlocks, State.removeProvider, State.freePosted,
      appendScrub_ports]
    rfl
  rw [key _ hf]
  simp only [ne_eq, h, not_false_eq_true, true_and, List.contains_eq_mem, decide_eq_false_iff_not]
  by_cases hc : (s.port q).mode.isOnline = true ∧
      Notice.peerDetached p ∉ ns ++ callerGoneNotices p 0 (s.port q).stack
  · rw [if_pos hc, if_pos hc]
  · rw [if_neg hc, if_neg hc, List.append_nil]

/-- The call table. -/
theorem departure_slot (s : State) (p : Port) (m : PortMode) (n : SlotNo) :
    (s.departure p m).slot n =
      if ((failed s p).slot n).any (fun c => c.caller == p) then none else (failed s p).slot n := by
  simp only [State.departure, State.announceDeparture, State.slot, State.modPort, State.surrenderBlocks,
    State.removeProvider, State.freePosted, appendScrub_slots, Table.get_map]
  rfl

/-- The block table. -/
theorem departure_block (s : State) (p : Port) (m : PortMode) (b : BlockNo) :
    (s.departure p m).block b = ((failed s p).block b).afterDeparture p := by
  simp only [State.departure, State.announceDeparture, State.block, State.modPort, State.surrenderBlocks,
    State.removeProvider, State.freePosted, appendScrub_blocks, Table.get_map]

theorem failed_owner (s : State) (p : Port) (b : BlockNo) : ((failed s p).block b).owner = (s.block b).owner := by
  rcases failCalls_block .peerGone b (s.servedSlots p) s with h | h <;> rw [h]
  exact returned_owner _

/-- A departure changes ports, slots, directory, blocks and the scrub engine. -/
theorem departure_frame (s : State) (p : Port) (m : PortMode) :
    s.departure p m =
      { s with
        ports := (s.departure p m).ports
        slots := (s.departure p m).slots
        directory := s.directory.filter fun e => decide (e.provider ≠ p)
        blocks := (s.departure p m).blocks
        scrubQueue := s.scrubQueue ++ (s.blocks.indices fun k => k.owner == some p)
        scrubBusy :=
          s.scrubBusy ||
            (s.resetHigh && !(s.scrubQueue ++ (s.blocks.indices fun k => k.owner == some p)).isEmpty) } := by
  have h1 := failCalls_frame .peerGone (s.servedSlots p) s
  have hi : (failed s p).blocks.indices (fun k => k.owner == some p) = s.blocks.indices fun k => k.owner == some p := by
    rw [Table.indices_eq_filter, Table.indices_eq_filter]
    refine List.filter_congr ?_
    intro b _
    have := failed_owner s p b
    simp only [State.block] at this
    rw [this]
  have hd : (fun e : Service => e.provider != p) = fun e => decide (e.provider ≠ p) := by
    funext e; by_cases h : e.provider = p <;> simp [h]
  have hq : (failed s p).scrubQueue = s.scrubQueue := by rw [failed, h1]
  have hb : (failed s p).scrubBusy = s.scrubBusy := by rw [failed, h1]
  have hr : (failed s p).resetHigh = s.resetHigh := by rw [failed, h1]
  have hdir : (failed s p).directory = s.directory := by rw [failed, h1]
  have e : s.departure p m =
      { failed s p with
        ports := (s.departure p m).ports
        slots := (s.departure p m).slots
        directory := (failed s p).directory.filter fun e => e.provider != p
        blocks := (s.departure p m).blocks
        scrubQueue := (failed s p).scrubQueue ++ ((failed s p).blocks.indices fun k => k.owner == some p)
        scrubBusy :=
          (failed s p).scrubBusy ||
            ((failed s p).resetHigh &&
              !((failed s p).scrubQueue ++ ((failed s p).blocks.indices fun k => k.owner == some p)).isEmpty) } := rfl
  refine e.trans ?_
  generalize s.departure p m = t
  rw [hi, hd, hq, hb, hr, hdir, failed, h1]

/-- The level notices of a stack, as positions. -/
theorem callerGoneNotices_eq (p : Port) : ∀ (l : List StackEntry) (k : Nat),
    callerGoneNotices p k l =
      (l.zipIdx k).filterMap fun x =>
        if x.1.caller = p ∧ x.1.orphaned = false then some (.callerGone x.2 x.1.slot x.1.tag) else none
  | [], _ => rfl
  | e :: es, k => by
    simp only [callerGoneNotices, List.zipIdx_cons, List.filterMap_cons, callerGoneNotices_eq p es (k + 1)]
    by_cases h : e.caller = p ∧ e.orphaned = false
    · simp [h.1, h.2]
    · have : (e.caller == p && !e.orphaned) = false := by
        cases h1 : e.orphaned
        · have : e.caller ≠ p := fun h2 => h ⟨h2, h1⟩
          simp [this]
        · simp
      simp only [this, Bool.false_eq_true, if_false, if_neg h]

theorem orphanCaller_eq (p : Port) (l : List StackEntry) :
    orphanCaller p l =
      l.map fun e => if e.caller = p ∧ e.orphaned = false then { e with orphaned := true } else e := by
  simp only [orphanCaller]
  refine List.map_congr_left ?_
  intro e _
  by_cases h : e.caller = p ∧ e.orphaned = false
  · simp [h.1, h.2]
  · have : (e.caller == p && !e.orphaned) = false := by
      cases h1 : e.orphaned
      · have : e.caller ≠ p := fun h2 => h ⟨h2, h1⟩
        simp [this]
      · simp
    simp only [this, Bool.false_eq_true, if_false, if_neg h]

/-- Under the law R48 on its stack, the calls that `p` is to serve are distinct, and each is PENDING or IN_SERVICE with `p`
as its callee. -/
theorem servedSlots_law {s : State} {p : Port} (h : StackAgrees s p) :
    (s.servedSlots p).Nodup ∧
    ∀ n, n ∈ s.servedSlots p ↔ ∃ c, s.slot n = some c ∧ Unended c ∧ c.callee = p := by
  obtain ⟨h1, h2, h3⟩ := h
  have hp : ∀ n, n ∈ (s.pendingCalls p).map Prod.fst ↔ ∃ c, s.slot n = some c ∧ c.isPending = true ∧ c.callee = p := by
    intro n
    simp only [List.mem_map]
    constructor
    · rintro ⟨⟨m, c⟩, hm, rfl⟩
      exact ⟨c, (mem_pendingCalls s p m c).1 hm⟩
    · rintro ⟨c, hc⟩
      exact ⟨(n, c), (mem_pendingCalls s p n c).2 hc, rfl⟩
  have hs : ∀ n, n ∈ ((s.port p).stack.filter fun e => !e.orphaned).map StackEntry.slot ↔
      ∃ c, s.slot n = some c ∧ c.isInService = true ∧ c.callee = p := by
    intro n
    simp only [List.mem_map, List.mem_filter, Bool.not_eq_true']
    constructor
    · rintro ⟨e, ⟨he, ho⟩, rfl⟩
      exact h2 e he ho
    · rintro ⟨c, hc, hi, hq⟩
      obtain ⟨e, he, e1, e2⟩ := h1 n c hc hi hq
      exact ⟨e, ⟨he, e2⟩, e1⟩
  constructor
  · rw [State.servedSlots, List.nodup_append]
    refine ⟨pendingCalls_nodup s p, h3, ?_⟩
    rintro n hn m hm rfl
    obtain ⟨c, hc, hcp, _⟩ := (hp n).1 hn
    obtain ⟨d, hd, hdi, _⟩ := (hs n).1 hm
    rw [hc] at hd; cases hd
    simp only [Call.isPending, Call.isInService] at hcp hdi
    cases hst : c.state <;> simp [hst] at hcp hdi
  · intro n
    rw [State.servedSlots, List.mem_append, hp, hs]
    constructor
    · rintro (⟨c, hc, h, hq⟩ | ⟨c, hc, h, hq⟩)
      · exact ⟨c, hc, .inl h, hq⟩
      · exact ⟨c, hc, .inr h, hq⟩
    · rintro ⟨c, hc, h | h, hq⟩
      · exact .inl ⟨c, hc, h, hq⟩
      · exact .inr ⟨c, hc, h, hq⟩

end Sys2Proof.Statement
end

