-- ==== Sys2Proof/Laws/Operands.lean ====
section
/-! SUPPORT. The parameter forms of Post Call and Answer Call in the statements' words: what passes the checks of R8 and R61
reads as what. -/

namespace Sys2Proof.Statement

open Sys2Proof Sys2Proof.Machine

variable {req : Request}

/-- The lease fields of a Post Call are in range (R8). -/
def GoodLease (ps : List Byte) : Prop :=
  param ps 6 = 0 ∨
    (param ps 6 = 1 ∧ 1 ≤ param ps 8 ∧ param ps 8 ≤ 16 ∧ param ps 7 + param ps 8 ≤ 256 ∧ param ps 9 ≤ 1)

/-- Post Call's form, clause by clause. -/
theorem goodPost_iff (ps : List Byte) :
    goodPost ps = true ↔
      ps.length = 11 + 2 * param ps 10 ∧ 1 ≤ param ps 0 ∧ param ps 0 ≤ 254 ∧ param ps 1 ≤ 7 ∧ param ps 10 ≤ 6 ∧
        GoodLease ps := by
  simp only [goodPost, GoodLease, Bool.and_eq_true, Bool.or_eq_true, decide_eq_true_eq]
  tauto

/-- Lease fields in range read as the posted lease. -/
theorem postLease_good {ps : List Byte} (h : GoodLease ps) : postLease? ps = some (postedLease ps) := by
  rcases h with h | ⟨h1, h2, h3, h4, h5⟩
  · simp [postLease?, postedLease, h, yesNo?]
  · simp only [postLease?, h1, yesNo?, postedLease]
    rw [if_neg (by omega)]
    simp only [if_true]
    rw [if_neg (by omega)]
    simp only [leaseMode?]
    by_cases h : param ps 9 = 0
    · simp [h]
    · have : param ps 9 = 1 := by omega
      simp [this]

/-- Lease fields out of range read as none. -/
theorem postLease_bad {ps : List Byte} (h : ¬GoodLease ps) : postLease? ps = none := by
  simp only [postLease?, yesNo?]
  by_cases h0 : param ps 6 = 0
  · exact absurd (Or.inl h0) h
  · rw [if_neg h0]
    by_cases h1 : param ps 6 = 1
    · rw [if_pos h1]; simp only
      split
      · rfl
      · next hn =>
        simp only [leaseMode?]
        rw [if_neg, if_neg]; · rfl
        · intro h9; apply h; right; refine ⟨h1, ?_, ?_, ?_, ?_⟩ <;> omega
        · intro h9; apply h; right; refine ⟨h1, ?_, ?_, ?_, ?_⟩ <;> omega
    · rw [if_neg h1]

/-- A Post Call of good form reads as its fields. -/
theorem postRequest_good {ps : List Byte} (h : goodPost ps = true) :
    postRequest? ps =
      some
        { service := param ps 0
          priority := param ps 1
          tag := paramWord ps 2
          deadline := ticks? (paramWord ps 4).toNat
          lease := postedLease ps
          args := wordsOf (ps.drop 11) } := by
  obtain ⟨h0, h1, h2, h3, h4, h5⟩ := (goodPost_iff ps).1 h
  simp only [postRequest?]
  rw [if_neg (by omega), postLease_good h5]; rfl

/-- The link port allows the length of a Post Call of good form. -/
theorem postCall_length_allowed {ps : List Byte} (h : goodPost ps = true) (hl : ps.length ≤ 255) :
    lengthAllowed 0x20 ps.length = true := by
  obtain ⟨h0, -⟩ := (goodPost_iff ps).1 h
  simp [lengthAllowed, requestForms, requestFormsLow, requestFormsHigh]; omega

/-- A Post Call of good form on an ONLINE port comes to the checks of R9. -/
theorem postCall_good {s : State} {p : Port} {ps : List Byte} (ho : IsOnline s p) (h : goodPost ps = true) :
    postCall p ps (s.modPort p (verified req)) =
      postCallOnline p
        { service := param ps 0
          priority := param ps 1
          tag := paramWord ps 2
          deadline := ticks? (paramWord ps 4).toNat
          lease := postedLease ps
          args := wordsOf (ps.drop 11) }
        (s.modPort p (verified req)) := by
  simp only [postCall]
  rw [if_neg (by simpa using ((goodPost_iff ps).1 h).1), postRequest_good h]
  exact whenOnline_verified ho _

/-- The word count and the length of an Answer Call with whole words. -/
theorem answerCall_words (words : List Byte) (h : words.length % 2 = 0) (h2 : words.length ≤ 12) (a b : Byte) :
    param (a :: b :: byteOf (words.length / 2) :: words) 2 = words.length / 2 ∧
    (a :: b :: byteOf (words.length / 2) :: words).length = 3 + 2 * (words.length / 2) ∧
    lengthAllowed 0x31 (a :: b :: byteOf (words.length / 2) :: words).length = true := by
  refine ⟨?_, by simp; omega, ?_⟩
  · simp [param, paramByte, byteOf]; omega
  · simp [lengthAllowed, requestForms, requestFormsLow, requestFormsHigh]; omega

end Sys2Proof.Statement
end

