-- ==== Sys2Proof/Laws/PerInstr.lean ====
section
/-! SUPPORT. The family Frame: the bytes of a command's frame stand for that command, one lemma per command. -/

namespace Sys2Proof.Laws.Frame

/-- The frame that carries a well-formed command stands for that command on that port (R171, R172, R190). -/
def Statement (i : Instr) : Prop :=
  i.wf = true → ∀ r bytes, i.request = some r → frameBytes i = some bytes → frameCommand r.1 bytes = some i

/-- A frame written from a code and at most 255 parameter bytes is read as the command that the code names. -/
theorem frame_read (p : Port) (code : Byte) (params : List Byte) (h : params.length ≤ 255) :
    frameCommand p (requestBytes code params) =
      some ((requestCommand p code params).getD (.badCommand p code params)) := by
  have hl : (BitVec.ofNat 8 params.length).toNat = params.length := by
    rw [BitVec.toNat_ofNat]; omega
  simp [frameCommand, requestBytes, requestHead, hl]

/-- A command with a code of R190. -/
theorem of_known {i : Instr} {p : Port} {code : Byte} {params : List Byte} (hr : i.request = some (p, code, params))
    (hc : (requestCommand p code params).getD (.badCommand p code params) = i)
    (hw : i.wf = true → params.length ≤ 255) : Statement i := by
  intro wf r bytes h1 h2
  rw [hr] at h1
  cases h1
  simp only [frameBytes, hr, Option.map_some, Option.some.injEq] at h2
  subst h2
  rw [← hc]
  exact frame_read p code params (hw wf)

/-- A command that is no frame whose check byte verifies. -/
theorem of_none {i : Instr} (h : i.request = none) : Statement i := by
  intro _ r _ hr
  rw [h] at hr; cases hr

/-- A code that R190 does not name stands for BAD_COMMAND. -/
theorem requestCommand_unknown (p : Port) (code : Byte) (params : List Byte) (h : knownCode code = false) :
    requestCommand p code params = none := by
  have hc : code = BitVec.ofNat 8 code.toNat := by simp
  unfold requestCommand
  split <;> first | rfl | (exfalso; rename_i e; rw [e] at hc; subst hc; exact absurd h (by decide))

theorem poll (p : Port) (params : List Byte) : Statement (.poll p params) :=
  of_known rfl rfl fun h => of_decide_eq_true h

theorem portStatus (p : Port) (params : List Byte) : Statement (.portStatus p params) :=
  of_known rfl rfl fun h => of_decide_eq_true h

theorem partStatus (p : Port) (params : List Byte) : Statement (.partStatus p params) :=
  of_known rfl rfl fun h => of_decide_eq_true h

theorem lastReply (p : Port) (params : List Byte) : Statement (.lastReply p params) :=
  of_known rfl rfl fun h => of_decide_eq_true h

theorem attach (p : Port) (params : List Byte) : Statement (.attach p params) :=
  of_known rfl rfl fun h => of_decide_eq_true h

theorem detach (p : Port) (params : List Byte) : Statement (.detach p params) :=
  of_known rfl rfl fun h => of_decide_eq_true h

theorem resetPeer (p : Port) (params : List Byte) : Statement (.resetPeer p params) :=
  of_known rfl rfl fun h => of_decide_eq_true h

theorem registerService (p : Port) (params : List Byte) : Statement (.registerService p params) :=
  of_known rfl rfl fun h => of_decide_eq_true h

theorem withdrawService (p : Port) (params : List Byte) : Statement (.withdrawService p params) :=
  of_known rfl rfl fun h => of_decide_eq_true h

theorem queryService (p : Port) (params : List Byte) : Statement (.queryService p params) :=
  of_known rfl rfl fun h => of_decide_eq_true h

theorem postCall (p : Port) (params : List Byte) : Statement (.postCall p params) :=
  of_known rfl rfl fun h => of_decide_eq_true h

theorem cancelCall (p : Port) (params : List Byte) : Statement (.cancelCall p params) :=
  of_known rfl rfl fun h => of_decide_eq_true h

theorem collectAnswer (p : Port) (params : List Byte) : Statement (.collectAnswer p params) :=
  of_known rfl rfl fun h => of_decide_eq_true h

theorem callStatus (p : Port) (params : List Byte) : Statement (.callStatus p params) :=
  of_known rfl rfl fun h => of_decide_eq_true h

theorem takeCall (p : Port) (params : List Byte) : Statement (.takeCall p params) :=
  of_known rfl rfl fun h => of_decide_eq_true h

theorem answerCall (p : Port) (params : List Byte) : Statement (.answerCall p params) :=
  of_known rfl rfl fun h => of_decide_eq_true h

theorem openNesting (p : Port) (params : List Byte) : Statement (.openNesting p params) :=
  of_known rfl rfl fun h => of_decide_eq_true h

theorem closeNesting (p : Port) (params : List Byte) : Statement (.closeNesting p params) :=
  of_known rfl rfl fun h => of_decide_eq_true h

theorem stackStatus (p : Port) (params : List Byte) : Statement (.stackStatus p params) :=
  of_known rfl rfl fun h => of_decide_eq_true h

theorem readNotices (p : Port) (params : List Byte) : Statement (.readNotices p params) :=
  of_known rfl rfl fun h => of_decide_eq_true h

theorem claimBlocks (p : Port) (params : List Byte) : Statement (.claimBlocks p params) :=
  of_known rfl rfl fun h => of_decide_eq_true h

theorem releaseBlocks (p : Port) (params : List Byte) : Statement (.releaseBlocks p params) :=
  of_known rfl rfl fun h => of_decide_eq_true h

theorem blockStatus (p : Port) (params : List Byte) : Statement (.blockStatus p params) :=
  of_known rfl rfl fun h => of_decide_eq_true h

theorem setCursor (p : Port) (params : List Byte) : Statement (.setCursor p params) :=
  of_known rfl rfl fun h => of_decide_eq_true h

theorem rewindCursor (p : Port) (params : List Byte) : Statement (.rewindCursor p params) :=
  of_known rfl rfl fun h => of_decide_eq_true h

theorem readData (p : Port) (params : List Byte) : Statement (.readData p params) :=
  of_known rfl rfl fun h => of_decide_eq_true h

theorem writeData (p : Port) (params : List Byte) : Statement (.writeData p params) :=
  of_known rfl rfl fun h => of_decide_eq_true h

theorem badCommand (p : Port) (code : Byte) (params : List Byte) : Statement (.badCommand p code params) := by
  by_cases h : knownCode code = true
  · intro wf; simp [Instr.wf, h] at wf
  · refine of_known rfl ?_ fun wf => ?_
    · rw [requestCommand_unknown p code params (by simpa using h)]; rfl
    · simp only [Instr.wf, Bool.and_eq_true, decide_eq_true_eq] at wf; exact wf.1

theorem readDataByte (p : Port) : Statement (.readDataByte p) := of_none rfl

theorem badCheck (p : Port) (code : Byte) (params : List Byte) (check : Byte) : Statement (.badCheck p code params check) := of_none rfl

theorem frameCutShort (p : Port) (edges : List Bool) : Statement (.frameCutShort p edges) := of_none rfl

theorem frameEnd (p : Port) (edges : List Bool) : Statement (.frameEnd p edges) := of_none rfl

theorem prstFalling (p : Port) : Statement (.prstFalling p) := of_none rfl

theorem prstRising (p : Port) : Statement (.prstRising p) := of_none rfl

theorem resetFalling : Statement (.resetFalling) := of_none rfl

theorem resetRising : Statement (.resetRising) := of_none rfl

theorem tick : Statement (.tick) := of_none rfl

theorem deadlineExpiry (n : SlotNo) : Statement (.deadlineExpiry n) := of_none rfl

theorem overrun (n : SlotNo) : Statement (.overrun n) := of_none rfl

theorem pulseEnd (p : Port) : Statement (.pulseEnd p) := of_none rfl

theorem scrubCompletion : Statement (.scrubCompletion) := of_none rfl

theorem selFalling (p : Port) : Statement (.selFalling p) := of_none rfl

theorem powerBelowRange : Statement (.powerBelowRange) := of_none rfl

theorem powerUp : Statement (.powerUp) := of_none rfl

end Sys2Proof.Laws.Frame
end

