-- ==== Sys2Proof/Tests/Slice0.lean ====
section
/-! SUPPORT. The model's own tests: the well-formedness smoke tests, the check byte and frames written out from the spec, one
small step of most commands, and a witness of the hypotheses of every statement that has any. -/

-- One test after another: each waits for the kernel, and hundreds of waiting threads would not fit in memory.
set_option Elab.async false

namespace Sys2Proof.Tests

open Sys2Proof Sys2Proof.Machine Sys2Proof.Safety Sys2Proof.Statement

/-! ### A small part to test on -/

def options : Options := { quota := 2, wake := true, consent := [1] }

/-- A port whose frame has just opened. -/
def linked (m : PortMode) : PortState :=
  { PortState.reset false false false true with mode := m, asm := .request 0x20 [] }

/-- Ports A and B are ONLINE, C is OFFLINE, D is HELD; every link is receiving; the rest is the reset state. -/
def bench : State :=
  { State.reset with
    ports := ((Table.replicate 4 (linked (.online options))).set 2 (linked .offline)).set 3 (linked (.held 0)) }

def service (provider : Port) : Service :=
  { id := 9, provider := provider, concurrency := 1, limit := some 300, leases := true }

/-- Service 9 is Port B's. -/
def served : State := { bench with directory := [service 1] }

def lease : Lease := { first := 2, count := 2, mode := .readWrite }

/-- A call from Port A to Port B. -/
def call (st : CallState) : Call :=
  { caller := 0, callee := 1, service := 9, priority := 4, tag := 0x0A09, args := [0x0010, 0x0078], lease := some lease
    cancelAsked := false, postOrder := 0, state := st }

def calling (st : CallState) : State := served.setSlot 0 (some (call st))

def entry (orphaned : Bool) : StackEntry :=
  { slot := 0, service := 9, priority := 4, caller := 0, tag := 0x0A09, saved := .opened, orphaned := orphaned }

/-- The call is in service, with its entry on Port B's stack. -/
def serving (limit : Option Nat) : State :=
  (calling (.inService limit)).modPort 1 fun ps => { ps with stack := [entry false], nest := .closed }

/-- Port A owns blocks 2 and 3, and the others are FREE. -/
def owning : State :=
  { served with blocks := ((Table.replicate 256 Block.free).set 2 (.owned 0)).set 3 (.owned 0), scrubQueue := [] }

/-- Port A's assembler in another state. -/
def sending (a : Assembler) : State := bench.modPort 0 fun ps => { ps with asm := a }

/-- A port's assembler in another state, with SCK high. -/
def highOf (p : Port) (a : Assembler) : State := bench.modPort p fun ps => { ps with sck := true, asm := a }

def transfer (begun wanted : Nat) (lost departed : Bool) : Transfer :=
  { cursor := 0, wanted := wanted, begun := begun, valid := 0, lost := lost, inFlight := false, departed := departed
    sent := [] }

/-- The state after a command, where it is a next state. -/
def after (i : Instr) (s : State) : State :=
  match exec i s with
  | .next t => t
  | .fault r => nomatch r
  | .refused _ => s

/-- The first byte of the reply that a command leaves due on the port. -/
def statusOf (p : Port) (i : Instr) (s : State) : Option Byte :=
  match ((after i s).port p).asm with
  | .reply _ 8 (st :: _) _ => some st
  | _ => none

theorem online_bench : IsOnline bench 0 := ⟨options, rfl⟩

/-- The request that a port whose frame has just opened receives: its summary byte is the one that then stands. -/
def now (s : State) (p : Port) (bytes : List Byte) : Request := { shown := s.summary p, bits := sent bytes }

theorem receives_now {s : State} {p : Port} {a b : Byte} {more : List Byte} (h1 : s.powered = true)
    (h2 : s.resetHigh = true) (h3 : (s.port p).prst = true) (h4 : (s.port p).asm = .request 0x20 []) :
    Receives s p (a :: b :: more) (now s p (a :: b :: more)) := by
  refine ⟨h1, h2, h3, 0x20, [], sent (a :: b :: more), h4, rfl, by simp [sent], ?_⟩
  rw [if_neg (by simp [sent])]; rfl

/-- Such a request of an ONLINE port. -/
abbrev OnlineNow (s : State) (p : Port) (code : Byte) (params : List Byte) : Prop :=
  TakenOnline s p code params (now s p (frame code params))

/-- Such a request of a port that is not HELD. -/
abbrev TakenNow (s : State) (p : Port) (code : Byte) (params : List Byte) : Prop :=
  Taken s p code params (now s p (frame code params))

/-- Such a request with a check byte that verifies. -/
abbrev ReceivesNow (s : State) (p : Port) (code : Byte) (params : List Byte) : Prop :=
  Receives s p (frame code params) (now s p (frame code params))

theorem online_now {s : State} {p : Port} {code : Byte} {params : List Byte} (h1 : s.powered = true)
    (h2 : s.resetHigh = true) (h3 : (s.port p).prst = true) (h4 : (s.port p).asm = .request 0x20 [])
    (h5 : (s.port p).mode = .online options) : OnlineNow s p code params :=
  ⟨receives_now h1 h2 h3 h4, options, h5⟩

/-! ### Well-formedness: an ill-formed term for each check -/

theorem test_wf_long_frame_refused : (Instr.postCall 0 (List.replicate 256 0x00)).wf = false := by decide +kernel
theorem test_wf_longest_frame : (Instr.postCall 0 (List.replicate 255 0x00)).wf = true := by decide +kernel
theorem test_wf_known_code_refused : (Instr.badCommand 0 0x4B []).wf = false := by decide +kernel
theorem test_wf_unknown_code : (Instr.badCommand 0 0x4C []).wf = true := by decide +kernel
theorem test_wf_verifying_check_refused : (Instr.badCheck 0 0x01 [] (crc8 [0x01, 0x00])).wf = false := by decide +kernel
theorem test_wf_failing_check : (Instr.badCheck 0 0x01 [] 0x00).wf = true := by decide +kernel
theorem test_wf_too_many_edges_refused : (Instr.frameCutShort 0 (List.replicate 4127 true)).wf = false := by
  decide +kernel
theorem test_wf_most_edges : (Instr.frameCutShort 0 (List.replicate 4126 true)).wf = true := by decide +kernel

/-! ### Frames written out (R171, R172, R190) -/

theorem test_check_of_one_byte : crc8 [0x00] = 0xF3 := by decide +kernel
theorem test_check_of_two_bytes : crc8 [0x00, 0x00] = 0xD7 := by decide +kernel

theorem test_frame_poll : frameCommand 0 [0x01, 0x00, crc8 [0x01, 0x00]] = some (.poll 0 []) := by decide +kernel
theorem test_frame_attach :
    frameCommand 1 [0x08, 0x03, 0x04, 0x00, 0x01, crc8 [0x08, 0x03, 0x04, 0x00, 0x01]] =
      some (.attach 1 [0x04, 0x00, 0x01]) := by decide +kernel
theorem test_frame_unknown :
    frameCommand 2 [0x7F, 0x00, crc8 [0x7F, 0x00]] = some (.badCommand 2 0x7F []) := by decide +kernel
theorem test_frame_bad_check : frameCommand 3 [0x01, 0x00, 0x00] = some (.badCheck 3 0x01 [] 0x00) := by decide +kernel
theorem test_frame_length_mismatch : frameCommand 0 [0x01, 0x01, 0x00] = none := by decide +kernel

theorem test_bits_most_significant_first : bitsOf [0x81] = [true, false, false, false, false, false, false, true] := by
  decide +kernel
theorem test_bytes_of_bits :
    bytesOfBits [false, false, true, true, false, true, false, false, true] = [0x34] := by decide +kernel

/-! ### Edges of SCK -/

/-- Port A's request of Poll lacks its last bit, which is 1. -/
def lastBitOfPoll : State :=
  bench.modPort 0 fun ps => { ps with asm := .request 0x21 (bitsOf [0x01, 0x00, crc8 [0x01, 0x00]]).dropLast }

theorem test_last_edge_completes :
    lastBitOfPoll.completedBy 0 (bitsOf [crc8 [0x01, 0x00]])[7]! = some (.poll 0 []) := by decide +kernel
theorem test_last_edge_runs_the_command :
    lastBitOfPoll.clock 0 (bitsOf [crc8 [0x01, 0x00]])[7]! = exec (.poll 0 []) lastBitOfPoll := by
  unfold State.clock; rw [test_last_edge_completes]
theorem test_last_bit_is_answered : statusOf 0 (.poll 0 []) lastBitOfPoll = some 0x00 := by decide +kernel
theorem test_miso_changes_at_falling_edges :
    (bench.sckEdges 0 [true, true, true, true]).miso 0 = some true ∧
    (bench.sckEdges 0 [true, true, true]).miso 0 = some false := by decide +kernel

/-! ### Small steps -/

theorem test_summary_after_reset : State.reset.summary 0 = 0x20 := by decide +kernel
theorem test_summary_online : bench.summary 0 = 0x21 := by decide +kernel
theorem test_poll_answers : statusOf 0 (.poll 0 []) bench = some 0x00 := by decide +kernel
theorem test_poll_sends :
    ((after (.poll 0 []) bench).port 0).asm = .reply 0x21 8 [0x00, 0x21, crc8 [0x00, 0x21]] none := by decide +kernel
theorem test_held_port_answers_held : statusOf 3 (.attach 3 [1, 0, 0]) bench = some 0x83 := by decide +kernel
theorem test_offline_port_refuses : statusOf 2 (.takeCall 2 []) bench = some 0x11 := by decide +kernel
theorem test_attach_brings_online : (after (.attach 2 [16, 1, 0x03]) bench).online 2 = true := by decide +kernel
theorem test_detach_tells_survivors :
    ((after (.detach 0 []) bench).port 1).notices = [.peerDetached 0] := by decide +kernel
theorem test_reset_peer_holds_target :
    ((after (.resetPeer 1 [0x00]) bench).port 0).mode = .held 200 := by decide +kernel
theorem test_register_service : (after (.registerService 1 [9, 1, 0x01, 0x2C, 1]) bench).directory = [service 1] := by
  decide +kernel
theorem test_post_pends :
    (after (.postCall 0 [9, 4, 0x0A, 0x09, 0, 100, 1, 2, 2, 1, 2, 0x00, 0x10, 0x00, 0x78]) owning).slot 0 =
      some (call (.waiting (some 100))) := by decide +kernel
theorem test_post_pledges :
    (after (.postCall 0 [9, 4, 0x0A, 0x09, 0, 100, 1, 2, 2, 1, 2, 0x00, 0x10, 0x00, 0x78]) owning).block 3 =
      .pledged 0 .readWrite 0 := by decide +kernel
theorem test_take_serves :
    (after (.takeCall 1 []) (calling (.waiting (some 100)))).slot 0 = some (call (.inService (some 300))) := by
  decide +kernel
theorem test_take_sends :
    ((after (.takeCall 1 []) (calling (.waiting (some 100)))).port 1).record =
      some ⟨1, 0x30, .ok,
        [0, 0, 9, 4, 0x0A, 0x09, 1, 2, 2, 1, 0x01, 0x2C, 2, 0x00, 0x10, 0x00, 0x78]⟩ := by decide +kernel
theorem test_answer_ends_call :
    (after (.answerCall 1 [0, 0x00, 1, 0x00, 0x40]) (serving none)).slot 0 =
      some (call (.answered 0x00 [0x0040])) := by decide +kernel
theorem test_answer_pops_and_tells_caller :
    ((after (.answerCall 1 [0, 0x00, 1, 0x00, 0x40]) (serving none)).port 1).stack = [] ∧
      ((after (.answerCall 1 [0, 0x00, 1, 0x00, 0x40]) (serving none)).port 0).notices = [.answered 0 0x0A09] := by
  decide +kernel
theorem test_collect_frees : (after (.collectAnswer 0 [0]) (calling (.failed .expired))).slot 0 = none := by
  decide +kernel
theorem test_cancel_of_pending_frees : (after (.cancelCall 0 [0]) (calling (.waiting none))).slot 0 = none := by
  decide +kernel
theorem test_cancel_asks : ((after (.cancelCall 0 [0]) (serving none)).port 1).notices = [.cancelAsked 0 0 0x0A09] := by
  decide +kernel
theorem test_overrun_orphans : ((after (.overrun 0) (serving (some 0))).port 1).stack = [entry true] := by
  decide +kernel
theorem test_deadline_expires :
    (after (.deadlineExpiry 0) (calling (.waiting (some 0)))).slot 0 = some (call (.failed .expired)) := by
  decide +kernel
theorem test_tick_counts_down :
    (after .tick (calling (.waiting (some 2)))).slot 0 = some (call (.waiting (some 1))) := by decide +kernel
theorem test_claim_takes_lowest_run : (after (.claimBlocks 1 [3]) owning).block 4 = .owned 1 := by decide +kernel
theorem test_claim_past_free_run : statusOf 1 (.claimBlocks 1 [3]) bench = some 0x2B := by decide +kernel
theorem test_release_scrubs : (after (.releaseBlocks 0 [2, 2]) owning).scrubQueue = [2, 3] := by decide +kernel
theorem test_release_of_anothers : statusOf 1 (.releaseBlocks 1 [2, 2]) owning = some 0x19 := by decide +kernel
theorem test_scrub_frees : (after .scrubCompletion bench).block 0 = .free := by decide +kernel
theorem test_write_then_read :
    (after (.writeData 0 [0, 0x5A]) ((after (.setCursor 0 [0, 2, 0, 0, 0]) owning).modPort 0 fun ps =>
      { ps with asm := .request 0x20 [] })).mem.read 0x0200 = 0x5A := by decide +kernel
theorem test_bad_command : statusOf 0 (.badCommand 0 0x7F []) bench = some 0x81 := by decide +kernel
theorem test_bad_check_marks : ((after (.badCheck 0 0x01 [] 0x00) bench).port 0).lastFrameBad = true := by
  decide +kernel
theorem test_cut_short_marks : ((after (.frameCutShort 0 [true, false]) bench).port 0).lastFrameBad = true := by
  decide +kernel
theorem test_pulse_ends : ((after (.pulseEnd 3) bench).port 3).mode = .offline := by decide +kernel
theorem test_reset_empties : (after .resetFalling served).directory = [] := by decide +kernel

/-! ### Witnesses: a concrete state and operands for the hypotheses of every statement and of each of its clauses -/

theorem witness_StepRunsFrontCommand : ({ bench with pending := [.tick] } : State).pending = .tick :: [] := rfl

theorem witness_EmptyQueueClocksAtMostOneLink :
    bench.pending = [] ∧
    ((lastBitOfPoll.port 0).asm = .request 0x21 (bitsOf [0x01, 0x00, crc8 [0x01, 0x00]]).dropLast ∧
      (lastBitOfPoll.port 0).sck = false ∧
      frameCommand 0 (bytesOfBits ((bitsOf [0x01, 0x00, crc8 [0x01, 0x00]]).dropLast ++
        [(bitsOf [crc8 [0x01, 0x00]])[7]!])) = some (.poll 0 [])) ∧
    ((highOf 0 (.request 0x20 [])).port 0).sck = true ∧
    ((bench.port 0).asm = .request 0x20 [] ∧ frameCommand 0 (bytesOfBits ([] ++ [true])) = none) ∧
    ((sending .idle).port 0).asm = .idle := by decide +kernel

/-- The first bytes of a Write Data of 2 data bytes through cursor 0, and 7 bits of the next. -/
def arriving (data : List Byte) (short : List Bool) : List Bool := bitsOf (0x4B :: 0x03 :: 0x00 :: data) ++ short

/-- The bits of 5Ah but its last. -/
def sevenOf5A : List Bool := [false, true, false, true, true, false, true]

theorem completes_first : CompletesDataByte (arriving [] sevenOf5A) false 0 0x5A :=
  ⟨0x03, 0x00, [], by decide +kernel, rfl, by decide, by decide⟩

theorem completes_last : CompletesDataByte (arriving [0x5A] sevenOf5A) false 1 0x5A :=
  ⟨0x03, 0x00, [0x5A], by decide +kernel, rfl, by decide, by decide⟩

/-- The last of the 248 places, which the longest Write Data fills. -/
theorem completes_place_247 :
    CompletesDataByte (bitsOf (0x4B :: 0xF9 :: 0x00 :: List.replicate 247 0x00) ++ sevenOf5A) false 247 0x5A :=
  ⟨0xF9, 0x00, List.replicate 247 0x00, by decide +kernel, by decide +kernel, by decide, by decide⟩

theorem completes_none (k : Nat) (b : Byte) : ¬CompletesDataByte (arriving [] []) false k b := by
  rintro ⟨len, cursor, data, h, -, -⟩
  have := congrArg List.length h
  simp [arriving, sent, bitsOf, bitsOfByte] at this

theorem witness_SckEdgeFollowsAssembler :
    CompletesDataByte (arriving [] sevenOf5A) false 0 0x5A ∧ CompletesDataByte (arriving [0x5A] sevenOf5A) false 1 0x5A ∧
    CompletesDataByte (bitsOf (0x4B :: 0xF9 :: 0x00 :: List.replicate 247 0x00) ++ sevenOf5A) false 247 0x5A ∧
    (∀ k b, ¬CompletesDataByte (arriving [] []) false k b) ∧
    ((sending .idle).port 0).asm = .idle ∧ (∀ a, ((sending a).port 0).sck = false ∧ ((sending a).port 0).asm = a) ∧
    (∀ a, ((highOf 0 a).port 0).sck = true ∧ ((highOf 0 a).port 0).asm = a) ∧ 0 < 7 ∧ 7 < 8 ∧
    ((bitsOf [0x01]) ≠ [] ∧ (bitsOf [0x01]).length % 8 = 0 ∧ [true].length % 8 ≠ 0) ∧
    ((transfer 0 1 false false).begun < (transfer 0 1 false false).wanted ∧ (transfer 0 1 false false).inFlight = false) ∧
    ((transfer 1 1 true false).wanted ≤ (transfer 1 1 true false).begun ∧ readTail 1 true = [0x00, 0x01, 0x2F]) :=
  ⟨completes_first, completes_last, completes_place_247, completes_none, rfl, fun _ => ⟨rfl, rfl⟩, fun _ => ⟨rfl, rfl⟩,
    by decide, by decide, by decide +kernel, by decide, by decide +kernel⟩

/-- A link whose staging buffer still holds two bytes of an earlier frame. -/
def restaging (received : List Bool) : State :=
  bench.modPort 0 fun ps => { ps with asm := .request 0x20 received, staging := [0x11, 0x22] }

theorem test_first_data_byte_is_staged_as_it_arrives :
    (((restaging (arriving [] sevenOf5A)).sckEdge 0 false).port 0).staging = [0x5A] := by decide +kernel

theorem test_incomplete_data_byte_is_not_staged :
    (((restaging (arriving [] [])).sckEdge 0 false).port 0).staging = [0x11, 0x22] := by decide +kernel

theorem test_check_byte_is_not_staged :
    (((restaging (arriving [0x5A, 0x66] sevenOf5A)).sckEdge 0 false).port 0).staging = [0x11, 0x22] := by decide +kernel

/-- The bench without power. -/
def unpowered : State := { bench with powered := false }

/-- The bench with RESET# low. -/
def inReset : State := { bench with resetHigh := false }

theorem witness_ResetAndPowerEvents :
    (bench.powered = true ∧ bench.resetHigh = true) ∧ inReset.resetHigh = false ∧
    (unpowered.powered = false ∧ unpowered.resetHigh = true) ∧
    (inReset.powered = true ∧ inReset.resetHigh = false ∧ inReset.scrubQueue ≠ []) ∧
    (({ inReset with scrubQueue := [] } : State).powered = true ∧
      ({ inReset with scrubQueue := [] } : State).resetHigh = false ∧
      ({ inReset with scrubQueue := [] } : State).scrubQueue = []) ∧
    (({ inReset with powered := false } : State).powered = false ∧
      ({ inReset with powered := false } : State).resetHigh = false) := by decide +kernel

theorem not_online_c : ¬IsOnline bench 2 := fun ⟨_, h⟩ => nomatch (show PortMode.offline = _ from h)

theorem witness_PrstEdgesAndPulseEnd :
    ((bench.powered = true ∧ bench.resetHigh = true ∧ (bench.port 0).prst = true) ∧ IsOnline bench 0) ∧
    ((bench.port 2).prst = true ∧ ¬IsOnline bench 2) ∧
    (((bench.modPort 0 fun ps => { ps with prst := false }).port 0).prst = false) ∧
    (bench.port 3).mode = .held 0 ∧ (bench.port 0).mode ≠ .held 0 :=
  ⟨⟨by decide +kernel, online_bench⟩, ⟨by decide +kernel, not_online_c⟩, by decide +kernel, by decide +kernel,
    by decide +kernel⟩

/-- SEL# of Port A is high and no frame is open. -/
def waitingForFrame : State := bench.modPort 0 fun ps => { ps with sel := true, asm := .idle }

theorem witness_SelFallingOpensFrame :
    ((waitingForFrame.port 0).sel = true ∧ waitingForFrame.powered = true ∧ waitingForFrame.resetHigh = true ∧
      (waitingForFrame.port 0).prst = true) ∧
    ((({ waitingForFrame with powered := false } : State).port 0).sel = true ∧
      ({ waitingForFrame with powered := false } : State).powered = false) ∧
    ((({ waitingForFrame with resetHigh := false } : State).port 0).sel = true ∧
      ({ waitingForFrame with resetHigh := false } : State).resetHigh = false) ∧
    (((waitingForFrame.modPort 0 fun ps => { ps with prst := false }).port 0).sel = true ∧
      ((waitingForFrame.modPort 0 fun ps => { ps with prst := false }).port 0).prst = false) ∧
    (bench.port 0).sel = false := by decide +kernel

theorem receives_bench {a b : Byte} {more : List Byte} :
    ∀ p, Receives bench p (a :: b :: more) (now bench p (a :: b :: more)) := by
  have : ∀ p, (bench.port p).prst = true ∧ (bench.port p).asm = .request 0x20 [] := by decide +kernel
  exact fun p => receives_now rfl rfl (this p).1 (this p).2

/-- Port A's frame has just opened, and the edges of a first byte are still to come. -/
def oneByte : List Bool := [true, true, false, false, true, true, false, false, true, true, false, false, true, true, false]

theorem witness_SelRisingEndsFrame :
    (waitingForFrame.port 0).sel = true ∧ (bench.port 0).sel = false ∧
    (((bench.sckEdges 0 oneByte).port 0).asm =
        .request 0x20 [true, false, true, false, true, false, true, false] ∧
      partialFrame (bytesOfBits [true, false, true, false, true, false, true, false]) = true ∧
      (bench.sckEdges 0 oneByte).powered = true ∧ (bench.sckEdges 0 oneByte).resetHigh = true ∧
      ((bench.sckEdges 0 oneByte).port 0).prst = true) ∧
    ((lastBitOfPoll.sckEdges 0 [true]).port 0).asm.unfinished = false ∧
    ((bench.sckEdges 3 []).port 3).asm = .request 0x20 [] ∧
    ((sending (.reply 0 0 [1] none)).port 0).sel = false ∧
    (((sending (.reply 0 0 [1] none)).sckEdges 0 [true]).port 0).asm = .reply 0 1 [1] none ∧
    (((sending (.reply 0 7 [] none)).sckEdges 0 [true]).port 0).asm = .trailer 0 8 ∧
    (((sending (.reply 0 7 [] (some (transfer 1 1 false false)))).sckEdges 0 [true, true]).port 0).asm =
      .reply 0x00 0 [0x00, 0x00, crc8 [0x00, 0x00, 0x00, 0x00]] none ∧
    (((sending (.trailer 0x20 3)).sckEdges 0 []).port 0).asm = .trailer 0x20 3 ∧
    (((sending .idle).sckEdges 0 [true]).port 0).asm = .idle ∧ ((sending .idle).port 0).sel = false := by
  decide +kernel

theorem taken_offline {code : Byte} {params : List Byte} : TakenNow bench 2 code params := ⟨receives_bench 2, .inl rfl⟩

theorem taken_online {code : Byte} {params : List Byte} : OnlineNow bench 0 code params :=
  ⟨receives_bench 0, online_bench⟩

theorem not_receives_unpowered {bytes : List Byte} : ∀ req, ¬Receives unpowered 0 bytes req :=
  fun _ h => nomatch (show false = true from h.1)

/-- A request that lacks its last byte, or its last bit, is received on; one of which the bits are another's is not. -/
theorem witness_Receives :
    Receives (sending (.request 0x21 (bitsOf [0x01, 0x00]))) 0 (frame 0x01 []) ⟨0x21, sent (frame 0x01 [])⟩ ∧
    Receives (highOf 0 (.request 0x20 (bitsOf [0x01, 0x00]))) 0 (frame 0x01 []) ⟨0x21, sent (frame 0x01 [])⟩ ∧
    Receives lastBitOfPoll 0 (frame 0x01 []) ⟨0x21, sent (frame 0x01 [])⟩ ∧
    ∀ req, ¬Receives (sending (.request 0x21 [true])) 0 (frame 0x01 []) req :=
  ⟨⟨rfl, rfl, rfl, 0x21, bitsOf [0x01, 0x00], sent [checkValue (head 0x01 [])], rfl, by decide +kernel, by decide,
      by decide +kernel⟩,
    ⟨rfl, rfl, rfl, 0x20, bitsOf [0x01, 0x00], sent [checkValue (head 0x01 [])], rfl, by decide +kernel, by decide,
      by decide +kernel⟩,
    ⟨rfl, rfl, rfl, 0x21, (bitsOf [0x01, 0x00, crc8 [0x01, 0x00]]).dropLast, [(bitsOf [crc8 [0x01, 0x00]])[7]!], rfl,
      by decide +kernel, by decide, by decide +kernel⟩,
    fun req ⟨_, _, _, v, received, rest, ha, hb, _⟩ => by
      have hr : received = [true] := by
        have : Assembler.request 0x21 [true] = .request v received := ha
        cases this; rfl
      subst hr
      have : (sent (frame 0x01 []))[0]? = some true := by rw [hb]; rfl
      exact absurd this (by decide +kernel)⟩

theorem witness_BadFramesAreAnswered :
    ((List.replicate 255 (0x00 : Byte)).length ≤ 255 ∧ (0x00 : Byte) ≠ checkValue (head 0x01 [])) ∧
    Receives bench 0 (head 0x01 [] ++ [0x00]) (now bench 0 (head 0x01 [] ++ [0x00])) ∧
    Receives bench 3 (head 0x4B [0] ++ [0x00]) (now bench 3 (head 0x4B [0] ++ [0x00])) ∧
    (∀ req, ¬Receives unpowered 0 (head 0x01 [] ++ [0x00]) req) ∧ knownCode 0x00 = false ∧ knownCode 0xFF = false ∧
    TakenNow bench 2 0xFF (List.replicate 255 0x00) :=
  ⟨by decide +kernel, receives_bench 0, receives_bench 3, not_receives_unpowered, by decide +kernel, by decide +kernel,
    taken_offline⟩

theorem witness_FrameAnsweredBeforeItsCommand :
    ((Instr.attach 3 [1, 0, 0]).request = some (3, 0x08, [1, 0, 0]) ∧ (Instr.attach 3 [1, 0, 0]).wf = true) ∧
    (∀ req, ¬Receives unpowered 0 (frame 0x08 [1, 0, 0]) req) ∧
    (ReceivesNow bench 3 0x08 [1, 0, 0] ∧ (bench.port 3).mode = .held 0) ∧
    ((Instr.writeData 2 [0]).request = some (2, 0x4B, [0]) ∧ (Instr.writeData 2 [0]).wf = true ∧ knownCode 0x4B = true ∧
      lengthAllowed 0x4B 1 = false ∧ lengthAllowed 0x4B 250 = false) ∧
    ((Instr.poll 2 [0]).request = some (2, 0x01, [0]) ∧ (Instr.poll 2 [0]).wf = true ∧ knownCode 0x01 = true ∧
      lengthAllowed 0x01 1 = false) ∧ TakenNow bench 2 0x4B [0] ∧ TakenNow bench 2 0x01 [0] :=
  ⟨by decide +kernel, not_receives_unpowered, ⟨receives_bench 3, by decide +kernel⟩, by decide +kernel, by decide +kernel,
    taken_offline, taken_offline⟩

theorem witness_FormCheckedBeforePort :
    (TakenNow bench 2 0x40 [65] ∧ TakenNow bench 2 0x40 [64] ∧ (bench.port 2).mode = .offline) ∧
    (((Instr.claimBlocks 2 [65]).request = some (2, 0x40, [65]) ∧ (Instr.claimBlocks 2 [65]).wf = true ∧
      lengthAllowed 0x40 1 = true ∧ formRefusal (.claimBlocks 2 [65]) = some .badParam) ∧
     (formRefusal (.postCall 2 (List.replicate 11 0 ++ [0])) = some .badLength ∧ lengthAllowed 0x20 12 = true)) ∧
    ((Instr.claimBlocks 2 [64]).request = some (2, 0x40, [64]) ∧ (Instr.claimBlocks 2 [64]).wf = true ∧
      formRefusal (.claimBlocks 2 [64]) = none ∧ isStatusCode 0x40 = false ∧ (0x40 : Byte) ≠ 0x08) :=
  ⟨⟨taken_offline, taken_offline, rfl⟩, by decide +kernel, by decide +kernel⟩

theorem witness_RefusalChangesLinkRecordsAlone :
    ((Instr.takeCall 2 []).request = some (2, 0x30, []) ∧ (Instr.takeCall 2 []).wf = true ∧
      statusOf 2 (.takeCall 2 []) bench = some 0x11) ∧ TakenNow bench 2 0x30 [] :=
  ⟨by decide +kernel, taken_offline⟩

theorem witness_FramesAndFieldsFollowTheFormats :
    ((Instr.takeCall 2 []).wf = true ∧ (Instr.takeCall 2 []).request = some (2, 0x30, [])) ∧
    ((Instr.writeData 0 (List.replicate 249 0xFF)).wf = true ∧
      (Instr.writeData 0 (List.replicate 249 0xFF)).request = some (0, 0x4B, List.replicate 249 0xFF)) ∧
    [true, false, true, false, true, false, true].length < 8 ∧
    ((List.replicate 255 (0x00 : Byte)).length ≤ 255 ∧ (0x00 : Byte) ≠ checkValue (head 0x01 [])) ∧
    (byteOf 255 = 0xFF ∧ wordOf 65535 = [0xFF, 0xFF]) ∧ ([0x12, 0x34] : List Byte)[0]? = some 0x12 ∧
    ([0x12, 0x34] : List Byte)[0 + 1]? = some 0x34 := by decide +kernel

theorem witness_SummaryByteAndMisoFollowTheState :
    (bench.powered = true ∧ bench.resetHigh = true ∧ (bench.port 0).prst = true ∧ (bench.port 0).asm = .request 0x20 [] ∧
      (bench.port 0).sck = false) ∧
    ((highOf 0 (.request 0x20 (List.replicate 9 true))).port 0).sck = true ∧
    ((sending (.reply 0x10 7 [] none)).port 0).asm = .reply 0x10 7 [] none ∧
    ((sending (.trailer 0x20 0)).port 0).asm = .trailer 0x20 0 ∧ ((sending .idle).port 0).asm = .idle ∧
    ((highOf 0 (.reply 0x10 8 [] none)).port 0).asm = .reply 0x10 8 [] none ∧
    ((highOf 0 (.trailer 0x20 1)).port 0).asm = .trailer 0x20 1 ∧
    unpowered.powered = false ∧ inReset.resetHigh = false ∧
    ((bench.modPort 0 fun ps => { ps with prst := false }).port 0).prst = false ∧
    (FrameLaw waitingForFrame ∧ (waitingForFrame.port 0).sel = true ∧ waitingForFrame.powered = true ∧
      waitingForFrame.resetHigh = true ∧ (waitingForFrame.port 0).prst = true) := by decide +kernel

theorem witness_AttentionFollowsNoticesAndWaiting :
    (bench.powered = true ∧ bench.resetHigh = true ∧ (bench.port 0).prst = true) ∧ unpowered.powered = false ∧
    inReset.resetHigh = false ∧ ((bench.modPort 0 fun ps => { ps with prst := false }).port 0).prst = false := by
  decide +kernel

/-- Port A's last-reply record holds the highest number. -/
def recorded : State := bench.modPort 0 fun ps => { ps with record := some ⟨255, 0x30, .noneWaiting, [0, 0]⟩ }

theorem witness_StatusCommandsReport :
    (TakenNow bench 0 0x01 [] ∧ TakenNow bench 0 0x02 [] ∧ TakenNow bench 0 0x03 [] ∧ TakenNow bench 0 0x04 []) ∧
    TakenNow bench 2 0x02 [] ∧ TakenNow recorded 0 0x04 [] ∧
    (recorded.port 0).record = some ⟨255, 0x30, .noneWaiting, [0, 0]⟩ ∧ (bench.port 0).record = none ∧
    (bench.port 0).mode = .online options ∧ (bench.port 2).mode = .offline :=
  ⟨⟨⟨receives_bench 0, .inr online_bench⟩, ⟨receives_bench 0, .inr online_bench⟩, ⟨receives_bench 0, .inr online_bench⟩,
      receives_bench 0, .inr online_bench⟩,
    taken_offline, ⟨receives_now rfl rfl rfl rfl, .inr ⟨options, rfl⟩⟩, rfl, rfl, rfl, rfl⟩

theorem witness_AttachMakesOfflinePortOnline :
    TakenNow bench 0 0x08 [1, 0, 0x00] ∧ IsOnline bench 0 ∧ TakenNow bench 2 0x08 [16, 1, 0x0B] ∧
    (bench.port 2).mode = .offline ∧
    ((0 : Byte).toNat < 1 ∧ 16 < (17 : Byte).toNat ∧ 1 < (2 : Byte).toNat ∧ 16 ≤ (0x10 : Byte).toNat ∧
      (0x04 : Byte).getLsbD (2 : Port).val = true) ∧
    (1 ≤ (1 : Byte).toNat ∧ (1 : Byte).toNat ≤ 16 ∧ (0 : Byte).toNat ≤ 1 ∧ (0x00 : Byte).toNat < 16 ∧
      (0x00 : Byte).getLsbD (2 : Port).val = false) ∧
    (1 ≤ (16 : Byte).toNat ∧ (16 : Byte).toNat ≤ 16 ∧ (1 : Byte).toNat ≤ 1 ∧ (0x0B : Byte).toNat < 16 ∧
      (0x0B : Byte).getLsbD (2 : Port).val = false) :=
  ⟨⟨receives_bench 0, .inr online_bench⟩, online_bench, taken_offline, rfl, by decide +kernel, by decide +kernel,
    by decide +kernel⟩

theorem witness_DetachDepartsAndRecordsItsReply : OnlineNow bench 0 0x09 [] := taken_online

theorem witness_ResetPeerResetsConsentingTarget :
    (∀ q : Port, OnlineNow bench 0 0x0A [byteOf q.val]) ∧ OnlineNow bench 1 0x0A [byteOf (0 : Port).val] ∧
    ((2 : Port) ≠ 0 ∧ (bench.port 2).mode = .offline) ∧
    ((3 : Port) ≠ 0 ∧ (bench.port 3).mode = .held 0) ∧
    ((1 : Port) ≠ 0 ∧ (bench.port 1).mode = .online options ∧ (0 : Port) ∉ options.consent) ∧
    ((0 : Port) ≠ 1 ∧ (bench.port 0).mode = .online options ∧ (1 : Port) ∈ options.consent) :=
  ⟨fun _ => taken_online, ⟨receives_bench 1, options, rfl⟩, by decide +kernel, by decide +kernel, by decide +kernel, by decide +kernel⟩

theorem witness_DepartureEmptiesThePort :
    ((sending (.reply 0 3 [] (some (transfer 0 1 false false)))).port 0).asm =
      .reply 0 3 [] (some (transfer 0 1 false false)) ∧
    (∀ v k rest x, (bench.port 0).asm ≠ .reply v k rest (some x)) ∧ (1 : Port) ≠ 0 := by
  refine ⟨by decide +kernel, ?_, by decide⟩
  intro v k rest x h
  have h' : Assembler.request 0x20 [] = .reply v k rest (some x) := h
  cases h'

theorem serving_slots : ∀ n, n ≠ 0 → (serving none).slot n = none := by decide +kernel

theorem stackAgrees_serving : StackAgrees (serving none) 1 := by
  have h0 : (serving none).slot 0 = some (call (.inService none)) := by decide +kernel
  have hs : ((serving none).port 1).stack = [entry false] := by decide +kernel
  refine ⟨?_, ?_, ?_⟩
  · intro n c h _ _
    by_cases hn : n = 0
    · subst hn; exact ⟨entry false, by rw [hs]; exact List.mem_cons_self, rfl, rfl⟩
    · rw [serving_slots n hn] at h; cases h
  · intro e he _
    rw [hs, List.mem_singleton] at he
    subst he
    exact ⟨_, h0, rfl, rfl⟩
  · rw [hs]; decide

theorem witness_DepartureFreesPostedAndFailsServedCalls : StackAgrees (serving none) 1 := stackAgrees_serving

/-- Block 0 is OWNED by Port A, block 1 LENT by Port A to Port B, block 2 PLEDGED to the PENDING call of slot 0, block 3
FREE, and the others are in SCRUB. -/
def mixed : State :=
  { calling (.waiting none) with
    blocks :=
      ((((Table.replicate 256 Block.scrub).set 0 (.owned 0)).set 1 (.lent 0 1 .read 5)).set 2
        (.pledged 0 .readWrite 0)).set 3 .free }

theorem witness_DepartureScrubsOwnedAndReturnsBorrowedBlocks :
    (mixed.block 0).owner = some 0 ∧ (mixed.block 1 = .lent 0 1 .read 5 ∧ (0 : Port) ≠ 1) ∧
    (mixed.block 2 = .pledged 0 .readWrite 0 ∧ mixed.slot 0 = some (call (.waiting none)) ∧
      (call (.waiting none)).isPending = true ∧ (call (.waiting none)).callee = 1 ∧
      inLease (call (.waiting none)).lease 2 = true) ∧
    mixed.block 3 = .free ∧ mixed.block 4 = .scrub ∧ mixed.block 255 = .scrub ∧ (mixed.block 0 = .owned 0 ∧
      (0 : Port) ≠ 1) := by
  decide +kernel

theorem witness_DepartureNotifiesSurvivorsInOrder : StackAgrees (serving none) 1 ∧ (0 : Port) ≠ 1 :=
  ⟨stackAgrees_serving, by decide⟩

/-- The directory is full, with services 1 to 16. -/
def fullDirectory : State :=
  { bench with directory := (List.range 16).map fun k => { service 1 with id := k + 1 } }

theorem witness_RegisterServiceAddsOneEntry :
    OnlineNow served 0 0x10 [9, 1, 0, 0, 0] ∧ served.entry 9 = some (service 1) ∧
    OnlineNow served 0 0x10 [1, 1, 0, 0, 0] ∧ OnlineNow served 0 0x10 [254, 4, 0xFF, 0xFF, 1] ∧
    (OnlineNow fullDirectory 0 0x10 [254, 4, 0xFF, 0xFF, 1] ∧ fullDirectory.entry 254 = none ∧
      16 ≤ fullDirectory.directory.length) ∧
    (served.entry 1 = none ∧ served.entry 254 = none ∧ served.directory.length < 16) ∧
    (1 ≤ (1 : Byte).toNat ∧ (254 : Byte).toNat ≤ 254 ∧ (4 : Byte).toNat ≤ 4 ∧ (1 : Byte).toNat ≤ 1) :=
  ⟨online_now rfl rfl rfl rfl rfl, by decide +kernel, online_now rfl rfl rfl rfl rfl, online_now rfl rfl rfl rfl rfl,
    ⟨online_now rfl rfl rfl rfl rfl, by decide +kernel, by decide +kernel⟩, by decide +kernel, by decide⟩

theorem calling_slots (st : CallState) : ∀ n, n ≠ 0 → (calling st).slot n = none := by
  intro n hn
  have : ∀ n, n ≠ 0 → served.slot n = none := by decide +kernel
  have h := this n hn
  simp only [calling, State.slot, State.setSlot, Table.get, Table.set] at h ⊢
  rw [List.getElem_set_ne]
  · exact h
  · exact fun e => hn (Fin.ext e.symm)

theorem witness_WithdrawServiceFailsItsPendingCalls :
    OnlineNow (calling (.waiting none)) 1 0x11 [9] ∧ OnlineNow (serving none) 0 0x11 [9] ∧
    OnlineNow (serving none) 1 0x11 [9] ∧ (OnlineNow (serving none) 0 0x11 [254] ∧ (serving none).entry 254 = none) ∧
    ((serving none).entry 9 = some (service 1) ∧ (service 1).provider ≠ 0) ∧
    (inServiceOf (serving none) 9 ≠ 0) ∧
    ((calling (.waiting none)).entry 9 = some (service 1) ∧ inServiceOf (calling (.waiting none)) 9 = 0) ∧
    ∀ n c, (calling (.waiting none)).slot n = some c → c.isPending = true → c.service = 9 → c.callee = 1 := by
  refine ⟨online_now rfl rfl rfl rfl rfl, online_now rfl rfl rfl rfl rfl, online_now rfl rfl rfl rfl rfl,
    ⟨online_now rfl rfl rfl rfl rfl, by decide +kernel⟩, by decide +kernel, by decide +kernel, by decide +kernel, ?_⟩
  intro n c h _ _
  by_cases hn : n = 0
  · subst hn
    have h0 : (calling (.waiting none)).slot 0 = some (call (.waiting none)) := by decide +kernel
    rw [h0] at h; cases h; rfl
  · rw [calling_slots _ n hn] at h; cases h

/-- A Post Call for service 9 with a lease of blocks 2 and 3, READWRITE, and one argument word. -/
def leasedPost : List Byte := [9, 7, 0x0A, 0x09, 0, 0, 1, 2, 2, 1, 1, 0x00, 0x10]

/-- A Post Call for service 9 without a lease and without arguments. -/
def plainPost : List Byte := [9, 0, 0xFF, 0xFF, 0xFF, 0xFF, 0, 0, 0, 0, 0]

theorem witness_PostCallRefusalsInOrder :
    (ReceivesNow bench 2 0x20 leasedPost ∧ (bench.port 2).mode = .offline) ∧
    (goodPost leasedPost = true ∧ goodPost plainPost = true ∧ leasedPost.length ≤ 255) ∧
    (ReceivesNow bench 0 0x20 plainPost ∧ (bench.port 0).mode = .online options ∧ bench.entry 9 = none) ∧
    (ReceivesNow served 1 0x20 plainPost ∧ (served.port 1).mode = .online options ∧ served.entry 9 = some (service 1) ∧
      (service 1).provider = 1) ∧
    ((service 1).provider ≠ 0 ∧
      options.quota ≤ allocatedOf ((calling (.waiting none)).setSlot 1 (some (call (.failed .expired)))) 0) ∧
    (allocatedOf (calling (.waiting none)) 0 < options.quota ∧ postedLease leasedPost = some lease) ∧
    Decides served 0 2 2 2 .notOwner ∧ Decides mixed 0 0 2 1 .blockBusy ∧ AllOwned owning 0 2 2 ∧
    (postedLease plainPost = none) ∧
    ∀ n, ({ served with slots := .replicate 32 (some { call (.waiting none) with caller := 1 }) } : State).slot n ≠ none :=
  ⟨⟨receives_bench 2, rfl⟩, by decide +kernel, ⟨receives_bench 0, rfl, by decide +kernel⟩,
    ⟨receives_now rfl rfl rfl rfl, rfl, by decide +kernel, rfl⟩, by decide +kernel, by decide +kernel,
    ⟨by decide, by decide +kernel, by decide +kernel, by decide +kernel⟩,
    ⟨by decide, by decide +kernel, by decide +kernel, by decide +kernel⟩, by unfold AllOwned; decide +kernel,
    by decide +kernel, by decide +kernel⟩

theorem witness_PostCallAllocatesLowestFreeSlot :
    ReceivesNow owning 0 0x20 leasedPost ∧ (owning.port 0).mode = .online options ∧ goodPost leasedPost = true ∧
    leasedPost.length ≤ 255 ∧
    owning.entry 9 = some (service 1) ∧ (service 1).provider ≠ 0 ∧ allocatedOf owning 0 < options.quota ∧
    ((service 1).leases = true ∧ AllOwned owning 0 2 2) ∧ owning.slot 0 = none ∧
    (∀ m, m < (0 : SlotNo) → owning.slot m ≠ none) :=
  ⟨receives_now rfl rfl rfl rfl, rfl, by decide +kernel, by decide +kernel, by decide +kernel, by decide, by decide +kernel,
    ⟨rfl, by unfold AllOwned; decide +kernel⟩, by decide +kernel, fun m h => absurd h (Nat.not_lt_zero _)⟩

theorem taken_calling (st : CallState) {code : Byte} {params : List Byte} :
    OnlineNow (calling st) 0 code params ∧ (calling st).slot 0 = some (call st) :=
  ⟨online_now rfl rfl rfl rfl rfl, rfl⟩

theorem calling_slot (st : CallState) : (calling st).slot 0 = some (call st) := rfl

theorem witness_OtherPortsSlotIsNotCallers :
    (∀ n : SlotNo, OnlineNow (calling (.waiting none)) 1 0x21 [byteOf n.val] ∧
      OnlineNow (calling (.waiting none)) 1 0x22 [byteOf n.val] ∧
      OnlineNow (calling (.waiting none)) 1 0x23 [byteOf n.val]) ∧
    (∀ c, (calling (.waiting none)).slot 0 = some c → c.caller ≠ 1) ∧
    ∀ c, (calling (.waiting none)).slot 31 = some c → c.caller ≠ 1 := by
  refine ⟨fun _ => ⟨online_now rfl rfl rfl rfl rfl, online_now rfl rfl rfl rfl rfl, online_now rfl rfl rfl rfl rfl⟩, ?_, ?_⟩
  · intro c h
    rw [calling_slot] at h; cases h; decide
  · intro c h
    rw [calling_slots _ 31 (by decide)] at h; cases h

theorem witness_CancelCallByState :
    (OnlineNow (calling (.waiting none)) 0 0x21 [0] ∧ (calling (.waiting none)).slot 0 = some (call (.waiting none)) ∧
      (call (.waiting none)).caller = 0) ∧
    (OnlineNow (serving none) 0 0x21 [0] ∧ (serving none).slot 0 = some (call (.inService none)) ∧
      ((serving none).port (call (.inService none)).callee).stack = [] ++ entry false :: [] ∧ (entry false).slot = 0) ∧
    ({ call (.inService none) with cancelAsked := true } : Call).cancelAsked = true ∧
    (calling (.answered 0 [])).slot 0 = some (call (.answered 0 [])) ∧
    (calling (.failed .overrun)).slot 0 = some (call (.failed .overrun)) :=
  ⟨⟨(taken_calling _).1, rfl, rfl⟩, ⟨online_now rfl rfl rfl rfl rfl, rfl, rfl, rfl⟩, rfl, rfl, rfl⟩

theorem witness_CollectAnswerReturnsOutcomeAndFreesSlot :
    (OnlineNow (calling (.answered 0xFF [])) 0 0x22 [0] ∧
      (calling (.answered 0xFF [])).slot 0 = some (call (.answered 0xFF []))) ∧
    (OnlineNow (calling (.failed .peerGone)) 0 0x22 [0] ∧
      (calling (.failed .peerGone)).slot 0 = some (call (.failed .peerGone))) ∧
    (call (.waiting none)).isPending = true ∧ (call (.inService none)).isInService = true :=
  ⟨taken_calling _, taken_calling _, rfl, rfl⟩

theorem witness_ReportsShowTheEntryAsItStands :
    (OnlineNow (calling (.waiting (some 65535))) 0 0x23 [0] ∧
      (calling (.waiting (some 65535))).slot 0 = some (call (.waiting (some 65535)))) ∧
    (OnlineNow (calling (.waiting none)) 0 0x12 [1] ∧ OnlineNow (calling (.waiting none)) 0 0x12 [9] ∧
      OnlineNow (calling (.waiting none)) 0 0x42 [255] ∧ (calling (.waiting none)).entry 1 = none ∧
      (calling (.waiting none)).entry 9 = some (service 1)) ∧
    (1 ≤ (1 : Byte).toNat ∧ (254 : Byte).toNat ≤ 254) :=
  ⟨taken_calling _,
    ⟨(taken_calling _).1, (taken_calling _).1, (taken_calling _).1, by decide +kernel, by decide +kernel⟩, by decide⟩

/-- Port B's stack is full. -/
def deep : State :=
  (calling (.waiting none)).modPort 1 fun ps =>
    { ps with
      stack := [{ entry true with priority := 0 }, { entry true with priority := 1 }, { entry true with priority := 2 },
        { entry true with priority := 3 }] }

theorem witness_TakeCallRefusalsInOrder :
    (ReceivesNow bench 2 0x30 [] ∧ (bench.port 2).mode = .offline) ∧ (OnlineNow deep 1 0x30 [] ∧
      4 ≤ (deep.port 1).stack.length) ∧
    (OnlineNow (serving none) 1 0x30 [] ∧ ((serving none).port 1).stack.length < 4 ∧ ((serving none).port 1).stack ≠ [] ∧
      ((serving none).port 1).nest = .closed) ∧
    OnlineNow served 1 0x30 [] ∧ (served.port 1).stack.length < 4 ∧ (served.port 1).stack = [] ∧
      ∀ n, served.eligible 1 n = false :=
  ⟨⟨receives_bench 2, rfl⟩, ⟨online_now rfl rfl rfl rfl rfl, by decide +kernel⟩,
    ⟨online_now rfl rfl rfl rfl rfl, by decide +kernel⟩, online_now rfl rfl rfl rfl rfl, by decide +kernel,
    by decide +kernel, by decide +kernel⟩

theorem witness_TakeCallServesFirstEligibleCall :
    OnlineNow (calling (.waiting none)) 1 0x30 [] ∧ (calling (.waiting none)).slot 0 = some (call (.waiting none)) ∧
    (calling (.waiting none)).eligible 1 0 = true ∧
    (∀ m d, m ≠ 0 → (calling (.waiting none)).slot m = some d → (calling (.waiting none)).eligible 1 m = true →
      Before (call (.waiting none)) d) ∧
    (calling (.waiting none)).entry 9 = some (service 1) := by
  refine ⟨online_now rfl rfl rfl rfl rfl, rfl, by decide +kernel, ?_, by decide +kernel⟩
  intro m d hm h _
  rw [calling_slots _ m hm] at h; cases h

theorem witness_AnswerCallAnswersLiveTopEntry :
    OnlineNow (serving none) 1 0x31 [0, 0xFF, 6, 0, 0, 0, 0, 0, 0, 0, 0, 0, 0, 0, 0] ∧
    OnlineNow (serving none) 1 0x31 [0, 0x00, 0] ∧
    ((serving none).port 1).stack = [] ++ [entry false] ∧ (entry false).orphaned = false ∧
    (serving none).slot (entry false).slot = some (call (.inService none)) ∧
    (call (.inService none)).isInService = true ∧ (List.replicate 12 (0x00 : Byte)).length % 2 = 0 ∧
    (List.replicate 12 (0x00 : Byte)).length ≤ 12 ∧ ([] : List Byte).length % 2 = 0 :=
  ⟨online_now rfl rfl rfl rfl rfl, online_now rfl rfl rfl rfl rfl, rfl, rfl, rfl, rfl, rfl, by decide, rfl⟩

theorem witness_AnswerCallWithoutLiveTopEntry :
    (OnlineNow served 1 0x31 [31, 0x00, 0] ∧ (served.port 1).stack = []) ∧
    (OnlineNow (serving none) 1 0x31 [31, 0x00, 0] ∧ ((serving none).port 1).stack = [] ++ [entry false] ∧
      (entry false).slot ≠ 31) ∧
    (OnlineNow deep 1 0x31 [0, 0x00, 0] ∧ ∃ below e, (deep.port 1).stack = below ++ [e] ∧ e.slot = 0 ∧ e.orphaned = true) :=
  ⟨⟨online_now rfl rfl rfl rfl rfl, rfl⟩, ⟨online_now rfl rfl rfl rfl rfl, rfl, by decide⟩,
    online_now rfl rfl rfl rfl rfl,
    [{ entry true with priority := 0 }, { entry true with priority := 1 }, { entry true with priority := 2 }],
    { entry true with priority := 3 }, rfl, rfl, rfl⟩

theorem witness_NestingCommandsSetNest :
    (ReceivesNow bench 2 0x32 [] ∧ ReceivesNow bench 2 0x33 [] ∧ (bench.port 2).mode = .offline) ∧
    (OnlineNow (serving none) 1 0x32 [] ∧ OnlineNow (serving none) 1 0x33 [] ∧ ((serving none).port 1).stack ≠ []) ∧
    OnlineNow served 1 0x32 [] ∧ OnlineNow served 1 0x33 [] ∧ (served.port 1).stack = [] :=
  ⟨⟨receives_bench 2, receives_bench 2, rfl⟩,
    ⟨online_now rfl rfl rfl rfl rfl, online_now rfl rfl rfl rfl rfl, by decide +kernel⟩,
    online_now rfl rfl rfl rfl rfl, online_now rfl rfl rfl rfl rfl, rfl⟩

theorem witness_StackStatusReportsEntriesBottomUp : OnlineNow (serving none) 1 0x34 [] :=
  online_now rfl rfl rfl rfl rfl

/-- Port A's queue holds two notices. -/
def noticed : State :=
  bench.modPort 0 fun ps => { ps with notices := [.peerDetached 2, .peerDetached 3] }

theorem witness_ReadNoticesTakesTheOldest :
    OnlineNow noticed 0 0x38 [1] ∧ OnlineNow noticed 0 0x38 [8] ∧
    ((noticed.port 0).notices = [.peerDetached 2] ++ [.peerDetached 3] ∧
      [Notice.peerDetached 2].length = min (1 : Byte).toNat (noticed.port 0).notices.length) ∧
    ((noticed.port 0).notices = [.peerDetached 2, .peerDetached 3] ++ [] ∧
      [Notice.peerDetached 2, .peerDetached 3].length = min (8 : Byte).toNat (noticed.port 0).notices.length) :=
  ⟨online_now rfl rfl rfl rfl rfl, online_now rfl rfl rfl rfl rfl, by decide +kernel, by decide +kernel⟩

/-- Only the last block is FREE. -/
def lastFree : State := { bench with blocks := (Table.replicate 256 Block.scrub).set 255 .free }

theorem lastFree_blocks : ∀ b : BlockNo, lastFree.block b = .free → b = 255 := by decide +kernel

theorem witness_ClaimBlocksTakesLowestFreeRun :
    (OnlineNow owning 0 0x40 [2] ∧ 1 ≤ (2 : Byte).toNat ∧ (64 : Byte).toNat ≤ 64 ∧ FreeRun owning 0 2 ∧
      ∀ b, b < 0 → ¬FreeRun owning b 2) ∧
    OnlineNow lastFree 0 0x40 [64] ∧ OnlineNow lastFree 0 0x40 [2] ∧ (∀ b, ¬FreeRun lastFree b 64) ∧
    (∃ b, FreeRun lastFree b 1) ∧
    ∀ b, ¬FreeRun lastFree b (1 + 1) := by
  have key : ∀ n, 2 ≤ n → ∀ b, ¬FreeRun lastFree b n := by
    intro n hn b ⟨h1, h2⟩
    have hb : b < 256 := by omega
    have hb' : b + 1 < 256 := by omega
    have e1 := lastFree_blocks _ (h2 ⟨b, hb⟩ (Nat.le_refl _) (by show b < b + n; omega))
    have e2 := lastFree_blocks _ (h2 ⟨b + 1, hb'⟩ (by show b ≤ b + 1; omega) (by show b + 1 < b + n; omega))
    have e1' : b = 255 := congrArg Fin.val e1
    have e2' : b + 1 = 255 := congrArg Fin.val e2
    omega
  refine ⟨⟨online_now rfl rfl rfl rfl rfl, by decide, by decide, ⟨by decide, ?_⟩, fun b h => absurd h (Nat.not_lt_zero _)⟩,
    online_now rfl rfl rfl rfl rfl, online_now rfl rfl rfl rfl rfl, key 64 (by decide), ⟨255, by decide, ?_⟩, key 2 (by decide)⟩
  · decide +kernel
  · decide +kernel

theorem witness_ReleaseBlocksGivesUpWholeSpan :
    (OnlineNow owning 0 0x41 [2, 2] ∧ OnlineNow mixed 0 0x41 [0, 2] ∧ 1 ≤ (2 : Byte).toNat ∧ (64 : Byte).toNat ≤ 64 ∧
      (2 : Byte).toNat + (2 : Byte).toNat ≤ 256) ∧
    Decides owning 0 2 3 4 .notOwner ∧ Decides mixed 0 0 2 1 .blockBusy ∧ AllOwned owning 0 2 2 ∧
    ([2, 3] : List BlockNo).map Fin.val = (List.range 2).map (2 + ·) :=
  ⟨⟨online_now rfl rfl rfl rfl rfl, online_now rfl rfl rfl rfl rfl, by decide, by decide, by decide⟩,
    ⟨by decide, by decide +kernel, by decide +kernel, by decide +kernel⟩,
    ⟨by decide, by decide +kernel, by decide +kernel, by decide +kernel⟩, by unfold AllOwned; decide +kernel, by decide⟩

theorem witness_AccessFollowsBlockEntry :
    (0 : BlockNo).val = (0x00FF : Word).toNat / 256 ∧ (255 : BlockNo).val = (0xFF00 : Word).toNat / 256 := by decide

theorem witness_SetAndRewindCursor :
    ∀ k : Fin 2, OnlineNow bench 0 0x48 [byteOf k.val, 0x00, 0x00, 0x00, 0x00] ∧ OnlineNow bench 0 0x49 [byteOf k.val] :=
  fun _ => ⟨taken_online, taken_online⟩

/-- Port A's cursor 0 stands at block 2 of `owning`. -/
def pointing : State :=
  owning.modPort 0 fun ps => { ps with cursors := ps.cursors.set 0 { base := 0x0200, limit := 4, pointer := 3 } }

theorem witness_ReadDataBeginsStreamOrIsRefused :
    (∀ k : Fin 2, OnlineNow pointing 0 0x4A [byteOf k.val, 0x00, 0x01] ∧
      OnlineNow pointing 0 0x4A [byteOf k.val, 0x01, 0x00]) ∧
    (1 ≤ ((0x00 : Byte) ++ (0x01 : Byte) : Word).toNat ∧
      ((0x01 : Byte) ++ (0x00 : Byte) : Word).toNat ≤ 256) ∧
    pointing.mayRead 0 ((pointing.cursor 0 0).base + BitVec.ofNat 16 (pointing.cursor 0 0).pointer) = true ∧
    pointing.mayRead 0 ((pointing.cursor 0 1).base + BitVec.ofNat 16 (pointing.cursor 0 1).pointer) = false :=
  ⟨fun _ => ⟨online_now rfl rfl rfl rfl rfl, online_now rfl rfl rfl rfl rfl⟩, by decide +kernel, by decide +kernel,
    by decide +kernel⟩

/-- A streamed read of Port A through the cursor at block 2, with the fourth bit of a byte gone out. -/
def streaming (t : Transfer) : State := pointing.modPort 0 fun ps => { ps with asm := .reply 0x00 4 [] (some t) }

theorem witness_ReadDataByteIsCheckedAsItGoesOut :
    (((streaming (transfer 0 1 false false)).port 0).asm = .reply 0x00 4 [] (some (transfer 0 1 false false)) ∧
      (transfer 0 1 false false).begun < (transfer 0 1 false false).wanted ∧
      (streaming (transfer 0 1 false false)).mayRead 0 0x0203 = true) ∧
    ((transfer 0 1 true false).lost = true ∧ (transfer 0 1 false true).departed = true ∧
      (streaming (transfer 0 1 false false)).mayRead 1 0x0203 = false) ∧
    (transfer 1 1 false false).wanted ≤ (transfer 1 1 false false).begun ∧
    (∀ a ∈ [Assembler.idle, .request 0x20 [], .reply 0x20 4 [0x2F] none, .trailer 0x20 0],
      ∀ v k rest x, ((sending a).port 0).asm ≠ .reply v k rest (some x)) := by
  refine ⟨by decide +kernel, by decide +kernel, by decide +kernel, fun a ha v k rest x h => ?_⟩
  have h : a = .reply v k rest (some x) := h
  subst h
  simp at ha

theorem witness_WriteDataCommitsAllBytes :
    OnlineNow pointing 0 0x4B [byteOf (0 : Fin 2).val, 0x5A] ∧
    OnlineNow pointing 0 0x4B (byteOf (0 : Fin 2).val :: List.replicate 248 0x5A) ∧ 1 ≤ [(0x5A : Byte)].length ∧
    (List.replicate 248 (0x5A : Byte)).length ≤ 248 ∧
    ∀ i, i < 248 → pointing.mayWrite 0 (target (pointing.cursor 0 0) i) = true :=
  ⟨online_now rfl rfl rfl rfl rfl, online_now rfl rfl rfl rfl rfl, by decide, by decide +kernel, by decide +kernel⟩

/-- Port A's cursor 0 ends its window in a block that the port does not own. -/
def crossing : State :=
  owning.modPort 0 fun ps => { ps with cursors := ps.cursors.set 0 { base := 0x03FF, limit := 2, pointer := 0 } }

theorem witness_WriteDataRefusedWhole :
    OnlineNow crossing 0 0x4B (byteOf (0 : Fin 2).val :: List.replicate 248 0) ∧
    crossing.mayWrite 0 (target (crossing.cursor 0 0) 1) = false ∧
    (∀ j, j < 1 → crossing.mayWrite 0 (target (crossing.cursor 0 0) j) = true) ∧
    1 < (List.replicate 248 (0 : Byte)).length :=
  ⟨online_now rfl rfl rfl rfl rfl, by decide +kernel, by decide +kernel, by decide +kernel⟩

theorem witness_TickLowersEveryCountdown : bench.powered = true ∧ unpowered.powered = false := ⟨rfl, rfl⟩

theorem witness_DeadlineExpiryFailsTheCall :
    (calling (.waiting (some 0))).slot 0 = some (call (.waiting (some 0))) ∧
    ∀ c, (calling (.waiting (some 1))).slot 0 = some c → c.state ≠ .waiting (some 0) := by
  refine ⟨rfl, ?_⟩
  intro c h
  rw [calling_slot] at h; cases h; decide

theorem witness_OverrunFailsTheCallAndOrphansItsEntry :
    ((serving (some 0)).slot 0 = some (call (.inService (some 0))) ∧
      ((serving (some 0)).port (call (.inService (some 0))).callee).stack = [] ++ entry false :: [] ∧
      (entry false).slot = 0 ∧ (entry false).orphaned = false) ∧
    ∀ c, (serving (some 1)).slot 0 = some c → c.state ≠ .inService (some 0) := by
  refine ⟨⟨rfl, rfl, rfl, rfl⟩, ?_⟩
  intro c h
  have h0 : (serving (some 1)).slot 0 = some (call (.inService (some 1))) := rfl
  rw [h0] at h; cases h; decide

theorem witness_ScrubCompletionFreesTheHeadBlock :
    (bench.scrubQueue.head? = some 0 ∧ bench.scrubBusy = true) ∧ owning.scrubQueue = [] ∧
    ({ bench with scrubBusy := false } : State).scrubBusy = false := by decide +kernel

/-! ### A state that meets every law -/

/-- Port A's call in service, with cancel asked. -/
def asked : Call := { call (.inService (some 300)) with cancelAsked := true }

/-- Port A's call is in service at Port B and has cancel asked, which a notice in Port B's queue tells; its blocks 2 and 3 are
LENT, Port D is HELD, and the scrub engine is IDLE. -/
def whole : State :=
  { serving (some 300) with
    ports :=
      ((serving (some 300)).ports.set 3 { linked (.held 200) with rsto := true }).set 1
        { (serving (some 300)).port 1 with
          mode := .online { options with consent := [0] }
          notices := [.peerDetached 3, .cancelAsked 0 0 0x0A09] }
    slots := (serving (some 300)).slots.set 0 (some asked)
    posts := 1
    blocks := ((Table.replicate 256 Block.free).set 2 (.lent 0 1 .readWrite 0)).set 3 (.lent 0 1 .readWrite 0)
    mem := { cells := [], unknown := [], epoch := 0 }
    scrubQueue := []
    scrubBusy := false
    pending := [.tick] }

theorem whole_slot (n : SlotNo) (c : Call) (h : whole.slot n = some c) : n = 0 ∧ c = asked := by
  have h0 : whole.slot 0 = some asked := by decide +kernel
  have hn : ∀ n, n ≠ 0 → whole.slot n = none := by decide +kernel
  by_cases e : n = 0
  · subst e; rw [h0] at h; cases h; exact ⟨rfl, rfl⟩
  · rw [hn n e] at h; cases h

theorem whole_block (b : BlockNo) :
    whole.block b = if b = 2 ∨ b = 3 then .lent 0 1 .readWrite 0 else .free := by
  revert b; decide +kernel

theorem whole_step : ∃ t, step whole = .next t := ⟨_, rfl⟩

theorem whole_calls : CallLaw whole := by
  refine ⟨?_, ?_⟩
  · intro n c h
    obtain ⟨rfl, rfl⟩ := whole_slot n c h
    refine ⟨by decide, by decide, ?_, fun _ => ⟨by decide +kernel, service 1, by decide +kernel, rfl⟩⟩
    intro l hl; cases hl; decide
  · intro n m c d hc hd _
    rw [(whole_slot n c hc).1, (whole_slot m d hd).1]

theorem whole_service : ServiceLaw whole := by
  have h0 : whole.slot 0 = some asked := by decide +kernel
  have hs : ∀ p : Port, (whole.port p).stack = if p = 1 then [entry false] else [] := by decide +kernel
  refine ⟨?_, ?_, ?_⟩
  · intro p e he _
    rw [hs] at he
    split at he
    · next hp =>
      rw [List.mem_singleton] at he; subst he; subst hp
      exact ⟨_, h0, rfl, rfl, rfl, rfl, rfl, rfl⟩
    · cases he
  · intro n c h _
    obtain ⟨rfl, rfl⟩ := whole_slot n c h
    exact ⟨entry false, by rw [hs]; exact List.mem_cons_self, rfl, rfl⟩
  · intro p; revert p; decide +kernel

theorem whole_leases : LeaseLaw whole := by
  have h0 : whole.slot 0 = some asked := by decide +kernel
  refine ⟨?_, ?_⟩
  · intro b o m n
    constructor
    · intro h; rw [whole_block] at h; split at h <;> cases h
    · rintro ⟨c, l, hs, hp, -⟩
      obtain ⟨rfl, rfl⟩ := whole_slot n c hs; cases hp
  · intro b o q m n
    have hcov : ∀ b : BlockNo, lease.covers b = true ↔ b = 2 ∨ b = 3 := by decide +kernel
    constructor
    · intro h
      rw [whole_block] at h
      split at h
      · next hb =>
        cases h
        exact ⟨_, lease, h0, rfl, rfl, (hcov b).2 hb, rfl, rfl, rfl⟩
      · cases h
    · rintro ⟨c, l, hs, -, hl, hb, hm, ho, hq⟩
      obtain ⟨rfl, rfl⟩ := whole_slot n c hs
      cases hl; cases hm; cases ho; cases hq
      rw [whole_block, if_pos ((hcov b).1 hb)]; rfl

theorem whole_clean : CleanLaw whole := by
  intro a _
  rfl

theorem witness_EveryStepKeepsStackLaw : StackLaw whole ∧ ∃ t, step whole = .next t :=
  ⟨by decide +kernel, whole_step⟩

theorem witness_EveryStepKeepsCursorLawAndMemoryCanonical :
    CursorLaw whole ∧ whole.mem.wf ∧ ∃ t, step whole = .next t :=
  ⟨by decide +kernel, by decide +kernel, whole_step⟩

theorem witness_EveryStepKeepsPortLaws :
    PulseLaw whole ∧ HeldLaw whole ∧ FrameLaw whole ∧ LinkLaw whole ∧ StagingLaw whole ∧ ∃ t, step whole = .next t :=
  ⟨by decide +kernel, by decide +kernel, by decide +kernel, by decide +kernel, by decide +kernel, whole_step⟩

theorem test_laws_of_a_write_data_that_arrives :
    StagingLaw (restaging (arriving [] sevenOf5A)) ∧ ¬StagingLaw (restaging (arriving [0x5A] [])) ∧
    lawfulBits true (.reply 0x20 8 [] none) = false := by decide +kernel

theorem witness_EveryStepKeepsScrubAndCleanLaws : ScrubLaw whole ∧ CleanLaw whole ∧ ∃ t, step whole = .next t :=
  ⟨by decide +kernel, whole_clean, whole_step⟩

theorem whole_fields : FieldLaw whole := by decide +kernel

theorem whole_notices : NoticeLaw whole := by
  have hn : ∀ p : Port, (whole.port p).notices = if p = 1 then [.peerDetached 3, .cancelAsked 0 0 0x0A09] else [] := by
    decide +kernel
  have about : ∀ (p : Port) (k : Notice), k ∈ (whole.port p).notices →
      p = 1 ∧ (k = .peerDetached 3 ∨ k = .cancelAsked 0 0 0x0A09) := by
    intro p k h
    rw [hn] at h
    split at h
    · next hp => exact ⟨hp, by simpa using h⟩
    · cases h
  refine ⟨fun p => ⟨?_, ?_, ?_⟩, fun p => ⟨?_, ?_, ?_⟩⟩
  · revert p; decide +kernel
  · intro n tag h; rcases (about p _ h).2 with h | h <;> cases h
  · intro n tag why h; rcases (about p _ h).2 with h | h <;> cases h
  · intro level
    rw [hn]
    split
    · cases level <;> simp [asksAbout, orphansAt]
    · simp
  · intro level n tag h
    obtain ⟨rfl, h | h⟩ := about p _ h
    · cases h
    · cases h
      exact ⟨entry false, by decide +kernel, rfl, rfl, .inr ⟨asked, by decide +kernel, rfl⟩⟩
  · rintro level n tag (h | h) <;> rcases (about p _ h).2 with h | h <;> cases h

theorem witness_EveryStepKeepsDirectoryQuotaAndFieldLaws :
    DirectoryLaw whole ∧ QuotaLaw whole ∧ FieldLaw whole ∧ ∃ t, step whole = .next t :=
  ⟨by decide +kernel, by decide +kernel, whole_fields, whole_step⟩

theorem whole_part : PartLaw whole :=
  ⟨by decide +kernel, by decide +kernel, by decide +kernel, whole_calls, whole_service, whole_leases, by decide +kernel,
    by decide +kernel, by decide +kernel⟩

theorem witness_EveryStepKeepsNoticeLaws :
    PeerNoticeLaw whole ∧ PartLaw whole ∧ NoticeLaw whole ∧ FieldLaw whole ∧ (∃ t, step whole = .next t) ∧
    whole.online 2 = false :=
  ⟨by decide +kernel, whole_part, whole_notices, whole_fields, whole_step, by decide +kernel⟩

theorem witness_EveryStepKeepsPartLaw : PartLaw whole ∧ ∃ t, step whole = .next t := ⟨whole_part, whole_step⟩

/-! ### Leases that a departure leaves alone -/

/-- Port A's call waits for Port B, and its blocks 2 and 3 are PLEDGED. -/
def posted : State :=
  { calling (.waiting none) with
    blocks := ((Table.replicate 256 Block.free).set 2 (.pledged 0 .readWrite 0)).set 3 (.pledged 0 .readWrite 0) }

theorem posted_slot (n : SlotNo) (c : Call) (h : posted.slot n = some c) : n = 0 ∧ c = call (.waiting none) := by
  have h0 : posted.slot 0 = some (call (.waiting none)) := by decide +kernel
  have hn : ∀ n, n ≠ 0 → posted.slot n = none := by decide +kernel
  by_cases e : n = 0
  · subst e; rw [h0] at h; cases h; exact ⟨rfl, rfl⟩
  · rw [hn n e] at h; cases h

theorem posted_leases : LeaseLaw posted := by
  have h0 : posted.slot 0 = some (call (.waiting none)) := by decide +kernel
  have hb : ∀ b : BlockNo, posted.block b = if b = 2 ∨ b = 3 then .pledged 0 .readWrite 0 else .free := by decide +kernel
  have hcov : ∀ b : BlockNo, lease.covers b = true ↔ b = 2 ∨ b = 3 := by decide +kernel
  refine ⟨?_, ?_⟩
  · intro b o m n
    constructor
    · intro h
      rw [hb] at h
      split at h
      · next hb => cases h; exact ⟨_, lease, h0, rfl, rfl, (hcov b).2 hb, rfl, rfl⟩
      · cases h
    · rintro ⟨c, l, hs, -, hl, hc, hm, ho⟩
      obtain ⟨rfl, rfl⟩ := posted_slot n c hs
      cases hl; cases hm; cases ho
      rw [hb, if_pos ((hcov b).1 hc)]; rfl
  · intro b o q m n
    constructor
    · intro h; rw [hb] at h; split at h <;> cases h
    · rintro ⟨c, l, hs, hp, -⟩
      obtain ⟨rfl, rfl⟩ := posted_slot n c hs; cases hp

theorem stackAgrees_empty {s : State} {p : Port} (h : (s.port p).stack = [])
    (hs : ∀ n c, s.slot n = some c → c.callee ≠ p) : StackAgrees s p := by
  refine ⟨fun n c hc _ hq => absurd hq (hs n c hc), ?_, ?_⟩ <;> simp [h]

/-- Port C departs while blocks 2 and 3 stand in the lease of Port A's call to Port B, in service and waiting. -/
theorem witness_DepartureLeavesOtherLeases :
    (StackAgrees whole 2 ∧ LeaseLaw whole ∧ whole.slot 0 = some asked ∧ whole.block 2 = .lent 0 1 .readWrite 0 ∧
      ∀ n c, whole.slot n = some c → c.callee ≠ 2) ∧
    (StackAgrees posted 2 ∧ LeaseLaw posted ∧ posted.slot 0 = some (call (.waiting none)) ∧
      posted.block 3 = .pledged 0 .readWrite 0 ∧ ∀ n c, posted.slot n = some c → c.callee ≠ 2) := by
  have hw : ∀ n c, whole.slot n = some c → c.callee ≠ 2 := by
    intro n c h; rw [(whole_slot n c h).2]; decide
  have hp : ∀ n c, posted.slot n = some c → c.callee ≠ 2 := by
    intro n c h; rw [(posted_slot n c h).2]; decide
  exact ⟨⟨stackAgrees_empty (by decide +kernel) hw, whole_leases, by decide +kernel, by decide +kernel, hw⟩,
    stackAgrees_empty (by decide +kernel) hp, posted_leases, by decide +kernel, by decide +kernel, hp⟩

end Sys2Proof.Tests
end

section
/-! SUPPORT. The commands and events over the call table that need no frame: the pending order, the state right after reset, a tick,
an expiry and an overrun; and the slot commands on another port's slot. -/

namespace Sys2Proof.CallTable

open Sys2Proof Sys2Proof.Machine Sys2Proof.Safety Sys2Proof.Statement

/-- Settles O26: the insertion sort of the pending order. -/
theorem pendingOrderIsSorted : Obligations.PendingOrderIsSorted := fun s q =>
  ⟨fun n c => mem_pendingCalls s q n c, pendingCalls_nodup s q, pendingCalls_sorted s q⟩

theorem reset_port (p : Port) : State.reset.port p = PortState.reset true false false true := by
  simp only [State.port, State.reset, Table.get_replicate]

theorem reset_slot (n : SlotNo) : State.reset.slot n = none := by
  simp only [State.slot, State.reset, Table.get_replicate]

theorem reset_block (b : BlockNo) : State.reset.block b = .scrub := by
  simp only [State.block, State.reset, Table.get_replicate]

/-- The scrub queue's load names the blocks 0 to 255 in order. -/
theorem initialScrubQueue_val : initialScrubQueue.map Fin.val = List.range 256 := by
  rw [initialScrubQueue, Table.indices_eq_filter]
  simp

/-- No port has an eligible call right after reset. -/
theorem reset_waiting (p : Port) : State.reset.waiting p = false := by
  have h : ∀ c ∈ State.reset.slots.items, c = none := (Table.forall_items _ (· = none)).2 reset_slot
  simp only [State.waiting, List.any_eq_false]
  intro c hc
  rw [h c hc]; simp

/-- Settles O4: each field of `State.reset` by its table's lemma. -/
theorem resetStateHoldsResetValues : Obligations.ResetStateHoldsResetValues := by
  refine ⟨reset_slot, rfl, reset_block, initialScrubQueue_val, rfl, rfl, rfl, rfl, rfl,
    fun p => ⟨true, false, true, reset_port p⟩, fun p => ?_⟩
  simp only [State.summary, reset_waiting, reset_port]
  rfl

/-- Settles O30: the shared check of the slot's caller answers before the command's effect. -/
theorem otherPortsSlotIsNotCallers : Obligations.OtherPortsSlotIsNotCallers := by
  intro p n req s h
  have key : ∀ {code : Byte} {act : SlotNo → Call → State → State × Reply}, lengthAllowed code 1 = true →
      isStatusCode code = false → TakenOnline s p code [byteOf n.val] req →
      s.runCommand p code [byteOf n.val] (withOwnCall p (slot? (param [byteOf n.val] 0)) act) =
        s.modPort p (replied req code .notCaller []) := fun hl hc ⟨hr, ho⟩ =>
    runCommand_only_replies hr (not_held_of_online ho) hl hc (withOwnCall_other ho h _)
  exact ⟨fun ht => congrArg _ (key rfl rfl ht), fun ht => congrArg _ (key rfl rfl ht),
    fun ht => congrArg _ (key rfl rfl ht)⟩

/-- A call at a tick, state by state. -/
theorem call_tick_eq (c : Call) :
    c.tick = match c.state with
      | .waiting (some d) => { c with state := .waiting (some (d - 1)) }
      | .inService (some l) => { c with state := .inService (some (l - 1)) }
      | _ => c := by
  obtain ⟨_, _, _, _, _, _, _, _, _, st⟩ := c
  rcases st with (_ | _) | (_ | _) | _ | _ <;> rfl

/-- A port at a tick, state by state. -/
theorem mode_tick_eq (ps : PortState) :
    { ps with mode := ps.mode.tick } = match ps.mode with
      | .held n => { ps with mode := .held (n - 1) }
      | _ => ps := by
  cases ps with | mk _ _ _ _ _ mode => cases mode <;> rfl

/-- Settles O49: the tick of a call and of a port, state by state. -/
theorem tickLowersEveryCountdown : Obligations.TickLowersEveryCountdown := by
  intro s
  constructor
  · intro h
    have hslots := congrArg (fun f : Call → Call => s.slots.map fun _ c => c.map f) (funext call_tick_eq)
    have hports := congrArg (fun f : PortState → PortState => s.ports.map fun _ ps => f ps) (funext mode_tick_eq)
    exact congrArg Host.Outcome.next ((if_pos h).trans
      (congrArg₂ (fun a b => ({ s with slots := a, ports := b, phase := 0 } : State)) hslots hports))
  · intro h
    show execTick s = _
    rw [execTick, if_neg (by simp [h])]

/-- Settles O50: an expiry is the failure of one PENDING call. -/
theorem deadlineExpiryFailsTheCall : Obligations.DeadlineExpiryFailsTheCall := by
  intro n s
  constructor
  · intro c hs hst
    have hu : Unended c := .inl (by simp [Call.isPending, hst])
    show execDeadlineExpiry n s = _
    simp only [execDeadlineExpiry, hs, Option.map_some, hst]
    rw [failCall_eq hs hu]
  · intro h
    show execDeadlineExpiry n s = _
    unfold execDeadlineExpiry
    split
    · next e =>
      obtain ⟨c, hs, hc⟩ := Option.map_eq_some_iff.1 e
      exact absurd hc (h c hs)
    all_goals rfl

/-- The callee's part of an overrun, when its one live entry for the slot is known. -/
theorem orphanOverrun_eq {s : State} {q : Port} {n : SlotNo} {tag : Word} {below above : List StackEntry} {e : StackEntry}
    (hst : (s.port q).stack = below ++ e :: above) (h1 : e.slot = n) (h2 : e.orphaned = false)
    (h3 : ∀ k ∈ below ++ above, k.slot = n → k.orphaned = true) :
    s.orphanOverrun q n tag =
      s.modPort q fun ps =>
        told (.overrun below.length n tag) { ps with stack := below ++ { e with orphaned := true } :: above } := by
  refine modPort_congr _ _ ?_
  simp only [hst, liveLevel_eq h1 h2 fun k hk => h3 k (List.mem_append_left _ hk), orphanSlot_eq h1 h2 h3, told]

/-- Settles O51: the callee's entry is orphaned, and then the call fails. -/
theorem overrunFailsTheCallAndOrphansItsEntry : Obligations.OverrunFailsTheCallAndOrphansItsEntry := by
  intro n s
  constructor
  · intro c below e above hs hst hk h1 h2 h3
    have hu : Unended c := .inr (by simp [Call.isInService, hst])
    show execOverrun n s = _
    simp only [execOverrun, hs, if_pos hst]
    rw [orphanOverrun_eq hk h1 h2 h3, failCall_eq (s := s.modPort _ _) hs hu]
    rfl
  · intro h
    show execOverrun n s = _
    unfold execOverrun
    split
    · rfl
    · next c hs => rw [if_neg (h c hs)]

end Sys2Proof.CallTable
end

section
/-! SUPPORT. The commands of the callers: Cancel Call, Collect Answer, the reports, and Post Call. -/

namespace Sys2Proof.CallTable

open Sys2Proof Sys2Proof.Machine Sys2Proof.Safety Sys2Proof.Statement

variable {s : State} {p : Port} {n : SlotNo} {c : Call} {req : Request}

/-! ### Commands that name a slot of the caller -/

/-- A slot command of the caller whose effect leaves the link of the port as the verified check byte left it. -/
theorem ownCall_replies {code : Byte} {act : SlotNo → Call → State → State × Reply} {s' : State} {st : Status}
    {body : List Byte} (ht : TakenOnline s p code [byteOf n.val] req) (hs : s.slot n = some c) (hc : c.caller = p)
    (hact : act n c (s.modPort p (verified req)) = (s', { status := st, body := body }))
    (hf : verified req (s'.port p) = s'.port p) (hl : lengthAllowed code 1 = true := by rfl)
    (hk : isStatusCode code = false := by rfl) :
    s.runCommand p code [byteOf n.val] (withOwnCall p (slot? (param [byteOf n.val] 0)) act) =
      s'.modPort p (replied req code st body) :=
  runCommand_replies ht.1 (not_held_of_online ht.2) hl hk ((withOwnCall_own ht.2 hs hc _).trans hact) hf

/-- The same for a reply that changes nothing else. -/
theorem ownCall_only_replies {code : Byte} {act : SlotNo → Call → State → State × Reply} {st : Status}
    {body : List Byte} (ht : TakenOnline s p code [byteOf n.val] req) (hs : s.slot n = some c) (hc : c.caller = p)
    (hact : act n c (s.modPort p (verified req)) = (s.modPort p (verified req), { status := st, body := body }))
    (hl : lengthAllowed code 1 = true := by rfl) (hk : isStatusCode code = false := by rfl) :
    s.runCommand p code [byteOf n.val] (withOwnCall p (slot? (param [byteOf n.val] 0)) act) =
      s.modPort p (replied req code st body) :=
  runCommand_only_replies ht.1 (not_held_of_online ht.2) hl hk ((withOwnCall_own ht.2 hs hc _).trans hact)

/-- A slot's change and a port's change commute. -/
theorem modPort_setSlot (s : State) (p : Port) (f : PortState → PortState) (n : SlotNo) (c : Option Call) :
    (s.modPort p f).setSlot n c = (s.setSlot n c).modPort p f := rfl

/-- A lease's change and a port's change commute. -/
theorem modPort_modLease (s : State) (p : Port) (f : PortState → PortState) (l : Option Lease) (g : Block → Block) :
    (s.modPort p f).modLease l g = (s.modLease l g).modPort p f := by
  cases l <;> rfl

/-- A cancel of a PENDING call, in the statements' words. -/
theorem cancelPending_eq (s : State) (n : SlotNo) (c : Call) :
    s.cancelPending n c = { s with slots := s.slots.set n none, blocks := leaseChanged s c.lease returned } := by
  rw [State.cancelPending, giveBack_eq, modLease_eq s (s.setSlot n none)]; rfl

/-- The first cancel of an IN_SERVICE call, when the callee's live entry for it is known. -/
theorem askCancel_eq {below above : List StackEntry} {e : StackEntry}
    (hst : (s.port c.callee).stack = below ++ e :: above) (h1 : e.slot = n) (h2 : e.orphaned = false)
    (h3 : ∀ k ∈ below, k.slot = n → k.orphaned = true) :
    s.askCancel n c =
      ({ s with slots := s.slots.set n (some { c with cancelAsked := true }) } : State).modPort c.callee
        (told (.cancelAsked below.length n c.tag)) := by
  simp only [State.askCancel, hst, liveLevel_eq h1 h2 h3]
  rfl

/-- Settles O31: one branch of `cancelCall` per state of the slot. -/
theorem cancelCallByState : Obligations.CancelCallByState := by
  intro p n c req s ht hs hc
  refine ⟨fun d hd => ?_, fun l below e above hl hna hst h1 h2 h3 => ?_, fun l hl hca => ?_, fun r ws hr => ?_,
    fun why hw => ?_⟩
  · have hact : cancelCall n c (s.modPort p (verified req)) =
        ((s.modPort p (verified req)).cancelPending n c, { status := .cancelled, body := [] }) := by
      simp only [cancelCall, hd]; rfl
    refine congrArg _ ((ownCall_replies ht hs hc hact ?_).trans ?_)
    · simp only [State.cancelPending, modLease_port, setSlot_port, port_verified]; rfl
    · rw [State.cancelPending, modPort_setSlot, modPort_modLease, modPort_modPort, ← State.cancelPending, cancelPending_eq]
      rfl
  · have hst' : ((s.modPort p (verified req)).port c.callee).stack = below ++ e :: above := by
      rw [modPort_port]; split <;> simpa using hst
    have hact : cancelCall n c (s.modPort p (verified req)) =
        ((s.modPort p (verified req)).askCancel n c, { status := .asked, body := [] }) := by
      simp only [cancelCall, hl, hna]; rfl
    refine congrArg _ ((ownCall_replies ht hs hc hact ?_).trans ?_)
    · rw [askCancel_eq hst' h1 h2 h3, modPort_port]
      split <;> simp only [State.port, modPort_ports, Table.get_set_self] <;> rfl
    · rw [askCancel_eq hst' h1 h2 h3]
      exact modPort_around (req := req) (s.setSlot n (some { c with cancelAsked := true })) p c.callee
        (told (.cancelAsked below.length n c.tag)) (replied req 0x21 .asked []) (replied req 0x21 .asked [])
        (fun _ => rfl) fun _ => rfl
  · refine congrArg _ (ownCall_only_replies ht hs hc ?_)
    simp only [cancelCall, hl, hca]; rfl
  · refine congrArg _ (ownCall_only_replies ht hs hc ?_)
    simp only [cancelCall, hr]; rfl
  · refine congrArg _ (ownCall_only_replies ht hs hc ?_)
    simp only [cancelCall, hw]; rfl

/-- The notices that stay in a caller's queue when a slot is collected. -/
theorem not_announces_eq (n : SlotNo) :
    (fun k : Notice => !k.announces n) = fun k =>
      match k with
      | .answered m _ => decide (m ≠ n)
      | .failed m _ _ => decide (m ≠ n)
      | _ => true := by
  funext k
  cases k <;> simp [Notice.announces, BEq.beq]

/-- Settles O32: an ended call is collected, any other is NOT_DONE. -/
theorem collectAnswerReturnsOutcomeAndFreesSlot : Obligations.CollectAnswerReturnsOutcomeAndFreesSlot := by
  intro p n c req s ht hs hc
  constructor
  · intro body hb
    have hact : collectAnswer p n c (s.modPort p (verified req)) =
        ((s.modPort p (verified req)).collect p n, { status := .ok, body := body }) := by
      obtain ⟨r, ws, hst, rfl⟩ | ⟨why, hst, rfl⟩ := hb <;>
        simp only [collectAnswer, hst, outcomeBytes, reasonValue_eq] <;> rfl
    refine congrArg _ ((ownCall_replies ht hs hc hact ?_).trans ?_)
    · simp only [State.collect, modPort_port_self, setSlot_port]; rfl
    · rw [State.collect, modPort_setSlot, modPort_modPort, modPort_modPort, not_announces_eq]
      rfl
  · intro h
    refine congrArg _ (ownCall_only_replies ht hs hc ?_)
    cases hst : c.state <;> simp [Call.isPending, Call.isInService, hst] at h <;> simp only [collectAnswer, hst] <;> rfl

/-! ### The reports -/

/-- A block's five bytes, in the statements' words. -/
theorem blockBytes_eq (k : Block) :
    blockBytes k =
      match k with
      | .free => [0x00, 0xFF, 0xFF, 0xFF, 0xFF]
      | .scrub => [0x01, 0xFF, 0xFF, 0xFF, 0xFF]
      | .owned o => [0x02, byteOf o.val, 0xFF, 0xFF, 0xFF]
      | .pledged o m n => [0x03, byteOf o.val, 0xFF, modeValue m, byteOf n.val]
      | .lent o q m n => [0x04, byteOf o.val, byteOf q.val, modeValue m, byteOf n.val] := by
  cases k <;> simp only [blockBytes, modeValue_eq] <;> rfl

theorem callStatus_reply {kind reason : Byte} {ticks : Nat} (n : SlotNo) (s : State)
    (h : match c.state with
      | .waiting (some d) => kind = 0x01 ∧ ticks = d ∧ reason = 0x00
      | .waiting none => kind = 0x00 ∧ ticks = 0 ∧ reason = 0x00
      | .inService (some l) => kind = 0x02 ∧ ticks = l ∧ reason = 0x00
      | .inService none => kind = 0x00 ∧ ticks = 0 ∧ reason = 0x00
      | .answered _ _ => kind = 0x00 ∧ ticks = 0 ∧ reason = 0x00
      | .failed why => kind = 0x00 ∧ ticks = 0 ∧ reason = reasonValue why) :
    callStatus n c s =
      reply .ok
        ([stateValue c.state, byteOf c.callee.val, byteOf c.service, byteOf c.priority] ++ wordBytes c.tag ++
          [yesNoByte c.cancelAsked, reason, kind] ++ wordOf ticks) s := by
  simp only [callStatus, reasonByte, countdownBytes, stateValue_eq, portByte]
  rcases hst : c.state with (_ | d) | (_ | l) | _ | _ <;> rw [hst] at h <;> obtain ⟨rfl, rfl, rfl⟩ := h <;>
    simp [wordOf, wordBytes]

theorem serviceInRange_of {id : Byte} (h1 : 1 ≤ id.toNat) (h2 : id.toNat ≤ 254) : serviceInRange (param [id] 0) = true := by
  simp [serviceInRange, param, paramByte, h1, h2]

/-- Settles O33: three commands that only reply. -/
theorem reportsShowTheEntryAsItStands : Obligations.ReportsShowTheEntryAsItStands := by
  intro p req s
  refine ⟨fun n c kind reason ticks ht hs hc h => ?_, fun id ht h1 h2 => ⟨fun he => ?_, fun e he => ?_⟩, fun b ht => ?_⟩
  · exact congrArg _ (ownCall_only_replies ht hs hc (callStatus_reply n _ h))
  · refine congrArg _ (runCommand_only_replies ht.1 (not_held_of_online ht.2) rfl rfl ?_)
    rw [queryService, if_neg (by simp [serviceInRange_of h1 h2]), whenOnline_verified ht.2]
    simp only [param, paramByte, List.getD_cons_zero, modPort_entry, he]; rfl
  · refine congrArg _ (runCommand_only_replies ht.1 (not_held_of_online ht.2) rfl rfl ?_)
    rw [queryService, if_neg (by simp [serviceInRange_of h1 h2]), whenOnline_verified ht.2]
    simp only [param, paramByte, List.getD_cons_zero, modPort_entry, he, inServiceOf_eq, pendingOf_eq]
    cases e.limit <;> rfl
  · refine congrArg _ (runCommand_only_replies ht.1 (not_held_of_online ht.2) rfl rfl ?_)
    rw [blockStatus, whenOnline_verified ht.2, block_operand, blockBytes_eq]; rfl

/-! ### Post Call -/

/-- A post of good form whose checks refuse it. -/
theorem postCall_refused {params : List Byte} {st : Status} {body : List Byte}
    (hr : Receives s p (frame 0x20 params) req) (ho : IsOnline s p) (hg : goodPost params = true)
    (hl : params.length ≤ 255)
    (h : ∀ r : PostRequest, r.service = param params 0 → r.lease = postedLease params →
      postCallOnline p r (s.modPort p (verified req)) = refuseWith st body (s.modPort p (verified req))) :
    exec (.postCall p params) s = .next (s.modPort p (replied req 0x20 st body)) :=
  congrArg _ (runCommand_only_replies hr (not_held_of_online ho) (postCall_length_allowed hg hl) rfl
    ((postCall_good ho hg).trans (h _ rfl rfl)))

theorem leaseRefusal_none {lease : Option Lease} (h : ∀ l, lease = some l → AllOwned s p l.first l.count) :
    leaseRefusal (s.modPort p (verified req)) p lease = none := by
  cases lease with
  | none => rfl
  | some l => exact decidingBlock_of_allOwned (h l rfl)

/-- The lease check of R9 passes. -/
theorem lease_allowed {lease : Option Lease} {e : Service} {q : Lease → Prop}
    (h : ∀ l, lease = some l → e.leases = true ∧ q l) : ¬(lease.isSome = true ∧ e.leases = false) := by
  rintro ⟨h1, h2⟩
  obtain ⟨l, rfl⟩ := Option.isSome_iff_exists.1 h1
  simp [(h l rfl).1] at h2

theorem lowestFree_none (h : ∀ n, s.slot n ≠ none) : s.lowestFree = none := by
  simp only [State.lowestFree, List.head?_eq_none_iff, List.eq_nil_iff_forall_not_mem, Table.mem_indices,
    Option.isNone_iff_eq_none]
  exact h

theorem lowestFree_some (h : s.slot n = none) (hlow : ∀ m, m < n → s.slot m ≠ none) : s.lowestFree = some n := by
  have hmem : n ∈ s.slots.indices fun c => c.isNone := (Table.mem_indices _ _ _).2 (by rw [show s.slots.get n = none from h]; rfl)
  have hasc := Table.indices_ascending s.slots fun c => c.isNone
  rw [State.lowestFree]
  cases hl : s.slots.indices fun c => c.isNone with
  | nil => rw [hl] at hmem; cases hmem
  | cons m ms =>
    rw [hl] at hmem hasc
    rcases List.mem_cons.1 hmem with rfl | hm
    · rfl
    · have hfree : s.slots.get m = none := by
        have : m ∈ s.slots.indices fun c => c.isNone := by rw [hl]; exact List.mem_cons_self
        simpa using (Table.mem_indices _ _ _).1 this
      exact absurd hfree (hlow m ((List.pairwise_cons.1 hasc).1 n hm))

/-- Settles O28: one refusal per check, the checks before it passed. -/
theorem postCallRefusalsInOrder : Obligations.PostCallRefusalsInOrder := by
  intro p params req s hr hg hl
  refine ⟨fun hoff => ?_, fun o ho => ?_⟩
  · refine congrArg _ (runCommand_only_replies hr (not_held_of_taken (.inl hoff)) (postCall_length_allowed hg hl) rfl ?_)
    rw [postCall, if_neg (by simpa using ((goodPost_iff params).1 hg).1), postRequest_good hg]
    exact whenOnline_not ((online_verified s p p req).trans (not_online_of_offline hoff))
  have hon : IsOnline s p := ⟨o, ho⟩
  refine ⟨fun he => ?_, fun e he => ⟨fun hp => ?_, fun hp hq => ?_, fun hp hq => ⟨fun l hle hno => ?_,
    fun l b st hle hyes hd => ?_, fun hle hfull => ?_⟩⟩⟩
  all_goals
    refine postCall_refused hr hon hg hl fun r hs hrl => ?_
    have hq' : ((s.modPort p (verified req)).port p).mode.quota = o.quota := by rw [port_verified, verified_mode, ho]; rfl
    have hc' : (s.modPort p (verified req)).allocatedCount p = allocatedOf s p := rfl
    simp only [postCallOnline, hs, hrl, modPort_entry, he]
  · rfl
  · rw [if_pos hp]; rfl
  · rw [if_neg hp, if_pos (by rw [hq', hc']; exact hq)]; rfl
  · rw [if_neg hp, if_neg (by rw [hq', hc']; omega), if_pos ⟨by rw [hle]; rfl, hno⟩]; rfl
  · rw [if_neg hp, if_neg (by rw [hq', hc']; omega), if_neg (by simp [hyes]), hle]
    simp only [leaseRefusal, decidingBlock_of_decides hd]
  · rw [if_neg hp, if_neg (by rw [hq', hc']; omega), if_neg (lease_allowed hle),
      leaseRefusal_none fun l h => (hle l h).2]
    simp only [lowestFree_none (s := s.modPort p (verified req)) hfull]
    rfl

theorem ticks_eq (w : Word) : ticks? w.toNat = if w = 0 then none else some w.toNat := by
  have : w.toNat = 0 ↔ w = 0 := ⟨fun h => BitVec.eq_of_toNat_eq h, fun h => by rw [h]; rfl⟩
  simp only [ticks?, this]

/-- A post of a call whose lease lies in its caller's own blocks, field by field. -/
theorem post_eq (n : SlotNo) (h : ∀ l, c.lease = some l → AllOwned s p l.first l.count) :
    s.post n c =
      { s with
        posts := s.posts + 1
        slots := s.slots.set n (some c)
        blocks := s.blocks.map fun b k =>
          match c.lease with
          | some l => if l.first ≤ b.val ∧ b.val < l.first + l.count then .pledged p l.mode n else k
          | none => k } := by
  cases hl : c.lease with
  | none => simp only [State.post, hl, State.modLease, Table.map_id]; rfl
  | some l =>
    simp only [State.post, hl, State.modLease]
    refine congrArg (fun bs => ({ s with posts := s.posts + 1, slots := s.slots.set n (some c), blocks := bs } : State)) ?_
    ext b : 1
    simp only [Table.get_map, Lease.covers, Bool.and_eq_true, decide_eq_true_eq]
    split
    · next hc =>
      simp only [setSlot_blocks]
      rw [show s.blocks.get b = .owned p from h l hl b hc.1 hc.2]; rfl
    · rfl

/-- A post and a port's change commute. -/
theorem modPort_post (s : State) (p : Port) (f : PortState → PortState) (n : SlotNo) (c : Call) :
    (s.modPort p f).post n c = (s.post n c).modPort p f :=
  modPort_modLease (State.setSlot { s with posts := s.posts + 1 } n (some c)) p f c.lease _

/-- A post whose checks pass, R9's in order. -/
theorem postCallOnline_ok {r : PostRequest} {e : Service} (he : s.entry r.service = some e) (hp : e.provider ≠ p)
    (hq : s.allocatedCount p < (s.port p).mode.quota) (hl : ¬(r.lease.isSome = true ∧ e.leases = false))
    (hr : leaseRefusal s p r.lease = none) (hn : s.lowestFree = some n) :
    postCallOnline p r s = reply .ok [byteOf n.val] (s.post n (postedCall p r e s.posts)) := by
  simp only [postCallOnline, he, if_neg hp, if_neg (Nat.not_le.2 hq), if_neg hl, hr, hn]

/-- Settles O29: every check passes, and the post is the record that R11 gives. -/
theorem postCallAllocatesLowestFreeSlot : Obligations.PostCallAllocatesLowestFreeSlot := by
  intro p params req s o e n hr ho hg hlen he hp hq hle hfree hlow
  have hon : IsOnline s p := ⟨o, ho⟩
  have hq' : ((s.modPort p (verified req)).port p).mode.quota = o.quota := by rw [port_verified, verified_mode, ho]; rfl
  have hq : (s.modPort p (verified req)).allocatedCount p < ((s.modPort p (verified req)).port p).mode.quota := by
    rw [hq']; exact hq
  have hn : (s.modPort p (verified req)).lowestFree = some n := lowestFree_some (s := s.modPort p (verified req)) hfree hlow
  have hact := (postCall_good (req := req) hon hg).trans (postCallOnline_ok he hp hq (lease_allowed hle)
    (leaseRefusal_none fun l h => (hle l h).2) hn)
  refine congrArg _ ((runCommand_replies hr (not_held_of_online hon) (postCall_length_allowed hg hlen) rfl hact ?_).trans ?_)
  · rw [modPort_post, modPort_port_self]; rfl
  · rw [modPort_post, modPort_modPort, post_eq (p := p) n fun l h => (hle l h).2, ← ticks_eq]
    rfl

end Sys2Proof.CallTable
end

section
/-! SUPPORT. The departure of a port, record by record, and the withdrawal of a service. -/

namespace Sys2Proof.CallTable

open Sys2Proof Sys2Proof.Machine Sys2Proof.Safety Sys2Proof.Statement

variable {s t : State} {p q : Port} {n : SlotNo} {c : Call} {b : BlockNo}

/-! ### The call table at a departure -/

theorem unended_iff (c : Call) : (c.isPending || c.isInService) = true ↔ Unended c := by simp [Unended]

/-- Under the law R48 a served call is listed exactly when the departing port is the callee of the unended call. -/
theorem mem_servedSlots (h : StackAgrees s p) (hs : s.slot n = some c) :
    n ∈ s.servedSlots p ↔ Unended c ∧ c.callee = p := by
  rw [(servedSlots_law h).2]
  exact ⟨fun ⟨d, hd, hu⟩ => by rw [hs] at hd; cases hd; exact hu, fun hu => ⟨c, hs, hu⟩⟩

/-- Settles O21: the served calls have failed, and then the posted ones are freed. -/
theorem departureFreesPostedAndFailsServedCalls : Obligations.DepartureFreesPostedAndFailsServedCalls := by
  intro p after s hst n
  rw [departure_slot, failCalls_slot]
  cases hs : s.slot n with
  | none => simp
  | some c =>
    have hmem := mem_servedSlots hst hs
    by_cases hserved : Unended c ∧ c.callee = p
    · have hu : (c.isPending || c.isInService) = true := (unended_iff c).2 hserved.1
      have hcond : c.callee = p ∧ (c.isPending = true ∨ c.isInService = true) := hserved.symm
      simp only [if_pos (hmem.2 hserved), Option.map_some, if_pos hu, Option.any_some, beq_iff_eq, if_pos hcond]
    · have hcond : ¬(c.callee = p ∧ (c.isPending = true ∨ c.isInService = true)) := fun h => hserved h.symm
      simp only [if_neg (mt hmem.1 hserved), Option.any_some, beq_iff_eq, if_neg hcond]

/-! ### The blocks at a departure -/

theorem afterDeparture_of_owner {k : Block} (h : k.owner = some p) : k.afterDeparture p = .scrub := if_pos h

/-- A block that the departing port neither owns nor borrows stands. -/
theorem afterDeparture_other {k : Block} (h1 : k.owner ≠ some p) (h2 : k.borrower ≠ some p) : k.afterDeparture p = k := by
  rw [Block.afterDeparture, if_neg h1, if_neg h2]

theorem afterDeparture_owned {o : Port} (h : o ≠ p) : (Block.owned o).afterDeparture p = .owned o :=
  afterDeparture_other (by simpa [Block.owner] using h) (by simp [Block.borrower])

theorem afterDeparture_lent {o : Port} {m : LeaseMode} (h : o ≠ p) : (Block.lent o p m n).afterDeparture p = .owned o := by
  rw [Block.afterDeparture, if_neg (by simpa [Block.owner] using h)]; exact if_pos rfl

/-- A block on which the failure of calls has no effect is what the departure makes of it. -/
theorem departure_block_of_returned (m : PortMode) (h : returned (s.block b) = s.block b) :
    (s.departure p m).block b = (s.block b).afterDeparture p := by
  rw [departure_block]
  rcases failCalls_block .peerGone b (s.servedSlots p) s with e | e
  · rw [failed, e]
  · rw [failed, e, h]

/-- A block in no lease of a served call, neither owned nor borrowed, stands. -/
theorem departure_block_keeps (m : PortMode) (hst : StackAgrees s p) (ho : (s.block b).owner ≠ some p)
    (hb : (s.block b).borrower ≠ some p)
    (h : ∀ n c, s.slot n = some c → c.callee = p → Unended c → inLease c.lease b = false) :
    (s.departure p m).block b = s.block b := by
  have e : (failed s p).block b = s.block b := failCalls_keeps _ _ _ _ fun n hn c hs => by
    obtain ⟨hu, hq⟩ := (mem_servedSlots hst hs).1 hn
    exact h n c hs hq hu
  rw [departure_block, e, afterDeparture_other ho hb]

/-- R96: a block in the lease of an unended call is PLEDGED or LENT to that call. -/
theorem leaseLaw_block (h : LeaseLaw s) (hs : s.slot n = some c) (hu : Unended c) (hl : inLease c.lease b = true) :
    ∃ l, c.lease = some l ∧
      ((c.isPending = true ∧ s.block b = .pledged c.caller l.mode n) ∨
        (c.isInService = true ∧ s.block b = .lent c.caller c.callee l.mode n)) := by
  cases hc : c.lease with
  | none => rw [hc] at hl; cases hl
  | some l =>
    rw [hc] at hl
    refine ⟨l, rfl, hu.imp (fun hp => ⟨hp, ?_⟩) fun hi => ⟨hi, ?_⟩⟩
    · exact (h.1 b _ _ n).2 ⟨c, l, hs, hp, hc, hl, rfl, rfl⟩
    · exact (h.2 b _ _ _ n).2 ⟨c, l, hs, hi, hc, hl, rfl, rfl, rfl⟩

/-- R96: the block of one call lies in no unended call of another slot. -/
theorem leaseLaw_unique {d : Call} {k : SlotNo} (h : LeaseLaw s) (hs : s.slot n = some c)
    (hb : (∃ o m, s.block b = .pledged o m n) ∨ ∃ o r m, s.block b = .lent o r m n)
    (hd : s.slot k = some d) (hu : Unended d) (hl : inLease d.lease b = true) : d = c := by
  obtain ⟨l, -, ⟨-, hk⟩ | ⟨-, hk⟩⟩ := leaseLaw_block h hd hu hl <;> obtain ⟨o, m, e⟩ | ⟨o, r, m, e⟩ := hb <;>
    rw [hk] at e <;> cases e <;> exact Option.some.inj (hd.symm.trans hs)

/-- Settles O22. -/
theorem departureScrubsOwnedAndReturnsBorrowedBlocks : Obligations.DepartureScrubsOwnedAndReturnsBorrowedBlocks := by
  rintro p after s t rfl
  refine ⟨fun b h => ?_, fun b o m n h ho => ?_, fun b o m n c h ho hs hp hc hl => ?_, fun b h => ?_, fun b h => ?_,
    fun b o h ho => ?_, fun hst b ho hb h => ?_, fun hst hll b o n c ho hs hc => ?_, ?_, ?_⟩
  · rw [departure_block, afterDeparture_of_owner ((failed_owner s p b).trans h)]
  · rw [departure_block]
    rcases failCalls_block .peerGone b (s.servedSlots p) s with e | e <;> rw [failed, e, h]
    · exact afterDeparture_lent ho
    · exact afterDeparture_owned ho
  · have hmem : n ∈ s.servedSlots p :=
      List.mem_append_left _ (List.mem_map.2 ⟨(n, c), (mem_pendingCalls s p n c).2 ⟨hs, hp, hc⟩, rfl⟩)
    rw [departure_block, failed, failCalls_returns _ _ _ _ n c hmem hs (.inl hp) hl, h]
    exact afterDeparture_owned ho
  · rw [departure_block_of_returned _ (by rw [h]; rfl), h]; rfl
  · rw [departure_block_of_returned _ (by rw [h]; rfl), h]; rfl
  · rw [departure_block_of_returned _ (by rw [h]; rfl), h, afterDeparture_owned ho]
  · exact departure_block_keeps _ hst ho hb h
  · have hno : ∀ k d, (∃ o m, s.block b = .pledged o m n) ∨ (∃ o r m, s.block b = .lent o r m n) →
        s.slot k = some d → d.callee = p → Unended d → inLease d.lease b = false := by
      intro k d hb hd hq hu
      by_contra hl
      rw [Bool.not_eq_false] at hl
      exact hc (leaseLaw_unique hll hs hb hd hu hl ▸ hq)
    refine ⟨fun m hb => ?_, fun r m hb => ?_⟩
    · exact (departure_block_keeps _ hst (by rw [hb]; simpa [Block.owner] using ho) (by simp [hb, Block.borrower])
        fun k d => hno k d (.inl ⟨_, _, hb⟩)).trans hb
    · obtain ⟨d, l, hd, -, -, -, -, -, rfl⟩ := (hll.2 b _ _ _ _).1 hb
      rw [hs] at hd; cases hd
      exact (departure_block_keeps _ hst (by rw [hb]; simpa [Block.owner] using ho)
        (by rw [hb]; simpa [Block.borrower] using hc) fun k d => hno k d (.inr ⟨_, _, _, hb⟩)).trans hb
  · refine ⟨s.blocks.indices fun k => k.owner == some p, ?_, Table.indices_ascending _ _, fun b => ?_⟩
    · rw [departure_frame]
    · rw [Table.mem_indices, beq_iff_eq]; rfl
  · rw [departure_frame]; simp

/-! ### The survivors of a departure -/

theorem peerDetached_notMem_failedNotices (s : State) (q r : Port) (why : Failure) (ns : List SlotNo) :
    Notice.peerDetached r ∉ failedNotices s q why ns := by
  simp only [failedNotices, List.mem_filterMap, not_exists, not_and]
  intro n _ h
  split at h
  · split at h <;> cases h
  · cases h

theorem peerDetached_notMem_callerGoneNotices (p r : Port) (l : List StackEntry) (k : Nat) :
    Notice.peerDetached r ∉ callerGoneNotices p k l := by
  rw [callerGoneNotices_eq]
  simp only [List.mem_filterMap, not_exists, not_and]
  intro x _ h
  split at h <;> cases h

/-- Under the law R48 another port's queue once the served calls have failed. -/
theorem failed_notices (hst : StackAgrees s p) (q : Port) :
    ((failed s p).port q).notices = (s.port q).notices ++ failedNotices s q .peerGone (s.servedSlots p) := by
  obtain ⟨hd, hmem⟩ := servedSlots_law hst
  rw [failed, failCalls_notices _ q _ s hd fun n hn => ?_]
  obtain ⟨c, hs, hu, -⟩ := (hmem n).1 hn
  exact ⟨c, hs, hu⟩

/-- Settles O23. -/
theorem departureNotifiesSurvivorsInOrder : Obligations.DepartureNotifiesSurvivorsInOrder := by
  rintro p q after s t hst hq rfl
  rw [departure_other s after hq _ (failed_notices hst q)]
  refine ⟨orphanCaller_eq p _, ?_⟩
  simp only [List.mem_append, peerDetached_notMem_failedNotices, peerDetached_notMem_callerGoneNotices, or_false]
  simp only [callerGoneNotices_eq, State.servedSlots]

/-! ### Withdraw Service -/

/-- R6: the PENDING calls of a service have its provider as their callee. -/
def CalleesProvide (s : State) (p : Port) (id : Nat) : Prop :=
  ∀ n c, s.slot n = some c → c.isPending = true → c.service = id → c.callee = p

theorem mem_waitingOf {id : Nat} (hs : s.slot n = some c) :
    n ∈ s.waitingOf p id ↔ c.isPending = true ∧ c.callee = p ∧ c.service = id := by
  simp only [State.waitingOf, List.mem_map, List.mem_filter, beq_iff_eq]
  constructor
  · rintro ⟨⟨m, d⟩, ⟨hm, hd⟩, rfl⟩
    obtain ⟨hs', hp, hq⟩ := (mem_pendingCalls s p _ d).1 hm
    rw [hs] at hs'; cases hs'
    exact ⟨hp, hq, hd⟩
  · rintro ⟨hp, hq, hd⟩
    exact ⟨(n, c), ⟨(mem_pendingCalls s p n c).2 ⟨hs, hp, hq⟩, hd⟩, rfl⟩

theorem waitingOf_slot {id : Nat} (h : n ∈ s.waitingOf p id) :
    ∃ c, s.slot n = some c ∧ c.isPending = true ∧ c.callee = p ∧ c.service = id := by
  have hc : ∃ c, s.slot n = some c := by
    simp only [State.waitingOf, List.mem_map, List.mem_filter] at h
    obtain ⟨⟨m, d⟩, ⟨hm, -⟩, rfl⟩ := h
    exact ⟨d, ((mem_pendingCalls s p m d).1 hm).1⟩
  obtain ⟨c, hs⟩ := hc
  exact ⟨c, hs, (mem_waitingOf hs).1 h⟩

theorem waitingOf_nodup (s : State) (p : Port) (id : Nat) : (s.waitingOf p id).Nodup :=
  (pendingCalls_nodup s p).sublist (List.filter_sublist.map _)

/-- The number of a withdrawal's calls is the service's count of PENDING slots. -/
theorem waitingOf_length {id : Nat} (h : CalleesProvide s p id) : (s.waitingOf p id).length = s.pendingCount id := by
  rw [State.waitingOf, List.length_map, ← List.countP_eq_length_filter, (pendingCalls_perm s p).countP_eq,
    countP_callsWhere (f := fun c => c.service == id), State.pendingCount, Table.count, Table.count]
  refine List.countP_congr fun x hx => ?_
  obtain ⟨k, hk, rfl⟩ := List.mem_iff_getElem.1 hx
  cases hs : s.slots.items[k] with
  | none => simp
  | some c =>
    have := h ⟨k, s.slots.len ▸ hk⟩ c hs
    simp only [Option.any_some, Bool.and_eq_true, beq_iff_eq]
    exact ⟨fun ⟨⟨hp, _⟩, hid⟩ => ⟨hp, hid⟩, fun ⟨hp, hid⟩ => ⟨⟨hp, this hp hid⟩, hid⟩⟩

/-- The directory with a service's entry removed. -/
abbrev without (s : State) (id : Nat) : State := { s with directory := s.directory.filter fun e => e.id != id }

theorem withdraw_slots {id : Nat} (h : CalleesProvide s p id) :
    (s.withdraw p id).slots = s.slots.map fun _ c =>
      c.map fun c => if c.isPending = true ∧ c.service = id then { c with state := .failed .withdrawn } else c := by
  ext n : 1
  show (s.withdraw p id).slot n = _
  rw [State.withdraw, failCalls_slot, Table.get_map]
  show (if n ∈ s.waitingOf p id then (s.slot n).map _ else s.slot n) = (s.slot n).map _
  cases hs : s.slot n with
  | none => simp
  | some c =>
    have hmem := mem_waitingOf (p := p) (id := id) hs
    by_cases hw : c.isPending = true ∧ c.service = id
    · rw [if_pos (hmem.2 ⟨hw.1, h n c hs hw.1 hw.2, hw.2⟩)]
      simp only [Option.map_some, hw, Bool.true_or, and_self, if_true]
    · rw [if_neg fun hm => hw ⟨(hmem.1 hm).1, (hmem.1 hm).2.2⟩]
      simp only [Option.map_some, if_neg hw]

theorem withdraw_port (s : State) (p q : Port) (id : Nat) :
    (s.withdraw p id).port q =
      { s.port q with
        notices := (s.port q).notices ++
          failedNotices s q .withdrawn (((s.pendingCalls p).filter fun x => x.2.service == id).map Prod.fst) } := by
  rw [State.withdraw, failCalls_notices _ _ _ _ (waitingOf_nodup s p id) fun n hn => ?_]
  · rfl
  · obtain ⟨c, hs, hp, -⟩ := waitingOf_slot hn
    exact ⟨c, hs, .inl hp⟩

/-- A withdrawal touches ports, slots and blocks through the calls' failure, and the directory. -/
theorem withdraw_frame (s : State) (p : Port) (id : Nat) :
    s.withdraw p id =
      { s with
        ports := (s.withdraw p id).ports
        slots := (s.withdraw p id).slots
        directory := s.directory.filter fun e => decide (e.id ≠ id)
        blocks := (s.withdraw p id).blocks } := by
  have hd : (fun e : Service => e.id != id) = fun e => decide (e.id ≠ id) := by
    funext e; by_cases h : e.id = id <;> simp [h]
  have h := failCalls_frame .withdrawn (s.waitingOf p id) (without s id)
  rw [← hd]
  exact h

theorem withdraw_block_keeps {id : Nat}
    (h : ∀ n c, s.slot n = some c → c.isPending = true → c.service = id → inLease c.lease b = false) :
    (s.withdraw p id).block b = s.block b :=
  failCalls_keeps _ _ _ (without s id) fun n hn c hs => by
    obtain ⟨hp, -, hid⟩ := (mem_waitingOf (s := s) hs).1 hn
    exact h n c hs hp hid

theorem withdraw_block_returns {id : Nat} (h : CalleesProvide s p id) (hs : s.slot n = some c) (hp : c.isPending = true)
    (hid : c.service = id) (hl : inLease c.lease b = true) : (s.withdraw p id).block b = returned (s.block b) :=
  failCalls_returns _ _ _ (without s id) n c ((mem_waitingOf hs).2 ⟨hp, h n c hs hp hid, hid⟩) hs (.inl hp) hl

/-- A withdrawal whose checks pass, on the port whose frame has verified. -/
theorem withdrawService_ok {id : Byte} {req : Request} {e : Service} (ho : IsOnline s p) (hr : serviceInRange (param [id] 0) = true)
    (he : s.entry id.toNat = some e) (hp : e.provider = p) (h0 : s.inServiceCount id.toNat = 0)
    (hc : CalleesProvide s p id.toNat) :
    withdrawService p (param [id] 0) (s.modPort p (verified req)) =
      ((s.modPort p (verified req)).withdraw p id.toNat,
        { status := .ok, body := [byteOf (s.pendingCount id.toNat)] }) := by
  have hid : param [id] 0 = id.toNat := rfl
  rw [withdrawService, if_neg (by simp [hr]), whenOnline_verified ho, hid]
  simp only [modPort_entry, he]
  rw [if_neg (by simp [hp])]
  refine (if_neg (not_not.2 h0)).trans ?_
  exact congrArg (fun k => reply .ok [byteOf k] ((s.modPort p (verified req)).withdraw p id.toNat)) (waitingOf_length hc)

/-- Settles O25: three refusals, and the failure of the service's PENDING calls. -/
theorem withdrawServiceFailsItsPendingCalls : Obligations.WithdrawServiceFailsItsPendingCalls := by
  intro p id req s ht h1 h2
  have hr := serviceInRange_of h1 h2
  have hh := not_held_of_online ht.2
  refine ⟨fun he => ?_, fun e he hp => ?_, fun e he hp hi => ?_, fun e he hp hi hc => ?_⟩
  · refine congrArg _ (runCommand_only_replies ht.1 hh rfl rfl ?_)
    rw [withdrawService, if_neg (by simp [hr]), whenOnline_verified ht.2]
    simp only [show param [id] 0 = id.toNat from rfl, modPort_entry, he]; rfl
  · refine congrArg _ (runCommand_only_replies ht.1 hh rfl rfl ?_)
    rw [withdrawService, if_neg (by simp [hr]), whenOnline_verified ht.2]
    simp only [show param [id] 0 = id.toNat from rfl, modPort_entry, he]
    rw [if_pos hp]; rfl
  · rw [inServiceOf_eq] at hi ⊢
    refine congrArg _ (runCommand_only_replies ht.1 hh rfl rfl ?_)
    rw [withdrawService, if_neg (by simp [hr]), whenOnline_verified ht.2]
    simp only [show param [id] 0 = id.toNat from rfl, modPort_entry, he]
    rw [if_neg (not_not.2 hp)]
    exact if_pos hi
  · rw [inServiceOf_eq] at hi
    have hc' : CalleesProvide (s.modPort p (verified req)) p id.toNat := hc
    refine ⟨_, congrArg Host.Outcome.next (runCommand_replies ht.1 hh rfl rfl (withdrawService_ok ht.2 hr he hp hi hc) ?_), ?_,
      fun b o m n c hb hs hp hid hl => ?_, fun b h => ?_, fun q => ?_⟩
    · rw [withdraw_port, port_verified]; rfl
    · have hf := withdraw_frame (s.modPort p (verified req)) p id.toNat
      rw [withdraw_slots hc'] at hf
      exact congrArg (State.modPort · p _) hf
    · rw [modPort_block, withdraw_block_returns hc' hs hp hid hl, modPort_block, hb]; rfl
    · rw [modPort_block, withdraw_block_keeps (s := s.modPort p (verified req)) h, modPort_block]
    · rw [modPort_port, withdraw_port, pendingOf_eq, modPort_port]
      by_cases hq : p = q
      · subst hq; simp only [if_true]; rfl
      · simp only [if_neg hq, if_neg (Ne.symm hq)]; rfl

end Sys2Proof.CallTable
end

section
/-! SUPPORT. A command's check of its form comes before the check of its port. -/

namespace Sys2Proof.CallTable

open Sys2Proof Sys2Proof.Machine Sys2Proof.Safety Sys2Proof.Statement

variable {s : State} {p : Port} {code : Byte} {params : List Byte} {req : Request} {act : State → State × Reply}
  {form : Option Status}

/-- An effect whose check of its form comes first, and its port check next: what a command's effect does with a form refused
as `form` says. -/
structure FormFirst (p : Port) (act : State → State × Reply) (form : Option Status) : Prop where
  bad : ∀ st, form = some st → ∀ u, act u = refuse st u
  good : form = none → ∀ u, u.online p = false → act u = refuse .offline u

/-- A port check alone. -/
theorem formFirst_whenOnline (p : Port) (act : State → State × Reply) : FormFirst p (whenOnline p act) none :=
  ⟨fun _ h => absurd h (by simp), fun _ _ h => whenOnline_not h⟩

/-- A test of the form before another check. -/
theorem FormFirst.refusing {bad : Prop} [Decidable bad] {st : Status} (h : FormFirst p act form) :
    FormFirst p (fun u => if bad then refuse st u else act u) (if bad then some st else form) := by
  by_cases hb : bad
  · simp only [if_pos hb]
    exact ⟨fun st' e u => by cases e; rfl, fun e => absurd e (by simp)⟩
  · simpa only [if_neg hb] using h

/-- The last test of the form, before the port check. -/
theorem formFirst_guarded {bad good : Prop} [Decidable bad] [Decidable good] (hbg : bad ↔ ¬good) (p : Port)
    (act : State → State × Reply) :
    FormFirst p (fun u => if bad then refuse .badParam u else whenOnline p act u)
      (if good then none else some .badParam) := by
  have e : (if good then none else some Status.badParam) = if bad then some .badParam else none := by
    by_cases hg : good
    · rw [if_pos hg, if_neg fun hb => hbg.1 hb hg]
    · rw [if_neg hg, if_pos (hbg.2 hg)]
  rw [e]
  exact (formFirst_whenOnline p act).refusing

/-- A form that is out of range throughout. -/
theorem formFirst_bad (p : Port) (st : Status) : FormFirst p (refuse st) (some st) :=
  ⟨fun _ e _ => by cases e; rfl, fun e => absurd e (by simp)⟩

theorem formFirst_withOwnCall (p : Port) (k : Nat) (act : SlotNo → Call → State → State × Reply) :
    FormFirst p (withOwnCall p (slot? k) act) (if k ≤ 31 then none else some .badParam) := by
  by_cases hk : k < 32
  · rw [slot?, dif_pos hk, if_pos (by omega)]
    exact formFirst_whenOnline p _
  · rw [slot?, dif_neg hk, if_neg (by omega)]
    exact formFirst_bad p _

theorem formFirst_resetPeer (p : Port) (k : Nat) :
    FormFirst p (resetPeer p (port? k)) (if k ≤ 3 then none else some .badParam) := by
  by_cases hk : k < 4
  · rw [port?, dif_pos hk, if_pos (by omega)]
    exact formFirst_whenOnline p _
  · rw [port?, dif_neg hk, if_neg (by omega)]
    exact formFirst_bad p _

theorem formFirst_setCursor (p : Port) (k : Nat) (base : Word) (limit : Nat) :
    FormFirst p (setCursor p (cursor? k) base limit) (if k ≤ 1 then none else some .badParam) := by
  by_cases hk : k < 2
  · rw [cursor?, dif_pos hk, if_pos (by omega)]
    exact formFirst_whenOnline p _
  · rw [cursor?, dif_neg hk, if_neg (by omega)]
    exact formFirst_bad p _

theorem formFirst_rewindCursor (p : Port) (k : Nat) :
    FormFirst p (rewindCursor p (cursor? k)) (if k ≤ 1 then none else some .badParam) := by
  by_cases hk : k < 2
  · rw [cursor?, dif_pos hk, if_pos (by omega)]
    exact formFirst_whenOnline p _
  · rw [cursor?, dif_neg hk, if_neg (by omega)]
    exact formFirst_bad p _

theorem formFirst_readData (p : Port) (k wanted : Nat) :
    FormFirst p (readData p (cursor? k) wanted)
      (if k ≤ 1 ∧ 1 ≤ wanted ∧ wanted ≤ 256 then none else some .badParam) := by
  by_cases hk : k < 2
  · rw [cursor?, dif_pos hk]
    exact formFirst_guarded (by omega) p _
  · rw [cursor?, dif_neg hk, if_neg (by omega)]
    exact formFirst_bad p _

theorem formFirst_service (p : Port) (id : Nat) (act : State → State × Reply) :
    FormFirst p (fun u => if serviceInRange id = false then refuse .badParam u else whenOnline p act u)
      (if 1 ≤ id ∧ id ≤ 254 then none else some .badParam) :=
  formFirst_guarded (by simp only [serviceInRange, Bool.and_eq_false_iff, decide_eq_false_iff_not]; omega) p act

/-- A yes/no byte is in range exactly up to 1. -/
theorem yesNo_cases (n : Nat) : (yesNo? n = none ∧ ¬n ≤ 1) ∨ ∃ b, yesNo? n = some b ∧ n ≤ 1 := by
  by_cases h0 : n = 0
  · exact .inr ⟨false, by rw [yesNo?, if_pos h0], by omega⟩
  · by_cases h1 : n = 1
    · exact .inr ⟨true, by rw [yesNo?, if_neg h0, if_pos h1], by omega⟩
    · exact .inl ⟨by rw [yesNo?, if_neg h0, if_neg h1], by omega⟩

theorem formFirst_registerService (p : Port) (ps : List Byte) :
    FormFirst p (registerService p ps)
      (if 1 ≤ param ps 0 ∧ param ps 0 ≤ 254 ∧ 1 ≤ param ps 1 ∧ param ps 1 ≤ 4 ∧ param ps 4 ≤ 1 then none
      else some .badParam) := by
  have e : registerService p ps = fun u => registerService p ps u := rfl
  obtain ⟨h, hn⟩ | ⟨leases, h, hn⟩ := yesNo_cases (param ps 4)
  · rw [e, if_neg (by omega)]
    simp only [registerService, h]
    exact formFirst_bad p _
  · rw [e]
    simp only [registerService, h]
    exact formFirst_guarded
      (by simp only [serviceInRange, Bool.and_eq_false_iff, decide_eq_false_iff_not]; omega) p _

/-- A Post Call of the right length and bad form reads as none (R8). -/
theorem postRequest_bad {ps : List Byte} (hl : ps.length = 11 + 2 * param ps 10) (h : ¬goodPost ps = true) :
    postRequest? ps = none := by
  rw [goodPost_iff] at h
  rw [postRequest?]
  split
  · rfl
  · rw [postLease_bad fun hg => h ⟨hl, by omega, by omega, by omega, by omega, hg⟩]; rfl

theorem formFirst_postCall (p : Port) (ps : List Byte) :
    FormFirst p (postCall p ps)
      (if ps.length ≠ 11 + 2 * param ps 10 then some .badLength else if goodPost ps then none else some .badParam) := by
  have e : postCall p ps = fun u => postCall p ps u := rfl
  by_cases hl : ps.length = 11 + 2 * param ps 10
  · rw [if_neg (not_not.2 hl), e]
    simp only [postCall, if_neg (not_not.2 hl)]
    by_cases hg : goodPost ps = true
    · rw [if_pos hg]
      simp only [postRequest_good hg]
      exact formFirst_whenOnline p _
    · rw [if_neg hg]
      simp only [postRequest_bad hl hg]
      exact formFirst_bad p _
  · rw [if_pos hl, e]
    simp only [postCall, if_pos hl]
    exact formFirst_bad p _

theorem formFirst_answerCall (p : Port) (ps : List Byte) :
    FormFirst p (answerCall p ps)
      (if ps.length ≠ 3 + 2 * param ps 2 then some .badLength
      else if param ps 0 ≤ 31 ∧ param ps 2 ≤ 6 then none
      else some .badParam) := by
  exact (formFirst_guarded (by omega) p _).refusing

theorem formFirst_readNotices (p : Port) (n : Nat) :
    FormFirst p (readNotices p n) (if 1 ≤ n ∧ n ≤ 8 then none else some .badParam) :=
  formFirst_guarded (by omega) p _

theorem formFirst_claimBlocks (p : Port) (count : Nat) :
    FormFirst p (claimBlocks p count) (if 1 ≤ count ∧ count ≤ 64 then none else some .badParam) :=
  formFirst_guarded (by omega) p _

theorem formFirst_releaseBlocks (p : Port) (first count : Nat) :
    FormFirst p (releaseBlocks p first count)
      (if 1 ≤ count ∧ count ≤ 64 ∧ first + count ≤ 256 then none else some .badParam) :=
  formFirst_guarded (by omega) p _

/-- Attach's form; an Attach of good form has no port check. -/
theorem attach_badForm (p : Port) (ps : List Byte) {st : Status} (h : formRefusal (.attach p ps) = some st) (u : State) :
    attach p ps u = refuse st u := by
  rw [formRefusal] at h
  split at h
  · cases h
  · next hn =>
    cases h
    obtain ⟨hy, -⟩ | ⟨wake, hy, h1⟩ := yesNo_cases (param ps 1)
    · simp only [attach, hy]
    · simp only [attach, hy]
      refine if_pos ?_
      simp only [consentInRange, Bool.and_eq_false_iff, decide_eq_false_iff_not, Bool.not_eq_false', param] at hn ⊢
      by_contra hc
      simp only [not_or, Bool.not_eq_true] at hc
      exact hn ⟨by omega, by omega, h1, by omega, hc.2.2.2⟩

/-- The answer to a frame whose command is refused by its own form, or by its port. -/
theorem runCommand_refused {st : Status} (ht : Taken s p code params req) (hl : lengthAllowed code params.length = true)
    (hk : isStatusCode code = false) (h : act (s.modPort p (verified req)) = refuse st (s.modPort p (verified req))) :
    s.runCommand p code params act = s.modPort p (replied req code st []) :=
  runCommand_only_replies ht.1 (not_held_of_taken ht.2) hl hk h

theorem not_discarding (h : code ≠ 0x4B) (ps : PortState) : discarding code ps = ps := if_neg h

/-- What O11 says of one command that is taken. -/
def FormBeforePort (s : State) (p : Port) (code : Byte) (req : Request) (form : Option Status) (t : State) : Prop :=
  (∀ st, form = some st → t = s.modPort p fun ps => replied req code st [] (discarding code ps)) ∧
  (form = none → (s.port p).mode = .offline → t = s.modPort p fun ps => replied req code .offline [] (discarding code ps))

theorem runCommand_formBeforePort (h : FormFirst p act form) (ht : Taken s p code params req)
    (hl : lengthAllowed code params.length = true) (hk : isStatusCode code = false) (hc : code ≠ 0x4B) :
    FormBeforePort s p code req form (s.runCommand p code params act) := by
  simp only [FormBeforePort, not_discarding hc]
  refine ⟨fun st hf => runCommand_refused ht hl hk (h.bad st hf _), fun hf hoff => runCommand_refused ht hl hk (h.good hf _ ?_)⟩
  rw [online_verified]
  exact not_online_of_offline hoff

/-- A Write Data refused by its form or by its port discards what it staged. -/
theorem writeData_formBeforePort (ht : Taken s p 0x4B params req) (hl : lengthAllowed 0x4B params.length = true) :
    FormBeforePort s p 0x4B req (formRefusal (.writeData p params))
      ((s.stage p params).runCommand p 0x4B params (writeData p (cursor? (param params 0)))) := by
  have hh := not_held_of_taken ht.2
  rw [stage_eq ht.1 hh hl, formRefusal]
  have key : ∀ st, writeData p (cursor? (param params 0))
        ((s.modPort p fun ps => { ps with staging := params.drop 1 }).modPort p (verified req)) =
      refuse st (((s.modPort p fun ps => { ps with staging := params.drop 1 }).modPort p (verified req)).discardStaged p) →
      (s.modPort p fun ps => { ps with staging := params.drop 1 }).runCommand p 0x4B params
        (writeData p (cursor? (param params 0))) =
      s.modPort p fun ps => replied req 0x4B st [] (discarding 0x4B ps) := by
    intro st h
    rw [runCommand_replies (receives_staging ht.1 _) (by simpa using hh) hl rfl h
      (by simp only [State.discardStaged, modPort_port_self]; rfl), State.discardStaged]
    simp only [modPort_modPort]
    rfl
  constructor
  · intro st h
    split at h
    · cases h
    · next hn =>
      cases h
      exact key _ (by rw [cursor?, dif_neg (by omega)]; rfl)
  · intro h hoff
    split at h
    · next hk =>
      refine key _ ?_
      rw [cursor?, dif_pos (by omega)]
      simp only [writeData]
      rw [if_neg]
      rw [online_verified, online_modPort _ _ _ _ (by rfl), not_online_of_offline hoff]
      simp
    · cases h

/-- A code that allows some length is one of R190. -/
theorem knownCode_of_lengthAllowed {len : Nat} (h : lengthAllowed code len = true) : knownCode code = true := by
  simp only [lengthAllowed, knownCode, List.any_eq_true, Bool.and_eq_true] at h ⊢
  obtain ⟨f, hf, ⟨hc, -⟩, -⟩ := h
  exact ⟨f, hf, hc⟩

/-- Settles O11: one command after another, each by its own form's lemma. -/
theorem formCheckedBeforePort : Obligations.FormCheckedBeforePort := by
  intro i p code params req s hi hw hl ht
  have key : ∀ {act : State → State × Reply}, FormFirst p act (formRefusal i) → isStatusCode code = false → code ≠ 0x4B →
      exec i s = .next (s.runCommand p code params act) →
      (∀ st, formRefusal i = some st → exec i s = .next (s.modPort p fun ps => replied req code st [] (discarding code ps))) ∧
      (formRefusal i = none → (s.port p).mode = .offline → isStatusCode code = false → code ≠ 0x08 →
        exec i s = .next (s.modPort p fun ps => replied req code .offline [] (discarding code ps))) := by
    intro act h hk hc e
    obtain ⟨h1, h2⟩ := runCommand_formBeforePort h ht hl hk hc
    rw [e]
    exact ⟨fun st hf => congrArg _ (h1 st hf), fun hf ho _ _ => congrArg _ (h2 hf ho)⟩
  cases i <;> cases hi
  case poll | portStatus | partStatus | lastReply => exact ⟨fun _ h => absurd h (by simp [formRefusal]), fun _ _ hk => absurd hk (by decide)⟩
  case attach =>
    refine ⟨fun st h => congrArg _ (runCommand_refused ht hl rfl (attach_badForm _ _ h _)), fun _ _ _ hc => absurd rfl hc⟩
  case detach => exact key (formFirst_whenOnline p _) rfl (by decide) rfl
  case resetPeer => exact key (formFirst_resetPeer p _) rfl (by decide) rfl
  case registerService => exact key (formFirst_registerService p params) rfl (by decide) rfl
  case withdrawService => exact key (formFirst_service p _ _) rfl (by decide) rfl
  case queryService => exact key (formFirst_service p _ _) rfl (by decide) rfl
  case postCall => exact key (formFirst_postCall p params) rfl (by decide) rfl
  case cancelCall => exact key (formFirst_withOwnCall p _ _) rfl (by decide) rfl
  case collectAnswer => exact key (formFirst_withOwnCall p _ _) rfl (by decide) rfl
  case callStatus => exact key (formFirst_withOwnCall p _ _) rfl (by decide) rfl
  case takeCall => exact key (formFirst_whenOnline p _) rfl (by decide) rfl
  case answerCall => exact key (formFirst_answerCall p params) rfl (by decide) rfl
  case openNesting => exact key (formFirst_whenOnline p _) rfl (by decide) rfl
  case closeNesting => exact key (formFirst_whenOnline p _) rfl (by decide) rfl
  case stackStatus => exact key (formFirst_whenOnline p _) rfl (by decide) rfl
  case readNotices => exact key (formFirst_readNotices p _) rfl (by decide) rfl
  case claimBlocks => exact key (formFirst_claimBlocks p _) rfl (by decide) rfl
  case releaseBlocks => exact key (formFirst_releaseBlocks p _ _) rfl (by decide) rfl
  case blockStatus => exact key (formFirst_whenOnline p _) rfl (by decide) rfl
  case setCursor => exact key (formFirst_setCursor p _ _ _) rfl (by decide) rfl
  case rewindCursor => exact key (formFirst_rewindCursor p _) rfl (by decide) rfl
  case readData => exact key (formFirst_readData p _ _) rfl (by decide) rfl
  case writeData =>
    obtain ⟨h1, h2⟩ := writeData_formBeforePort ht hl
    exact ⟨fun st h => congrArg _ (h1 st h), fun h ho _ _ => congrArg _ (h2 h ho)⟩
  case badCommand =>
    simp only [Instr.wf, Bool.and_eq_true, Bool.not_eq_true'] at hw
    rw [knownCode_of_lengthAllowed hl] at hw
    exact absurd hw.2 (by simp)

end Sys2Proof.CallTable
end

section
/-! SUPPORT. What a step of the part can do, said once. A step is a change of its link's records, at most one effect on the
records that the laws of the part speak of, and the reply: `Does`. The effects are those of `Effect`, each with what the
command or event has checked. Every law over ports, calls, stacks, directory, blocks and scrub queue follows from a case
analysis over `Effect`, and no proof of a law unfolds `exec`. -/

namespace Sys2Proof.Steps

open Sys2Proof Sys2Proof.Machine Sys2Proof.Safety Sys2Proof.Statement

/-! ### Ranges -/

/-- The range of the fields that a link's records have: last-reply record and staging buffer (R131, R181, R191). -/
abbrev LinkInRange (ps : PortState) : Prop :=
  (∀ r ∈ ps.record, (1 ≤ r.number ∧ r.number ≤ 255) ∧ r.body.length ≤ 50) ∧ ps.staging.length ≤ 248

/-- The range of the fields of a port state (R148). -/
abbrev ModeInRange (p : Port) (m : PortMode) : Prop :=
  (m.isOnline = true → 1 ≤ m.quota) ∧ m.quota ≤ 16 ∧ p ∉ m.consent ∧ m.consent.Nodup ∧ pulseOf m ≤ 200

/-- The range of a stack's size and of the fields of its entries (R46). -/
abbrev StackInRange (stack : List StackEntry) : Prop :=
  stack.length ≤ 4 ∧ ∀ e ∈ stack, (1 ≤ e.service ∧ e.service ≤ 254) ∧ e.priority ≤ 7

/-- The field law without the links' records. -/
structure CoreFields (s : State) : Prop where
  call : ∀ n c, s.slot n = some c → CallInRange c
  entry : ∀ e ∈ s.directory, EntryInRange e
  mode : ∀ p, ModeInRange p (s.port p).mode
  stack : ∀ p, StackInRange (s.port p).stack

/-- The field law of the links' records. -/
abbrev LinkFields (s : State) : Prop := ∀ p, LinkInRange (s.port p)

theorem fieldLaw_iff (s : State) : FieldLaw s ↔ CoreFields s ∧ LinkFields s := by
  constructor
  · rintro ⟨hc, he, hp⟩
    refine ⟨⟨fun n c h => hc n c h, he, fun p => ?_, fun p => ?_⟩, fun p => ?_⟩ <;>
      obtain ⟨h1, h2, h3, h4, h5, h6, h7, h8, h9⟩ := hp p
    exacts [⟨h1, h2, h3, h4, h5⟩, ⟨h7, h8⟩, ⟨h6, h9⟩]
  · rintro ⟨⟨hc, he, hm, hs⟩, hl⟩
    refine ⟨fun n c h => hc n c h, he, fun p => ?_⟩
    obtain ⟨h1, h2, h3, h4, h5⟩ := hm p
    exact ⟨h1, h2, h3, h4, h5, (hl p).1, (hs p).1, (hs p).2, (hl p).2⟩

/-! ### The records of the links -/

/-- The second state has the first one's records of ports, calls, directory, blocks and scrub queue, but for the records of
the links and the block memory's bytes. -/
structure SamePart (s t : State) : Prop where
  mode : ∀ p, (t.port p).mode = (s.port p).mode
  stack : ∀ p, (t.port p).stack = (s.port p).stack
  nest : ∀ p, (t.port p).nest = (s.port p).nest
  notices : ∀ p, (t.port p).notices = (s.port p).notices
  slots : t.slots = s.slots
  posts : t.posts = s.posts
  directory : t.directory = s.directory
  blocks : t.blocks = s.blocks
  scrubQueue : t.scrubQueue = s.scrubQueue
  scrubBusy : t.scrubBusy = s.scrubBusy
  resetHigh : t.resetHigh = s.resetHigh
  powered : t.powered = s.powered

theorem SamePart.refl (s : State) : SamePart s s :=
  ⟨fun _ => rfl, fun _ => rfl, fun _ => rfl, fun _ => rfl, rfl, rfl, rfl, rfl, rfl, rfl, rfl, rfl⟩

theorem SamePart.trans {s t u : State} (h : SamePart s t) (k : SamePart t u) : SamePart s u :=
  ⟨fun p => (k.mode p).trans (h.mode p), fun p => (k.stack p).trans (h.stack p), fun p => (k.nest p).trans (h.nest p),
    fun p => (k.notices p).trans (h.notices p), k.slots.trans h.slots, k.posts.trans h.posts,
    k.directory.trans h.directory, k.blocks.trans h.blocks, k.scrubQueue.trans h.scrubQueue,
    k.scrubBusy.trans h.scrubBusy, k.resetHigh.trans h.resetHigh, k.powered.trans h.powered⟩

theorem SamePart.online {s t : State} (h : SamePart s t) (p : Port) : t.online p = s.online p := by
  rw [State.online, h.mode, State.online]

theorem SamePart.slot {s t : State} (h : SamePart s t) (n : SlotNo) : t.slot n = s.slot n := by
  rw [State.slot, h.slots, State.slot]

theorem SamePart.block {s t : State} (h : SamePart s t) (b : BlockNo) : t.block b = s.block b := by
  rw [State.block, h.blocks, State.block]

theorem SamePart.entry {s t : State} (h : SamePart s t) (id : Nat) : t.entry id = s.entry id := by
  rw [State.entry, h.directory, State.entry]

/-- A change of one port's records that leaves its mode, stack, NEST and notices. -/
theorem samePart_modPort (s : State) (p : Port) (f : PortState → PortState)
    (hm : ∀ ps, (f ps).mode = ps.mode := by intro _; rfl) (hs : ∀ ps, (f ps).stack = ps.stack := by intro _; rfl)
    (hn : ∀ ps, (f ps).nest = ps.nest := by intro _; rfl) (hk : ∀ ps, (f ps).notices = ps.notices := by intro _; rfl) :
    SamePart s (s.modPort p f) := by
  refine ⟨fun q => ?_, fun q => ?_, fun q => ?_, fun q => ?_, rfl, rfl, rfl, rfl, rfl, rfl, rfl, rfl⟩ <;>
    rw [modPort_port] <;> split
  exacts [hm _, rfl, hs _, rfl, hn _, rfl, hk _, rfl]

/-- A change of the links' records that keeps them in range. -/
structure Link (s t : State) : Prop extends SamePart s t where
  fields : LinkFields s → LinkFields t

theorem Link.refl (s : State) : Link s s := ⟨.refl s, id⟩

theorem Link.trans {s t u : State} (h : Link s t) (k : Link t u) : Link s u :=
  ⟨h.toSamePart.trans k.toSamePart, k.fields ∘ h.fields⟩

theorem linkFields_modPort {s : State} {p : Port} {f : PortState → PortState}
    (hf : LinkInRange (s.port p) → LinkInRange (f (s.port p))) (h : LinkFields s) : LinkFields (s.modPort p f) := by
  intro q
  rw [modPort_port]
  split
  · next e => subst e; exact hf (h p)
  · exact h q

/-- A change of one port's records that leaves its mode, stack, NEST and notices and keeps the link's records in range. -/
theorem link_modPort (s : State) (p : Port) (f : PortState → PortState)
    (hl : ∀ ps, LinkInRange ps → LinkInRange (f ps) := by exact fun _ h => h)
    (hm : ∀ ps, (f ps).mode = ps.mode := by intro _; rfl) (hs : ∀ ps, (f ps).stack = ps.stack := by intro _; rfl)
    (hn : ∀ ps, (f ps).nest = ps.nest := by intro _; rfl) (hk : ∀ ps, (f ps).notices = ps.notices := by intro _; rfl) :
    Link s (s.modPort p f) :=
  ⟨samePart_modPort s p f hm hs hn hk, linkFields_modPort (hl _)⟩

@[simp] theorem tailBytes_length (count : Nat) (lost : Bool) : (tailBytes count lost).length = 3 := rfl

theorem link_setTail (s : State) (p : Port) (count : Nat) (lost : Bool) : Link s (s.setTail p count lost) :=
  link_modPort s p _ fun ps h => ⟨fun r hr => by
    obtain ⟨old, ho, rfl⟩ := Option.map_eq_some_iff.1 hr
    exact ⟨(h.1 old ho).1, by simp⟩, h.2⟩

theorem link_creditByte (s : State) (p : Port) (t : Transfer) : Link s (s.creditByte p t) := by
  unfold State.creditByte
  split
  · exact (link_modPort s p _).trans (link_setTail _ p _ _)
  · exact .refl s

theorem link_beginDataByte (s : State) (p : Port) (t : Transfer) : Link s (s.beginDataByte p t) := by
  unfold State.beginDataByte
  simp only []
  split
  · exact link_modPort s p _
  · split
    · exact link_modPort s p _
    · exact (link_setTail s p _ _).trans (link_modPort _ p _)

/-- The buffer has 248 places. -/
theorem stagedAfter_length (received : List Bool) (level : Bool) {staging : List Byte} (h : staging.length ≤ 248) :
    (stagedAfter received level staging).length ≤ 248 := by
  have hw : ∀ bytes, (writeDataBytes bytes).length ≤ 248 := by
    intro bytes
    unfold writeDataBytes Config.stagingSize
    split
    · split
      · simp only [List.length_take]; omega
      · simp
    · simp
  have h2 := hw (bytesOfBits (received ++ [level]))
  simp only [stagedAfter]
  split
  · next b _ hd =>
    split
    · have hl := congrArg List.length hd
      simp only [List.length_drop, List.length_cons] at hl
      simp only [List.length_append, List.length_take, List.length_singleton]
      omega
    · exact h
  · exact h

theorem link_sckRise (s : State) (p : Port) (level : Bool) : Link s (s.sckRise p level) := by
  unfold State.sckRise
  split
  · exact .refl s
  · exact link_modPort s p _ fun ps h => ⟨h.1, stagedAfter_length _ _ h.2⟩
  · split
    · exact link_modPort s p _
    · unfold State.byteShifted
      split
      · exact link_modPort s p _
      · exact link_modPort s p _
      · exact (link_creditByte s p _).trans (link_modPort _ p _)
  · exact link_modPort s p _

theorem link_sckFall (s : State) (p : Port) : Link s (s.sckFall p) := by
  unfold State.sckFall
  split
  · exact .refl s
  · split
    · exact link_modPort s p _
    · exact .refl s
  · split
    · unfold State.nextReplyByte
      split
      · exact link_modPort s p _
      · split
        · exact link_beginDataByte s p _
        · unfold State.beginTail; exact link_modPort s p _
      · exact .refl s
    · exact .refl s
  · split
    · exact link_modPort s p _
    · exact .refl s

/-- An edge of SCK changes a link's records alone. -/
theorem link_sckEdge (s : State) (p : Port) (level : Bool) : Link s (s.sckEdge p level) := by
  have h : Link s (s.modPort p fun ps => { ps with sck := !ps.sck, mosi := level }) := link_modPort s p _
  unfold State.sckEdge
  simp only []
  split
  · exact h.trans (link_sckFall _ p)
  · exact h.trans (link_sckRise _ p level)

theorem link_sckEdges (p : Port) : ∀ (edges : List Bool) (s : State), Link s (s.sckEdges p edges)
  | [], s => .refl s
  | level :: levels, s => (link_sckEdge s p level).trans (link_sckEdges p levels _)

/-- So does the end of a frame. -/
theorem link_discardFrame (s : State) (p : Port) (code : Byte) : Link s (s.discardFrame p code) := by
  unfold State.discardFrame
  split
  · exact link_modPort s p _ fun ps h => ⟨h.1, by simp⟩
  · exact .refl s

theorem link_markFrameBad (s : State) (p : Port) : Link s (s.markFrameBad p) := by
  unfold State.markFrameBad
  split
  · exact .refl s
  · exact link_modPort s p _

theorem link_endFrame (s : State) (p : Port) : Link s (s.endFrame p) := by
  unfold State.endFrame
  split
  · exact .refl s
  · split
    · exact ((link_markFrameBad s p).trans (link_discardFrame _ p _)).trans (link_modPort _ p _)
    · exact link_modPort s p _
  · exact link_modPort s p _
  · exact link_modPort s p _

theorem link_selRise (s : State) (p : Port) (edges : List Bool) : Link s (s.selRise p edges) := by
  unfold State.selRise
  simp only []
  split
  · exact .refl s
  · exact ((link_sckEdges p edges s).trans (link_endFrame _ p)).trans (link_modPort _ p _)

theorem link_receive (s : State) (p : Port) (bytes : List Byte) : Link s (s.receive p bytes) := link_modPort s p _

theorem link_startReply (s : State) (p : Port) (shown : Byte) (r : Reply) : Link s (s.startReply p shown r) :=
  link_modPort s p _

/-- The data bytes of a Write Data of an allowed length fit the buffer. -/
theorem link_stage (s : State) (p : Port) (params : List Byte) : Link s (s.stage p params) := by
  unfold State.stage
  split
  · refine link_modPort s p _ fun ps h => ⟨h.1, ?_⟩
    simp only
    split
    · next hc =>
      have hl : lengthAllowed 0x4B params.length = true := by simp only [Bool.and_eq_true] at hc; exact hc.2
      have hp : params.length ≤ 249 := by
        by_contra hn
        simp [lengthAllowed, requestForms, requestFormsLow, requestFormsHigh] at hl
        omega
      simp only [List.length_drop]; omega
    · simp
  · exact .refl s

/-! ### The effects -/

/-- The part's reset state with given levels of supply and RESET#: what a fall of RESET# and a change of the supply leave. -/
def resetWith (s : State) (powered resetHigh : Bool) : State :=
  { s.resetPart with powered := powered, resetHigh := resetHigh }

/-- The effects that begin nothing: they leave every port's stack, NEST and posting quota and whether it is ONLINE, and they
add no call and no directory entry. -/
inductive Quiet (s : State) : State → Prop
  | link {t : State} (h : Link s t) : Quiet s t
  | withdrawn (p : Port) (id : Nat) (e : Service) (he : s.entry id = some e) (hp : e.provider = p)
      (h0 : s.inServiceCount id = 0) : Quiet s (s.withdraw p id)
  | cancelled (n : SlotNo) (c : Call) (hs : s.slot n = some c) (hp : c.isPending = true) : Quiet s (s.cancelPending n c)
  | cancelAsked (n : SlotNo) (c : Call) (hs : s.slot n = some c) (hi : c.isInService = true) : Quiet s (s.askCancel n c)
  | collected (n : SlotNo) (c : Call) (hs : s.slot n = some c) (hu : ¬Unended c) : Quiet s (s.collect c.caller n)
  | noticesRead (p : Port) (k : Nat) : Quiet s (s.modPort p fun ps => { ps with notices := ps.notices.drop k })
  | claimed (p : Port) (first count : Nat) (hon : s.online p = true) (hf : FreeRun s first count) :
      Quiet s (s.claim p first count)
  | released (p : Port) (first count : Nat) (hw : s.powered = true) (hr : s.resetHigh = true)
      (ho : AllOwned s p first count) : Quiet s (s.release first count)
  | resetRose (hw : s.powered = true) (hr : s.resetHigh = false) : Quiet s (State.startScrub { s with resetHigh := true })
  | resetPin (level : Bool) (hw : s.powered = false) : Quiet s { s with resetHigh := level }
  | ticked :
      Quiet s
        { s with
          slots := s.slots.map fun _ c => c.map Call.tick
          ports := s.ports.map fun _ ps => { ps with mode := ps.mode.tick }
          phase := 0 }
  | expired (n : SlotNo) (c : Call) (hs : s.slot n = some c) (hp : c.isPending = true) : Quiet s (s.failCall n .expired)
  | pulseEnded (p : Port) (hm : (s.port p).mode = .held 0) :
      Quiet s (s.modPort p fun ps => { ps with mode := .offline, rsto := false })
  | scrubbed (b : BlockNo) (rest : List BlockNo) (hq : s.scrubQueue = b :: rest) (hb : s.scrubBusy = true) :
      Quiet s
        { s with
          mem := s.mem.clearBlock b
          blocks := s.blocks.set b .free
          scrubQueue := rest
          scrubBusy := !rest.isEmpty
          ready := s.ready || rest.isEmpty }

/-- The effects that add no call, no directory entry and no stack entry, and leave every port's state as it is but for a pulse
that runs down. -/
inductive Running (s : State) : State → Prop
  | quiet {t : State} (h : Quiet s t) : Running s t
  | answered (p : Port) (e : StackEntry) (result : Byte) (words : List Word) (ht : (s.port p).stack.getLast? = some e)
      (ho : e.orphaned = false) (hw : words.length ≤ 6) : Running s ((s.answerSlot e.slot result words).pop p e)
  | popped (p : Port) (e : StackEntry) (ht : (s.port p).stack.getLast? = some e) (ho : e.orphaned = true) :
      Running s (s.pop p e)
  | nested (p : Port) (nest : Nest) (hs : (s.port p).stack ≠ []) :
      Running s (s.modPort p fun ps => { ps with nest := nest })
  | overran (n : SlotNo) (c : Call) (hs : s.slot n = some c) (hi : c.isInService = true) :
      Running s ((s.orphanOverrun c.callee n c.tag).failCall n .overrun)

/-- The effects of the commands and events, each with what has been checked before it. -/
inductive Effect (s : State) : State → Prop
  | running {t : State} (h : Running s t) : Effect s t
  | attached (p : Port) (o : Options) (hoff : s.online p = false) (hm : ModeInRange p (.online o)) :
      Effect s (s.modPort p fun ps => { ps with mode := .online o })
  | registered (e : Service) (hon : s.online e.provider = true) (hnew : s.entry e.id = none)
      (hroom : s.directory.length < 16) (hr : EntryInRange e) : Effect s { s with directory := s.directory ++ [e] }
  | posted (n : SlotNo) (p : Port) (c : Call) (e : Service) (hfree : s.slot n = none) (hon : s.online p = true)
      (he : s.entry c.service = some e) (hc : c.caller = p) (hq : c.callee = e.provider) (hne : e.provider ≠ p)
      (ho : c.postOrder = s.posts) (hst : c.isPending = true) (hr : CallInRange c)
      (hquota : s.allocatedCount p < (s.port p).mode.quota)
      (hl : ∀ l, c.lease = some l → AllOwned s p l.first l.count) : Effect s (s.post n c)
  | taken (p : Port) (n : SlotNo) (c : Call) (hon : s.online p = true) (hs : s.slot n = some c)
      (hp : c.isPending = true) (hq : c.callee = p) (hroom : (s.port p).stack.length < 4)
      (hnest : (s.port p).stack = [] ∨ (s.port p).nest = .opened) (ho : (s.port p).outranks c.priority = true)
      (hu : s.underLimit c.service = true) : Effect s (s.take p n c)
  | departed (p : Port) (m : PortMode) {t : State} (hon : s.online p = true) (hm : m.isOnline = false)
      (hp : pulseOf m ≤ 200) (hw : s.powered = true) (hr : s.resetHigh = true) (h : Link (s.departure p m) t) : Effect s t
  | reset (powered resetHigh : Bool) {t : State} (hlow : (powered && resetHigh) = false)
      (h : Link (resetWith s powered resetHigh) t) : Effect s t

/-- An effect that begins nothing. -/
theorem Effect.quiet {s t : State} (h : Quiet s t) : Effect s t := .running (.quiet h)

theorem effect_link {s t : State} (h : Link s t) : Effect s t := .quiet (.link h)

theorem effect_refl (s : State) : Effect s s := effect_link (.refl s)

/-- What a step does: a change of a link's records, one effect, and again the links' records, which stay in range. -/
def Does (s t : State) : Prop :=
  ∃ u v, Link s u ∧ Effect u v ∧ SamePart v t ∧ (CoreFields u → LinkFields v → LinkFields t)

theorem Does.of_effect {s t : State} (h : Effect s t) : Does s t := ⟨s, t, .refl s, h, .refl t, fun _ h => h⟩

theorem Does.of_link {s t : State} (h : Link s t) : Does s t := .of_effect (effect_link h)

theorem Does.after_link {s t u : State} (h : Link s t) (k : Does t u) : Does s u := by
  obtain ⟨v, w, h1, h2, h3, h4⟩ := k
  exact ⟨v, w, h.trans h1, h2, h3, h4⟩

/-! ### From a command's effect to its frame -/

/-- What a command's meaning answers: an effect, and a body that the last-reply record can hold (R191). -/
structure Answers (s : State) (r : State × Reply) : Prop where
  effect : Effect s r.1
  body : CoreFields s → r.2.body.length ≤ 50

theorem answers_refuse (st : Status) (s : State) : Answers s (refuse st s) := ⟨effect_refl s, fun _ => by simp⟩

theorem answers_refuseWith (st : Status) {body : List Byte} (s : State) (h : body.length ≤ 50) :
    Answers s (refuseWith st body s) := ⟨effect_refl s, fun _ => h⟩

theorem answers_reply {s t : State} (st : Status) {body : List Byte} (h : Effect s t)
    (hb : CoreFields s → body.length ≤ 50) : Answers s (reply st body t) := ⟨h, hb⟩

theorem answers_whenOnline {s : State} {p : Port} {act : State → State × Reply}
    (h : s.online p = true → Answers s (act s)) : Answers s (whenOnline p act s) := by
  unfold whenOnline
  split
  · next ho => exact h ho
  · exact answers_refuse _ s

theorem nextNumber_range (r : Option LastReply) (h : ∀ x ∈ r, 1 ≤ x.number ∧ x.number ≤ 255) :
    1 ≤ nextNumber r ∧ nextNumber r ≤ 255 := by
  cases r with
  | none => simp [nextNumber]
  | some x =>
    have := h x rfl
    simp only [nextNumber]
    split <;> omega

/-- The reply to a frame, recorded or not. -/
theorem linkFields_reply {s : State} {p : Port} {code shown : Byte} {r : Reply} (h : LinkFields s)
    (hb : isStatusCode code = false → r.body.length ≤ 50) :
    LinkFields ((if isStatusCode code then s else s.recordReply p code r).startReply p shown r) := by
  refine linkFields_modPort (fun hl => hl) ?_
  cases hc : isStatusCode code with
  | true => exact h
  | false =>
    simp only [Bool.false_eq_true, if_false, State.recordReply]
    refine linkFields_modPort (fun hl => ⟨fun x hx => ?_, hl.2⟩) h
    cases hx
    exact ⟨nextNumber_range _ fun y hy => (hl.1 y hy).1, hb hc⟩

theorem samePart_reply (s : State) (p : Port) (code shown : Byte) (r : Reply) :
    SamePart s ((if isStatusCode code then s else s.recordReply p code r).startReply p shown r) := by
  refine SamePart.trans ?_ (samePart_modPort _ p _)
  split
  · exact .refl s
  · exact samePart_modPort s p _

/-- A frame whose check byte verifies does what its command does, or what its link does. -/
theorem does_answer (s : State) (p : Port) (code : Byte) (params : List Byte) (ok : Bool) {act : State → State × Reply}
    (h : ∀ u, u.powered = true → u.resetHigh = true →
      Effect u (act u).1 ∧ (isStatusCode code = false → CoreFields u → (act u).2.body.length ≤ 50)) :
    Does s (s.answer p code params ok act) := by
  unfold State.answer
  split
  · next hr =>
    obtain ⟨hw, hh, -⟩ := (receiving_iff s p _).1 hr
    simp only []
    have hl : Link s ((s.receive p (requestBytes code params)).setFrameBad p false) :=
      (link_receive s p _).trans (link_modPort _ p _)
    split
    · exact .of_link ((link_receive s p _).trans (link_startReply _ p _ _))
    · cases ok with
      | true =>
        obtain ⟨he, hb⟩ := h _ (hl.powered.trans hw) (hl.resetHigh.trans hh)
        exact ⟨_, _, hl, he, samePart_reply _ p code _ _, fun hc hf => linkFields_reply hf fun hk => hb hk hc⟩
      | false =>
        exact ⟨_, _, hl, effect_refl _, samePart_reply _ p code _ _, fun _ hf => linkFields_reply hf fun _ => by simp⟩
  · exact .of_link (.refl s)

/-- The frame of a command of R190. -/
theorem does_runCommand (s : State) (p : Port) (code : Byte) (params : List Byte) {act : State → State × Reply}
    (h : ∀ u, u.powered = true → u.resetHigh = true → Answers u (act u)) : Does s (s.runCommand p code params act) :=
  does_answer s p code params _ fun u hw hr => ⟨(h u hw hr).effect, fun _ => (h u hw hr).body⟩

/-- The frame of a command that only reports; its reply is not recorded (R181). -/
theorem does_status (s : State) (p : Port) {code : Byte} (params : List Byte) {act : State → State × Reply}
    (hk : isStatusCode code = true) (h : ∀ u, (act u).1 = u) : Does s (s.runCommand p code params act) :=
  does_answer s p code params _ fun u _ _ => ⟨(h u).symm ▸ effect_refl u, fun hn => by rw [hk] at hn; cases hn⟩

/-! ### The commands of the callers -/

theorem wordsOf_length : ∀ bytes : List Byte, 2 * (wordsOf bytes).length ≤ bytes.length
  | [] => by simp [wordsOf]
  | [_] => by simp [wordsOf]
  | _ :: _ :: rest => by
    have := wordsOf_length rest
    simp only [wordsOf, List.length_cons]; omega

@[simp] theorem wordBytes_length (w : Word) : (wordBytes w).length = 2 := rfl

@[simp] theorem wordOf_length (n : Nat) : (wordOf n).length = 2 := rfl

theorem bytesOfWords_length (ws : List Word) : (bytesOfWords ws).length = 2 * ws.length := by
  induction ws with
  | nil => rfl
  | cons w ws ih =>
    rw [bytesOfWords, List.flatMap_cons, List.length_append, ← bytesOfWords, ih, wordBytes_length, List.length_cons]
    omega

/-- With no block of a span deciding a refusal, the port owns them all. -/
theorem allOwned_of_decidingBlock {s : State} {p : Port} {first count : Nat}
    (h : decidingBlock s p (spanBlocks first count) = none) : AllOwned s p first count := by
  have key : ∀ l : List BlockNo, decidingBlock s p l = none → ∀ b ∈ l, s.block b = .owned p := by
    intro l
    induction l with
    | nil => intro _ b hb; cases hb
    | cons k ks ih =>
      intro hd b hb
      rw [decidingBlock] at hd
      split at hd
      · next hk =>
        rcases List.mem_cons.1 hb with rfl | hb
        · exact hk
        · exact ih hd b hb
      · split at hd <;> cases hd
  exact fun b h1 h2 => key _ h b ((mem_spanBlocks _ _ _).2 ⟨h1, h2⟩)

/-- A posted call is in range when its parameters are. -/
theorem callInRange_posted {ps : List Byte} (p : Port) (e : Service) (order : Nat) (h : goodPost ps = true)
    {r : PostRequest} (hr : postRequest? ps = some r) : CallInRange (postedCall p r e order) := by
  obtain ⟨hlen, h0, h1, h2, h3, hl⟩ := (goodPost_iff ps).1 h
  rw [postRequest_good h] at hr
  cases hr
  refine ⟨⟨h0, h1⟩, h2, ?_, fun l hm => ?_, fun k hk => ?_, by simp [postedCall, resultWords]⟩
  · have := wordsOf_length (ps.drop 11)
    simp only [postedCall, List.length_drop] at this ⊢
    omega
  · simp only [postedCall, postedLease] at hm
    rcases hl with hl | ⟨h6, h8, h8', h7, -⟩
    · rw [if_neg (by omega)] at hm; cases hm
    · rw [if_pos h6] at hm; cases hm
      exact ⟨h8, h8', h7⟩
  · have := (paramWord ps 4).isLt
    simp only [postedCall, countdownOf, ticks?] at hk
    split at hk
    · cases hk
    · cases hk; omega

theorem lowestFree_free {s : State} {n : SlotNo} (h : s.lowestFree = some n) : s.slot n = none := by
  have : n ∈ s.slots.indices fun c => c.isNone := List.mem_of_mem_head? h
  exact Option.isNone_iff_eq_none.1 ((Table.mem_indices _ _ _).1 this)

theorem answers_postCallOnline {s : State} {p : Port} {r : PostRequest} (hon : s.online p = true)
    (hr : ∀ e order, CallInRange (postedCall p r e order)) : Answers s (postCallOnline p r s) := by
  unfold postCallOnline
  split
  · exact answers_refuse _ s
  · next e he =>
    split_ifs with hp hq hl
    · exact answers_refuse _ s
    · exact answers_refuse _ s
    · exact answers_refuse _ s
    · split
      · exact answers_refuseWith _ s (by simp)
      · next hb =>
        split
        · exact answers_refuse _ s
        · next n hn =>
          refine answers_reply _ (.posted n p _ e (lowestFree_free hn) hon he rfl rfl hp rfl rfl (hr e s.posts)
            (by omega) fun l hle => ?_) fun _ => by simp
          have hle : r.lease = some l := hle
          rw [hle] at hb
          exact allOwned_of_decidingBlock hb

theorem answers_postCall (p : Port) (params : List Byte) (s : State) : Answers s (postCall p params s) := by
  unfold postCall
  split
  · exact answers_refuse _ s
  · next hlen =>
    split
    · exact answers_refuse _ s
    · next r hr =>
      have hg : goodPost params = true := by
        by_contra hg
        rw [CallTable.postRequest_bad (not_not.1 hlen) hg] at hr
        cases hr
      exact answers_whenOnline fun hon => answers_postCallOnline hon fun e order => callInRange_posted p e order hg hr

theorem answers_withOwnCall {s : State} {p : Port} {k : Option SlotNo} {act : SlotNo → Call → State → State × Reply}
    (h : ∀ n c, s.slot n = some c → c.caller = p → Answers s (act n c s)) : Answers s (withOwnCall p k act s) := by
  unfold withOwnCall
  split
  · exact answers_refuse _ s
  · next n =>
    refine answers_whenOnline fun _ => ?_
    split
    · exact answers_refuse _ s
    · next c hs =>
      split
      · next hc => exact h n c hs hc
      · exact answers_refuse _ s

theorem answers_cancelCall {s : State} {n : SlotNo} {c : Call} (hs : s.slot n = some c) : Answers s (cancelCall n c s) := by
  unfold cancelCall
  split
  · next d hst => exact answers_reply _ (.quiet (.cancelled n c hs (by simp [Call.isPending, hst]))) fun _ => by simp
  · next l hst =>
    split
    · exact answers_refuse _ s
    · exact answers_reply _ (.quiet (.cancelAsked n c hs (by simp [Call.isInService, hst]))) fun _ => by simp
  · exact answers_refuseWith _ s (by simp)
  · exact answers_refuseWith _ s (by simp)

theorem outcomeBytes_length {s : State} {n : SlotNo} {c : Call} (hs : s.slot n = some c) (h : CoreFields s) :
    (outcomeBytes c).length ≤ 50 := by
  obtain ⟨-, -, -, -, -, hw⟩ := h.call n c hs
  unfold outcomeBytes
  split
  · next r ws hst =>
    simp only [hst, resultWords] at hw
    simp [bytesOfWords_length]; omega
  all_goals simp

theorem answers_collectAnswer {s : State} {n : SlotNo} {c : Call} (hs : s.slot n = some c) :
    Answers s (collectAnswer c.caller n c s) := by
  unfold collectAnswer
  split
  · next r ws hst =>
    exact answers_reply _ (.quiet (.collected n c hs (by simp [Unended, Call.isPending, Call.isInService, hst])))
      (outcomeBytes_length hs)
  · next why hst =>
    exact answers_reply _ (.quiet (.collected n c hs (by simp [Unended, Call.isPending, Call.isInService, hst])))
      (outcomeBytes_length hs)
  · exact answers_refuse _ s
  · exact answers_refuse _ s

theorem answers_callStatus (n : SlotNo) (c : Call) (s : State) : Answers s (callStatus n c s) := by
  refine answers_reply _ (effect_refl s) fun _ => ?_
  have : (countdownBytes c).length = 3 := by unfold countdownBytes; split <;> rfl
  simp [this]

/-! ### The directory's commands -/

theorem answers_registerService (p : Port) (params : List Byte) (s : State) : Answers s (registerService p params s) := by
  unfold registerService
  split
  · exact answers_refuse _ s
  · next leases hy =>
    split
    · exact answers_refuse _ s
    · next hr =>
      refine answers_whenOnline fun hon => ?_
      unfold registerEntry
      split
      · exact answers_refuseWith _ s (by simp)
      · next hnew =>
        split
        · exact answers_refuse _ s
        · next hroom =>
          refine answers_reply _ (.registered _ hon hnew (Nat.lt_of_not_le hroom) ?_) fun _ => by simp
          have hw := (paramWord params 2).isLt
          simp only [serviceInRange, Bool.and_eq_false_iff, decide_eq_false_iff_not] at hr
          refine ⟨by simp only; omega, by simp only; omega, fun l hl => ?_⟩
          simp only [ticks?] at hl
          split at hl
          · cases hl
          · cases hl; omega

theorem answers_withdrawService (p : Port) (id : Nat) (s : State) : Answers s (withdrawService p id s) := by
  unfold withdrawService
  split
  · exact answers_refuse _ s
  · refine answers_whenOnline fun _ => ?_
    split
    · exact answers_refuse _ s
    · next e he =>
      split_ifs with hp hi
      · exact answers_refuse _ s
      · exact answers_refuseWith _ s (by simp)
      · exact answers_reply _ (.quiet (.withdrawn p id e he (not_not.1 hp) (not_not.1 hi))) fun _ => by simp

theorem answers_queryService (p : Port) (id : Nat) (s : State) : Answers s (queryService p id s) := by
  unfold queryService
  split
  · exact answers_refuse _ s
  · refine answers_whenOnline fun _ => ?_
    split
    · exact answers_refuse _ s
    · exact answers_reply _ (effect_refl s) fun _ => by simp

/-! ### The ports' commands -/

/-- No port is in a consent set that passes the check of R153 for it. -/
theorem consent_range {p : Port} {b : Byte} (h : consentInRange p b = true) : p ∉ portSet b ∧ (portSet b).Nodup := by
  simp only [consentInRange, Bool.and_eq_true, Bool.not_eq_true'] at h
  refine ⟨fun hm => ?_, List.Nodup.filter _ (by decide)⟩
  have := (List.mem_filter.1 hm).2
  rw [h.2] at this
  cases this

theorem answers_attach (p : Port) (params : List Byte) (s : State) : Answers s (attach p params s) := by
  unfold attach
  split
  · exact answers_refuse _ s
  · split_ifs with hf ho
    · exact answers_refuse _ s
    · exact answers_refuse _ s
    · simp only [not_or, Bool.not_eq_false] at hf
      obtain ⟨h1, h2, hc⟩ := hf
      refine answers_reply _ (.attached p _ (by simpa using ho) ?_) fun _ => by simp
      exact ⟨fun _ => by simp only [PortMode.quota]; omega, by simp only [PortMode.quota]; omega,
        (consent_range hc).1, (consent_range hc).2, by simp [pulseOf]⟩

theorem answers_detach (p : Port) {s : State} (hw : s.powered = true) (hr : s.resetHigh = true) :
    Answers s (detach p s) :=
  answers_whenOnline fun hon =>
    answers_reply _ (.departed p .offline hon rfl (by simp [pulseOf]) hw hr (.refl _)) fun _ => by simp

theorem answers_resetPeer (p : Port) (target : Option Port) {s : State} (hw : s.powered = true)
    (hr : s.resetHigh = true) : Answers s (resetPeer p target s) := by
  unfold resetPeer
  split
  · exact answers_refuse _ s
  · next t =>
    refine answers_whenOnline fun _ => ?_
    split_ifs with h1 h2 h3
    · exact answers_refuse _ s
    · exact answers_refuseWith _ s (by simp)
    · exact answers_refuse _ s
    · exact answers_reply _ (.departed t _ (by simpa using h2) rfl (by simp [pulseOf, Config.pulseTicks]) hw hr
        (link_modPort _ t _)) fun _ => by simp

/-! ### The callees' commands -/

/-- What the search of Take Call finds passes both tests and is in the pending order. -/
theorem chooseCall_found {s : State} {p : Port} {n : SlotNo} {c : Call} : ∀ {l : List NumberedCall},
    chooseCall s p l = some (n, c) →
      (n, c) ∈ l ∧ (s.port p).outranks c.priority = true ∧ s.underLimit c.service = true
  | [], h => by cases h
  | x :: xs, h => by
    rw [chooseCall] at h
    split_ifs at h with ho hu
    · cases h
      exact ⟨List.mem_cons_self, by simpa using ho, hu⟩
    · obtain ⟨hm, h'⟩ := chooseCall_found h
      exact ⟨List.mem_cons_of_mem _ hm, h'⟩

theorem leaseBytes_length (l : Option Lease) : (leaseBytes l).length = 4 := by cases l <;> rfl

theorem answers_takeCall (p : Port) (s : State) : Answers s (takeCall p s) := by
  refine answers_whenOnline fun hon => ?_
  split_ifs with hfull hnest
  · exact answers_refuse _ s
  · exact answers_refuse _ s
  · split
    · next n c hc =>
      obtain ⟨hm, ho, hu⟩ := chooseCall_found hc
      obtain ⟨hs, hp, hq⟩ := (mem_pendingCalls s p n c).1 hm
      have hn : (s.port p).stack = [] ∨ (s.port p).nest = .opened := by
        by_cases h : (s.port p).stack = []
        · exact .inl h
        · exact .inr (by cases hk : (s.port p).nest with
            | opened => rfl
            | closed => exact absurd ⟨h, hk⟩ hnest)
      refine answers_reply _ (.taken p n c hon hs hp hq (Nat.lt_of_not_le hfull) hn ho hu) fun h => ?_
      obtain ⟨-, -, ha, -⟩ := h.call n c hs
      simp [takenBytes, leaseBytes_length, bytesOfWords_length]; omega
    · exact answers_refuseWith _ s (by simp)

theorem answers_answerCall (p : Port) (params : List Byte) (s : State) : Answers s (answerCall p params s) := by
  unfold answerCall
  split_ifs with hlen hf
  · exact answers_refuse _ s
  · exact answers_refuse _ s
  · refine answers_whenOnline fun _ => ?_
    split
    · exact answers_refuse _ s
    · next e ht =>
      split
      · exact answers_refuseWith _ s (by simp)
      · unfold answerTop
        split
        · next ho => exact answers_reply _ (.running (.popped p e ht ho)) fun _ => by simp
        · next ho =>
          refine answers_reply _ (.running (.answered p e _ _ ht (by simpa using ho) ?_)) fun _ => by simp
          have := wordsOf_length (params.drop 3)
          rw [List.length_drop] at this
          omega

theorem answers_setNesting (p : Port) (nest : Nest) (s : State) : Answers s (setNesting p nest s) := by
  refine answers_whenOnline fun _ => ?_
  split
  · exact answers_refuse _ s
  · next h => exact answers_reply _ (.running (.nested p nest (by simpa using h))) fun _ => by simp

theorem entryBytes_length (s : State) (e : StackEntry) : (entryBytes s e).length = 10 := by
  have : (liveBytes s e).length = 3 := by
    unfold liveBytes
    split
    · rfl
    · split <;> rfl
  simp [entryBytes, this]

theorem answers_stackStatus (p : Port) (s : State) : Answers s (stackStatus p s) := by
  refine answers_whenOnline fun _ => answers_reply _ (effect_refl s) fun h => ?_
  obtain ⟨hlen, -⟩ := h.stack p
  have : ((s.port p).stack.flatMap (entryBytes s)).length = 10 * (s.port p).stack.length := by
    rw [List.length_flatMap, List.map_congr_left fun e _ => entryBytes_length s e]
    simp [Nat.mul_comm]
  simp [this]; omega

theorem noticeBytes_length (k : Notice) : (noticeBytes k).length = 6 := by cases k <;> rfl

theorem answers_readNotices (p : Port) (n : Nat) (s : State) : Answers s (readNotices p n s) := by
  unfold readNotices
  split
  · exact answers_refuse _ s
  · next hn =>
    refine answers_whenOnline fun _ => answers_reply _ (.quiet (.noticesRead p n)) fun _ => ?_
    have : (((s.port p).notices.take n).flatMap noticeBytes).length = 6 * ((s.port p).notices.take n).length := by
      rw [List.length_flatMap, List.map_congr_left fun k _ => noticeBytes_length k]
      simp [Nat.mul_comm]
    have hl : ((s.port p).notices.take n).length ≤ n := by simp [List.length_take]
    simp only [List.length_append, List.length_cons, List.length_nil, this]
    omega

/-! ### The commands of blocks and cursors -/

theorem freeRun_of_test {s : State} {count b : Nat} (h : freeRun s count b = true) : FreeRun s b count := by
  have hf : ∀ k : Block, k.isFree = true → k = .free := by intro k; cases k <;> simp [Block.isFree]
  simp only [freeRun, Bool.and_eq_true, decide_eq_true_eq, List.all_eq_true, mem_spanBlocks] at h
  exact ⟨h.1, fun k h1 h2 => hf _ (h.2 k ⟨h1, h2⟩)⟩

theorem answers_claimBlocks (p : Port) (count : Nat) (s : State) : Answers s (claimBlocks p count s) := by
  unfold claimBlocks
  split
  · exact answers_refuse _ s
  · refine answers_whenOnline fun hon => ?_
    split
    · next first hf =>
      exact answers_reply _ (.quiet (.claimed p first count hon (freeRun_of_test (List.find?_some hf)))) fun _ => by simp
    · exact answers_refuseWith _ s (by simp)

theorem answers_releaseBlocks (p : Port) (first count : Nat) {s : State} (hw : s.powered = true)
    (hr : s.resetHigh = true) : Answers s (releaseBlocks p first count s) := by
  unfold releaseBlocks
  split
  · exact answers_refuse _ s
  · refine answers_whenOnline fun _ => ?_
    split
    · exact answers_refuseWith _ s (by simp)
    · next hd =>
      exact answers_reply _ (.quiet (.released p first count hw hr (allOwned_of_decidingBlock hd))) fun _ => by simp

theorem answers_blockStatus (p : Port) (b : BlockNo) (s : State) : Answers s (blockStatus p b s) :=
  answers_whenOnline fun _ => answers_reply _ (effect_refl s) fun _ => by cases s.block b <;> simp [blockBytes]

theorem answers_setCursor (p : Port) (k : Option (Fin 2)) (base : Word) (limit : Nat) (s : State) :
    Answers s (setCursor p k base limit s) := by
  unfold setCursor
  split
  · exact answers_refuse _ s
  · exact answers_whenOnline fun _ => answers_reply _ (effect_link (link_modPort s p _)) fun _ => by simp

theorem answers_rewindCursor (p : Port) (k : Option (Fin 2)) (s : State) : Answers s (rewindCursor p k s) := by
  unfold rewindCursor
  split
  · exact answers_refuse _ s
  · exact answers_whenOnline fun _ => answers_reply _ (effect_link (link_modPort s p _)) fun _ => by simp

theorem answers_readData (p : Port) (k : Option (Fin 2)) (wanted : Nat) (s : State) :
    Answers s (readData p k wanted s) := by
  unfold readData
  split
  · exact answers_refuse _ s
  · split
    · exact answers_refuse _ s
    · refine answers_whenOnline fun _ => ?_
      split
      · exact ⟨effect_refl s, fun _ => by simp⟩
      · exact answers_refuse _ s

theorem link_discardStaged (s : State) (p : Port) : Link s (s.discardStaged p) :=
  link_modPort s p _ fun ps h => ⟨h.1, by simp⟩

theorem link_commit (s : State) (p : Port) (k : Fin 2) (data : List Byte) : Link s (s.commit p k data) := by
  unfold State.commit State.modCursor
  have hm : Link s { s with mem := s.mem.writeAll ((targets (s.cursor p k) data.length).zip data) } :=
    ⟨⟨fun _ => rfl, fun _ => rfl, fun _ => rfl, fun _ => rfl, rfl, rfl, rfl, rfl, rfl, rfl, rfl, rfl⟩, id⟩
  exact hm.trans (link_modPort _ p _)

theorem answers_writeData (p : Port) (k : Option (Fin 2)) (s : State) : Answers s (writeData p k s) := by
  have hd := effect_link (link_discardStaged s p)
  unfold writeData
  split
  · exact ⟨hd, fun _ => by simp⟩
  · split
    · simp only []
      split
      · exact ⟨hd, fun _ => by simp⟩
      · exact answers_reply _ (effect_link (link_commit s p _ _)) fun _ => by simp
    · exact ⟨hd, fun _ => by simp⟩

/-! ### The other events -/

theorem link_readDataByte {s t : State} {p : Port} (h : execReadDataByte p s = .next t) : Link s t := by
  cases h
  split
  · split
    · exact ((link_creditByte s p _).trans (link_modPort _ p _)).trans (link_beginDataByte _ p _)
    · exact .refl s
  · exact .refl s

theorem does_badCheck (p : Port) (code : Byte) (params : List Byte) (check : Byte) (s : State) {t : State}
    (h : execBadCheck p code params check s = .next t) : Does s t := by
  cases h
  split
  · exact .of_link ((((link_receive s p _).trans (link_markFrameBad _ p)).trans (link_discardFrame _ p _)).trans
      (link_startReply _ p _ _))
  · exact .of_link (.refl s)

theorem does_badCommand (p : Port) (code : Byte) (params : List Byte) (s : State) {t : State}
    (h : execBadCommand p code params s = .next t) : Does s t := by
  cases h
  split
  · exact .of_link (.refl s)
  · exact does_answer s p code params true fun u _ _ => ⟨effect_refl u, fun _ _ => by simp⟩

theorem link_selFalling (p : Port) (s : State) {t : State} (h : execSelFalling p s = .next t) : Link s t := by
  cases h
  split
  · split
    · exact link_modPort s p _
    · exact link_modPort s p _
  · exact .refl s

/-- The fall of PRST# ends the frame; an ONLINE port departs (R159). -/
theorem does_prstFalling (p : Port) (s : State) {t : State} (h : execPrstFalling p s = .next t) : Does s t := by
  have hl : ∀ u : State, Link u (u.modPort p fun ps => { ps with prst := false, asm := .idle, staging := [] }) :=
    fun u => link_modPort u p _ fun ps h => ⟨h.1, by simp⟩
  cases h
  split
  · split
    · next hc =>
      simp only [Bool.and_eq_true] at hc
      exact .of_effect (.departed p .offline hc.2 rfl (by simp [pulseOf]) hc.1.1 hc.1.2 (hl _))
    · exact .of_link (hl s)
  · exact .of_link (.refl s)

theorem does_pulseEnd (p : Port) (s : State) {t : State} (h : execPulseEnd p s = .next t) : Does s t := by
  cases h
  split
  · next hm => exact .of_effect (.quiet (.pulseEnded p hm))
  all_goals exact .of_link (.refl s)

/-- A change of the phase, of the count of free values, or of the queue of commands. -/
theorem link_bookkeeping (s : State) (phase freeCount : Nat) (pending : List Instr) :
    Link s { s with phase := phase, freeCount := freeCount, pending := pending } :=
  ⟨⟨fun _ => rfl, fun _ => rfl, fun _ => rfl, fun _ => rfl, rfl, rfl, rfl, rfl, rfl, rfl, rfl, rfl⟩, id⟩

theorem does_resetFalling (s : State) {t : State} (h : execResetFalling s = .next t) : Does s t := by
  cases h
  split
  · split
    · exact .of_effect (.reset s.powered false (by simp) (.refl _))
    · next hw => exact .of_effect (.quiet (.resetPin false (by simpa using hw)))
  · exact .of_link (.refl s)

theorem does_resetRising (s : State) {t : State} (h : execResetRising s = .next t) : Does s t := by
  cases h
  split_ifs with hr hw
  · exact .of_link (.refl s)
  · exact .of_effect (.quiet (.resetRose hw (by simpa using hr)))
  · exact .of_effect (.quiet (.resetPin true (by simpa using hw)))

theorem does_powerBelowRange (s : State) {t : State} (h : execPowerBelowRange s = .next t) : Does s t := by
  cases h
  split
  · exact .of_effect (.reset false s.resetHigh (by simp) (.refl _))
  · exact .of_link (.refl s)

theorem does_powerUp (s : State) {t : State} (h : execPowerUp s = .next t) : Does s t := by
  cases h
  split
  · exact .of_link (.refl s)
  · exact .of_effect (.reset true false (by simp) (link_bookkeeping _ (Config.freePhase s.freeCount) _ _))

theorem does_tick (s : State) {t : State} (h : execTick s = .next t) : Does s t := by
  cases h
  split
  · exact .of_effect (.quiet .ticked)
  · exact .of_link (.refl s)

theorem does_deadlineExpiry (n : SlotNo) (s : State) {t : State} (h : execDeadlineExpiry n s = .next t) : Does s t := by
  cases h
  split
  · next e =>
    obtain ⟨c, hs, hst⟩ := Option.map_eq_some_iff.1 e
    exact .of_effect (.quiet (.expired n c hs (by simp [Call.isPending, hst])))
  all_goals exact .of_link (.refl s)

theorem does_overrun (n : SlotNo) (s : State) {t : State} (h : execOverrun n s = .next t) : Does s t := by
  cases h
  split
  · exact .of_link (.refl s)
  · next c hs =>
    split
    · next hst => exact .of_effect (.running (.overran n c hs (by simp [Call.isInService, hst])))
    · exact .of_link (.refl s)

theorem does_scrubCompletion (s : State) {t : State} (h : execScrubCompletion s = .next t) : Does s t := by
  cases h
  split
  · exact .of_link (.refl s)
  · next b rest hq =>
    split
    · next hb => exact .of_effect (.quiet (.scrubbed b rest hq hb))
    · exact .of_link (.refl s)

/-! ### Every command, and every step -/

/-- What a command or an event does, one after another. -/
theorem exec_does (i : Instr) {s t : State} (h : exec i s = .next t) : Does s t := by
  cases i
  case readDataByte p => exact .of_link (link_readDataByte h)
  case badCommand p code params => exact does_badCommand p code params s h
  case badCheck p code params check => exact does_badCheck p code params check s h
  case prstFalling p => exact does_prstFalling p s h
  case pulseEnd p => exact does_pulseEnd p s h
  case resetFalling => exact does_resetFalling s h
  case resetRising => exact does_resetRising s h
  case tick => exact does_tick s h
  case deadlineExpiry n => exact does_deadlineExpiry n s h
  case overrun n => exact does_overrun n s h
  case scrubCompletion => exact does_scrubCompletion s h
  case selFalling p => exact .of_link (link_selFalling p s h)
  case powerBelowRange => exact does_powerBelowRange s h
  case powerUp => exact does_powerUp s h
  all_goals cases h
  case frameCutShort p edges => exact .of_link (link_selRise s p edges)
  case frameEnd p edges => exact .of_link (link_selRise s p edges)
  case prstRising p => exact .of_link (link_modPort s p _)
  case poll p params => exact does_status s p params rfl fun _ => rfl
  case portStatus p params => exact does_status s p params rfl fun _ => rfl
  case partStatus p params => exact does_status s p params rfl fun _ => rfl
  case lastReply p params => exact does_status s p params rfl fun u => by unfold lastReply; split <;> rfl
  case attach p params => exact does_runCommand s p _ params fun u _ _ => answers_attach p params u
  case detach p params => exact does_runCommand s p _ params fun u hw hr => answers_detach p hw hr
  case resetPeer p params => exact does_runCommand s p _ params fun u hw hr => answers_resetPeer p _ hw hr
  case registerService p params => exact does_runCommand s p _ params fun u _ _ => answers_registerService p params u
  case withdrawService p params => exact does_runCommand s p _ params fun u _ _ => answers_withdrawService p _ u
  case queryService p params => exact does_runCommand s p _ params fun u _ _ => answers_queryService p _ u
  case postCall p params => exact does_runCommand s p _ params fun u _ _ => answers_postCall p params u
  case cancelCall p params =>
    exact does_runCommand s p _ params fun u _ _ => answers_withOwnCall fun n c hs _ => answers_cancelCall hs
  case collectAnswer p params =>
    exact does_runCommand s p _ params fun u _ _ => answers_withOwnCall fun n c hs hc => hc ▸ answers_collectAnswer hs
  case callStatus p params =>
    exact does_runCommand s p _ params fun u _ _ => answers_withOwnCall fun n c _ _ => answers_callStatus n c u
  case takeCall p params => exact does_runCommand s p _ params fun u _ _ => answers_takeCall p u
  case answerCall p params => exact does_runCommand s p _ params fun u _ _ => answers_answerCall p params u
  case openNesting p params => exact does_runCommand s p _ params fun u _ _ => answers_setNesting p _ u
  case closeNesting p params => exact does_runCommand s p _ params fun u _ _ => answers_setNesting p _ u
  case stackStatus p params => exact does_runCommand s p _ params fun u _ _ => answers_stackStatus p u
  case readNotices p params => exact does_runCommand s p _ params fun u _ _ => answers_readNotices p _ u
  case claimBlocks p params => exact does_runCommand s p _ params fun u _ _ => answers_claimBlocks p _ u
  case releaseBlocks p params => exact does_runCommand s p _ params fun u hw hr => answers_releaseBlocks p _ _ hw hr
  case blockStatus p params => exact does_runCommand s p _ params fun u _ _ => answers_blockStatus p _ u
  case setCursor p params => exact does_runCommand s p _ params fun u _ _ => answers_setCursor p _ _ _ u
  case rewindCursor p params => exact does_runCommand s p _ params fun u _ _ => answers_rewindCursor p _ u
  case readData p params => exact does_runCommand s p _ params fun u _ _ => answers_readData p _ _ u
  case writeData p params =>
    exact .after_link (link_stage s p params) (does_runCommand _ p _ params fun u _ _ => answers_writeData p _ u)

/-- What a step does: its command's effect, or an edge of a link's clock. -/
theorem step_does {s t : State} (h : step s = .next t) : Does s t := by
  cases hp : s.pending with
  | cons c rest =>
    simp only [step, hp] at h
    exact .after_link (link_bookkeeping s _ _ rest) (exec_does c h)
  | nil =>
    have hl := link_bookkeeping s s.phase (s.freeCount + 1) s.pending
    rw [step_empty hp] at h
    simp only [State.idle] at h
    split at h
    · next p hc =>
      refine .after_link hl ?_
      cases hd : State.completedBy { s with freeCount := s.freeCount + 1 } p (Config.mosiLevel s.freeCount) with
      | some c =>
        rw [clock_command hd] at h
        exact exec_does c h
      | none =>
        rw [clock_edge hd] at h
        cases h
        exact .of_link (link_sckEdge _ p _)
    · cases h
      exact .of_link hl

end Sys2Proof.Steps
end

section
/-! SUPPORT. What the effects of a step leave of ports, calls and directory, said once: which effects leave every port's
service as it is, and which calls a state can have that had a call table before it. -/

namespace Sys2Proof.Steps

open Sys2Proof Sys2Proof.Machine Sys2Proof.Safety Sys2Proof.Statement

variable {s t u : State} {p q : Port} {n : SlotNo} {c d : Call}

/-! ### Ports whose service stands -/

/-- A port state goes on: it stands, or the pulse of a HELD port runs down or ends. -/
def ModeRuns (a b : PortMode) : Prop := b = a ∨ ∃ k, a = .held k ∧ (b = .offline ∨ ∃ j ≤ k, b = .held j)

theorem ModeRuns.online {a b : PortMode} (h : ModeRuns a b) : b.isOnline = a.isOnline := by
  rcases h with rfl | ⟨k, rfl, rfl | ⟨j, -, rfl⟩⟩ <;> rfl

theorem ModeRuns.quota {a b : PortMode} (h : ModeRuns a b) : b.quota = a.quota := by
  rcases h with rfl | ⟨k, rfl, rfl | ⟨j, -, rfl⟩⟩ <;> rfl

theorem ModeRuns.inRange {a b : PortMode} (h : ModeRuns a b) (ha : ModeInRange p a) : ModeInRange p b := by
  rcases h with rfl | ⟨k, rfl, h⟩
  · exact ha
  · obtain ⟨-, -, -, -, hk⟩ := ha
    simp only [pulseOf] at hk
    obtain rfl | ⟨j, hj, rfl⟩ := h <;>
      refine ⟨fun h => ?_, by simp [PortMode.quota], by simp [PortMode.consent], by simp [PortMode.consent], ?_⟩
    · cases h
    · simp [pulseOf]
    · cases h
    · simp only [pulseOf]; omega

/-- Every port keeps its stack, its NEST, whether it is ONLINE, and the range of its link's records. -/
structure SameService (s t : State) : Prop where
  mode : ∀ q, ModeRuns (s.port q).mode (t.port q).mode
  stack : ∀ q, (t.port q).stack = (s.port q).stack
  nest : ∀ q, (t.port q).nest = (s.port q).nest
  fields : LinkFields s → LinkFields t

theorem SameService.online (h : SameService s t) (q : Port) : t.online q = s.online q := (h.mode q).online

theorem SameService.quota (h : SameService s t) (q : Port) : (t.port q).mode.quota = (s.port q).mode.quota :=
  (h.mode q).quota

/-- The ports differ in their notice queues alone. -/
theorem sameService_of_notices (h : ∀ q, ∃ l, t.port q = { s.port q with notices := l }) : SameService s t := by
  refine ⟨fun q => .inl ?_, fun q => ?_, fun q => ?_, fun hl q => ?_⟩ <;> obtain ⟨l, e⟩ := h q <;> rw [e]
  exact hl q

theorem sameService_of_ports (h : t.ports = s.ports) : SameService s t :=
  sameService_of_notices fun q => ⟨(s.port q).notices, by rw [State.port, h]; rfl⟩

theorem sameService_link (h : Link s t) : SameService s t :=
  ⟨fun q => .inl (h.mode q), h.stack, h.nest, h.fields⟩

theorem notices_modPort (s : State) (p q : Port) (f : List Notice → List Notice) :
    ∃ l, (s.modPort p fun ps => { ps with notices := f ps.notices }).port q = { s.port q with notices := l } := by
  rw [modPort_port]
  split
  · exact ⟨_, rfl⟩
  · exact ⟨(s.port q).notices, rfl⟩

theorem cancelPending_port (s : State) (n : SlotNo) (c : Call) (q : Port) : (s.cancelPending n c).port q = s.port q := by
  rw [State.cancelPending, modLease_port, setSlot_port]

theorem askCancel_notices (s : State) (n : SlotNo) (c : Call) (q : Port) :
    ∃ l, (s.askCancel n c).port q = { s.port q with notices := l } := by
  unfold State.askCancel
  simp only []
  split
  · exact notices_modPort (s.setSlot n _) c.callee q (· ++ [_])
  · exact ⟨(s.port q).notices, rfl⟩

theorem post_port (s : State) (n : SlotNo) (c : Call) (q : Port) : (s.post n c).port q = s.port q := by
  rw [State.post, modLease_port]; rfl

/-- The effects that begin nothing leave every port's service as it is. -/
theorem Quiet.sameService (h : Quiet s t) : SameService s t := by
  cases h with
  | link h => exact sameService_link h
  | withdrawn p id => exact sameService_of_notices fun q => ⟨_, CallTable.withdraw_port s p q id⟩
  | cancelled n c => exact sameService_of_notices fun q => ⟨_, cancelPending_port s n c q⟩
  | cancelAsked n c => exact sameService_of_notices (askCancel_notices s n c)
  | collected n c => exact sameService_of_notices fun q => notices_modPort (s.setSlot n none) c.caller q _
  | noticesRead p k => exact sameService_of_notices fun q => notices_modPort s p q (List.drop k)
  | claimed => exact sameService_of_ports rfl
  | released => exact sameService_of_ports rfl
  | resetRose => exact sameService_of_ports rfl
  | resetPin => exact sameService_of_ports rfl
  | scrubbed => exact sameService_of_ports rfl
  | expired n =>
    exact sameService_of_notices fun q => (failCall_port s n .expired q).elim fun _ h => ⟨_, h⟩
  | ticked =>
    refine ⟨fun q => ?_, fun q => ?_, fun q => ?_, fun hl q => ?_⟩ <;> simp only [State.port, Table.get_map]
    · cases hm : (s.ports.get q).mode with
      | held k => exact .inr ⟨k, rfl, .inr ⟨k - 1, Nat.sub_le _ _, rfl⟩⟩
      | offline => exact .inl rfl
      | online o => exact .inl rfl
    · exact hl q
  | pulseEnded p hm =>
    refine ⟨fun q => ?_, fun q => ?_, fun q => ?_, linkFields_modPort fun hl => hl⟩ <;> rw [modPort_port] <;> split
    · next e => exact .inr ⟨0, e ▸ hm, .inl rfl⟩
    · exact .inl rfl
    all_goals rfl

/-! ### Calls that were there before -/

/-- A call goes on, or has ended: its fields stand, and no countdown grows. -/
structure CallRuns (c d : Call) : Prop where
  caller : d.caller = c.caller
  callee : d.callee = c.callee
  service : d.service = c.service
  priority : d.priority = c.priority
  tag : d.tag = c.tag
  args : d.args = c.args
  lease : d.lease = c.lease
  postOrder : d.postOrder = c.postOrder
  pending : d.isPending = true → c.isPending = true
  inService : d.isInService = true → c.isInService = true
  countdown : ∀ k ∈ countdownOf d.state, ∃ j ∈ countdownOf c.state, k ≤ j
  words : (resultWords c.state).length ≤ 6 → (resultWords d.state).length ≤ 6

theorem CallRuns.refl (c : Call) : CallRuns c c :=
  ⟨rfl, rfl, rfl, rfl, rfl, rfl, rfl, rfl, id, id, fun k hk => ⟨k, hk, Nat.le_refl k⟩, id⟩

theorem CallRuns.unended (h : CallRuns c d) (hd : Unended d) : Unended c := hd.imp h.pending h.inService

theorem CallRuns.inRange (h : CallRuns c d) (hc : CallInRange c) : CallInRange d := by
  obtain ⟨h1, h2, h3, h4, h5, h6⟩ := hc
  refine ⟨h.service ▸ h1, h.priority ▸ h2, h.args ▸ h3, h.lease ▸ h4, fun k hk => ?_, h.words h6⟩
  obtain ⟨j, hj, hkj⟩ := h.countdown k hk
  exact hkj.trans (h5 j hj)

theorem callRuns_failed (c : Call) (why : Failure) : CallRuns c { c with state := .failed why } :=
  ⟨rfl, rfl, rfl, rfl, rfl, rfl, rfl, rfl, Bool.noConfusion, Bool.noConfusion, fun k hk => (Option.not_mem_none k hk).elim, fun _ => by simp [resultWords]⟩

theorem callRuns_answered (c : Call) (r : Byte) {ws : List Word} (h : ws.length ≤ 6) :
    CallRuns c { c with state := .answered r ws } :=
  ⟨rfl, rfl, rfl, rfl, rfl, rfl, rfl, rfl, Bool.noConfusion, Bool.noConfusion, fun k hk => (Option.not_mem_none k hk).elim, fun _ => h⟩

theorem callRuns_cancelAsked (c : Call) : CallRuns c { c with cancelAsked := true } :=
  ⟨rfl, rfl, rfl, rfl, rfl, rfl, rfl, rfl, id, id, fun k hk => ⟨k, hk, Nat.le_refl k⟩, id⟩

theorem callRuns_tick (c : Call) : CallRuns c c.tick := by
  have hst : ∀ x : Option Nat, ∀ k ∈ countDown x, ∃ j ∈ x, k ≤ j := by
    intro x k hk
    obtain ⟨j, rfl, rfl⟩ := Option.map_eq_some_iff.1 hk
    exact ⟨j, rfl, Nat.sub_le _ _⟩
  cases hs : c.state <;>
    refine ⟨rfl, rfl, rfl, rfl, rfl, rfl, rfl, rfl, ?_, ?_, ?_, ?_⟩ <;>
    simp [Call.tick, Call.isPending, Call.isInService, hs, countdownOf, resultWords]
  all_goals exact hst _

/-- Every call of the second state is one of the first, gone on or ended. -/
def Older (s t : State) : Prop := ∀ n d, t.slot n = some d → ∃ c, s.slot n = some c ∧ CallRuns c d

theorem older_of_slots (h : t.slots = s.slots) : Older s t := fun n d hd =>
  ⟨d, by rwa [State.slot, h] at hd, .refl d⟩

/-- One slot is changed. -/
theorem older_of_set {x : Option Call} (h : t.slots = s.slots.set n x)
    (hx : ∀ d, x = some d → ∃ c, s.slot n = some c ∧ CallRuns c d) : Older s t := by
  intro m d hd
  rw [State.slot, h, Table.get_set] at hd
  split at hd
  · next e => exact e ▸ hx d hd
  · exact ⟨d, hd, .refl d⟩

theorem failCall_older (s : State) (n : SlotNo) (why : Failure) : Older s (s.failCall n why) := by
  by_cases h : ∃ c, s.slot n = some c ∧ Unended c
  · obtain ⟨c, hs, hu⟩ := h
    rw [failCall_eq hs hu]
    exact older_of_set rfl fun d hd => by cases hd; exact ⟨c, hs, callRuns_failed c why⟩
  · rw [failCall_ended fun c hs hu => h ⟨c, hs, hu⟩]
    exact older_of_slots rfl

theorem failCalls_older (why : Failure) (ns : List SlotNo) (s : State) : Older s (s.failCalls why ns) := by
  intro m d hd
  rw [failCalls_slot] at hd
  split at hd
  · obtain ⟨c, hs, rfl⟩ := Option.map_eq_some_iff.1 hd
    refine ⟨c, hs, ?_⟩
    split
    · exact callRuns_failed c why
    · exact .refl c
  · exact ⟨d, hd, .refl d⟩

theorem departure_older (s : State) (p : Port) (m : PortMode) : Older s (s.departure p m) := by
  intro n d hd
  rw [departure_slot] at hd
  split at hd
  · cases hd
  · exact failCalls_older _ _ _ n d hd

/-- An IN_SERVICE call is answered: all that its slot, its lease and its caller see. -/
theorem answerSlot_eq {r : Byte} {ws : List Word} (hs : s.slot n = some c) (hi : c.isInService = true) :
    s.answerSlot n r ws =
      ({ s with
        slots := s.slots.set n (some { c with state := .answered r ws })
        blocks := leaseChanged s c.lease returned } : State).modPort c.caller (told (.answered n c.tag)) := by
  simp only [State.answerSlot, hs, if_pos hi]
  rw [giveBack_eq, modLease_eq s (s.setSlot n (some { c with state := .answered r ws })) c.lease returned rfl]; rfl

theorem answerSlot_not {r : Byte} {ws : List Word} (h : ∀ c, s.slot n = some c → ¬c.isInService = true) :
    s.answerSlot n r ws = s := by
  simp only [State.answerSlot]
  split
  · rfl
  · next c hs => exact if_neg (h c hs)

theorem answerSlot_older (s : State) (n : SlotNo) (r : Byte) {ws : List Word} (hw : ws.length ≤ 6) :
    Older s (s.answerSlot n r ws) := by
  by_cases h : ∃ c, s.slot n = some c ∧ c.isInService = true
  · obtain ⟨c, hs, hi⟩ := h
    rw [answerSlot_eq hs hi]
    exact older_of_set rfl fun d hd => by cases hd; exact ⟨c, hs, callRuns_answered c r hw⟩
  · rw [answerSlot_not fun c hs hi => h ⟨c, hs, hi⟩]
    exact older_of_slots rfl

theorem answerSlot_notices (s : State) (n : SlotNo) (r : Byte) (ws : List Word) (q : Port) :
    ∃ l, (s.answerSlot n r ws).port q = { s.port q with notices := l } := by
  by_cases h : ∃ c, s.slot n = some c ∧ c.isInService = true
  · obtain ⟨c, hs, hi⟩ := h
    rw [answerSlot_eq hs hi]
    exact notices_modPort _ c.caller q (· ++ [_])
  · rw [answerSlot_not fun c hs hi => h ⟨c, hs, hi⟩]
    exact ⟨(s.port q).notices, rfl⟩

theorem cancelPending_slots (s : State) (n : SlotNo) (c : Call) : (s.cancelPending n c).slots = s.slots.set n none := by
  rw [State.cancelPending, modLease_slots, setSlot_slots]

theorem askCancel_slots (s : State) (n : SlotNo) (c : Call) :
    (s.askCancel n c).slots = s.slots.set n (some { c with cancelAsked := true }) := by
  unfold State.askCancel
  simp only []
  split <;> rfl

/-- The effects that begin nothing add no call. -/
theorem Quiet.older (h : Quiet s t) : Older s t := by
  cases h with
  | link h => exact older_of_slots h.slots
  | withdrawn p id => exact failCalls_older _ _ (CallTable.without s id)
  | cancelled n c => exact older_of_set (cancelPending_slots s n c) fun d hd => by cases hd
  | cancelAsked n c hs =>
    exact older_of_set (askCancel_slots s n c) fun d hd => by cases hd; exact ⟨c, hs, callRuns_cancelAsked c⟩
  | collected n c => exact older_of_set (n := n) (x := none) rfl fun d hd => by cases hd
  | expired n => exact failCall_older s n _
  | ticked =>
    intro n d hd
    rw [State.slot, Table.get_map] at hd
    obtain ⟨c, hs, rfl⟩ := Option.map_eq_some_iff.1 hd
    exact ⟨c, hs, callRuns_tick c⟩
  | noticesRead | claimed | released | resetRose | resetPin | scrubbed | pulseEnded => exact older_of_slots rfl

/-! ### Directory and post count -/

theorem failCall_directory (s : State) (n : SlotNo) (why : Failure) : (s.failCall n why).directory = s.directory := by
  rw [failCall_frame]

theorem failCall_posts (s : State) (n : SlotNo) (why : Failure) : (s.failCall n why).posts = s.posts := by
  rw [failCall_frame]

theorem cancelPending_directory (s : State) (n : SlotNo) (c : Call) : (s.cancelPending n c).directory = s.directory := by
  rw [State.cancelPending, modLease_directory]; rfl

theorem askCancel_directory (s : State) (n : SlotNo) (c : Call) : (s.askCancel n c).directory = s.directory := by
  unfold State.askCancel; simp only []; split <;> rfl

theorem withdraw_directory (s : State) (p : Port) (id : Nat) :
    (s.withdraw p id).directory = s.directory.filter fun e => decide (e.id ≠ id) := by
  rw [CallTable.withdraw_frame]

/-- The effects that begin nothing add no directory entry. -/
theorem Quiet.directory (h : Quiet s t) : t.directory.Sublist s.directory := by
  have same : t.directory = s.directory → t.directory.Sublist s.directory := fun e => e ▸ List.Sublist.refl _
  cases h with
  | link h => exact same h.directory
  | withdrawn p id => rw [withdraw_directory]; exact List.filter_sublist
  | cancelled n c => exact same (cancelPending_directory s n c)
  | cancelAsked n c => exact same (askCancel_directory s n c)
  | expired n => exact same (failCall_directory s n _)
  | collected | noticesRead | claimed | released | resetRose | resetPin | scrubbed | pulseEnded | ticked => exact same rfl

/-! ### Effects on stacks -/

/-- An entry as it stands once orphaned. -/
def asOrphan (e : StackEntry) : StackEntry := { e with orphaned := true }

/-- A stack goes on: its entries stand from the bottom on, some of them orphaned, some of them popped. -/
def StackRuns (a b : List StackEntry) : Prop := b.map asOrphan <+: a.map asOrphan

theorem StackRuns.refl (a : List StackEntry) : StackRuns a a := List.prefix_refl _

theorem stackRuns_nil (a : List StackEntry) : StackRuns a [] := List.nil_prefix

theorem stackRuns_dropLast (a : List StackEntry) : StackRuns a a.dropLast := (List.dropLast_prefix a).map _

/-- Some entries are orphaned. -/
theorem stackRuns_map {f : StackEntry → StackEntry} (hf : ∀ e, f e = e ∨ f e = asOrphan e) (a : List StackEntry) :
    StackRuns a (a.map f) := by
  have : (a.map f).map asOrphan = a.map asOrphan := by
    rw [List.map_map]
    refine List.map_congr_left fun e _ => ?_
    rcases hf e with h | h <;> simp only [Function.comp_apply, h]
    rfl
  rw [StackRuns, this]

theorem stackRuns_orphanSlot (n : SlotNo) (a : List StackEntry) : StackRuns a (orphanSlot n a) :=
  stackRuns_map (fun e => by split <;> simp [asOrphan]) a

theorem stackRuns_orphanCaller (p : Port) (a : List StackEntry) : StackRuns a (orphanCaller p a) :=
  stackRuns_map (fun e => by split <;> simp [asOrphan]) a

/-- What holds of every entry whether orphaned or not holds of every entry of a stack that goes on. -/
theorem StackRuns.forall {a b : List StackEntry} (h : StackRuns a b) {P : StackEntry → Prop}
    (hP : ∀ e, P e ↔ P (asOrphan e)) (ha : ∀ e ∈ a, P e) : ∀ e ∈ b, P e := by
  intro e he
  obtain ⟨x, hx, hxe⟩ := List.mem_map.1 (h.subset (List.mem_map_of_mem he))
  rw [hP, ← hxe, ← hP]
  exact ha x hx

theorem StackRuns.length {a b : List StackEntry} (h : StackRuns a b) : b.length ≤ a.length := by
  simpa using h.length_le

theorem StackRuns.pairwise {a b : List StackEntry} (h : StackRuns a b)
    (ha : a.Pairwise fun e f => e.priority < f.priority) : b.Pairwise fun e f => e.priority < f.priority := by
  have ha' : (a.map asOrphan).Pairwise fun e f => e.priority < f.priority := List.pairwise_map.2 ha
  have hb : (b.map asOrphan).Pairwise fun e f => e.priority < f.priority := ha'.sublist h.sublist
  exact (List.pairwise_map (f := asOrphan)).1 hb

theorem StackRuns.inRange {a b : List StackEntry} (h : StackRuns a b) (ha : StackInRange a) : StackInRange b :=
  ⟨h.length.trans ha.1, h.forall (fun _ => Iff.rfl) ha.2⟩

/-- Every port's stack goes on, its state stands but for a pulse, and its link's records stay in range. -/
structure OldService (s t : State) : Prop where
  mode : ∀ q, ModeRuns (s.port q).mode (t.port q).mode
  stack : ∀ q, StackRuns (s.port q).stack (t.port q).stack
  fields : LinkFields s → LinkFields t

theorem OldService.online (h : OldService s t) (q : Port) : t.online q = s.online q := (h.mode q).online

theorem OldService.quota (h : OldService s t) (q : Port) : (t.port q).mode.quota = (s.port q).mode.quota :=
  (h.mode q).quota

theorem SameService.old (h : SameService s t) : OldService s t :=
  ⟨h.mode, fun q => h.stack q ▸ .refl _, h.fields⟩

/-- A change of one port's stack, NEST and notices, over a state whose ports differ in their notices alone. -/
theorem oldService_modPort {f : PortState → PortState} (h : ∀ q, ∃ l, u.port q = { s.port q with notices := l })
    (hf : ∀ ps, ModeRuns ps.mode (f ps).mode ∧ StackRuns ps.stack (f ps).stack ∧ (LinkInRange ps → LinkInRange (f ps))) :
    OldService s (u.modPort p f) := by
  have hu := sameService_of_notices h
  refine ⟨fun q => ?_, fun q => ?_, fun hl => linkFields_modPort (hf _).2.2 (hu.fields hl)⟩ <;>
    obtain ⟨l, e⟩ := h q <;> rw [modPort_port, e] <;> split
  · exact (hf _).1
  · exact .inl rfl
  · exact (hf _).2.1
  · exact .refl _

theorem orphanOverrun_port (s : State) (r : Port) (n : SlotNo) (tag : Word) (q : Port) :
    ∃ l, (s.orphanOverrun r n tag).port q =
      { s.port q with stack := if r = q then orphanSlot n (s.port q).stack else (s.port q).stack, notices := l } := by
  rw [State.orphanOverrun, modPort_port]
  split
  · exact ⟨_, rfl⟩
  · exact ⟨(s.port q).notices, rfl⟩

/-- The ports after an overrun. -/
theorem overrun_port (s : State) (r : Port) (n : SlotNo) (tag : Word) (why : Failure) (q : Port) :
    ∃ l, ((s.orphanOverrun r n tag).failCall n why).port q =
      { s.port q with stack := if r = q then orphanSlot n (s.port q).stack else (s.port q).stack, notices := l } := by
  obtain ⟨l, h⟩ := failCall_port (s.orphanOverrun r n tag) n why q
  obtain ⟨l', h'⟩ := orphanOverrun_port s r n tag q
  exact ⟨_, by rw [h, h']⟩

theorem Running.service (h : Running s t) : OldService s t := by
  have self : ∀ q, ∃ l, s.port q = { s.port q with notices := l } := fun q => ⟨(s.port q).notices, rfl⟩
  cases h with
  | quiet h => exact h.sameService.old
  | answered p e r ws =>
    exact oldService_modPort (answerSlot_notices s e.slot r ws) fun ps => ⟨.inl rfl, stackRuns_dropLast _, id⟩
  | popped p e => exact oldService_modPort self fun ps => ⟨.inl rfl, stackRuns_dropLast _, id⟩
  | nested p nest => exact oldService_modPort self fun ps => ⟨.inl rfl, .refl _, id⟩
  | overran n c =>
    refine ⟨fun q => ?_, fun q => ?_, fun hl q => ?_⟩ <;> obtain ⟨l, e⟩ := overrun_port s c.callee n c.tag .overrun q <;>
      rw [e]
    · exact .inl rfl
    · simp only
      split
      · exact stackRuns_orphanSlot n _
      · exact .refl _
    · exact hl q

theorem Running.older (h : Running s t) : Older s t := by
  cases h with
  | quiet h => exact h.older
  | answered p e r ws _ _ hw => exact answerSlot_older s e.slot r hw
  | popped p e => exact older_of_slots rfl
  | nested p nest => exact older_of_slots rfl
  | overran n c => exact failCall_older (s.orphanOverrun c.callee n c.tag) n _

theorem answerSlot_directory (s : State) (n : SlotNo) (r : Byte) (ws : List Word) :
    (s.answerSlot n r ws).directory = s.directory := by
  unfold State.answerSlot
  split
  · rfl
  · split
    · rw [State.notify, modPort_directory, modLease_directory]; rfl
    · rfl

theorem Running.directory (h : Running s t) : t.directory.Sublist s.directory := by
  have same : t.directory = s.directory → t.directory.Sublist s.directory := fun e => e ▸ List.Sublist.refl _
  cases h with
  | quiet h => exact h.directory
  | answered p e r ws => exact same (answerSlot_directory s e.slot r ws)
  | popped p e => exact same rfl
  | nested p nest => exact same rfl
  | overran n c => exact same (failCall_directory (s.orphanOverrun c.callee n c.tag) n _)

/-! ### The ports after the other effects -/

theorem take_port (s : State) (p : Port) (n : SlotNo) (c : Call) (q : Port) :
    (s.take p n c).port q =
      if p = q then
        { s.port q with stack := (s.port q).stack ++ [takenEntry n c (s.port q).nest], nest := .closed }
      else s.port q := by
  rw [State.take, modPort_port, modLease_port, setSlot_port]

/-- Of a departure: another port keeps its state and the entries of its stack. -/
theorem departure_port_other (s : State) {p : Port} (m : PortMode) (h : q ≠ p) :
    ∃ l, (s.departure p m).port q = { s.port q with stack := orphanCaller p (s.port q).stack, notices := l } :=
  ⟨_, departure_other s m h _ rfl⟩

theorem resetWith_port (s : State) (a b : Bool) (q : Port) :
    (resetWith s a b).port q = PortState.reset (s.port q).sel (s.port q).sck (s.port q).mosi (s.port q).prst := by
  simp only [State.port, resetWith, State.resetPart, Table.get_map]

theorem resetWith_slot (s : State) (a b : Bool) (n : SlotNo) : (resetWith s a b).slot n = none := by
  simp only [State.slot, resetWith, State.resetPart, Table.get_replicate]

theorem resetWith_block (s : State) (a b : Bool) (k : BlockNo) : (resetWith s a b).block k = .scrub := by
  simp only [State.block, resetWith, State.resetPart, Table.get_replicate]

theorem resetWith_directory (s : State) (a b : Bool) : (resetWith s a b).directory = [] := rfl

end Sys2Proof.Steps
end

section
/-! SUPPORT. The laws that need no other law of the part: directory and posting quota, and the ranges of the fields. Each is kept by a change of the links' records and by every effect, hence by every step. -/

namespace Sys2Proof.Steps

open Sys2Proof Sys2Proof.Machine Sys2Proof.Safety Sys2Proof.Statement

variable {s t u : State} {p q : Port} {n : SlotNo} {c d : Call}

/-- What holds of every state that a step leaves: it is kept by the links' changes and by the effects. -/
theorem step_keeps {P : State → Prop} (hp : ∀ {s t}, SamePart s t → P s → P t) (he : ∀ {s t}, Effect s t → P s → P t)
    (h : step s = .next t) (hs : P s) : P t := by
  obtain ⟨u, v, h1, h2, h3, -⟩ := step_does h
  exact hp h3 (he h2 (hp h1.toSamePart hs))

/-! ### Counts over a table -/

theorem count_eq_finRange {α : Type} {k : Nat} (t : Table α k) (f : α → Bool) :
    t.count f = (List.finRange k).countP fun i => f (t.get i) := by
  have hi : t.items = (List.finRange k).map t.get := by
    refine List.ext_getElem (by simp [t.len]) ?_
    intro i h1 h2
    simp [Table.get]
  rw [Table.count, hi, List.countP_map]; rfl

theorem count_mono {α : Type} {k : Nat} {t u : Table α k} {f g : α → Bool}
    (h : ∀ i, f (t.get i) = true → g (u.get i) = true) : t.count f ≤ u.count g := by
  rw [count_eq_finRange, count_eq_finRange]
  exact List.countP_mono_left fun i _ => h i

/-- A count is zero when no record satisfies the test. -/
theorem count_zero {α : Type} {k : Nat} {t : Table α k} {f : α → Bool} (h : ∀ i, f (t.get i) = false) : t.count f = 0 := by
  rw [count_eq_finRange, List.countP_eq_zero]
  intro i _
  simp [h i]

/-- One record more or less. -/
theorem count_set_le {α : Type} {k : Nat} (t : Table α k) (i : Fin k) (a : α) (f : α → Bool) :
    (t.set i a).count f ≤ t.count f + 1 := by
  have h : (t.set i a).items.countP f = _ := List.countP_set (i := i.val) (by rw [t.len]; exact i.isLt)
  have h1 : (if f a = true then 1 else 0) ≤ 1 := by split <;> simp
  rw [Table.count, h, Table.count]
  omega

/-! ### The directory -/

theorem directoryLaw_of (hd : t.directory.Sublist s.directory)
    (ho : ∀ e ∈ t.directory, s.online e.provider = true → t.online e.provider = true) (h : DirectoryLaw s) :
    DirectoryLaw t := by
  obtain ⟨h1, h2, h3⟩ := h
  refine ⟨hd.length_le.trans h1, h2.sublist (hd.map _), fun e he => ?_⟩
  obtain ⟨a, b, c⟩ := h3 e (hd.subset he)
  exact ⟨a, b, ho e he c⟩

theorem directoryLaw_samePart (h : SamePart s t) : DirectoryLaw s → DirectoryLaw t :=
  directoryLaw_of (h.directory ▸ List.Sublist.refl _) fun _ _ ho => (h.online _).trans ho

theorem departure_online_other (s : State) {p : Port} (m : PortMode) (h : q ≠ p) : (s.departure p m).online q = s.online q := by
  obtain ⟨l, e⟩ := departure_port_other s m h
  rw [State.online, e, State.online]

theorem departure_directory (s : State) (p : Port) (m : PortMode) :
    (s.departure p m).directory = s.directory.filter fun e => decide (e.provider ≠ p) := by
  rw [departure_frame]

/-- A service without an entry has no entry in the list. -/
theorem entry_none {id : Nat} (h : s.entry id = none) : id ∉ s.directory.map Service.id := by
  intro hm
  obtain ⟨e, he, rfl⟩ := List.mem_map.1 hm
  have := List.find?_eq_none.1 h e he
  simp at this

theorem effect_directoryLaw (h : Effect s t) (hs : DirectoryLaw s) : DirectoryLaw t := by
  cases h with
  | running h => exact directoryLaw_of h.directory (fun e _ ho => (h.service.online _).trans ho) hs
  | attached p o =>
    refine directoryLaw_of (s := s) (List.Sublist.refl _) (fun e _ ho => ?_) hs
    rw [State.online, modPort_port]
    split
    · rfl
    · exact ho
  | registered e hon hnew hroom hr =>
    obtain ⟨h1, h2, h3⟩ := hs
    refine ⟨by simp only [List.length_append, List.length_singleton]; omega, ?_, fun x hx => ?_⟩
    · rw [List.map_append, List.nodup_append]
      refine ⟨h2, by simp, fun a ha b hb => ?_⟩
      rw [List.map_singleton, List.mem_singleton] at hb
      subst hb
      rintro rfl
      exact entry_none hnew ha
    · rcases List.mem_append.1 hx with hx | hx
      · exact h3 x hx
      · rw [List.mem_singleton] at hx
        subst hx
        exact ⟨hr.1, hr.2.1, hon⟩
  | posted n p c =>
    refine directoryLaw_of (by rw [State.post, modLease_directory]; exact List.Sublist.refl _) (fun e _ ho => ?_) hs
    rw [State.online, post_port]; exact ho
  | taken p n c =>
    refine directoryLaw_of (by rw [State.take, modPort_directory, modLease_directory]; exact List.Sublist.refl _)
      (fun e _ ho => ?_) hs
    rw [State.online, take_port]
    split <;> exact ho
  | departed p m _ _ _ _ _ h =>
    refine directoryLaw_samePart h.toSamePart (directoryLaw_of ?_ (fun e he ho => ?_) hs)
    · rw [departure_directory]; exact List.filter_sublist
    · rw [departure_directory, List.mem_filter, decide_eq_true_eq] at he
      rw [departure_online_other s m he.2, ho]
  | reset a b _ h =>
    refine directoryLaw_samePart h.toSamePart ⟨by simp [resetWith_directory], by simp [resetWith_directory], fun e he => ?_⟩
    cases he

/-! ### The posting quota -/

theorem any_slot (s : State) (n : SlotNo) (f : Call → Bool) :
    (s.slots.get n).any f = true ↔ ∃ c, s.slot n = some c ∧ f c = true := by
  rw [Option.any_eq_true]; rfl

/-- Every call of the second state is one of the first, with its caller. -/
def CallersFrom (s t : State) : Prop := ∀ n d, t.slot n = some d → ∃ c, s.slot n = some c ∧ d.caller = c.caller

theorem Older.callersFrom (h : Older s t) : CallersFrom s t := fun n d hd =>
  (h n d hd).imp fun _ ⟨hs, hc⟩ => ⟨hs, hc.caller⟩

theorem allocatedCount_mono (h : CallersFrom s t) (p : Port) : t.allocatedCount p ≤ s.allocatedCount p := by
  refine count_mono fun n hn => ?_
  obtain ⟨d, hd, hp⟩ := (any_slot t n _).1 hn
  obtain ⟨c, hc, e⟩ := h n d hd
  exact (any_slot s n _).2 ⟨c, hc, e ▸ hp⟩

theorem allocatedCount_zero (h : ∀ n c, s.slot n = some c → c.caller ≠ p) : s.allocatedCount p = 0 := by
  refine count_zero fun n => Bool.eq_false_iff.2 fun hn => ?_
  obtain ⟨c, hc, hp⟩ := (any_slot s n _).1 hn
  exact h n c hc (by simpa using hp)

theorem quotaLaw_of (hc : CallersFrom s t) (hq : ∀ p, (s.port p).mode.quota ≤ (t.port p).mode.quota) (h : QuotaLaw s) :
    QuotaLaw t := fun p => ((allocatedCount_mono hc p).trans (h p)).trans (hq p)

theorem quotaLaw_samePart (h : SamePart s t) : QuotaLaw s → QuotaLaw t :=
  quotaLaw_of (older_of_slots h.slots).callersFrom fun p => (congrArg _ (h.mode p)).ge

theorem quota_of_not_online {m : PortMode} (h : m.isOnline = false) : m.quota = 0 := by
  cases m with
  | online o => cases h
  | offline => rfl
  | held k => rfl

/-- R7: a port that is not ONLINE has posted no call. -/
theorem not_posted_of_not_online (h : QuotaLaw s) (hp : s.online p = false) (hs : s.slot n = some c) : c.caller ≠ p := by
  intro e
  have h0 : s.allocatedCount p ≤ 0 := (quota_of_not_online hp) ▸ h p
  have hpos : 0 < s.allocatedCount p := by
    rw [State.allocatedCount, count_eq_finRange, List.countP_pos_iff]
    exact ⟨n, List.mem_finRange n, (any_slot s n _).2 ⟨c, hs, by simp [e]⟩⟩
  omega

/-- A departure frees what its port posted. -/
theorem departure_caller {m : PortMode} (h : (s.departure p m).slot n = some d) : d.caller ≠ p := by
  rw [departure_slot] at h
  split at h
  · cases h
  · next hn =>
    rw [h] at hn
    simpa using hn

theorem post_slots (s : State) (n : SlotNo) (c : Call) : (s.post n c).slots = s.slots.set n (some c) := by
  rw [State.post, modLease_slots]; rfl

theorem take_slots (s : State) (p : Port) (n : SlotNo) (c : Call) :
    (s.take p n c).slots = s.slots.set n (some { c with state := .inService (s.limitOf c.service) }) := by
  rw [State.take, modPort_slots, modLease_slots, setSlot_slots]

theorem take_callersFrom (p : Port) (hs : s.slot n = some c) : CallersFrom s (s.take p n c) := by
  intro m d hd
  rw [State.slot, take_slots, Table.get_set] at hd
  split at hd
  · next e => subst e; cases hd; exact ⟨c, hs, rfl⟩
  · exact ⟨d, hd, rfl⟩

/-- A post adds one call of its caller. -/
theorem allocatedCount_post (s : State) (n : SlotNo) (c : Call) (q : Port) :
    (s.post n c).allocatedCount q ≤ s.allocatedCount q + if c.caller = q then 1 else 0 := by
  rw [State.allocatedCount, post_slots]
  split
  · exact count_set_le _ _ _ _
  · next hq =>
    refine count_mono fun m hm => ?_
    rw [Table.get_set] at hm
    split at hm
    · exact absurd (by simpa using hm) hq
    · exact hm

theorem effect_quotaLaw (h : Effect s t) (hs : QuotaLaw s) : QuotaLaw t := by
  cases h with
  | running h => exact quotaLaw_of h.older.callersFrom (fun p => (h.service.quota p).ge) hs
  | attached p o hoff =>
    refine quotaLaw_of (s := s) (older_of_slots rfl).callersFrom (fun q => ?_) hs
    rw [modPort_port]
    split
    · next e => rw [quota_of_not_online (e ▸ hoff)]; exact Nat.zero_le _
    · exact Nat.le_refl _
  | registered e => exact hs
  | posted n p c e _ _ _ hc _ _ _ _ _ hquota =>
    intro q
    have h1 := allocatedCount_post s n c q
    have h2 := hs q
    rw [post_port]
    refine h1.trans ?_
    split
    · next hq => rw [← hq, hc]; exact hquota
    · exact h2
  | taken p n c _ hslot =>
    refine quotaLaw_of (take_callersFrom p hslot) (fun q => ?_) hs
    rw [take_port]
    split <;> exact Nat.le_refl _
  | departed p m _ _ _ _ _ h =>
    refine quotaLaw_samePart h.toSamePart fun q => ?_
    by_cases hq : q = p
    · subst hq
      have h0 : (s.departure q m).allocatedCount q = 0 := allocatedCount_zero fun n c => departure_caller
      exact h0.le.trans (Nat.zero_le _)
    · obtain ⟨l, e⟩ := departure_port_other s m hq
      rw [e]
      exact (allocatedCount_mono (departure_older s p m).callersFrom q).trans (hs q)
  | reset a b _ h =>
    refine quotaLaw_samePart h.toSamePart fun q => ?_
    have h0 : (resetWith s a b).allocatedCount q = 0 :=
      allocatedCount_zero fun n c hc => absurd ((resetWith_slot s a b n).symm.trans hc) (by simp)
    exact h0.le.trans (Nat.zero_le _)

/-! ### The ranges of the fields -/

theorem coreFields_samePart (h : SamePart s t) (hs : CoreFields s) : CoreFields t :=
  ⟨fun n c hc => hs.call n c ((h.slot n).symm.trans hc), fun e he => hs.entry e (h.directory ▸ he),
    fun p => h.mode p ▸ hs.mode p, fun p => h.stack p ▸ hs.stack p⟩

theorem call_inRange_of_older (h : Older s t) (hs : CoreFields s) : ∀ n c, t.slot n = some c → CallInRange c := by
  intro n d hd
  obtain ⟨c, hc, hr⟩ := h n d hd
  exact hr.inRange (hs.call n c hc)

theorem modeInRange_notOnline {m : PortMode} (h : m.isOnline = false) (hp : pulseOf m ≤ 200) : ModeInRange p m := by
  cases m with
  | online o => cases h
  | offline | held k =>
    exact ⟨Bool.noConfusion, by simp [PortMode.quota], by simp [PortMode.consent], by simp [PortMode.consent], hp⟩

/-- The service limit that a take copies is a tick count of the directory. -/
theorem limitOf_inRange {id k : Nat} (hs : CoreFields s) (h : s.limitOf id = some k) : k ≤ 65535 := by
  obtain ⟨e, he, hl⟩ := Option.bind_eq_some_iff.1 h
  obtain ⟨-, -, hr⟩ := hs.entry e (List.mem_of_find?_eq_some he)
  exact (hr k hl).2

theorem callInRange_taken {limit : Option Nat} (h : CallInRange c) (hl : ∀ k ∈ limit, k ≤ 65535) :
    CallInRange { c with state := .inService limit } := by
  obtain ⟨h1, h2, h3, h4, -, -⟩ := h
  exact ⟨h1, h2, h3, h4, hl, by simp [resultWords]⟩

theorem take_directory (s : State) (p : Port) (n : SlotNo) (c : Call) : (s.take p n c).directory = s.directory := by
  rw [State.take, modPort_directory, modLease_directory]; rfl

theorem post_directory (s : State) (n : SlotNo) (c : Call) : (s.post n c).directory = s.directory := by
  rw [State.post, modLease_directory]; rfl

theorem coreFields_take (p : Port) (hslot : s.slot n = some c) (hroom : (s.port p).stack.length < 4) (hs : CoreFields s) :
    CoreFields (s.take p n c) := by
  have hc := hs.call n c hslot
  refine ⟨fun m d hd => ?_, fun e he => hs.entry e (take_directory s p n c ▸ he), fun q => ?_, fun q => ?_⟩
  · rw [State.slot, take_slots, Table.get_set] at hd
    split at hd
    · cases hd; exact callInRange_taken hc fun k => limitOf_inRange hs
    · exact hs.call m d hd
  · rw [take_port]; split <;> exact hs.mode q
  · rw [take_port]
    split
    · next e =>
      subst e
      refine ⟨by simp only [List.length_append, List.length_singleton]; omega, fun e he => ?_⟩
      rcases List.mem_append.1 he with he | he
      · exact (hs.stack p).2 e he
      · rw [List.mem_singleton] at he
        subst he
        exact ⟨hc.1, hc.2.1⟩
    · exact hs.stack q

theorem effect_coreFields (h : Effect s t) (hs : CoreFields s) : CoreFields t := by
  cases h with
  | running h =>
    exact ⟨call_inRange_of_older h.older hs, fun e he => hs.entry e (h.directory.subset he),
      fun p => (h.service.mode p).inRange (hs.mode p), fun p => (h.service.stack p).inRange (hs.stack p)⟩
  | attached p o _ hm =>
    refine ⟨hs.call, hs.entry, fun q => ?_, fun q => ?_⟩ <;> rw [modPort_port] <;> split
    · next e => exact e ▸ hm
    · exact hs.mode q
    · exact hs.stack q
    · exact hs.stack q
  | registered e _ _ _ hr =>
    refine ⟨hs.call, fun x hx => ?_, hs.mode, hs.stack⟩
    rcases List.mem_append.1 hx with hx | hx
    · exact hs.entry x hx
    · rw [List.mem_singleton] at hx
      exact hx ▸ hr
  | posted n p c _ _ _ _ _ _ _ _ _ hr =>
    refine ⟨fun m d hd => ?_, fun e he => hs.entry e (post_directory s n c ▸ he), fun q => ?_, fun q => ?_⟩
    · rw [State.slot, post_slots, Table.get_set] at hd
      split at hd
      · cases hd; exact hr
      · exact hs.call m d hd
    · rw [post_port]; exact hs.mode q
    · rw [post_port]; exact hs.stack q
  | taken p n c _ hslot _ _ hroom => exact coreFields_take p hslot hroom hs
  | departed p m _ hm hp _ _ h =>
    refine coreFields_samePart h.toSamePart ⟨call_inRange_of_older (departure_older s p m) hs, fun e he => ?_, fun q => ?_,
      fun q => ?_⟩
    · rw [departure_directory] at he
      exact hs.entry e (List.mem_filter.1 he).1
    all_goals by_cases hq : q = p
    · subst hq; rw [departure_port]; exact modeInRange_notOnline hm hp
    · obtain ⟨l, e⟩ := departure_port_other s m hq
      rw [e]; exact hs.mode q
    · subst hq; rw [departure_port]; exact (stackRuns_nil _).inRange (hs.stack q)
    · obtain ⟨l, e⟩ := departure_port_other s m hq
      rw [e]; exact (stackRuns_orphanCaller p _).inRange (hs.stack q)
  | reset a b _ h =>
    refine coreFields_samePart h.toSamePart ⟨fun n c hc => ?_, fun e he => ?_, fun q => ?_, fun q => ?_⟩
    · exact absurd ((resetWith_slot s a b n).symm.trans hc) (by simp)
    · cases he
    · rw [resetWith_port]
      exact modeInRange_notOnline rfl (by simp [PortState.reset, pulseOf])
    · rw [resetWith_port]
      exact ⟨by simp [PortState.reset], fun e he => by cases he⟩

/-- A port without a record and with nothing staged. -/
theorem linkInRange_empty {ps : PortState} (h1 : ps.record = none) (h2 : ps.staging = []) : LinkInRange ps := by
  rw [LinkInRange, h1, h2]; simp

theorem effect_linkFields (h : Effect s t) (hs : LinkFields s) : LinkFields t := by
  cases h with
  | running h => exact h.service.fields hs
  | attached p o => exact linkFields_modPort (fun hl => hl) hs
  | registered e => exact hs
  | posted n p c => intro q; rw [post_port]; exact hs q
  | taken p n c =>
    intro q
    rw [take_port]
    split <;> exact hs q
  | departed p m _ _ _ _ _ h =>
    refine h.fields fun q => ?_
    by_cases hq : q = p
    · subst hq; rw [departure_port]; exact linkInRange_empty rfl rfl
    · obtain ⟨l, e⟩ := departure_port_other s m hq
      rw [e]; exact hs q
  | reset a b _ h =>
    refine h.fields fun q => ?_
    rw [resetWith_port]
    exact linkInRange_empty rfl rfl

theorem step_fieldLaw (h : step s = .next t) (hs : FieldLaw s) : FieldLaw t := by
  obtain ⟨u, v, h1, h2, h3, h4⟩ := step_does h
  obtain ⟨hc, hl⟩ := (fieldLaw_iff s).1 hs
  have hcu := coreFields_samePart h1.toSamePart hc
  exact (fieldLaw_iff t).2 ⟨coreFields_samePart h3 (effect_coreFields h2 hcu), h4 hcu (effect_linkFields h2 (h1.fields hl))⟩

/-- Settles O57: the directory's law and the quota law by what each effect leaves of directory, states and callers, and the
ranges by what each effect writes. -/
theorem everyStepKeepsDirectoryQuotaAndFieldLaws : Obligations.EveryStepKeepsDirectoryQuotaAndFieldLaws := fun _ _ h =>
  ⟨fun hd hq => ⟨step_keeps directoryLaw_samePart effect_directoryLaw h hd, step_keeps quotaLaw_samePart effect_quotaLaw h hq⟩,
    step_fieldLaw h⟩

end Sys2Proof.Steps
end

section
/-! SUPPORT. The laws of the service stack and of the scrub queue: each is kept by every effect alone. -/

namespace Sys2Proof.Steps

open Sys2Proof Sys2Proof.Machine Sys2Proof.Safety Sys2Proof.Statement

variable {s t u : State} {p q : Port} {n : SlotNo} {c d : Call} {b : BlockNo}

/-! ### The service stack -/

/-- The law of one port's stack and NEST (R47, R60). -/
structure LawfulStack (stack : List StackEntry) (nest : Nest) : Prop where
  length : stack.length ≤ 4
  rising : stack.Pairwise fun e f => e.priority < f.priority
  saved : ∀ e ∈ stack, e.saved = .opened
  nest : stack = [] → nest = .opened

theorem stackLaw_iff (s : State) : StackLaw s ↔ ∀ q, LawfulStack (s.port q).stack (s.port q).nest :=
  forall_congr' fun _ => ⟨fun ⟨h1, h2, h3, h4⟩ => ⟨h1, h2, h3, h4⟩, fun ⟨h1, h2, h3, h4⟩ => ⟨h1, h2, h3, h4⟩⟩

theorem lawfulStack_nil : LawfulStack [] .opened := ⟨by simp, .nil, by simp, fun _ => rfl⟩

theorem StackRuns.lawful {a b : List StackEntry} {x y : Nest} (h : StackRuns a b) (ha : LawfulStack a x)
    (hn : b = [] → y = .opened) : LawfulStack b y :=
  ⟨h.length.trans ha.length, h.pairwise ha.rising, h.forall (fun _ => Iff.rfl) ha.saved, hn⟩

/-- A push over a lawful stack that the new entry outranks. -/
theorem LawfulStack.push {stack : List StackEntry} {nest : Nest} (h : LawfulStack stack nest) {e : StackEntry}
    (hroom : stack.length < 4) (hsaved : e.saved = .opened)
    (htop : ∀ f, stack.getLast? = some f → f.priority < e.priority) : LawfulStack (stack ++ [e]) .closed := by
  refine ⟨by simp only [List.length_append, List.length_singleton]; omega, ?_, fun f hf => ?_, fun hn => by simp at hn⟩
  · refine List.pairwise_append.2 ⟨h.rising, List.pairwise_singleton _ _, fun f hf g hg => ?_⟩
    rw [List.mem_singleton] at hg
    subst hg
    rcases List.eq_nil_or_concat stack with rfl | ⟨below, top, rfl⟩
    · cases hf
    · rw [List.concat_eq_append] at hf htop
      have ht := htop top (by simp)
      have hr := h.rising
      rw [List.concat_eq_append, List.pairwise_append] at hr
      rcases List.mem_append.1 hf with hf | hf
      · exact (hr.2.2 f hf top List.mem_cons_self).trans ht
      · rw [List.mem_singleton] at hf
        exact hf ▸ ht
  · rcases List.mem_append.1 hf with hf | hf
    · exact h.saved f hf
    · rw [List.mem_singleton] at hf
      exact hf ▸ hsaved

theorem stackLaw_samePart (h : SamePart s t) (hs : StackLaw s) : StackLaw t := by
  rw [stackLaw_iff] at hs ⊢
  exact fun q => h.stack q ▸ h.nest q ▸ hs q

theorem orphanSlot_eq_nil {a : List StackEntry} (h : orphanSlot n a = []) : a = [] := by simpa [orphanSlot] using h

theorem orphanCaller_eq_nil {a : List StackEntry} (h : orphanCaller p a = []) : a = [] := by simpa [orphanCaller] using h

/-- The ports after a pop: one stack without its top entry, with the NEST that this entry saved. -/
theorem pop_port (u : State) (p : Port) (e : StackEntry) (q : Port) :
    ∃ l, (u.pop p e).port q =
      if p = q then { u.port q with stack := (u.port q).stack.dropLast, nest := e.saved, notices := l } else u.port q := by
  rw [State.pop, modPort_port]
  split
  · exact ⟨_, rfl⟩
  · exact ⟨[], rfl⟩

/-- The NEST of a stack that is empty after an effect on the stacks. -/
theorem Running.nest (h : Running s t) (hs : StackLaw s) (q : Port) : (t.port q).stack = [] → (t.port q).nest = .opened := by
  rw [stackLaw_iff] at hs
  have hq := (hs q).nest
  cases h with
  | quiet h => rw [h.sameService.stack, h.sameService.nest]; exact hq
  | answered p e r ws ht =>
    obtain ⟨l, hl⟩ := pop_port (s.answerSlot e.slot r ws) p e q
    obtain ⟨l', hl'⟩ := answerSlot_notices s e.slot r ws q
    rw [hl, hl']
    split
    · next hpq => exact fun _ => (hs p).saved e (List.mem_of_getLast? ht)
    · exact hq
  | popped p e ht =>
    obtain ⟨l, hl⟩ := pop_port s p e q
    rw [hl]
    split
    · next hpq => exact fun _ => (hs p).saved e (List.mem_of_getLast? ht)
    · exact hq
  | nested p nest hne =>
    rw [modPort_port]
    split
    · next hpq => exact fun h => absurd h (hpq ▸ hne)
    · exact hq
  | overran n c =>
    obtain ⟨l, hl⟩ := overrun_port s c.callee n c.tag .overrun q
    rw [hl]
    simp only
    split
    · exact fun h => hq (orphanSlot_eq_nil h)
    · exact hq

theorem effect_stackLaw (h : Effect s t) (hs : StackLaw s) : StackLaw t := by
  have hs' := (stackLaw_iff s).1 hs
  cases h with
  | running h => exact (stackLaw_iff t).2 fun q => (h.service.stack q).lawful (hs' q) (h.nest hs q)
  | attached p o =>
    refine (stackLaw_iff _).2 fun q => ?_
    rw [modPort_port]
    split <;> exact hs' q
  | registered e => exact hs
  | posted n p c => exact (stackLaw_iff _).2 fun q => by rw [post_port]; exact hs' q
  | taken p n c _ _ _ _ hroom hnest ho =>
    refine (stackLaw_iff _).2 fun q => ?_
    rw [take_port]
    split
    · next e =>
      subst e
      refine (hs' p).push hroom (hnest.elim (hs' p).nest id) fun f hf => ?_
      simp only [PortState.outranks, hf, decide_eq_true_eq] at ho
      exact ho
    · exact hs' q
  | departed p m _ _ _ _ _ h =>
    refine stackLaw_samePart h.toSamePart ((stackLaw_iff _).2 fun q => ?_)
    by_cases hq : q = p
    · subst hq; rw [departure_port]; exact lawfulStack_nil
    · obtain ⟨l, e⟩ := departure_port_other s m hq
      rw [e]
      exact (stackRuns_orphanCaller p _).lawful (hs' q) fun h => (hs' q).nest (orphanCaller_eq_nil h)
  | reset a b _ h =>
    refine stackLaw_samePart h.toSamePart ((stackLaw_iff _).2 fun q => ?_)
    rw [resetWith_port]
    exact lawfulStack_nil

/-! ### The scrub queue -/

/-- The scrub engine and the blocks in SCRUB stand. -/
structure SameScrub (s t : State) : Prop where
  block : ∀ b, t.block b = .scrub ↔ s.block b = .scrub
  scrubQueue : t.scrubQueue = s.scrubQueue
  scrubBusy : t.scrubBusy = s.scrubBusy
  resetHigh : t.resetHigh = s.resetHigh
  powered : t.powered = s.powered

theorem SameScrub.law (h : SameScrub s t) (hs : ScrubLaw s) : ScrubLaw t := by
  obtain ⟨h1, h2, h3⟩ := hs
  rw [ScrubLaw, h.scrubQueue, h.scrubBusy, h.resetHigh, h.powered]
  exact ⟨h1, fun b => (h2 b).trans (h.block b).symm, h3⟩

theorem SameScrub.of_samePart (h : SamePart s t) : SameScrub s t :=
  ⟨fun b => by rw [h.block], h.scrubQueue, h.scrubBusy, h.resetHigh, h.powered⟩

theorem scrubLaw_samePart (h : SamePart s t) : ScrubLaw s → ScrubLaw t := (SameScrub.of_samePart h).law

/-- The same block table and engine. -/
theorem sameScrub_of_eq (hb : t.blocks = s.blocks := by rfl) (hq : t.scrubQueue = s.scrubQueue := by rfl)
    (hu : t.scrubBusy = s.scrubBusy := by rfl) (hr : t.resetHigh = s.resetHigh := by rfl)
    (hw : t.powered = s.powered := by rfl) : SameScrub s t :=
  ⟨fun b => by rw [State.block, hb, State.block], hq, hu, hr, hw⟩

theorem returned_scrub (k : Block) : returned k = .scrub ↔ k = .scrub := by cases k <;> simp [returned]

/-- Blocks that go back to their owners are in SCRUB neither before nor after. -/
theorem sameScrub_of_returned (hb : ∀ b, t.block b = s.block b ∨ t.block b = returned (s.block b))
    (hq : t.scrubQueue = s.scrubQueue := by rfl) (hu : t.scrubBusy = s.scrubBusy := by rfl)
    (hr : t.resetHigh = s.resetHigh := by rfl) (hw : t.powered = s.powered := by rfl) : SameScrub s t :=
  ⟨fun b => by rcases hb b with e | e <;> rw [e]; exact returned_scrub _, hq, hu, hr, hw⟩

theorem failCall_sameScrub (s : State) (n : SlotNo) (why : Failure) : SameScrub s (s.failCall n why) := by
  refine sameScrub_of_returned (failCall_block s n why) ?_ ?_ ?_ ?_ <;> rw [failCall_frame]

theorem withdraw_sameScrub (s : State) (p : Port) (id : Nat) : SameScrub s (s.withdraw p id) := by
  refine sameScrub_of_returned (fun b => failCalls_block _ b _ (CallTable.without s id)) ?_ ?_ ?_ ?_ <;>
    rw [CallTable.withdraw_frame]

/-- A lease's blocks go back to their owner: any block stands or goes back. -/
theorem block_of_leaseChanged {l : Option Lease} (h : t.blocks = leaseChanged s l returned) (b : BlockNo) :
    t.block b = s.block b ∨ t.block b = returned (s.block b) := by
  rw [State.block, h, leaseChanged_get]
  split
  · exact .inr rfl
  · exact .inl rfl

theorem cancelPending_block (s : State) (n : SlotNo) (c : Call) (b : BlockNo) :
    (s.cancelPending n c).block b = s.block b ∨ (s.cancelPending n c).block b = returned (s.block b) :=
  block_of_leaseChanged (by rw [CallTable.cancelPending_eq]) b

theorem answerSlot_block (s : State) (n : SlotNo) (r : Byte) (ws : List Word) (b : BlockNo) :
    (s.answerSlot n r ws).block b = s.block b ∨ (s.answerSlot n r ws).block b = returned (s.block b) := by
  by_cases h : ∃ c, s.slot n = some c ∧ c.isInService = true
  · obtain ⟨c, hs, hi⟩ := h
    rw [answerSlot_eq hs hi]
    exact block_of_leaseChanged (t := State.modPort _ _ _) rfl b
  · rw [answerSlot_not fun c hs hi => h ⟨c, hs, hi⟩]
    exact .inl rfl

theorem cancelPending_sameScrub (s : State) (n : SlotNo) (c : Call) : SameScrub s (s.cancelPending n c) := by
  refine sameScrub_of_returned (cancelPending_block s n c) ?_ ?_ ?_ ?_ <;> rw [CallTable.cancelPending_eq]

theorem askCancel_sameScrub (s : State) (n : SlotNo) (c : Call) : SameScrub s (s.askCancel n c) := by
  unfold State.askCancel
  simp only []
  split <;> exact sameScrub_of_eq

theorem answerSlot_sameScrub (s : State) (n : SlotNo) (r : Byte) (ws : List Word) : SameScrub s (s.answerSlot n r ws) := by
  have hb := answerSlot_block s n r ws
  by_cases h : ∃ c, s.slot n = some c ∧ c.isInService = true
  · obtain ⟨c, hs, hi⟩ := h
    rw [answerSlot_eq hs hi] at hb ⊢
    exact sameScrub_of_returned hb
  · rw [answerSlot_not fun c hs hi => h ⟨c, hs, hi⟩]
    exact sameScrub_of_eq

/-- A lease's change that maps no block to SCRUB and none from it. -/
theorem modLease_scrub {l : Option Lease} {f : Block → Block} (hf : ∀ k, f k = .scrub ↔ k = .scrub) (b : BlockNo) :
    (s.modLease l f).block b = .scrub ↔ s.block b = .scrub := by
  rw [modLease_block]
  split
  · exact hf _
  · exact Iff.rfl

theorem post_sameScrub (s : State) (n : SlotNo) (c : Call) : SameScrub s (s.post n c) := by
  cases hl : c.lease with
  | none => simp only [State.post, hl]; exact sameScrub_of_eq
  | some l =>
    refine ⟨fun b => ?_, ?_, ?_, ?_, ?_⟩
    · simp only [State.post, hl]
      exact modLease_scrub (s := State.setSlot { s with posts := s.posts + 1 } n (some c))
        (fun k => by cases k <;> simp [Block.pledge]) b
    all_goals rw [State.post]; simp

theorem take_sameScrub (s : State) (p : Port) (n : SlotNo) (c : Call) : SameScrub s (s.take p n c) := by
  refine ⟨fun b => modLease_scrub (s := s.setSlot n _) (fun k => ?_) b, ?_, ?_, ?_, ?_⟩
  · cases k <;> simp [Block.lend]
  all_goals rw [State.take]; simp

/-- Blocks given up join the queue's tail (R138, R141). -/
theorem scrubLaw_append {bs : List BlockNo} (hs : ScrubLaw s) (hw : s.powered = true) (hr : s.resetHigh = true)
    (hn : bs.Nodup) (hns : ∀ b ∈ bs, s.block b ≠ .scrub) (hb : ∀ b, t.block b = .scrub ↔ s.block b = .scrub ∨ b ∈ bs)
    (hq : t.scrubQueue = s.scrubQueue ++ bs) (hu : t.scrubBusy = (s.scrubBusy || (s.resetHigh && !t.scrubQueue.isEmpty)))
    (htr : t.resetHigh = s.resetHigh) (htw : t.powered = s.powered) : ScrubLaw t := by
  obtain ⟨h1, h2, h3⟩ := hs
  refine ⟨?_, fun b => ?_, ?_⟩
  · rw [hq, List.nodup_append]
    exact ⟨h1, hn, fun a ha b hb e => hns b hb ((h2 b).1 (e ▸ ha))⟩
  · rw [hq, List.mem_append, h2, hb]
  · rw [hu, h3, hq, htr, htw, hw, hr]
    cases s.scrubQueue <;> simp

theorem release_scrubLaw {first count : Nat} (hs : ScrubLaw s) (hw : s.powered = true) (hr : s.resetHigh = true)
    (ho : AllOwned s p first count) : ScrubLaw (s.release first count) := by
  refine scrubLaw_append (bs := spanBlocks first count) hs hw hr
    ((spanBlocks_ascending _ _).imp fun h => Fin.ne_of_lt h) (fun b hb => ?_) (fun b => ?_) rfl rfl rfl rfl
  · rw [mem_spanBlocks] at hb
    rw [ho b hb.1 hb.2]; simp
  · rw [mem_spanBlocks]
    simp only [State.block, State.release, appendScrub_blocks, Table.get_map]
    split
    · next h => simp [h]
    · next h => simp [h]

theorem departure_scrubLaw (m : PortMode) (hs : ScrubLaw s) (hw : s.powered = true) (hr : s.resetHigh = true) :
    ScrubLaw (s.departure p m) := by
  have mem : ∀ b, b ∈ (s.blocks.indices fun k => k.owner == some p) ↔ (s.block b).owner = some p := fun b => by
    rw [Table.mem_indices, beq_iff_eq]; rfl
  refine scrubLaw_append (bs := s.blocks.indices fun k => k.owner == some p) hs hw hr (Table.indices_nodup _ _)
    (fun b hb => ?_) (fun b => ?_) ?_ ?_ ?_ ?_
  · intro hscrub
    have := (mem b).1 hb
    rw [hscrub] at this
    cases this
  · rw [mem, departure_block]
    by_cases ho : (s.block b).owner = some p
    · rw [CallTable.afterDeparture_of_owner ((failed_owner s p b).trans ho)]; simp [ho]
    · rw [Block.afterDeparture, if_neg fun h => ho ((failed_owner s p b).symm.trans h)]
      have hf : (failed s p).block b = .scrub ↔ s.block b = .scrub := by
        rcases failCalls_block .peerGone b (s.servedSlots p) s with e | e <;> rw [failed, e]
        exact returned_scrub _
      have hret : ((failed s p).block b).giveBack = .scrub ↔ (failed s p).block b = .scrub := by
        rw [giveBack_eq]; exact returned_scrub _
      split
      · simp only [hret, hf, ho, or_false]
      · simp only [hf, ho, or_false]
  all_goals rw [departure_frame]

theorem initialScrubQueue_nodup : initialScrubQueue.Nodup := Table.indices_nodup _ _

theorem mem_initialScrubQueue (b : BlockNo) : b ∈ initialScrubQueue := (Table.mem_indices _ _ _).2 rfl

theorem Quiet.scrubLaw (h : Quiet s t) (hs : ScrubLaw s) : ScrubLaw t := by
  cases h with
  | link h => exact scrubLaw_samePart h.toSamePart hs
  | withdrawn p id => exact (withdraw_sameScrub s p id).law hs
  | cancelled n c => exact (cancelPending_sameScrub s n c).law hs
  | cancelAsked n c => exact (askCancel_sameScrub s n c).law hs
  | expired n => exact (failCall_sameScrub s n _).law hs
  | collected n c => exact (sameScrub_of_eq).law hs
  | noticesRead p k => exact (sameScrub_of_eq).law hs
  | ticked => exact (sameScrub_of_eq).law hs
  | pulseEnded p => exact (sameScrub_of_eq).law hs
  | claimed p first count _ hf =>
    have same : SameScrub s (s.claim p first count) := ⟨fun b => ?_, rfl, rfl, rfl, rfl⟩
    · exact same.law hs
    simp only [State.block, State.claim, Table.get_map]
    split
    · next h =>
      have : s.blocks.get b = .free := hf.2 b h.1 h.2
      simp [this]
    · exact Iff.rfl
  | released p first count hw hr ho => exact release_scrubLaw hs hw hr ho
  | resetRose hw hr =>
    obtain ⟨h1, h2, h3⟩ := hs
    refine ⟨h1, h2, ?_⟩
    rw [hr] at h3
    simp only [State.startScrub, h3, hw]
    simp
  | resetPin level hw =>
    obtain ⟨h1, h2, h3⟩ := hs
    exact ⟨h1, h2, by rw [hw] at h3; simp only [h3, hw]; simp⟩
  | scrubbed b rest hq hb =>
    obtain ⟨h1, h2, h3⟩ := hs
    rw [hq] at h1 h2 h3
    obtain ⟨hn, hd⟩ := List.nodup_cons.1 h1
    have hlive : s.powered = true ∧ s.resetHigh = true := by rw [hb] at h3; simpa using h3.symm
    refine ⟨hd, fun k => ?_, by simp [hlive.1, hlive.2]⟩
    have hk := h2 k
    simp only [State.block, Table.get_set] at hk ⊢
    by_cases e : b = k
    · subst e; simp [hn]
    · simpa [e, Ne.symm e] using hk

theorem effect_scrubLaw (h : Effect s t) (hs : ScrubLaw s) : ScrubLaw t := by
  cases h with
  | running h =>
    cases h with
    | quiet h => exact h.scrubLaw hs
    | answered p e r ws => exact (SameScrub.law (s := s.answerSlot e.slot r ws) sameScrub_of_eq) ((answerSlot_sameScrub s _ r ws).law hs)
    | popped p e => exact (sameScrub_of_eq).law hs
    | nested p nest => exact (sameScrub_of_eq).law hs
    | overran n c => exact (failCall_sameScrub (s.orphanOverrun c.callee n c.tag) n _).law ((sameScrub_of_eq).law hs)
  | attached p o => exact (sameScrub_of_eq).law hs
  | registered e => exact hs
  | posted n p c => exact (post_sameScrub s n c).law hs
  | taken p n c => exact (take_sameScrub s p n c).law hs
  | departed p m _ _ _ hw hr h => exact scrubLaw_samePart h.toSamePart (departure_scrubLaw m hs hw hr)
  | reset a b hlow h =>
    refine scrubLaw_samePart h.toSamePart ⟨initialScrubQueue_nodup, fun k => ?_, ?_⟩
    · exact ⟨fun _ => resetWith_block s a b k, fun _ => mem_initialScrubQueue k⟩
    · show false = (a && b && _)
      rw [hlow]; rfl

end Sys2Proof.Steps
end

section
/-! SUPPORT. The law of leases (R96): a block that no call holds may pass to another state, and a held block changes only when
the call that holds it ends. -/

namespace Sys2Proof.Steps

open Sys2Proof Sys2Proof.Machine Sys2Proof.Safety Sys2Proof.Statement

variable {s t u : State} {p q : Port} {n m : SlotNo} {c d : Call} {b : BlockNo} {l : Lease}

/-! ### The call that holds a block -/

/-- The slot whose call holds a PLEDGED or LENT block. -/
def holder : Block → Option SlotNo
  | .free => none
  | .scrub => none
  | .owned _ => none
  | .pledged _ _ n => some n
  | .lent _ _ _ n => some n

/-- A block as the unended call of a slot holds it by its lease (R96). -/
def held (n : SlotNo) (c : Call) (l : Lease) : Block :=
  if c.isPending then .pledged c.caller l.mode n else .lent c.caller c.callee l.mode n

@[simp] theorem holder_returned (k : Block) : holder (returned k) = none := by cases k <;> rfl

@[simp] theorem holder_held (n : SlotNo) (c : Call) (l : Lease) : holder (held n c l) = some n := by
  unfold held
  split <;> rfl

theorem not_pending_of_inService (h : c.isInService = true) : c.isPending = false := by
  cases hs : c.state <;> simp [Call.isInService, Call.isPending, hs] at h ⊢

theorem held_pending (h : c.isPending = true) : held n c l = .pledged c.caller l.mode n := if_pos h

theorem held_inService (h : c.isInService = true) : held n c l = .lent c.caller c.callee l.mode n :=
  if_neg (by simp [not_pending_of_inService h])

/-- R96 in two parts: every block of an unended call's lease is held by it, and every held block lies in such a lease. -/
theorem leaseLaw_iff (s : State) :
    LeaseLaw s ↔
      (∀ n c l b, s.slot n = some c → Unended c → c.lease = some l → l.covers b = true → s.block b = held n c l) ∧
      ∀ b n, holder (s.block b) = some n →
        ∃ c l, s.slot n = some c ∧ Unended c ∧ c.lease = some l ∧ l.covers b = true := by
  constructor
  · rintro ⟨h1, h2⟩
    refine ⟨fun n c l b hs hu hl hb => ?_, fun b n hn => ?_⟩
    · rcases hu with hp | hi
      · exact ((h1 b _ _ n).2 ⟨c, l, hs, hp, hl, hb, rfl, rfl⟩).trans (held_pending hp).symm
      · exact ((h2 b _ _ _ n).2 ⟨c, l, hs, hi, hl, hb, rfl, rfl, rfl⟩).trans (held_inService hi).symm
    · cases hk : s.block b with
      | free | scrub | owned o => rw [hk] at hn; cases hn
      | pledged o m k =>
        rw [hk] at hn; cases hn
        obtain ⟨c, l, hs, hp, hl, hb, -⟩ := (h1 b o m n).1 hk
        exact ⟨c, l, hs, .inl hp, hl, hb⟩
      | lent o q m k =>
        rw [hk] at hn; cases hn
        obtain ⟨c, l, hs, hi, hl, hb, -⟩ := (h2 b o q m n).1 hk
        exact ⟨c, l, hs, .inr hi, hl, hb⟩
  · rintro ⟨h1, h2⟩
    refine ⟨fun b o m n => ⟨fun hk => ?_, ?_⟩, fun b o q m n => ⟨fun hk => ?_, ?_⟩⟩
    · obtain ⟨c, l, hs, hu, hl, hb⟩ := h2 b n (by rw [hk]; rfl)
      have hh := h1 n c l b hs hu hl hb
      rcases hu with hp | hi
      · rw [hk, held_pending hp] at hh
        cases hh
        exact ⟨c, l, hs, hp, hl, hb, rfl, rfl⟩
      · rw [hk, held_inService hi] at hh
        cases hh
    · rintro ⟨c, l, hs, hp, hl, hb, rfl, rfl⟩
      exact (h1 n c l b hs (.inl hp) hl hb).trans (held_pending hp)
    · obtain ⟨c, l, hs, hu, hl, hb⟩ := h2 b n (by rw [hk]; rfl)
      have hh := h1 n c l b hs hu hl hb
      rcases hu with hp | hi
      · rw [hk, held_pending hp] at hh
        cases hh
      · rw [hk, held_inService hi] at hh
        cases hh
        exact ⟨c, l, hs, hi, hl, hb, rfl, rfl, rfl⟩
    · rintro ⟨c, l, hs, hi, hl, hb, rfl, rfl, rfl⟩
      exact (h1 n c l b hs (.inr hi) hl hb).trans (held_inService hi)

/-- The slot whose unended call has a block in its lease holds the block. -/
theorem holder_of_leased (h : LeaseLaw s) (hs : s.slot n = some c) (hu : Unended c) (hl : inLease c.lease b = true) :
    holder (s.block b) = some n := by
  cases hc : c.lease with
  | none => rw [hc] at hl; cases hl
  | some l =>
    rw [hc] at hl
    rw [((leaseLaw_iff s).1 h).1 n c l b hs hu hc hl, holder_held]

theorem leased_of_holder (h : LeaseLaw s) (hb : holder (s.block b) = some n) :
    ∃ c, s.slot n = some c ∧ Unended c ∧ inLease c.lease b = true := by
  obtain ⟨c, l, hs, hu, hl, hc⟩ := ((leaseLaw_iff s).1 h).2 b n hb
  exact ⟨c, hs, hu, by rw [hl]; exact hc⟩

theorem block_of_holder (h : LeaseLaw s) (hb : holder (s.block b) = some n) :
    ∃ c l, s.slot n = some c ∧ Unended c ∧ s.block b = held n c l := by
  obtain ⟨h1, h2⟩ := (leaseLaw_iff s).1 h
  obtain ⟨c, l, hs, hu, hl, hc⟩ := h2 b n hb
  exact ⟨c, l, hs, hu, h1 n c l b hs hu hl hc⟩

@[simp] theorem held_owner (n : SlotNo) (c : Call) (l : Lease) : (held n c l).owner = some c.caller := by
  unfold held
  split <;> rfl

theorem held_borrower (h : (held n c l).borrower = some p) : c.callee = p := by
  unfold held at h
  split at h
  · cases h
  · exact Option.some.inj h

theorem leaseLaw_samePart (h : SamePart s t) : LeaseLaw s → LeaseLaw t := by
  simp only [LeaseLaw, h.slot, h.block]; exact id

/-! ### Calls that end -/

theorem CallRuns.held (h : CallRuns c d) (hd : Unended d) : held n d l = held n c l := by
  rcases hd with hp | hi
  · rw [held_pending hp, held_pending (h.pending hp), h.caller]
  · rw [held_inService hi, held_inService (h.inService hi), h.caller, h.callee]

/-- An unended call goes on unended. -/
def GoesOn (s t : State) (n : SlotNo) : Prop :=
  ∀ c, s.slot n = some c → Unended c → ∃ d, t.slot n = some d ∧ Unended d

theorem goesOn_of_slot (h : t.slot n = s.slot n) : GoesOn s t n := fun c hs hu => ⟨c, h.trans hs, hu⟩

/-- A block changes only to one that no call holds, and a call that held it has ended; a call that still holds a block
goes on. -/
theorem leaseLaw_of (ho : Older s t)
    (hb : ∀ b, t.block b = s.block b ∨
      holder (t.block b) = none ∧ ∀ n, holder (s.block b) = some n → ∀ d, t.slot n = some d → ¬Unended d)
    (hk : ∀ b n, holder (s.block b) = some n → t.block b = s.block b → GoesOn s t n) (h : LeaseLaw s) : LeaseLaw t := by
  obtain ⟨h1, h2⟩ := (leaseLaw_iff s).1 h
  refine (leaseLaw_iff t).2 ⟨fun n d l b hd hu hl hc => ?_, fun b n hn => ?_⟩
  · obtain ⟨c, hs, hr⟩ := ho n d hd
    have hsb := h1 n c l b hs (hr.unended hu) (hr.lease ▸ hl) hc
    rw [hr.held hu, ← hsb]
    exact (hb b).resolve_right fun ⟨_, he⟩ => he n (by rw [hsb, holder_held]) d hd hu
  · have hsame : t.block b = s.block b := (hb b).resolve_right fun ⟨h, _⟩ => by rw [h] at hn; cases hn
    have hn' : holder (s.block b) = some n := hsame ▸ hn
    obtain ⟨c, l, hs, hu, hl, hc⟩ := h2 b n hn'
    obtain ⟨d, hd, hdu⟩ := hk b n hn' hsame c hs hu
    obtain ⟨c', hs', hr⟩ := ho n d hd
    rw [hs] at hs'; cases hs'
    exact ⟨d, l, hd, hdu, hr.lease.trans hl, hc⟩

/-- No call ends, and no held block changes. -/
theorem leaseLaw_standing (ho : Older s t) (hg : ∀ n, GoesOn s t n)
    (hb : ∀ b, t.block b = s.block b ∨ holder (t.block b) = none ∧ holder (s.block b) = none) : LeaseLaw s → LeaseLaw t :=
  leaseLaw_of ho (fun b => (hb b).imp_right fun ⟨h, h'⟩ => ⟨h, fun n hn => by rw [h'] at hn; cases hn⟩) fun _ n _ _ => hg n

theorem leaseLaw_blocks (hs : t.slots = s.slots)
    (hb : ∀ b, t.block b = s.block b ∨ holder (t.block b) = none ∧ holder (s.block b) = none) : LeaseLaw s → LeaseLaw t :=
  leaseLaw_standing (older_of_slots hs) (fun n => goesOn_of_slot (by rw [State.slot, hs, State.slot])) hb

theorem leaseLaw_same (hs : t.slots = s.slots) (hb : t.blocks = s.blocks) : LeaseLaw s → LeaseLaw t :=
  leaseLaw_blocks hs fun b => .inl (by rw [State.block, hb, State.block])

/-- One unended call ends, and its lease's blocks go back to their owner. -/
theorem leaseLaw_ended {x : Option Call} (hc : s.slot n = some c) (hu : Unended c) (ho : Older s t)
    (hslots : t.slots = s.slots.set n x) (hx : ∀ d, x = some d → ¬Unended d)
    (hblocks : t.blocks = leaseChanged s c.lease returned) (h : LeaseLaw s) : LeaseLaw t := by
  have hb : ∀ b, t.block b = if inLease c.lease b then returned (s.block b) else s.block b := fun b => by
    rw [State.block, hblocks, leaseChanged_get]
  refine leaseLaw_of ho (fun b => ?_) (fun b m hm hsame => ?_) h
  · rw [hb b]
    split
    · next hl =>
      refine .inr ⟨holder_returned _, fun m hm d hd => hx d ?_⟩
      rw [holder_of_leased h hc hu hl] at hm
      cases hm
      rwa [State.slot, hslots, Table.get_set_self] at hd
    · exact .inl rfl
  · by_cases e : n = m
    · subst e
      obtain ⟨c', hs, -, hl⟩ := leased_of_holder h hm
      rw [hc] at hs; cases hs
      rw [hb b, if_pos hl] at hsame
      rw [← hsame, holder_returned] at hm
      cases hm
    · exact goesOn_of_slot (by rw [State.slot, hslots, Table.get_set_ne _ _ e, State.slot])

theorem failed_not_unended (c : Call) (why : Failure) : ¬Unended { c with state := .failed why } := by
  rintro (h | h) <;> cases h

theorem answered_not_unended (c : Call) (r : Byte) (ws : List Word) : ¬Unended { c with state := .answered r ws } := by
  rintro (h | h) <;> cases h

theorem failCall_leaseLaw (n : SlotNo) (why : Failure) (h : LeaseLaw s) : LeaseLaw (s.failCall n why) := by
  by_cases hc : ∃ c, s.slot n = some c ∧ Unended c
  · obtain ⟨c, hs, hu⟩ := hc
    have ho := failCall_older s n why
    rw [failCall_eq hs hu] at ho ⊢
    exact leaseLaw_ended hs hu ho rfl (fun d hd => by cases hd; exact failed_not_unended c why) rfl h
  · rwa [failCall_ended fun c hs hu => hc ⟨c, hs, hu⟩]

theorem failCalls_leaseLaw (why : Failure) : ∀ (ns : List SlotNo) {s : State}, LeaseLaw s → LeaseLaw (s.failCalls why ns)
  | [], _, h => h
  | n :: ns, _, h => failCalls_leaseLaw why ns (failCall_leaseLaw n why h)

theorem cancelPending_leaseLaw (hs : s.slot n = some c) (hp : c.isPending = true) (h : LeaseLaw s) :
    LeaseLaw (s.cancelPending n c) := by
  have hslots := cancelPending_slots s n c
  have hnone : ∀ d : Call, none = some d → ¬Unended d := fun d hd => by cases hd
  exact leaseLaw_ended hs (.inl hp) (older_of_set hslots fun d hd => by cases hd) hslots hnone
    (by rw [CallTable.cancelPending_eq]) h

theorem answerSlot_leaseLaw (n : SlotNo) (r : Byte) {ws : List Word} (hw : ws.length ≤ 6) (h : LeaseLaw s) :
    LeaseLaw (s.answerSlot n r ws) := by
  by_cases hc : ∃ c, s.slot n = some c ∧ c.isInService = true
  · obtain ⟨c, hs, hi⟩ := hc
    have ho := answerSlot_older s n r hw
    rw [answerSlot_eq hs hi] at ho ⊢
    exact leaseLaw_ended hs (.inr hi) ho rfl (fun d hd => by cases hd; exact answered_not_unended c r ws) rfl h
  · rwa [answerSlot_not fun c hs hi => hc ⟨c, hs, hi⟩]

/-! ### The effects -/

theorem askCancel_blocks (s : State) (n : SlotNo) (c : Call) : (s.askCancel n c).blocks = s.blocks := by
  unfold State.askCancel; simp only []; split <;> rfl

theorem tick_inService (c : Call) : c.tick.isInService = c.isInService := by
  cases hs : c.state <;> simp [Call.tick, Call.isInService, hs]

theorem tick_pending (c : Call) : c.tick.isPending = c.isPending := by
  cases hs : c.state <;> simp [Call.tick, Call.isPending, hs]

theorem Quiet.leaseLaw (h : Quiet s t) (hq : ScrubLaw s) (hl : LeaseLaw s) : LeaseLaw t := by
  have ho := h.older
  cases h with
  | link h => exact leaseLaw_samePart h.toSamePart hl
  | withdrawn p id => exact failCalls_leaseLaw _ _ (s := CallTable.without s id) hl
  | cancelled n c hs hp => exact cancelPending_leaseLaw hs hp hl
  | cancelAsked n c hs =>
    refine leaseLaw_standing ho (fun m d hd hu => ?_) (fun b => .inl (by rw [State.block, askCancel_blocks]; rfl)) hl
    rw [State.slot, askCancel_slots, Table.get_set]
    split
    · next e =>
      subst e
      rw [hs] at hd; cases hd
      exact ⟨_, rfl, hu⟩
    · exact ⟨d, hd, hu⟩
  | collected n c hs hu =>
    refine leaseLaw_standing ho (fun m d hd hdu => ⟨d, ?_, hdu⟩) (fun b => .inl rfl) hl
    have hm : n ≠ m := by
      rintro rfl
      rw [hs] at hd; cases hd
      exact hu hdu
    exact (Table.get_set_ne _ _ hm).trans hd
  | noticesRead | resetRose | resetPin | pulseEnded => exact leaseLaw_same rfl rfl hl
  | claimed p first count _ hf =>
    refine leaseLaw_blocks (s := s) (t := s.claim p first count) rfl (fun b => ?_) hl
    simp only [State.block, State.claim, Table.get_map]
    split
    · next h =>
      have hb : s.blocks.get b = .free := hf.2 b h.1 h.2
      exact .inr (by rw [hb]; exact ⟨rfl, rfl⟩)
    · exact .inl rfl
  | released p first count _ _ hown =>
    refine leaseLaw_blocks (s := s) (t := s.release first count) rfl (fun b => ?_) hl
    simp only [State.block, State.release, appendScrub_blocks, Table.get_map]
    split
    · next h =>
      have hb : s.blocks.get b = .owned p := hown b h.1 h.2
      exact .inr (by rw [hb]; exact ⟨rfl, rfl⟩)
    · exact .inl rfl
  | ticked =>
    refine leaseLaw_standing ho (fun m d hd hu => ⟨d.tick, ?_, ?_⟩) (fun b => .inl rfl) hl
    · rw [State.slot, Table.get_map]
      exact congrArg (Option.map Call.tick) hd
    · rwa [Unended, tick_inService, tick_pending]
  | expired n => exact failCall_leaseLaw n _ hl
  | scrubbed b rest he =>
    obtain ⟨-, hscrub, -⟩ := hq
    refine leaseLaw_blocks (s := s) (t := { s with blocks := s.blocks.set b .free }) rfl (fun k => ?_) hl
    simp only [State.block, Table.get_set]
    split
    · next e =>
      subst e
      have hb : s.blocks.get b = .scrub := (hscrub b).1 (by rw [he]; exact List.mem_cons_self)
      exact .inr (by rw [hb]; exact ⟨rfl, rfl⟩)
    · exact .inl rfl

theorem Running.leaseLaw (h : Running s t) (hq : ScrubLaw s) (hl : LeaseLaw s) : LeaseLaw t := by
  cases h with
  | quiet h => exact h.leaseLaw hq hl
  | answered p e r ws _ _ hw =>
    exact leaseLaw_same (s := s.answerSlot e.slot r ws) rfl rfl (answerSlot_leaseLaw e.slot r hw hl)
  | popped | nested => exact leaseLaw_same rfl rfl hl
  | overran n c =>
    exact failCall_leaseLaw n _ (leaseLaw_same (s := s) (t := s.orphanOverrun c.callee n c.tag) rfl rfl hl)

/-! ### Post, take and departure -/

theorem inLease_eq_some (h : inLease c.lease b = true) : ∃ l, c.lease = some l ∧ l.covers b = true := by
  cases hc : c.lease with
  | none => rw [hc] at h; cases h
  | some l => exact ⟨l, rfl, by rw [hc] at h; exact h⟩

/-- The call of one slot comes to hold its lease's blocks, which no other call holds. -/
theorem leaseLaw_begun (hslots : t.slots = s.slots.set n (some d)) (hu : Unended d)
    (hin : ∀ l b, d.lease = some l → l.covers b = true → t.block b = held n d l)
    (hfree : ∀ b, inLease d.lease b = true → ∀ m, holder (s.block b) = some m → m = n)
    (hout : ∀ b, inLease d.lease b = false → t.block b = s.block b ∧ holder (s.block b) ≠ some n) (h : LeaseLaw s) :
    LeaseLaw t := by
  obtain ⟨h1, h2⟩ := (leaseLaw_iff s).1 h
  have hslot : ∀ m, n ≠ m → t.slot m = s.slot m := fun m e => by
    rw [State.slot, hslots, Table.get_set_ne _ _ e, State.slot]
  have hself : t.slot n = some d := by rw [State.slot, hslots, Table.get_set_self]
  refine (leaseLaw_iff t).2 ⟨fun m c l b hc hcu hl hb => ?_, fun b m hm => ?_⟩
  · by_cases e : n = m
    · subst e
      rw [hself] at hc; cases hc
      exact hin l b hl hb
    · rw [hslot m e] at hc
      have hs := h1 m c l b hc hcu hl hb
      cases hd : inLease d.lease b with
      | true => exact absurd (hfree b hd m (by rw [hs, holder_held])) (Ne.symm e)
      | false => exact (hout b hd).1.trans hs
  · cases hd : inLease d.lease b with
    | true =>
      obtain ⟨l, hl, hb⟩ := inLease_eq_some hd
      rw [hin l b hl hb, holder_held] at hm
      cases hm
      exact ⟨d, l, hself, hu, hl, hb⟩
    | false =>
      obtain ⟨hb, hne⟩ := hout b hd
      rw [hb] at hm
      have e : n ≠ m := by rintro rfl; exact hne hm
      rw [hslot m e]
      exact h2 b m hm

/-- The blocks of a posted call's lease, which its caller OWNS. -/
theorem post_block (hown : ∀ l, c.lease = some l → AllOwned s c.caller l.first l.count) :
    (∀ l b, c.lease = some l → l.covers b = true →
      s.block b = .owned c.caller ∧ (s.post n c).block b = .pledged c.caller l.mode n) ∧
    ∀ b, inLease c.lease b = false → (s.post n c).block b = s.block b := by
  constructor
  · intro l b hl hb
    have hb' : l.first ≤ b.val ∧ b.val < l.first + l.count := by
      simpa only [Lease.covers, Bool.and_eq_true, decide_eq_true_eq] using hb
    refine ⟨hown l hl b hb'.1 hb'.2, ?_⟩
    rw [CallTable.post_eq n hown]
    simp only [State.block, Table.get_map, hl, if_pos hb']
  · intro b hb
    rw [CallTable.post_eq n hown]
    simp only [State.block, Table.get_map]
    split
    · next l hl =>
      rw [hl] at hb
      exact if_neg (by simpa [inLease] using hb)
    · rfl

/-- R109. -/
theorem post_leaseLaw (hfree : s.slot n = none) (hst : c.isPending = true)
    (hown : ∀ l, c.lease = some l → AllOwned s c.caller l.first l.count) (h : LeaseLaw s) : LeaseLaw (s.post n c) := by
  obtain ⟨hin, hout⟩ := post_block (n := n) hown
  refine leaseLaw_begun (post_slots s n c) (.inl hst) (fun l b hl hb => ?_) (fun b hb m hm => ?_) (fun b hb => ⟨hout b hb, ?_⟩) h
  · rw [held_pending hst, (hin l b hl hb).2]
  · obtain ⟨l, hl, hc⟩ := inLease_eq_some hb
    rw [(hin l b hl hc).1] at hm
    cases hm
  · intro hn
    obtain ⟨c', hs, -⟩ := leased_of_holder h hn
    rw [hfree] at hs; cases hs

theorem take_block (s : State) (p : Port) (n : SlotNo) (c : Call) (b : BlockNo) :
    (s.take p n c).block b = if inLease c.lease b = true then Block.lend c.callee (s.block b) else s.block b := by
  rw [State.take, modPort_block, modLease_block]
  cases c.lease <;> rfl

/-- R110. -/
theorem take_leaseLaw (p : Port) (hs : s.slot n = some c) (hp : c.isPending = true) (h : LeaseLaw s) :
    LeaseLaw (s.take p n c) := by
  refine leaseLaw_begun (take_slots s p n c) (.inr rfl) (fun l b hl hb => ?_) (fun b hb m hm => ?_) (fun b hb => ⟨?_, ?_⟩) h
  · have hin : inLease c.lease b = true := by rw [show c.lease = some l from hl]; exact hb
    rw [held_inService rfl, take_block, if_pos hin, ((leaseLaw_iff s).1 h).1 n c l b hs (.inl hp) hl hb, held_pending hp]
    rfl
  · rw [holder_of_leased h hs (.inl hp) hb] at hm
    exact (Option.some.inj hm).symm
  · rw [take_block, if_neg (by rw [show inLease c.lease b = false from hb]; simp)]
  · intro hn
    obtain ⟨c', hs', -, hl⟩ := leased_of_holder h hn
    rw [hs] at hs'; cases hs'
    rw [show inLease c.lease b = false from hb] at hl; cases hl

/-- Once the calls that a departing port serves have failed, no unended call has it as its callee. -/
theorem failed_callee (hst : StackAgrees s p) (hs : (failed s p).slot n = some c) (hu : Unended c) : c.callee ≠ p := by
  rw [failed, failCalls_slot] at hs
  split at hs
  · obtain ⟨d, -, rfl⟩ := Option.map_eq_some_iff.1 hs
    split at hu
    · exact absurd hu (failed_not_unended d _)
    · next hd => exact absurd ((CallTable.unended_iff d).2 hu) hd
  · next hn => exact fun hq => hn ((CallTable.mem_servedSlots hst hs).2 ⟨hu, hq⟩)

theorem departure_failed_older (s : State) (p : Port) (m : PortMode) : Older (failed s p) (s.departure p m) := by
  intro n d hd
  rw [departure_slot] at hd
  split at hd
  · cases hd
  · exact ⟨d, hd, .refl d⟩

theorem departure_slot_of_caller (m : PortMode) (hs : (failed s p).slot n = some c) (hc : c.caller ≠ p) :
    (s.departure p m).slot n = some c := by
  rw [departure_slot, hs, if_neg (by simpa using hc)]

theorem giveBack_holder (k : Block) : holder k.giveBack = none := by rw [giveBack_eq, holder_returned]

/-- The blocks that a departing port owns or borrows are held by its own calls, or by none once the calls that it serves have
failed (R115, R116). -/
theorem departure_leaseLaw (m : PortMode) (hst : StackAgrees s p) (h : LeaseLaw s) : LeaseLaw (s.departure p m) := by
  have hf : LeaseLaw (failed s p) := failCalls_leaseLaw _ _ h
  have ho := departure_failed_older s p m
  refine leaseLaw_of ho (fun b => ?_) (fun b n hn hsame c hc hu => ?_) hf
  · rw [departure_block, Block.afterDeparture]
    split
    · next hown =>
      refine .inr ⟨rfl, fun n hn d hd _ => ?_⟩
      obtain ⟨c, l, hc, -, hk⟩ := block_of_holder hf hn
      obtain ⟨c', hc', hr⟩ := ho n d hd
      rw [hc] at hc'; cases hc'
      rw [hk, held_owner] at hown
      exact departure_caller hd (hr.caller.trans (Option.some.inj hown))
    · split
      · next hbor =>
        refine .inr ⟨giveBack_holder _, fun n hn d hd _ => ?_⟩
        obtain ⟨c, l, hc, hu, hk⟩ := block_of_holder hf hn
        rw [hk] at hbor
        exact failed_callee hst hc hu (held_borrower hbor)
      · exact .inl rfl
  · obtain ⟨c', l, hc', -, hk⟩ := block_of_holder hf hn
    rw [hc] at hc'; cases hc'
    refine ⟨c, departure_slot_of_caller m hc fun hp => ?_, hu⟩
    rw [departure_block, CallTable.afterDeparture_of_owner (by rw [hk, held_owner, hp])] at hsame
    rw [← hsame] at hn
    cases hn

theorem stackAgrees_of_serviceLaw (h : ServiceLaw s) (p : Port) : StackAgrees s p := by
  obtain ⟨h1, h2, h3⟩ := h
  refine ⟨fun n c hs hi hq => hq ▸ h2 n c hs hi, fun e he ho => ?_, h3 p⟩
  obtain ⟨c, hs, hi, hq, -⟩ := h1 p e he ho
  exact ⟨c, hs, hi, hq⟩

theorem effect_leaseLaw (h : Effect s t) (hv : ServiceLaw s) (hq : ScrubLaw s) (hl : LeaseLaw s) : LeaseLaw t := by
  cases h with
  | running h => exact h.leaseLaw hq hl
  | attached | registered => exact leaseLaw_same rfl rfl hl
  | posted n p c e hfree _ _ hc _ _ _ hst _ _ hown => exact post_leaseLaw hfree hst (hc ▸ hown) hl
  | taken p n c _ hs hp => exact take_leaseLaw p hs hp hl
  | departed p m _ _ _ _ _ h =>
    exact leaseLaw_samePart h.toSamePart (departure_leaseLaw m (stackAgrees_of_serviceLaw hv p) hl)
  | reset a b _ h =>
    refine leaseLaw_samePart h.toSamePart ((leaseLaw_iff _).2 ⟨fun n c l b hs => ?_, fun b n hn => ?_⟩)
    · rw [resetWith_slot] at hs; cases hs
    · rw [resetWith_block] at hn; cases hn

end Sys2Proof.Steps
end

section
/-! SUPPORT. The law of service (R48): the live entries of the stacks and the IN_SERVICE calls agree. -/

namespace Sys2Proof.Steps

open Sys2Proof Sys2Proof.Machine Sys2Proof.Safety Sys2Proof.Statement

variable {s t u : State} {p q : Port} {n m : SlotNo} {c d : Call} {e f : StackEntry} {a : List StackEntry}

/-! ### Live entries -/

/-- The entries of a stack that are not orphaned. -/
abbrev live (a : List StackEntry) : List StackEntry := a.filter fun e => !e.orphaned

theorem mem_live : e ∈ live a ↔ e ∈ a ∧ e.orphaned = false := by
  rw [List.mem_filter, Bool.not_eq_true']

/-- The entries that satisfy a test become orphaned: the others stay live. -/
theorem live_orphaned (f : StackEntry → Bool) (a : List StackEntry) :
    live (a.map fun e => if f e && !e.orphaned then { e with orphaned := true } else e) = (live a).filter fun e => !f e := by
  induction a with
  | nil => rfl
  | cons e a ih =>
    simp only [live, List.map_cons, List.filter_cons] at ih ⊢
    rw [ih]
    cases ho : e.orphaned <;> cases hf : f e <;> simp [ho, hf]

theorem live_orphanSlot (n : SlotNo) (a : List StackEntry) :
    live (orphanSlot n a) = (live a).filter fun e => !(e.slot == n) := live_orphaned (fun e => e.slot == n) a

theorem live_orphanCaller (p : Port) (a : List StackEntry) :
    live (orphanCaller p a) = (live a).filter fun e => !(e.caller == p) := live_orphaned (fun e => e.caller == p) a

theorem live_popped (h : a.getLast? = some e) (ho : e.orphaned = true) : live a.dropLast = live a := by
  obtain ⟨below, rfl⟩ := List.getLast?_eq_some_iff.1 h
  simp [live, ho]

theorem live_top (h : a.getLast? = some e) (ho : e.orphaned = false) : live a = live a.dropLast ++ [e] := by
  obtain ⟨below, rfl⟩ := List.getLast?_eq_some_iff.1 h
  simp [live, ho]

/-! ### The law in terms of live entries -/

/-- The entry stands for the call, which the port has in service. -/
structure Serves (q : Port) (e : StackEntry) (c : Call) : Prop where
  inService : c.isInService = true
  callee : c.callee = q
  service : c.service = e.service
  priority : c.priority = e.priority
  caller : c.caller = e.caller
  tag : c.tag = e.tag

theorem live_serves (h : ServiceLaw s) (he : e ∈ live (s.port q).stack) :
    ∃ c, s.slot e.slot = some c ∧ Serves q e c := by
  obtain ⟨hm, ho⟩ := mem_live.1 he
  obtain ⟨c, hs, h1, h2, h3, h4, h5, h6⟩ := h.1 q e hm ho
  exact ⟨c, hs, h1, h2, h3, h4, h5, h6⟩

theorem live_of_inService (h : ServiceLaw s) (hs : s.slot n = some c) (hi : c.isInService = true) :
    ∃ e ∈ live (s.port c.callee).stack, e.slot = n := by
  obtain ⟨e, hm, hn, ho⟩ := h.2.1 n c hs hi
  exact ⟨e, mem_live.2 ⟨hm, ho⟩, hn⟩

theorem serviceLaw_of_live (h1 : ∀ q, ∀ e ∈ live (s.port q).stack, ∃ c, s.slot e.slot = some c ∧ Serves q e c)
    (h2 : ∀ n c, s.slot n = some c → c.isInService = true → ∃ e ∈ live (s.port c.callee).stack, e.slot = n)
    (h3 : ∀ q, ((live (s.port q).stack).map StackEntry.slot).Nodup) : ServiceLaw s := by
  refine ⟨fun q e hm ho => ?_, fun n c hs hi => ?_, h3⟩
  · obtain ⟨c, hs, hc⟩ := h1 q e (mem_live.2 ⟨hm, ho⟩)
    exact ⟨c, hs, hc.inService, hc.callee, hc.service, hc.priority, hc.caller, hc.tag⟩
  · obtain ⟨e, he, hn⟩ := h2 n c hs hi
    obtain ⟨hm, ho⟩ := mem_live.1 he
    exact ⟨e, hm, hn, ho⟩

theorem serviceLaw_samePart (h : SamePart s t) : ServiceLaw s → ServiceLaw t := by
  simp only [ServiceLaw, h.slot, h.stack]; exact id

theorem CallRuns.serves (h : CallRuns c d) (hc : Serves q e c) (hi : d.isInService = true) : Serves q e d :=
  ⟨hi, h.callee.trans hc.callee, h.service.trans hc.service, h.priority.trans hc.priority, h.caller.trans hc.caller,
    h.tag.trans hc.tag⟩

/-- Every IN_SERVICE call of the second state is one of the first. -/
def InServiceFrom (s t : State) : Prop :=
  ∀ n d, t.slot n = some d → d.isInService = true → ∃ c, s.slot n = some c ∧ CallRuns c d

theorem Older.inServiceFrom (h : Older s t) : InServiceFrom s t := fun n d hd _ => h n d hd

/-- Live entries go, and with them their calls leave service, but none comes. -/
theorem serviceLaw_of (hold : InServiceFrom s t) (hsub : ∀ q, (live (t.port q).stack).Sublist (live (s.port q).stack))
    (hgo : ∀ q, ∀ e ∈ live (t.port q).stack, ∀ c, s.slot e.slot = some c → Serves q e c →
      ∃ d, t.slot e.slot = some d ∧ d.isInService = true)
    (hin : ∀ n d, t.slot n = some d → d.isInService = true → ∀ e ∈ live (s.port d.callee).stack, e.slot = n →
      (∃ c, s.slot n = some c ∧ Serves d.callee e c ∧ CallRuns c d) → e ∈ live (t.port d.callee).stack)
    (h : ServiceLaw s) : ServiceLaw t := by
  refine serviceLaw_of_live (fun q e he => ?_) (fun n d hd hi => ?_) fun q => (h.2.2 q).sublist ((hsub q).map _)
  · obtain ⟨c, hs, hc⟩ := live_serves h ((hsub q).subset he)
    obtain ⟨d, hd, hi⟩ := hgo q e he c hs hc
    obtain ⟨c', hs', hr⟩ := hold e.slot d hd hi
    rw [hs] at hs'; cases hs'
    exact ⟨d, hd, hr.serves hc hi⟩
  · obtain ⟨c, hs, hr⟩ := hold n d hd hi
    obtain ⟨e, he, hn⟩ := live_of_inService h hs (hr.inService hi)
    rw [← hr.callee] at he
    obtain ⟨c', hs', hc⟩ := live_serves h he
    rw [hn, hs] at hs'; cases hs'
    exact ⟨e, hin n d hd hi e he hn ⟨c, hs, hc, hr⟩, hn⟩

/-! ### The effects -/

/-- The stacks stand, and so do the calls in service. -/
theorem serviceLaw_standing (hold : InServiceFrom s t) (hstack : ∀ q, (t.port q).stack = (s.port q).stack)
    (hgo : ∀ n c, s.slot n = some c → c.isInService = true → ∃ d, t.slot n = some d ∧ d.isInService = true) :
    ServiceLaw s → ServiceLaw t := by
  refine serviceLaw_of hold (fun q => by rw [hstack]) (fun q e _ c hs hc => hgo _ c hs hc.inService) fun n d _ _ e he _ _ => ?_
  rwa [hstack]

/-- Every slot but one stands, and that one's call is not in service. -/
theorem inService_of_other (hslot : ∀ k, m ≠ k → t.slot k = s.slot k) (hm : s.slot m = some d)
    (hd : d.isInService = false) (hs : s.slot n = some c) (hi : c.isInService = true) :
    ∃ d, t.slot n = some d ∧ d.isInService = true := by
  refine ⟨c, (hslot n ?_).trans hs, hi⟩
  rintro rfl
  rw [hm] at hs; cases hs
  rw [hd] at hi; cases hi

theorem inService_of_slots (h : t.slots = s.slots) (hs : s.slot n = some c) (hi : c.isInService = true) :
    ∃ d, t.slot n = some d ∧ d.isInService = true := ⟨c, by rw [State.slot, h]; exact hs, hi⟩

theorem not_inService_of_pending (h : c.isPending = true) : c.isInService = false := by
  cases hi : c.isInService with
  | false => rfl
  | true => rw [not_pending_of_inService hi] at h; cases h

theorem failCalls_keeps_slot {why : Failure} {ns : List SlotNo} (h : n ∉ ns) :
    (s.failCalls why ns).slot n = s.slot n := by rw [failCalls_slot, if_neg h]

/-- The effects that begin nothing leave every call that is in service. -/
theorem Quiet.inService (h : Quiet s t) (hs : s.slot n = some c) (hi : c.isInService = true) :
    ∃ d, t.slot n = some d ∧ d.isInService = true := by
  cases h with
  | link h => exact inService_of_slots h.slots hs hi
  | withdrawn p id =>
    refine ⟨c, (failCalls_keeps_slot (s := CallTable.without s id) fun hn => ?_).trans hs, hi⟩
    have hp := ((CallTable.mem_waitingOf hs).1 hn).1
    rw [not_pending_of_inService hi] at hp; cases hp
  | cancelled m d hd hp =>
    refine inService_of_other (fun k hk => ?_) hd (not_inService_of_pending hp) hs hi
    rw [State.slot, cancelPending_slots, Table.get_set_ne _ _ hk, State.slot]
  | cancelAsked m d hd hdi =>
    rw [State.slot, askCancel_slots, Table.get_set]
    split
    · exact ⟨_, rfl, hdi⟩
    · exact ⟨c, hs, hi⟩
  | collected m d hd hu =>
    exact inService_of_other (fun k hk => Table.get_set_ne _ _ hk) hd (Bool.eq_false_iff.2 fun h => hu (.inr h)) hs hi
  | expired m d hd hp =>
    exact inService_of_other (fun k hk => by rw [failCall_slot, if_neg hk]) hd (not_inService_of_pending hp) hs hi
  | ticked =>
    refine ⟨c.tick, ?_, (tick_inService c).trans hi⟩
    rw [State.slot, Table.get_map]
    exact congrArg (Option.map Call.tick) hs
  | noticesRead | claimed | released | resetRose | resetPin | scrubbed | pulseEnded => exact inService_of_slots rfl hs hi

theorem Quiet.serviceLaw (h : Quiet s t) : ServiceLaw s → ServiceLaw t :=
  serviceLaw_standing h.older.inServiceFrom h.sameService.stack fun _ _ => h.inService

/-- The live entry that a stack loses is the only one of its call. -/
theorem answered_serviceLaw {r : Byte} {ws : List Word} (hw : ws.length ≤ 6) (ht : (s.port p).stack.getLast? = some e)
    (ho : e.orphaned = false) (h : ServiceLaw s) : ServiceLaw ((s.answerSlot e.slot r ws).pop p e) := by
  have htop := live_top ht ho
  have hmem : e ∈ live (s.port p).stack := by rw [htop]; simp
  obtain ⟨c, hs, hc⟩ := live_serves h hmem
  have hslot : ∀ m, ((s.answerSlot e.slot r ws).pop p e).slot m =
      if e.slot = m then some { c with state := .answered r ws } else s.slot m := fun m => by
    rw [answerSlot_eq hs hc.inService]
    exact Table.get_set ..
  have hstack : ∀ q, (((s.answerSlot e.slot r ws).pop p e).port q).stack =
      if p = q then (s.port q).stack.dropLast else (s.port q).stack := fun q => by
    obtain ⟨l, hl⟩ := pop_port (s.answerSlot e.slot r ws) p e q
    obtain ⟨l', hl'⟩ := answerSlot_notices s e.slot r ws q
    rw [hl, hl']
    split <;> rfl
  have hnot : ∀ q, ∀ f ∈ live (((s.answerSlot e.slot r ws).pop p e).port q).stack, e.slot ≠ f.slot := by
    intro q f hf hef
    rw [hstack] at hf
    split at hf
    · next hpq =>
      subst hpq
      have hn : ((live (s.port p).stack).map StackEntry.slot).Nodup := h.2.2 p
      rw [htop, List.map_append, List.nodup_append] at hn
      exact hn.2.2 f.slot (List.mem_map_of_mem hf) e.slot (by simp) hef.symm
    · next hpq =>
      obtain ⟨d, hd, hdq⟩ := live_serves h hf
      rw [← hef, hs] at hd; cases hd
      exact hpq (hc.callee.symm.trans hdq.callee)
  refine serviceLaw_of ?_ (fun q => ?_) (fun q f hf d hd hdq => ⟨d, ?_, hdq.inService⟩) (fun n d hd hi f hf hn _ => ?_) h
  · exact (Running.older (.answered p e r ws ht ho hw)).inServiceFrom
  · rw [hstack]
    split
    · exact (List.dropLast_sublist _).filter _
    · exact List.Sublist.refl _
  · rw [hslot, if_neg (hnot q f hf)]
    exact hd
  · rw [hslot] at hd
    split at hd
    · cases hd; cases hi
    · next hne =>
      rw [hstack]
      split
      · next hpq =>
        rw [← hpq, htop, List.mem_append, List.mem_singleton] at hf
        refine hpq ▸ hf.resolve_right fun hfe => hne ?_
        rw [← hfe, hn]
      · exact hf

theorem popped_serviceLaw (ht : (s.port p).stack.getLast? = some e) (ho : e.orphaned = true) (h : ServiceLaw s) :
    ServiceLaw (s.pop p e) := by
  have hlive : ∀ q, live ((s.pop p e).port q).stack = live (s.port q).stack := fun q => by
    obtain ⟨l, hl⟩ := pop_port s p e q
    rw [hl]
    split
    · next hpq => exact live_popped (hpq ▸ ht) ho
    · rfl
  exact serviceLaw_of (s := s) (older_of_slots rfl).inServiceFrom (fun q => by rw [hlive])
    (fun q f _ c hs hc => ⟨c, hs, hc.inService⟩) (fun n d _ _ f hf _ _ => by rw [hlive]; exact hf) h

/-- The entry of the call that overruns becomes orphaned. -/
theorem overran_serviceLaw (hs : s.slot n = some c) (hi : c.isInService = true) (h : ServiceLaw s) :
    ServiceLaw ((s.orphanOverrun c.callee n c.tag).failCall n .overrun) := by
  have hold : Older s ((s.orphanOverrun c.callee n c.tag).failCall n .overrun) := Running.older (.overran n c hs hi)
  have hslot : ∀ m, n ≠ m → ((s.orphanOverrun c.callee n c.tag).failCall n .overrun).slot m = s.slot m := fun m hm => by
    rw [failCall_slot, if_neg hm]; rfl
  have hended : ∀ d, ((s.orphanOverrun c.callee n c.tag).failCall n .overrun).slot n = some d → d.isInService = false := by
    intro d hd
    rw [failCall_eq (s := s.orphanOverrun c.callee n c.tag) hs (.inr hi)] at hd
    cases (Table.get_set_self ..).symm.trans hd
    rfl
  have hlive : ∀ q, live (((s.orphanOverrun c.callee n c.tag).failCall n .overrun).port q).stack =
      if c.callee = q then (live (s.port q).stack).filter (fun e => !(e.slot == n)) else live (s.port q).stack := fun q => by
    obtain ⟨l, hl⟩ := overrun_port s c.callee n c.tag .overrun q
    rw [hl]
    split
    · exact live_orphanSlot n _
    · rfl
  have hnot : ∀ q, ∀ f ∈ live (((s.orphanOverrun c.callee n c.tag).failCall n .overrun).port q).stack, n ≠ f.slot := by
    intro q f hf hnf
    rw [hlive] at hf
    split at hf
    · simp [hnf] at hf
    · next hq =>
      obtain ⟨d, hd, hdq⟩ := live_serves h hf
      rw [← hnf, hs] at hd; cases hd
      exact hq hdq.callee
  refine serviceLaw_of hold.inServiceFrom (fun q => ?_) (fun q f hf d hd hdq => ⟨d, ?_, hdq.inService⟩)
    (fun m d hd hdi f hf hm _ => ?_) h
  · rw [hlive]
    split
    · exact List.filter_sublist
    · exact List.Sublist.refl _
  · rw [hslot _ (hnot q f hf)]; exact hd
  · have hne : m ≠ n := by
      rintro rfl
      rw [hended d hd] at hdi; cases hdi
    rw [hlive]
    split
    · exact List.mem_filter.2 ⟨hf, by simp [hm, hne]⟩
    · exact hf

theorem Running.serviceLaw (h : Running s t) (hv : ServiceLaw s) : ServiceLaw t := by
  cases h with
  | quiet h => exact h.serviceLaw hv
  | answered p e r ws ht ho hw => exact answered_serviceLaw hw ht ho hv
  | popped p e ht ho => exact popped_serviceLaw ht ho hv
  | nested p nest hne =>
    refine serviceLaw_standing (s := s) (older_of_slots rfl).inServiceFrom (fun q => ?_) (fun n c hs hi => ⟨c, hs, hi⟩) hv
    rw [modPort_port]
    split <;> rfl
  | overran n c hs hi => exact overran_serviceLaw hs hi hv

/-! ### Post, take and departure -/

theorem post_slot (s : State) (n : SlotNo) (c : Call) (m : SlotNo) :
    (s.post n c).slot m = if n = m then some c else s.slot m := by
  rw [State.slot, post_slots, Table.get_set, State.slot]

theorem post_inServiceFrom (hst : c.isPending = true) : InServiceFrom s (s.post n c) := by
  intro m d hd hi
  rw [post_slot] at hd
  split at hd
  · cases hd
    rw [not_inService_of_pending hst] at hi; cases hi
  · exact ⟨d, hd, .refl d⟩

theorem post_serviceLaw (hfree : s.slot n = none) (hst : c.isPending = true) : ServiceLaw s → ServiceLaw (s.post n c) := by
  refine serviceLaw_standing (post_inServiceFrom hst) (fun q => by rw [post_port]) fun m d hd hi => ⟨d, ?_, hi⟩
  rw [post_slot, if_neg, hd]
  rintro rfl
  rw [hfree] at hd; cases hd

theorem take_slot (s : State) (p : Port) (n : SlotNo) (c : Call) (m : SlotNo) :
    (s.take p n c).slot m = if n = m then some { c with state := .inService (s.limitOf c.service) } else s.slot m := by
  rw [State.slot, take_slots, Table.get_set, State.slot]

/-- A take puts one live entry on top, for a call that had none. -/
theorem take_serviceLaw (hs : s.slot n = some c) (hp : c.isPending = true) (hq : c.callee = p) (h : ServiceLaw s) :
    ServiceLaw (s.take p n c) := by
  have hlive : ∀ q, live ((s.take p n c).port q).stack =
      if p = q then live (s.port q).stack ++ [takenEntry n c (s.port q).nest] else live (s.port q).stack := fun q => by
    rw [take_port]
    split
    · simp [live, takenEntry]
    · rfl
  have hnone : ∀ q, ∀ e ∈ live (s.port q).stack, n ≠ e.slot := by
    intro q e he hn
    obtain ⟨d, hd, hdq⟩ := live_serves h he
    rw [← hn, hs] at hd; cases hd
    have := hdq.inService
    rw [not_inService_of_pending hp] at this; cases this
  have hnew : (s.take p n c).slot n = some { c with state := .inService (s.limitOf c.service) } := by
    rw [take_slot, if_pos rfl]
  have hold : ∀ q, ∀ e ∈ live (s.port q).stack, ∃ d, (s.take p n c).slot e.slot = some d ∧ Serves q e d := fun q e he => by
    rw [take_slot, if_neg (hnone q e he)]
    exact live_serves h he
  refine serviceLaw_of_live (fun q e he => ?_) (fun m d hd hi => ?_) fun q => ?_
  · rw [hlive] at he
    split at he
    · next hpq =>
      rcases List.mem_append.1 he with he | he
      · exact hold q e he
      · rw [List.mem_singleton] at he
        subst he
        exact ⟨_, hnew, rfl, hq.trans hpq, rfl, rfl, rfl, rfl⟩
    · exact hold q e he
  · rw [take_slot] at hd
    split at hd
    · next hm =>
      cases hd
      refine ⟨takenEntry n c (s.port p).nest, ?_, hm⟩
      rw [hlive, if_pos hq.symm, ← hq]
      simp
    · obtain ⟨e, he, hm⟩ := live_of_inService h hd hi
      refine ⟨e, ?_, hm⟩
      rw [hlive]
      split
      · exact List.mem_append_left _ he
      · exact he
  · rw [hlive]
    split
    · rw [List.map_append, List.nodup_append]
      refine ⟨h.2.2 q, by simp, fun a ha b hb hab => ?_⟩
      obtain ⟨e, he, rfl⟩ := List.mem_map.1 ha
      simp only [List.map_singleton, List.mem_singleton] at hb
      exact hnone q e he (hb.symm.trans hab.symm)
    · exact h.2.2 q

/-- A departure empties one stack, orphans the entries of its port's calls, and ends exactly the calls of these entries. -/
theorem departure_serviceLaw (m : PortMode) (h : ServiceLaw s) : ServiceLaw (s.departure p m) := by
  have hst := stackAgrees_of_serviceLaw h p
  have hlive : ∀ q, live ((s.departure p m).port q).stack =
      if p = q then [] else (live (s.port q).stack).filter fun e => !(e.caller == p) := fun q => by
    by_cases hq : p = q
    · subst hq; rw [departure_port, if_pos rfl]; rfl
    · obtain ⟨l, hl⟩ := departure_port_other s m (Ne.symm hq)
      rw [hl, if_neg hq]
      exact live_orphanCaller p _
  have hold := departure_older s p m
  refine serviceLaw_of hold.inServiceFrom (fun q => ?_) (fun q e he c hs hc => ⟨c, ?_, hc.inService⟩)
    (fun n d hd hi e he hn ⟨c, hs, hc, hr⟩ => ?_) h
  · rw [hlive]
    split
    · exact List.nil_sublist _
    · exact List.filter_sublist
  · rw [hlive] at he
    split at he
    · cases he
    · next hq =>
      have hne : c.caller ≠ p := by
        rw [hc.caller]
        simpa using (List.mem_filter.1 he).2
      refine departure_slot_of_caller m ?_ hne
      rw [failed, failCalls_keeps_slot fun hmem => ?_, hs]
      exact hq (((CallTable.mem_servedSlots hst hs).1 hmem).2.symm.trans hc.callee)
  · have hcaller := departure_caller hd
    have hcallee : d.callee ≠ p := by
      obtain ⟨x, hx, hxr⟩ := departure_failed_older s p m n d hd
      rw [hxr.callee]
      exact failed_callee hst hx (hxr.unended (.inr hi))
    rw [hlive, if_neg (Ne.symm hcallee)]
    refine List.mem_filter.2 ⟨he, ?_⟩
    rw [← hc.caller, ← hr.caller]
    simpa using hcaller

theorem effect_serviceLaw (h : Effect s t) (hv : ServiceLaw s) : ServiceLaw t := by
  cases h with
  | running h => exact h.serviceLaw hv
  | attached p o =>
    refine serviceLaw_standing (s := s) (older_of_slots rfl).inServiceFrom (fun q => ?_) (fun n c hs hi => ⟨c, hs, hi⟩) hv
    rw [modPort_port]
    split <;> rfl
  | registered e => exact hv
  | posted n p c e hfree _ _ _ _ _ _ hst => exact post_serviceLaw hfree hst hv
  | taken p n c _ hs hp hq => exact take_serviceLaw hs hp hq hv
  | departed p m _ _ _ _ _ h => exact serviceLaw_samePart h.toSamePart (departure_serviceLaw m hv)
  | reset a b _ h =>
    have hstack : ∀ q, ((resetWith s a b).port q).stack = [] := fun q => by rw [resetWith_port]; rfl
    refine serviceLaw_samePart h.toSamePart (serviceLaw_of_live (fun q e he => ?_) (fun n c hs => ?_) fun q => ?_)
    · rw [hstack] at he; cases he
    · rw [resetWith_slot] at hs; cases hs
    · rw [hstack]; exact List.nodup_nil

end Sys2Proof.Steps
end

section
/-! SUPPORT. The laws of the calls and of the concurrency limits (R1, R3, R6, R7, R43): calls keep their parties, and a service
leaves the directory only when its unended calls end. -/

namespace Sys2Proof.Steps

open Sys2Proof Sys2Proof.Machine Sys2Proof.Safety Sys2Proof.Statement

variable {s t u : State} {p q : Port} {n m : SlotNo} {c d : Call} {e : Service} {id : Nat}

/-! ### What a call needs of ports and directory -/

/-- R6: the callee of the call is ONLINE and provides its service. -/
def Provided (s : State) (c : Call) : Prop :=
  s.online c.callee = true ∧ ∃ e, s.entry c.service = some e ∧ e.provider = c.callee

theorem provided_of_unended (h : CallLaw s) (hs : s.slot n = some c) (hu : Unended c) : Provided s c :=
  have ⟨_, _, _, hp⟩ := h.1 n c hs
  hp hu

/-- The calls have one caller, callee, service, lease and post order, and the second has not ended unless the first has. -/
structure SameCall (c d : Call) : Prop where
  caller : d.caller = c.caller
  callee : d.callee = c.callee
  service : d.service = c.service
  lease : d.lease = c.lease
  postOrder : d.postOrder = c.postOrder
  unended : Unended d → Unended c

theorem CallRuns.same (h : CallRuns c d) : SameCall c d :=
  ⟨h.caller, h.callee, h.service, h.lease, h.postOrder, h.unended⟩

theorem SameCall.provided (h : SameCall c d) (hc : Provided s c) : Provided s d := by
  rw [Provided, h.callee, h.service]; exact hc

/-- Every call of the second state is one of the first, and its callee still provides its service unless it has ended. -/
theorem callLaw_of (hold : ∀ n d, t.slot n = some d → ∃ c, s.slot n = some c ∧ SameCall c d) (hposts : t.posts = s.posts)
    (hprov : ∀ n d, t.slot n = some d → Unended d → Provided s d → Provided t d) (h : CallLaw s) : CallLaw t := by
  have hu := h.2
  refine ⟨fun n d hd => ?_, fun n m x y hx hy hxy => ?_⟩
  · obtain ⟨c, hs, hc⟩ := hold n d hd
    obtain ⟨h1, h2, h3, -⟩ := h.1 n c hs
    rw [hc.caller, hc.callee, hc.postOrder, hposts, hc.lease]
    refine ⟨h1, h2, h3, fun hdu => ?_⟩
    rw [← hc.callee]
    exact hprov n d hd hdu (hc.provided (provided_of_unended h hs (hc.unended hdu)))
  · obtain ⟨c, hs, hc⟩ := hold n x hx
    obtain ⟨d, ht, hd⟩ := hold m y hy
    exact hu n m c d hs ht (by rw [← hc.postOrder, ← hd.postOrder, hxy])

theorem Older.same (h : Older s t) : ∀ n d, t.slot n = some d → ∃ c, s.slot n = some c ∧ SameCall c d :=
  fun n d hd => (h n d hd).imp fun _ ⟨hs, hc⟩ => ⟨hs, hc.same⟩

theorem callLaw_samePart (h : SamePart s t) : CallLaw s → CallLaw t := by
  simp only [CallLaw, h.slot, h.posts, h.online, h.entry]; exact id

theorem concurrencyLaw_samePart (h : SamePart s t) : ConcurrencyLaw s → ConcurrencyLaw t := by
  simp only [ConcurrencyLaw, h.slots, h.directory]; exact id

/-! ### The directory's changes -/

/-- An entry that a removal keeps is still its service's. -/
theorem entry_of_filter {f : Service → Bool} (hd : t.directory = s.directory.filter f) (h : s.entry id = some e)
    (hf : f e = true) : t.entry id = some e := by
  rw [State.entry] at h ⊢
  rw [hd, List.find?_filter]
  obtain ⟨hp, as, bs, has, hno⟩ := List.find?_eq_some_iff_append.1 h
  refine List.find?_eq_some_iff_append.2 ⟨by simpa [hf] using hp, as, bs, has, fun a ha => ?_⟩
  have := hno a ha
  simp only [Bool.not_eq_true'] at this
  simp [this]

theorem entry_id (h : s.entry id = some e) : e.id = id := by
  have := List.find?_some h
  simpa using this

theorem Running.posts (h : Running s t) : t.posts = s.posts := by
  cases h with
  | quiet h =>
    cases h with
    | link h => exact h.posts
    | withdrawn p id => rw [CallTable.withdraw_frame]
    | cancelled n c => rw [CallTable.cancelPending_eq]
    | cancelAsked n c => unfold State.askCancel; simp only []; split <;> rfl
    | expired n => exact failCall_posts s n _
    | collected | noticesRead | claimed | released | resetRose | resetPin | scrubbed | pulseEnded | ticked => rfl
  | answered p e r ws =>
    by_cases h : ∃ c, s.slot e.slot = some c ∧ c.isInService = true
    · obtain ⟨c, hs, hi⟩ := h
      rw [answerSlot_eq hs hi]; rfl
    · rw [answerSlot_not fun c hs hi => h ⟨c, hs, hi⟩]; rfl
  | popped | nested => rfl
  | overran n c => exact failCall_posts (s.orphanOverrun c.callee n c.tag) n _

/-- A running effect leaves the directory, or is a withdrawal. -/
theorem Running.directory_or (h : Running s t) :
    t.directory = s.directory ∨
      ∃ p id e, s.entry id = some e ∧ e.provider = p ∧ s.inServiceCount id = 0 ∧ t = s.withdraw p id := by
  cases h with
  | quiet h =>
    cases h with
    | link h => exact .inl h.directory
    | withdrawn p id e he hp h0 => exact .inr ⟨p, id, e, he, hp, h0, rfl⟩
    | cancelled n c => exact .inl (cancelPending_directory s n c)
    | cancelAsked n c => exact .inl (askCancel_directory s n c)
    | expired n => exact .inl (failCall_directory s n _)
    | collected | noticesRead | claimed | released | resetRose | resetPin | scrubbed | pulseEnded | ticked => exact .inl rfl
  | answered p e r ws => exact .inl (answerSlot_directory s e.slot r ws)
  | popped | nested => exact .inl rfl
  | overran n c => exact .inl (failCall_directory (s.orphanOverrun c.callee n c.tag) n _)

theorem service_of_count_zero (h : s.inServiceCount id = 0) (hs : s.slot n = some c) (hi : c.isInService = true) :
    c.service ≠ id := by
  rintro rfl
  have hpos : 0 < s.inServiceCount c.service := by
    rw [State.inServiceCount, count_eq_finRange, List.countP_pos_iff]
    exact ⟨n, List.mem_finRange n, (any_slot s n _).2 ⟨c, hs, by simp [hi]⟩⟩
  omega

/-- No unended call of the service is left by its withdrawal. -/
theorem withdraw_service (h : CallLaw s) (he : s.entry id = some e) (h0 : s.inServiceCount id = 0)
    (hd : (s.withdraw e.provider id).slot n = some d) (hu : Unended d) : d.service ≠ id := by
  obtain ⟨c, hs, hr⟩ := (failCalls_older _ _ (CallTable.without s id)) n d hd
  have hs : s.slot n = some c := hs
  rw [hr.service]
  intro hid
  rcases hr.unended hu with hp | hi
  · obtain ⟨-, x, hx, hq⟩ := provided_of_unended h hs (.inl hp)
    rw [hid, he] at hx; cases hx
    have hmem := (CallTable.mem_waitingOf (p := e.provider) (id := id) hs).2 ⟨hp, hq.symm, hid⟩
    rw [State.withdraw, failCalls_slot, if_pos hmem] at hd
    obtain ⟨y, hy, rfl⟩ := Option.map_eq_some_iff.1 hd
    have hy : s.slot n = some y := hy
    rw [hs] at hy; cases hy
    rw [hp] at hu
    exact failed_not_unended c _ hu
  · exact service_of_count_zero h0 hs hi hid

theorem Running.provided (h : Running s t) (hc : CallLaw s) (hd : t.slot n = some d) (hu : Unended d)
    (hp : Provided s d) : Provided t d := by
  obtain ⟨hon, e, he, hq⟩ := hp
  refine ⟨(h.service.online _).trans hon, e, ?_, hq⟩
  rcases h.directory_or with hdir | ⟨p, id, e', he', rfl, h0, rfl⟩
  · rw [State.entry, hdir]; exact he
  · refine entry_of_filter (withdraw_directory s _ id) he (decide_eq_true ?_)
    rw [entry_id he]
    exact withdraw_service hc he' h0 hd hu

/-! ### The effects -/

theorem take_same (p : Port) (hs : s.slot n = some c) (hp : c.isPending = true) :
    ∀ m d, (s.take p n c).slot m = some d → ∃ x, s.slot m = some x ∧ SameCall x d := by
  intro m d hd
  rw [take_slot] at hd
  split at hd
  · next hm =>
    subst hm
    cases hd
    exact ⟨c, hs, rfl, rfl, rfl, rfl, rfl, fun _ => .inl hp⟩
  · exact ⟨d, hd, rfl, rfl, rfl, rfl, rfl, id⟩

theorem post_posts (s : State) (n : SlotNo) (c : Call) : (s.post n c).posts = s.posts + 1 := by
  rw [State.post, modLease_posts]; rfl

theorem take_posts (s : State) (p : Port) (n : SlotNo) (c : Call) : (s.take p n c).posts = s.posts := by
  rw [State.take, modPort_posts, modLease_posts]; rfl

/-- A posted call is younger than every other (R3). -/
theorem post_callLaw (hne : c.caller ≠ c.callee) (ho : c.postOrder = s.posts)
    (hl : ∀ l, c.lease = some l → (1 ≤ l.count ∧ l.count ≤ 16) ∧ l.first + l.count ≤ 256) (hp : Provided s c)
    (h : CallLaw s) : CallLaw (s.post n c) := by
  have hprov : ∀ d, Provided s d → Provided (s.post n c) d := fun d ⟨hon, hd⟩ => by
    refine ⟨?_, ?_⟩
    · rw [State.online, post_port]; exact hon
    · rw [State.entry, post_directory]; exact hd
  have hyoung : ∀ {m d}, s.slot m = some d → d.postOrder < c.postOrder := fun {m d} hd => by
    obtain ⟨-, hlt, -⟩ := h.1 m d hd
    rw [ho]; exact hlt
  refine ⟨fun m d hd => ?_, fun k m x y hx hy hxy => ?_⟩
  · rw [post_slot] at hd
    rw [post_posts]
    split at hd
    · cases hd
      exact ⟨hne, by omega, hl, fun _ => hprov c hp⟩
    · obtain ⟨h1, h2, h3, h4⟩ := h.1 m d hd
      exact ⟨h1, by omega, h3, fun hu => hprov d (h4 hu)⟩
  · rw [post_slot] at hx hy
    split at hx <;> split at hy
    · next hk hm => rw [← hk, hm]
    · cases hx
      have := hyoung hy
      omega
    · cases hy
      have := hyoung hx
      omega
    · exact h.2 k m x y hx hy hxy

theorem departure_posts (s : State) (p : Port) (m : PortMode) : (s.departure p m).posts = s.posts := by
  rw [departure_frame]

theorem effect_callLaw (h : Effect s t) (hdir : DirectoryLaw s) (hv : ServiceLaw s) (hc : CallLaw s) : CallLaw t := by
  cases h with
  | running h => exact callLaw_of h.older.same h.posts (fun n d => h.provided hc) hc
  | attached p o =>
    refine callLaw_of (s := s) (older_of_slots rfl).same rfl (fun n d _ _ ⟨hon, hd⟩ => ⟨?_, hd⟩) hc
    rw [State.online, modPort_port]
    split
    · rfl
    · exact hon
  | registered e =>
    refine callLaw_of (s := s) (older_of_slots rfl).same rfl (fun n d _ _ ⟨hon, x, hx, hq⟩ => ⟨hon, x, ?_, hq⟩) hc
    rw [State.entry, List.find?_append]
    rw [State.entry] at hx
    rw [hx]; rfl
  | posted n p c e _ hon he hcp hq hne ho hst hr =>
    obtain ⟨-, -, hprovider⟩ := hdir.2.2 e (List.mem_of_find?_eq_some he)
    obtain ⟨-, -, -, hl, -⟩ := hr
    refine post_callLaw (by rw [hcp, hq]; exact Ne.symm hne) ho (fun l h => ?_) ⟨hq ▸ hprovider, e, he, hq.symm⟩ hc
    obtain ⟨h1, h2, h3⟩ := hl l h
    exact ⟨⟨h1, h2⟩, h3⟩
  | taken p n c hon hs hp =>
    refine callLaw_of (take_same p hs hp) (take_posts s p n c) (fun m d _ _ ⟨hon, hd⟩ => ⟨?_, ?_⟩) hc
    · rw [State.online, take_port]
      split <;> exact hon
    · rw [State.entry, take_directory]; exact hd
  | departed p m _ _ _ _ _ h =>
    refine callLaw_samePart h.toSamePart ?_
    have hst := stackAgrees_of_serviceLaw hv p
    refine callLaw_of (departure_older s p m).same (departure_posts s p m) (fun n d hd hu ⟨hon, e, he, hq⟩ => ?_) hc
    have hne : d.callee ≠ p := by
      obtain ⟨x, hx, hxr⟩ := departure_failed_older s p m n d hd
      rw [hxr.callee]
      exact failed_callee hst hx (hxr.unended hu)
    refine ⟨(departure_online_other s m hne).trans hon, e, ?_, hq⟩
    exact entry_of_filter (departure_directory s p m) he (decide_eq_true (hq ▸ hne))
  | reset a b _ h =>
    refine callLaw_samePart h.toSamePart ⟨fun n c hs => ?_, fun n m c d hs => ?_⟩ <;>
    · rw [resetWith_slot] at hs; cases hs

/-! ### The concurrency limits -/

theorem concurrencyLaw_of (hold : InServiceFrom s t) (hdir : t.directory.Sublist s.directory) (h : ConcurrencyLaw s) :
    ConcurrencyLaw t := by
  intro e he
  refine (count_mono fun n hn => ?_).trans (h e (hdir.subset he))
  obtain ⟨d, hd, hf⟩ := (any_slot t n _).1 hn
  simp only [Bool.and_eq_true, beq_iff_eq] at hf
  obtain ⟨c, hs, hr⟩ := hold n d hd hf.1
  refine (any_slot s n _).2 ⟨c, hs, ?_⟩
  simp only [Bool.and_eq_true, beq_iff_eq]
  exact ⟨hr.inService hf.1, hr.service ▸ hf.2⟩

/-- The limit of the service whose call is taken. -/
theorem limit_of_underLimit (hd : DirectoryLaw s) (hu : s.underLimit id = true) (he : e ∈ s.directory) (hid : e.id = id) :
    s.inServiceCount id < e.concurrency := by
  obtain ⟨x, hx, hlt⟩ := (Option.any_eq_true _ _).1 hu
  have : x = e := List.inj_on_of_nodup_map hd.2.1 (List.mem_of_find?_eq_some hx) he ((entry_id hx).trans hid.symm)
  exact this ▸ of_decide_eq_true hlt

theorem effect_concurrencyLaw (h : Effect s t) (hd : DirectoryLaw s) (hc : CallLaw s) (hk : ConcurrencyLaw s) :
    ConcurrencyLaw t := by
  cases h with
  | running h => exact concurrencyLaw_of h.older.inServiceFrom h.directory hk
  | attached p o => exact hk
  | registered e _ hnew =>
    intro x hx
    rcases List.mem_append.1 hx with hx | hx
    · exact hk x hx
    · rw [List.mem_singleton] at hx
      subst hx
      refine (count_zero fun n => Bool.eq_false_iff.2 fun hn => ?_).le.trans (Nat.zero_le _)
      obtain ⟨c, hs, hf⟩ := (any_slot s n _).1 hn
      simp only [Bool.and_eq_true, beq_iff_eq] at hf
      obtain ⟨-, y, hy, -⟩ := provided_of_unended hc hs (.inr hf.1)
      rw [hf.2, hnew] at hy
      cases hy
  | posted n p c e _ _ _ _ _ _ _ hst =>
    exact concurrencyLaw_of (post_inServiceFrom hst) (by rw [post_directory]) hk
  | taken p n c _ _ _ _ _ _ _ hu =>
    intro e he
    rw [take_directory] at he
    rw [take_slots]
    by_cases hid : e.id = c.service
    · have := limit_of_underLimit hd hu he hid
      rw [← hid] at this
      exact (count_set_le _ _ _ _).trans this
    · refine (count_mono fun m hm => ?_).trans (hk e he)
      rw [Table.get_set] at hm
      split at hm
      · exact absurd (by simpa [Call.isInService] using hm) (Ne.symm hid)
      · exact hm
  | departed p m _ _ _ _ _ h =>
    refine concurrencyLaw_samePart h.toSamePart (concurrencyLaw_of (departure_older s p m).inServiceFrom ?_ hk)
    rw [departure_directory]
    exact List.filter_sublist
  | reset a b _ h =>
    refine concurrencyLaw_samePart h.toSamePart fun e he => ?_
    cases he

end Sys2Proof.Steps
end

section
/-! SUPPORT. The law of the departed ports (R46, R74, R117), and with it the whole law of the part: nothing names a port that is
not ONLINE, so no effect gives it an entry, a notice or a block. -/

namespace Sys2Proof.Steps

open Sys2Proof Sys2Proof.Machine Sys2Proof.Safety Sys2Proof.Statement

variable {s t u : State} {p q : Port} {n m : SlotNo} {c d : Call} {b : BlockNo}

/-! ### Owners and borrowers -/

/-- The owner and the borrower of every block of the second state are those of the first, or ONLINE. -/
def BlocksFrom (s t : State) : Prop :=
  ∀ b q, ((t.block b).owner = some q → (s.block b).owner = some q ∨ s.online q = true) ∧
    ((t.block b).borrower = some q → (s.block b).borrower = some q ∨ s.online q = true)

theorem blocksFrom_of (h : ∀ b, t.block b = s.block b ∨ t.block b = returned (s.block b) ∨
    ∀ q, ((t.block b).owner = some q → s.online q = true) ∧ (t.block b).borrower ≠ some q) : BlocksFrom s t := by
  have hret : ∀ k, (returned k).borrower = none := fun k => by cases k <;> rfl
  intro b q
  rcases h b with e | e | e
  · rw [e]; exact ⟨.inl, .inl⟩
  · rw [e, returned_owner, hret]
    exact ⟨.inl, nofun⟩
  · exact ⟨fun h => .inr ((e q).1 h), fun h => absurd h (e q).2⟩

theorem blocksFrom_of_returned (h : ∀ b, t.block b = s.block b ∨ t.block b = returned (s.block b)) : BlocksFrom s t :=
  blocksFrom_of fun b => (h b).imp_right .inl

theorem blocksFrom_same (h : t.blocks = s.blocks := by rfl) : BlocksFrom s t :=
  blocksFrom_of fun b => .inl (by rw [State.block, h, State.block])

/-- A block that no port owns is no port's. -/
theorem unowned {k : Block} (h : k.owner = none) : (k.owner = some q → s.online q = true) ∧ k.borrower ≠ some q := by
  cases k with
  | free | scrub => exact ⟨nofun, nofun⟩
  | owned | pledged | lent => cases h

theorem Quiet.blocksFrom (h : Quiet s t) : BlocksFrom s t := by
  cases h with
  | link h => exact blocksFrom_same h.blocks
  | withdrawn p id => exact blocksFrom_of_returned fun b => failCalls_block _ b _ (CallTable.without s id)
  | cancelled n c => exact blocksFrom_of_returned (cancelPending_block s n c)
  | cancelAsked n c => exact blocksFrom_same (askCancel_blocks s n c)
  | expired n => exact blocksFrom_of_returned (failCall_block s n _)
  | collected | noticesRead | resetRose | resetPin | pulseEnded | ticked => exact blocksFrom_same
  | claimed p first count hon =>
    refine blocksFrom_of fun b => ?_
    simp only [State.block, State.claim, Table.get_map]
    split
    · exact .inr (.inr fun q => ⟨fun h => Option.some.inj h ▸ hon, nofun⟩)
    · exact .inl rfl
  | released p first count =>
    refine blocksFrom_of fun b => ?_
    simp only [State.block, State.release, appendScrub_blocks, Table.get_map]
    split
    · exact .inr (.inr fun q => unowned rfl)
    · exact .inl rfl
  | scrubbed b =>
    refine blocksFrom_of fun k => ?_
    simp only [State.block, Table.get_set]
    split
    · exact .inr (.inr fun q => unowned rfl)
    · exact .inl rfl

theorem Running.blocksFrom (h : Running s t) : BlocksFrom s t := by
  cases h with
  | quiet h => exact h.blocksFrom
  | answered p e r ws => exact blocksFrom_of_returned (answerSlot_block s e.slot r ws)
  | popped | nested => exact blocksFrom_same
  | overran n c => exact blocksFrom_of_returned (failCall_block (s.orphanOverrun c.callee n c.tag) n _)

/-! ### Notices -/

theorem modPort_port_ne {f : PortState → PortState} (h : p ≠ q) : (s.modPort p f).port q = s.port q := by
  rw [modPort_port, if_neg h]

theorem failCall_port_other {why : Failure} (h : ∀ c, s.slot n = some c → c.caller ≠ q) :
    (s.failCall n why).port q = s.port q := by
  by_cases hc : ∃ c, s.slot n = some c ∧ Unended c
  · obtain ⟨c, hs, hu⟩ := hc
    rw [failCall_eq hs hu, modPort_port_ne (h c hs)]; rfl
  · rw [failCall_ended fun c hs hu => hc ⟨c, hs, hu⟩]

theorem failedNotices_nil {why : Failure} {ns : List SlotNo} (h : ∀ n c, s.slot n = some c → c.caller ≠ q) :
    failedNotices s q why ns = [] := by
  rw [failedNotices, List.filterMap_eq_nil_iff]
  intro n _
  cases hs : s.slot n with
  | none => rfl
  | some c => exact if_neg (h n c hs)

theorem answerSlot_port_other {r : Byte} {ws : List Word} (h : ∀ c, s.slot n = some c → c.caller ≠ q) :
    (s.answerSlot n r ws).port q = s.port q := by
  by_cases hc : ∃ c, s.slot n = some c ∧ c.isInService = true
  · obtain ⟨c, hs, hi⟩ := hc
    rw [answerSlot_eq hs hi, modPort_port_ne (h c hs)]; rfl
  · rw [answerSlot_not fun c hs hi => hc ⟨c, hs, hi⟩]

theorem askCancel_port_other (h : c.callee ≠ q) : (s.askCancel n c).port q = s.port q := by
  unfold State.askCancel
  simp only []
  split
  · exact modPort_port_ne h
  · rfl

/-- A port that has posted no unended call and serves none gets no notice. -/
theorem Quiet.notices (h : Quiet s t) (hcaller : ∀ n c, s.slot n = some c → c.caller ≠ q)
    (hcallee : ∀ n c, s.slot n = some c → Unended c → c.callee ≠ q) (hn : (s.port q).notices = []) :
    (t.port q).notices = [] := by
  have same : t.port q = s.port q → (t.port q).notices = [] := fun e => by rw [e, hn]
  cases h with
  | link h => rw [h.notices, hn]
  | withdrawn p id => rw [CallTable.withdraw_port, failedNotices_nil hcaller, hn]; rfl
  | cancelled n c => exact same (cancelPending_port s n c q)
  | cancelAsked n c hs hi => exact same (askCancel_port_other (hcallee n c hs (.inr hi)))
  | collected n c hs => exact same (modPort_port_ne (s := s.setSlot n none) (hcaller n c hs))
  | expired n => exact same (failCall_port_other (hcaller n))
  | noticesRead p k =>
    rw [modPort_port]
    split
    · rw [hn, List.drop_nil]
    · exact hn
  | ticked => rw [State.port, Table.get_map]; exact hn
  | pulseEnded p =>
    rw [modPort_port]
    split <;> exact hn
  | claimed | released | resetRose | resetPin | scrubbed => exact same rfl

theorem Running.notices (h : Running s t) (hcaller : ∀ n c, s.slot n = some c → c.caller ≠ q)
    (hcallee : ∀ n c, s.slot n = some c → Unended c → c.callee ≠ q) (hstack : (s.port q).stack = [])
    (hn : (s.port q).notices = []) : (t.port q).notices = [] := by
  have top : ∀ {p e}, (s.port p).stack.getLast? = some e → p ≠ q := by
    rintro p e ht rfl
    rw [hstack] at ht; cases ht
  cases h with
  | quiet h => exact h.notices hcaller hcallee hn
  | answered p e r ws ht =>
    have hp : ((s.answerSlot e.slot r ws).pop p e).port q = (s.answerSlot e.slot r ws).port q := modPort_port_ne (top ht)
    rw [hp, answerSlot_port_other (hcaller e.slot), hn]
  | popped p e ht =>
    have hp : (s.pop p e).port q = s.port q := modPort_port_ne (top ht)
    rw [hp, hn]
  | nested p nest =>
    rw [modPort_port]
    split <;> exact hn
  | overran n c hs hi =>
    have hp : (s.orphanOverrun c.callee n c.tag).port q = s.port q := modPort_port_ne (hcallee n c hs (.inr hi))
    rw [failCall_port_other (s := s.orphanOverrun c.callee n c.tag) (hcaller n), hp, hn]

/-! ### The departed ports -/

/-- What the law says of one port that is not ONLINE. -/
structure Departed (s : State) (q : Port) : Prop where
  stack : (s.port q).stack = []
  notices : (s.port q).notices = []
  owner : ∀ b, (s.block b).owner ≠ some q
  borrower : ∀ b, (s.block b).borrower ≠ some q

theorem departedLaw_iff (s : State) : DepartedLaw s ↔ ∀ q, s.online q = false → Departed s q := by
  refine forall_congr' fun q => imp_congr_right fun _ => ?_
  exact ⟨fun ⟨h1, h2, h3⟩ => ⟨h1, h2, fun b => (h3 b).1, fun b => (h3 b).2⟩,
    fun ⟨h1, h2, h3, h4⟩ => ⟨h1, h2, fun b => ⟨h3 b, h4 b⟩⟩⟩

theorem departedLaw_samePart (h : SamePart s t) : DepartedLaw s → DepartedLaw t := by
  simp only [DepartedLaw, h.online, h.stack, h.notices, h.block]; exact id

/-- A port that is not ONLINE before and after gets no entry, no notice and no block. -/
theorem Departed.of (h : Departed s q) (hoff : s.online q = false) (hb : BlocksFrom s t) (hs : (t.port q).stack = [])
    (hn : (t.port q).notices = []) : Departed t q := by
  have off : ¬s.online q = true := by simp [hoff]
  exact ⟨hs, hn, fun b hq => (((hb b q).1 hq).resolve_right off |> h.owner b),
    fun b hq => (((hb b q).2 hq).resolve_right off |> h.borrower b)⟩

theorem StackRuns.nil {a : List StackEntry} (h : StackRuns [] a) : a = [] := List.eq_nil_of_length_eq_zero (Nat.le_zero.1 h.length)

theorem not_callee_of_not_online (h : CallLaw s) (hq : s.online q = false) (hs : s.slot n = some c) (hu : Unended c) :
    c.callee ≠ q := by
  rintro rfl
  obtain ⟨hon, -⟩ := provided_of_unended h hs hu
  rw [hq] at hon; cases hon

theorem post_blocksFrom (hon : s.online c.caller = true)
    (hown : ∀ l, c.lease = some l → AllOwned s c.caller l.first l.count) : BlocksFrom s (s.post n c) := by
  obtain ⟨hin, hout⟩ := post_block (n := n) hown
  refine blocksFrom_of fun b => ?_
  cases hb : inLease c.lease b with
  | false => exact .inl (hout b hb)
  | true =>
    obtain ⟨l, hl, hc⟩ := inLease_eq_some hb
    rw [(hin l b hl hc).2]
    exact .inr (.inr fun q => ⟨fun h => Option.some.inj h ▸ hon, nofun⟩)

theorem take_blocksFrom (hon : s.online c.callee = true) : BlocksFrom s (s.take p n c) := by
  intro b q
  rw [take_block]
  split
  · cases s.block b with
    | pledged o m k => exact ⟨.inl, fun h => .inr (Option.some.inj h ▸ hon)⟩
    | free | scrub | owned | lent => exact ⟨.inl, .inl⟩
  · exact ⟨.inl, .inl⟩

theorem departure_blocksFrom (s : State) (p : Port) (m : PortMode) : BlocksFrom (failed s p) (s.departure p m) := by
  refine blocksFrom_of fun b => ?_
  rw [departure_block, Block.afterDeparture, giveBack_eq]
  split
  · exact .inr (.inr fun q => unowned rfl)
  · split
    · exact .inr (.inl rfl)
    · exact .inl rfl

/-- The departing port owns and borrows nothing (R117). -/
theorem departed_self (s : State) (p : Port) (m : PortMode) : Departed (s.departure p m) p := by
  have hk : ∀ k : Block, (k.afterDeparture p).owner ≠ some p ∧ (k.afterDeparture p).borrower ≠ some p := by
    intro k
    rw [Block.afterDeparture]
    split
    · exact ⟨nofun, nofun⟩
    · next ho =>
      split
      · rw [giveBack_eq]
        refine ⟨by rw [returned_owner]; exact ho, ?_⟩
        cases k <;> exact nofun
      · next hb => exact ⟨ho, hb⟩
  refine ⟨by rw [departure_port], by rw [departure_port], fun b => ?_, fun b => ?_⟩ <;> rw [departure_block]
  exacts [(hk _).1, (hk _).2]

/-- A port that had departed before hears nothing of another's departure. -/
theorem departed_other (m : PortMode) (hst : StackAgrees s p) (hq : q ≠ p) (hoff : s.online q = false)
    (hcaller : ∀ n c, s.slot n = some c → c.caller ≠ q) (h : Departed s q) : Departed (s.departure p m) q := by
  have hf : ((failed s p).port q).notices = [] := by
    rw [CallTable.failed_notices hst, h.notices, failedNotices_nil hcaller]; rfl
  have hport := departure_other s m hq _ hf
  have hfail : Departed (failed s p) q := by
    refine h.of hoff (blocksFrom_of_returned fun b => failCalls_block _ b _ s) ?_ hf
    obtain ⟨l, hl⟩ := failCalls_port .peerGone q (s.servedSlots p) s
    rw [failed, hl]; exact h.stack
  refine hfail.of ?_ (departure_blocksFrom s p m) ?_ ?_
  · obtain ⟨l, hl⟩ := failCalls_port .peerGone q (s.servedSlots p) s
    rw [State.online, failed, hl]; exact hoff
  · rw [hport, h.stack]; rfl
  · rw [hport, h.stack, if_neg fun hc => by rw [State.online] at hoff; rw [hoff] at hc; cases hc.1]; rfl

theorem effect_departedLaw (h : Effect s t) (hquota : QuotaLaw s) (hc : CallLaw s) (hv : ServiceLaw s)
    (hd : DepartedLaw s) : DepartedLaw t := by
  rw [departedLaw_iff] at hd
  have caller : ∀ {q}, s.online q = false → ∀ n c, s.slot n = some c → c.caller ≠ q :=
    fun hq n c hs => not_posted_of_not_online hquota hq hs
  cases h with
  | running h =>
    refine (departedLaw_iff t).2 fun q hq => ?_
    rw [h.service.online] at hq
    have hs := hd q hq
    refine hs.of hq h.blocksFrom (StackRuns.nil (hs.stack ▸ h.service.stack q)) ?_
    exact h.notices (caller hq) (fun n c => not_callee_of_not_online hc hq) hs.stack hs.notices
  | attached p o =>
    refine (departedLaw_iff _).2 fun q hq => ?_
    rw [State.online, modPort_port] at hq
    split at hq
    · cases hq
    · next hp =>
      have hs := hd q hq
      exact hs.of hq blocksFrom_same (by rw [modPort_port_ne hp, hs.stack]) (by rw [modPort_port_ne hp, hs.notices])
  | registered e => exact (departedLaw_iff s).2 hd
  | posted n p c e _ hon _ hcp _ _ _ _ _ _ hown =>
    refine (departedLaw_iff _).2 fun q hq => ?_
    rw [State.online, post_port] at hq
    have hs := hd q hq
    exact hs.of hq (post_blocksFrom (hcp ▸ hon) (hcp ▸ hown)) (by rw [post_port, hs.stack]) (by rw [post_port, hs.notices])
  | taken p n c hon _ _ hq =>
    refine (departedLaw_iff _).2 fun r hr => ?_
    have hne : p ≠ r := by
      rintro rfl
      rw [State.online, take_port, if_pos rfl] at hr
      rw [State.online] at hon
      rw [hon] at hr; cases hr
    have hport : (s.take p n c).port r = s.port r := by rw [take_port, if_neg hne]
    rw [State.online, hport] at hr
    have hs := hd r hr
    exact hs.of hr (take_blocksFrom (hq ▸ hon)) (by rw [hport, hs.stack]) (by rw [hport, hs.notices])
  | departed p m _ _ _ _ _ h =>
    refine departedLaw_samePart h.toSamePart ((departedLaw_iff _).2 fun q hq => ?_)
    by_cases e : q = p
    · subst e; exact departed_self s q m
    · rw [departure_online_other s m e] at hq
      exact departed_other m (stackAgrees_of_serviceLaw hv p) e hq (caller hq) (hd q hq)
  | reset a b _ h =>
    refine departedLaw_samePart h.toSamePart ((departedLaw_iff _).2 fun q _ => ⟨?_, ?_, fun k => ?_, fun k => ?_⟩)
    · rw [resetWith_port]; rfl
    · rw [resetWith_port]; rfl
    · rw [resetWith_block]; exact nofun
    · rw [resetWith_block]; exact nofun

/-! ### The whole law -/

theorem partLaw_samePart (h : SamePart s t) : PartLaw s → PartLaw t :=
  fun ⟨h1, h2, h3, h4, h5, h6, h7, h8, h9⟩ =>
    ⟨stackLaw_samePart h h1, directoryLaw_samePart h h2, quotaLaw_samePart h h3, callLaw_samePart h h4,
      serviceLaw_samePart h h5, leaseLaw_samePart h h6, concurrencyLaw_samePart h h7, departedLaw_samePart h h8,
      scrubLaw_samePart h h9⟩

theorem effect_partLaw (h : Effect s t) : PartLaw s → PartLaw t :=
  fun ⟨h1, h2, h3, h4, h5, h6, h7, h8, h9⟩ =>
    ⟨effect_stackLaw h h1, effect_directoryLaw h h2, effect_quotaLaw h h3, effect_callLaw h h2 h5 h4, effect_serviceLaw h h5,
      effect_leaseLaw h h5 h9 h6, effect_concurrencyLaw h h2 h4 h7, effect_departedLaw h h3 h4 h5 h8, effect_scrubLaw h h9⟩

/-- Settles O59: each law is kept by every effect, given the others before it. -/
theorem everyStepKeepsPartLaw : Obligations.EveryStepKeepsPartLaw := fun _ _ hs h =>
  step_keeps partLaw_samePart effect_partLaw h hs

end Sys2Proof.Steps
end

section
/-! SUPPORT. What a departure leaves of its port and of the service directory, and Register Service. -/

namespace Sys2Proof.ServiceDirectory

open Sys2Proof Sys2Proof.Machine Sys2Proof.Statement

variable {s : State} {p : Port}

/-! ### The departing port and the directory -/

/-- A frame in progress that is no streamed read is not touched by its port's departure (R157). -/
theorem depart_of_not_streaming {a : Assembler} (h : ∀ v k rest x, a ≠ .reply v k rest (some x)) : a.depart = a := by
  cases a with
  | idle | request _ _ | trailer _ _ => rfl
  | reply v k rest data =>
    cases data with
    | none => rfl
    | some x => exact absurd rfl (h v k rest x)

/-- Settles O20: the departing port's records, another port's, and the frame of a departure. -/
theorem departureEmptiesThePort : Obligations.DepartureEmptiesThePort := by
  rintro p after s t rfl
  have hself := departure_port s p after
  have hasm : ((s.departure p after).port p).asm = (s.port p).asm.depart := congrArg PortState.asm hself
  refine ⟨?_, fun v k rest x h => ?_, fun h => ?_, fun q hq => ?_, ?_⟩
  · rw [hasm, hself]
  · rw [hasm, h]; rfl
  · rw [hasm, depart_of_not_streaming h]
  · obtain ⟨l, hother⟩ := Steps.departure_port_other s after hq
    rw [hother]
  · have hframe := departure_frame s p after
    generalize s.departure p after = t at hframe ⊢
    rw [hframe]

/-! ### Register Service -/

section
variable {id conc hi lo leases : Byte}

/-- The entry that Register Service's five parameters describe, the port being its provider (R37). -/
def requestedEntry (p : Port) (id conc hi lo leases : Byte) : Service :=
  { id := id.toNat
    provider := p
    concurrency := conc.toNat
    limit := if hi ++ lo = (0 : Word) then none else some (hi ++ lo : Word).toNat
    leases := decide (leases.toNat = 1) }

/-- A yes/no byte in range says yes exactly at 1 (R189). -/
theorem yesNo_of_le {n : Nat} (h : n ≤ 1) : yesNo? n = some (decide (n = 1)) := by
  obtain rfl | rfl : n = 0 ∨ n = 1 := by omega
  · rfl
  · rfl

/-- With parameters in range on an ONLINE port, what is left is R36's and R37's treatment of the requested entry. -/
theorem registerService_inRange (ho : s.online p = true) (h1 : 1 ≤ id.toNat) (h2 : id.toNat ≤ 254) (h3 : 1 ≤ conc.toNat)
    (h4 : conc.toNat ≤ 4) (h5 : leases.toNat ≤ 1) :
    registerService p [id, conc, hi, lo, leases] s = registerEntry p (requestedEntry p id conc hi lo leases) s := by
  have hleases : yesNo? (param [id, conc, hi, lo, leases] 4) = some (decide (leases.toNat = 1)) := yesNo_of_le h5
  have hrange : ¬(serviceInRange id.toNat = false ∨ conc.toNat < 1 ∨ 4 < conc.toNat) := by
    simp only [serviceInRange, Bool.and_eq_false_iff, decide_eq_false_iff_not]; omega
  have hlimit : ticks? (paramWord [id, conc, hi, lo, leases] 2).toNat = (requestedEntry p id conc hi lo leases).limit :=
    CallTable.ticks_eq _
  simp only [registerService, hleases, hlimit]
  exact (if_neg hrange).trans (whenOnline_online ho)

/-- A service that has an entry is refused with its provider (R36). -/
theorem registerEntry_duplicate {e old : Service} (h : s.entry e.id = some old) :
    registerEntry p e s = (s, { status := .duplicateService, body := [byteOf old.provider.val] }) := by
  simp only [registerEntry, h]; rfl

/-- The directory has 16 places (R36). -/
theorem registerEntry_full {e : Service} (h : s.entry e.id = none) (hf : 16 ≤ s.directory.length) :
    registerEntry p e s = (s, { status := .directoryFull, body := [] }) := by
  simp only [registerEntry, h]; exact if_pos hf

/-- A new entry joins the end of the directory (R37). -/
theorem registerEntry_new {e : Service} (h : s.entry e.id = none) (hf : s.directory.length < 16) :
    registerEntry p e s =
      ({ s with directory := s.directory ++ [{ e with provider := p }] }, { status := .ok, body := [] }) := by
  simp only [registerEntry, h]; exact if_neg (Nat.not_le.2 hf)

end

/-- Settles O24: one outcome of `registerEntry` per clause, on the port whose frame has verified. -/
theorem registerServiceAddsOneEntry : Obligations.RegisterServiceAddsOneEntry := by
  intro p id conc hi lo leases req s ht h1 h2 h3 h4 h5
  have hh := not_held_of_online ht.2
  have hact := registerService_inRange (s := s.modPort p (verified req)) (hi := hi) (lo := lo)
    ((online_verified s p p req).trans (online_of_isOnline ht.2)) h1 h2 h3 h4 h5
  refine ⟨fun e he => ?_, fun he hf => ?_, fun he hf => ?_⟩
  · exact congrArg _ (runCommand_only_replies ht.1 hh rfl rfl (hact.trans (registerEntry_duplicate he)))
  · exact congrArg _ (runCommand_only_replies ht.1 hh rfl rfl (hact.trans (registerEntry_full he hf)))
  · refine congrArg _ ((runCommand_replies ht.1 hh rfl rfl (hact.trans (registerEntry_new he hf)) ?_).trans ?_)
    · exact congrArg (verified req) (port_verified s p req) |>.trans (port_verified s p req).symm
    · exact modPort_modPort { s with directory := s.directory ++ [requestedEntry p id conc hi lo leases] } p _ _

end Sys2Proof.ServiceDirectory
end

section
/-! SUPPORT. The service stack's law at every step, eligibility by the six conditions of R50, and what the summary byte and MISO
carry. -/

namespace Sys2Proof.ServiceStacks

open Sys2Proof Sys2Proof.Machine Sys2Proof.Safety Sys2Proof.Statement

variable {s : State} {p q : Port} {n : SlotNo} {c : Call}

/-- Settles O53: the stack's law is kept by a link's changes and by every effect, and so by every step. -/
theorem everyStepKeepsStackLaw : Obligations.EveryStepKeepsStackLaw := fun _ _ hs h =>
  Steps.step_keeps Steps.stackLaw_samePart Steps.effect_stackLaw h hs

/-! ### Eligibility -/

/-- Condition 5 of R50. -/
theorem outranks_iff (ps : PortState) (priority : Nat) :
    ps.outranks priority = true ↔ ps.stack = [] ∨ ∃ below e, ps.stack = below ++ [e] ∧ e.priority < priority := by
  unfold PortState.outranks
  rcases List.eq_nil_or_concat ps.stack with h | ⟨below, top, h⟩
  · simp [h]
  · simp [h]

/-- Conditions 1, 3 and 4 of R50. -/
theorem canTake_iff (ps : PortState) :
    ps.canTake = true ↔ (∃ o, ps.mode = .online o) ∧ ps.stack.length < 4 ∧ (ps.stack = [] ∨ ps.nest = .opened) := by
  have hdepth : decide (ps.stack.length < Config.stackDepth) = true ↔ ps.stack.length < 4 := decide_eq_true_iff
  simp only [PortState.canTake, Bool.and_eq_true, Bool.or_eq_true, isOnline_iff, hdepth, List.isEmpty_iff, decide_eq_true_iff,
    and_assoc]

/-- Condition 6 of R50. -/
theorem underLimit_iff (s : State) (id : Nat) :
    s.underLimit id = true ↔ ∃ e, s.entry id = some e ∧ inServiceOf s id < e.concurrency := by
  simp [State.underLimit, Option.any_eq_true]

theorem eligible_of_slot (h : s.slot n = some c) : s.eligible q n = s.eligibleCall q c := by
  rw [State.eligible, h, Option.any_some]

theorem eligible_iff : s.eligible q n = true ↔ ∃ c, s.slot n = some c ∧ s.eligibleCall q c = true := by
  simp [State.eligible, Option.any_eq_true]

theorem eligibleCall_iff :
    s.eligibleCall q c = true ↔
      (s.port q).canTake = true ∧ c.isPending = true ∧ c.callee = q ∧ (s.port q).outranks c.priority = true ∧
        s.underLimit c.service = true := by
  simp [State.eligibleCall, and_assoc]

/-- The waiting condition looks at every slot (R86). -/
theorem waiting_iff : s.waiting q = true ↔ ∃ n, s.eligible q n = true := by
  have h := Table.forall_items s.slots fun c => (c.any fun c => s.eligibleCall q c) = false
  rw [← not_iff_not, Bool.not_eq_true, State.waiting, List.any_eq_false]
  simp only [Bool.not_eq_true, not_exists]
  exact h

/-- Settles O27: each of the model's tests is its conditions of R50. -/
theorem eligibleCallMeetsSixConditions : Obligations.EligibleCallMeetsSixConditions := by
  intro s q
  refine ⟨fun n => ?_, waiting_iff⟩
  simp only [eligible_iff, eligibleCall_iff, canTake_iff, outranks_iff, underLimit_iff]
  constructor
  · rintro ⟨c, hs, ⟨hon, hroom, hnest⟩, hp, hq, ho, hu⟩
    exact ⟨hon, ⟨c, hs, hp, hq, ho, hu⟩, hroom, hnest⟩
  · rintro ⟨hon, ⟨c, hs, hp, hq, ho, hu⟩, hroom, hnest⟩
    exact ⟨c, hs, ⟨hon, hroom, hnest⟩, hp, hq, ho, hu⟩

/-! ### The summary byte -/

/-- Eight indications, weighted from 128 down, are the bits of a byte from bit 7 down. -/
theorem weighted_bits : ∀ a b c d e f g h : Bool,
    let byte := BitVec.ofNat 8
      (bitIf a 128 + bitIf b 64 + bitIf c 32 + bitIf d 16 + bitIf e 8 + bitIf f 4 + bitIf g 2 + bitIf h 1)
    byte.getLsbD 7 = a ∧ byte.getLsbD 6 = b ∧ byte.getLsbD 5 = c ∧ byte.getLsbD 4 = d ∧ byte.getLsbD 3 = e ∧
      byte.getLsbD 2 = f ∧ byte.getLsbD 1 = g ∧ byte.getLsbD 0 = h := by
  decide

/-- The eight bits of the summary byte, in the model's tests (R179, R193). -/
theorem summary_bits (s : State) (p : Port) :
    (s.summary p).getLsbD 7 = s.ready ∧ (s.summary p).getLsbD 6 = (s.port p).lastFrameBad ∧
    (s.summary p).getLsbD 5 = decide ((s.port p).nest = .opened) ∧
    (s.summary p).getLsbD 4 = (!(s.port p).stack.isEmpty) ∧ (s.summary p).getLsbD 3 = s.waiting p ∧
    (s.summary p).getLsbD 2 = (!(s.port p).notices.isEmpty) ∧ (s.summary p).getLsbD 1 = (s.port p).mode.isHeld ∧
    (s.summary p).getLsbD 0 = (s.port p).mode.isOnline :=
  weighted_bits _ _ _ _ _ _ _ _

/-! ### MISO -/

theorem linkLive_iff : s.linkLive p = true ↔ s.powered = true ∧ s.resetHigh = true ∧ (s.port p).prst = true := by
  simp [State.linkLive, and_assoc]

theorem miso_live (h : s.linkLive p = true) : s.miso p = (s.port p).asm.level (s.port p).sck := if_pos h

theorem miso_dead (h : s.linkLive p = false) : s.miso p = none := by simp [State.miso, h]

theorem miso_idle (h : (s.port p).asm = .idle) : s.miso p = none := by simp [State.miso, h, Assembler.level]

/-- The k-th bit sent of a byte, most significant first (R169). -/
theorem getMsbD_byte (v : Byte) {k : Nat} (h : k < 8) : v.getMsbD k = v.getLsbD (7 - k) := by
  simp [BitVec.getMsbD_eq_getLsbD, h]

theorem miso_request {v : Byte} {received : List Bool} (h : s.linkLive p = true) (ha : (s.port p).asm = .request v received) :
    s.miso p =
      some (v.getLsbD (7 - (if (s.port p).sck then (received.length - 1) % 8 else received.length % 8))) := by
  rw [miso_live h, ha, Assembler.level, getMsbD_byte v (by split <;> omega)]

/-- A byte of a reply or of a trailer, of which `k` bits have been shifted out. -/
theorem miso_reply {v : Byte} {k : Nat} (h : s.linkLive p = true)
    (ha : (s.port p).asm = .trailer v k ∨ ∃ rest data, (s.port p).asm = .reply v k rest data) :
    s.miso p = some (v.getMsbD (if (s.port p).sck then k - 1 else k)) := by
  rw [miso_live h]
  obtain ha | ⟨rest, data, ha⟩ := ha <;> rw [ha, Assembler.level]

/-- The fall of SEL# on a live link opens a frame with the summary byte on MISO (R170, R178). -/
theorem selFalling_opens (hsel : (s.port p).sel = true) (h : s.linkLive p = true) :
    ∃ t, exec (.selFalling p) s = .next t ∧ t.linkLive p = true ∧ (t.port p).asm = .request (s.summary p) [] := by
  obtain ⟨hw, hr, hp⟩ := linkLive_iff.1 h
  refine ⟨_, congrArg Host.Outcome.next ((if_pos hsel).trans (if_pos h)), linkLive_iff.2 ⟨hw, hr, ?_⟩, ?_⟩
  · simpa using hp
  · simp

/-- Settles O14: MISO by what the assembler drives, and the summary byte bit by bit. -/
theorem summaryByteAndMisoFollowTheState : Obligations.SummaryByteAndMisoFollowTheState := by
  intro s p
  obtain ⟨h7, h6, h5, h4, h3, h2, h1, h0⟩ := summary_bits s p
  refine ⟨fun hw hr hp => ?_, miso_idle, fun hlow => ?_, fun hf hsel => ?_, fun hsel hw hr hp => ?_, h7, h6, ?_, ?_, ?_, ?_,
    ?_, ?_⟩
  · have hlive : s.linkLive p = true := linkLive_iff.2 ⟨hw, hr, hp⟩
    refine ⟨fun v received ha => ⟨fun hk => ?_, fun hk => ?_⟩, fun v k ha => ⟨fun hk hlt => ?_, fun hk hpos hle => ?_⟩⟩
    · simpa [hk] using miso_request hlive ha
    · simpa [hk] using miso_request hlive ha
    · simpa [hk, getMsbD_byte v hlt] using miso_reply hlive ha
    · have hbit : 7 - (k - 1) = 8 - k := by omega
      simpa [hk, getMsbD_byte v (show k - 1 < 8 by omega), hbit] using miso_reply hlive ha
  · refine miso_dead (Bool.not_eq_true _ ▸ fun hlive => ?_)
    obtain ⟨hw, hr, hp⟩ := linkLive_iff.1 hlive
    simp [hw, hr, hp] at hlow
  · refine miso_idle (by_contra fun hopen => ?_)
    simp [(hf p hopen).2] at hsel
  · obtain ⟨t, hexec, hlive, ha⟩ := selFalling_opens hsel (linkLive_iff.2 ⟨hw, hr, hp⟩)
    exact ⟨t, hexec, by simpa using miso_request hlive ha⟩
  · rw [h5, decide_eq_true_iff]
  · rw [h4]; simp
  · rw [h3, waiting_iff]
  · rw [h2]; simp
  · rw [h1, isHeld_iff]
  · rw [h0, isOnline_iff]

end Sys2Proof.ServiceStacks
end

section
/-! SUPPORT. The service stack's commands: Take Call, Answer Call, Open Nesting, Close Nesting and Stack Status. -/

namespace Sys2Proof.ServiceStacks

open Sys2Proof Sys2Proof.Machine Sys2Proof.Safety Sys2Proof.Statement

variable {s : State} {p : Port} {n : SlotNo} {c : Call} {e : StackEntry} {below : List StackEntry} {req : Request}

/-! ### Nesting and Stack Status -/

/-- A command of an ONLINE port alone, on an OFFLINE one (R149, R150). -/
theorem runCommand_offline {code : Byte} {params : List Byte} {act : State → State × Reply}
    (hr : Receives s p (frame code params) req) (hm : (s.port p).mode = .offline)
    (hl : lengthAllowed code params.length = true := by rfl) (hc : isStatusCode code = false := by rfl) :
    s.runCommand p code params (whenOnline p act) = s.modPort p (replied req code .offline []) :=
  runCommand_only_replies hr (not_held_of_taken (.inl hm)) hl hc
    (whenOnline_not ((online_verified s p p req).trans (not_online_of_offline hm)))

/-- Nesting on an empty stack (R58, R59). -/
theorem setNesting_empty (nest : Nest) (ho : IsOnline s p) (hs : (s.port p).stack = []) :
    setNesting p nest (s.modPort p (verified req)) = refuse .notInService (s.modPort p (verified req)) := by
  rw [setNesting, whenOnline_verified ho, port_verified, verified_stack, hs]
  rfl

/-- Nesting over an entry (R58, R59). -/
theorem setNesting_entry (nest : Nest) (ho : IsOnline s p) (hs : (s.port p).stack ≠ []) :
    setNesting p nest (s.modPort p (verified req)) =
      reply .ok [] ((s.modPort p (verified req)).modPort p fun ps => { ps with nest := nest }) := by
  rw [setNesting, whenOnline_verified ho, port_verified, verified_stack, if_neg (by simpa using hs)]

/-- The outcome of a nesting command's frame, by the port's state and stack (R58, R59). -/
theorem setNesting_outcome {code : Byte} (nest : Nest) (hr : Receives s p (frame code []) req)
    (hl : lengthAllowed code 0 = true := by rfl) (hc : isStatusCode code = false := by rfl)
    {out : Host.Outcome State Fault Refusal} (hout : out = .next (s.runCommand p code [] (setNesting p nest)) := by rfl) :
    ((s.port p).mode = .offline → out = .next (s.modPort p (replied req code .offline []))) ∧
    (IsOnline s p → (s.port p).stack = [] → out = .next (s.modPort p (replied req code .notInService []))) ∧
    (IsOnline s p → (s.port p).stack ≠ [] →
      out = .next (s.modPort p fun ps => replied req code .ok [] { ps with nest := nest })) := by
  subst hout
  refine ⟨fun hm => congrArg _ ?_, fun ho hs => congrArg _ ?_, fun ho hs => congrArg _ ?_⟩
  · exact runCommand_offline hr hm hl hc
  · exact runCommand_only_replies hr (not_held_of_online ho) hl hc (setNesting_empty nest ho hs)
  · exact runCommand_changes_port hr (not_held_of_online ho) hl hc (setNesting_entry nest ho hs) fun _ => rfl

/-- Settles O38: both commands are one, with the NEST that each sets. -/
theorem nestingCommandsSetNest : Obligations.NestingCommandsSetNest := fun _ _ _ =>
  ⟨fun hr => setNesting_outcome .opened hr, fun hr => setNesting_outcome .closed hr⟩

theorem nestByte_eq (x : Nest) : nestByte x = if x = .opened then 0x01 else 0x00 := by cases x <;> rfl

/-- The cancel-asked flag and the remaining limit of an entry, in the statements' words (R67). -/
theorem liveBytes_eq (s : State) (e : StackEntry) :
    liveBytes s e =
      match e.orphaned, s.slot e.slot with
      | false, some c =>
        [yesNoByte c.cancelAsked] ++
          wordOf (match c.state with
            | .inService (some l) => l
            | _ => 0)
      | _, _ => [0x00, 0x00, 0x00] := by
  unfold liveBytes
  cases e.orphaned with
  | true => rfl
  | false =>
    cases s.slot e.slot with
    | none => rfl
    | some c =>
      obtain ⟨_, _, _, _, _, _, _, _, _, st⟩ := c
      rcases st with _ | (_ | _) | _ | _ <;> rfl

/-- Settles O39: the report's bytes, entry by entry. -/
theorem stackStatusReportsEntriesBottomUp : Obligations.StackStatusReportsEntriesBottomUp := by
  intro p req s ht
  refine congrArg _ (runCommand_only_replies ht.1 (not_held_of_online ht.2) rfl rfl ?_)
  rw [stackStatus, whenOnline_verified ht.2, port_verified, verified_nest, verified_stack, nestByte_eq]
  have hentries : entryBytes (s.modPort p (verified req)) = fun e => _ :=
    funext fun e => congrArg (_ ++ ·) (liveBytes_eq s e)
  rw [hentries]
  rfl

/-! ### Take Call -/

/-- The search and its counts read the port's stack alone of the port's records. -/
theorem outranks_verified (s : State) (p : Port) (req : Request) :
    ((s.modPort p (verified req)).port p).outranks = (s.port p).outranks := by
  rw [port_verified]; rfl

theorem chooseCall_verified : ∀ l : List NumberedCall, chooseCall (s.modPort p (verified req)) p l = chooseCall s p l
  | [] => rfl
  | x :: xs => by
    rw [chooseCall, chooseCall, outranks_verified, chooseCall_verified xs]
    rfl

theorem heldBack_verified : (s.modPort p (verified req)).heldBack p = s.heldBack p := by
  rw [State.heldBack, outranks_verified]
  rfl

/-- Take Call on a full stack (R52). -/
theorem takeCall_full (ho : IsOnline s p) (hfull : 4 ≤ (s.port p).stack.length) :
    takeCall p (s.modPort p (verified req)) = refuse .stackFull (s.modPort p (verified req)) := by
  rw [takeCall, whenOnline_verified ho, port_verified, verified_stack]
  exact if_pos hfull

/-- Take Call over an entry with NEST CLOSED (R52). -/
theorem takeCall_closed (ho : IsOnline s p) (hroom : (s.port p).stack.length < 4) (hs : (s.port p).stack ≠ [])
    (hnest : (s.port p).nest = .closed) :
    takeCall p (s.modPort p (verified req)) = refuse .nestClosed (s.modPort p (verified req)) := by
  rw [takeCall, whenOnline_verified ho, port_verified, verified_stack, verified_nest]
  exact (if_neg (Nat.not_le.2 hroom)).trans (if_pos ⟨hs, hnest⟩)

/-- Take Call with room on its stack, and NEST OPEN over an entry, comes to its search (R52, R53). -/
theorem takeCall_searches (ho : IsOnline s p) (hroom : (s.port p).stack.length < 4)
    (hnest : (s.port p).stack = [] ∨ (s.port p).nest = .opened) :
    takeCall p (s.modPort p (verified req)) =
      match chooseCall s p (s.pendingCalls p) with
      | some (n, c) => reply .ok (takenBytes s n c) ((s.modPort p (verified req)).take p n c)
      | none =>
        refuseWith .noneWaiting [byteOf (s.pendingCalls p).length, byteOf (s.heldBack p)] (s.modPort p (verified req)) := by
  have hopen : ¬((s.port p).stack ≠ [] ∧ (s.port p).nest = .closed) := by
    rintro ⟨hs, hk⟩
    simp [hs, hk] at hnest
  have hsearch : chooseCall (s.modPort p (verified req)) p ((s.modPort p (verified req)).pendingCalls p) =
      chooseCall s p (s.pendingCalls p) := chooseCall_verified _
  have hfull : ¬Config.stackDepth ≤ (s.port p).stack.length := Nat.not_le.2 hroom
  rw [takeCall, whenOnline_verified ho, port_verified, verified_stack, verified_nest, hsearch, heldBack_verified,
    if_neg hfull, if_neg hopen]
  cases chooseCall s p (s.pendingCalls p) <;> rfl

/-- A count over a port's pending order is a count over the slots. -/
theorem pendingCalls_countP (s : State) (p : Port) (f : Call → Bool) :
    (s.pendingCalls p).countP (fun x => f x.2) =
      s.slots.count fun c => c.any fun c => c.isPending && c.callee == p && f c := by
  rw [(pendingCalls_perm s p).countP_eq, countP_callsWhere]

theorem pendingCalls_length (s : State) (p : Port) :
    (s.pendingCalls p).length = s.slots.count fun c => c.any fun c => c.isPending && c.callee == p := by
  have h := pendingCalls_countP s p fun _ => true
  simpa using h

/-- The calls held back by their concurrency limit alone, counted over the slots (R56). -/
theorem heldBack_eq (s : State) (p : Port) :
    s.heldBack p =
      s.slots.count fun c =>
        c.any fun c =>
          c.isPending && c.callee == p &&
          (match (s.port p).stack.getLast? with
            | none => true
            | some top => decide (top.priority < c.priority)) &&
          !(s.entry c.service).any fun e => decide (inServiceOf s c.service < e.concurrency) := by
  simp only [inServiceOf_eq]
  refine (pendingCalls_countP s p fun c => (s.port p).outranks c.priority && !s.underLimit c.service).trans ?_
  refine congrArg s.slots.count (funext fun c => ?_)
  cases c with
  | none => rfl
  | some c => exact (Bool.and_assoc _ _ _).symm

/-- A pending call of a port that can take calls is eligible as its priority and its service's limit say. -/
theorem eligible_of_pending (ho : IsOnline s p) (hroom : (s.port p).stack.length < 4)
    (hnest : (s.port p).stack = [] ∨ (s.port p).nest = .opened) (hm : (n, c) ∈ s.pendingCalls p)
    (hr : (s.port p).outranks c.priority = true) (hu : s.underLimit c.service = true) : s.eligible p n = true := by
  obtain ⟨hs, hp, hq⟩ := (mem_pendingCalls s p n c).1 hm
  exact (eligible_of_slot hs).trans (eligibleCall_iff.2 ⟨(canTake_iff _).2 ⟨ho, hroom, hnest⟩, hp, hq, hr, hu⟩)

/-- With no eligible call the search finds none. -/
theorem chooseCall_of_none_eligible (ho : IsOnline s p) (hroom : (s.port p).stack.length < 4)
    (hnest : (s.port p).stack = [] ∨ (s.port p).nest = .opened) (h : ∀ n, s.eligible p n = false) :
    chooseCall s p (s.pendingCalls p) = none := by
  refine chooseCall_none fun x hx hr => Bool.eq_false_iff.2 fun hu => ?_
  exact Bool.eq_false_iff.1 (h x.1) (eligible_of_pending ho hroom hnest hx hr hu)

/-- Settles O34: one branch of `takeCall` per clause, the counts taken over the slots. -/
theorem takeCallRefusalsInOrder : Obligations.TakeCallRefusalsInOrder := by
  intro p req s hr
  refine ⟨fun hm => congrArg _ (runCommand_offline hr hm), fun ho => ?_⟩
  have hh := not_held_of_online ho
  refine ⟨fun hfull => ?_, fun hroom hs hnest => ?_, fun hroom hnest hnone => ?_⟩
  · exact congrArg _ (runCommand_only_replies hr hh rfl rfl (takeCall_full ho hfull))
  · exact congrArg _ (runCommand_only_replies hr hh rfl rfl (takeCall_closed ho hroom hs hnest))
  · have hact := takeCall_searches (req := req) ho hroom hnest
    simp only [chooseCall_of_none_eligible ho hroom hnest hnone] at hact
    rw [pendingCalls_length, heldBack_eq] at hact
    exact congrArg _ (runCommand_only_replies hr hh rfl rfl hact)

/-- A priority above one that outranks the top entry outranks it too. -/
theorem outranks_mono {ps : PortState} {low high : Nat} (h : ps.outranks low = true) (hle : low ≤ high) :
    ps.outranks high = true := by
  refine (outranks_iff ps high).2 (((outranks_iff ps low).1 h).imp_right ?_)
  rintro ⟨below, e, hs, hlt⟩
  exact ⟨below, e, hs, hlt.trans_le hle⟩

/-- The search finds the eligible call that stands before every other (R53): what precedes it in the pending order outranks the
top entry as well, and so is held back by its limit alone. -/
theorem chooseCall_first (hs : s.slot n = some c) (he : s.eligible p n = true)
    (hfirst : ∀ m d, m ≠ n → s.slot m = some d → s.eligible p m = true → Before c d) :
    chooseCall s p (s.pendingCalls p) = some (n, c) := by
  obtain ⟨htake, hp, hq, hr, hu⟩ := eligibleCall_iff.1 ((eligible_of_slot hs).symm.trans he)
  obtain ⟨ho, hroom, hnest⟩ := (canTake_iff _).1 htake
  obtain ⟨before, after, hsplit⟩ := List.append_of_mem ((mem_pendingCalls s p n c).2 ⟨hs, hp, hq⟩)
  have hsorted := pendingCalls_sorted s p
  have hnodup := pendingCalls_nodup s p
  rw [hsplit] at hsorted hnodup
  rw [List.map_append, List.map_cons] at hnodup
  obtain ⟨-, -, hnotAfter⟩ := List.pairwise_append.1 hsorted
  obtain ⟨-, -, hdistinct⟩ := List.nodup_append.1 hnodup
  rw [hsplit]
  refine chooseCall_some hr hu fun ⟨m, d⟩ hy => ?_
  have hafter : NotAfter (m, d) (n, c) := hnotAfter _ hy _ List.mem_cons_self
  have hmn : m ≠ n := hdistinct m (List.mem_map_of_mem hy) n List.mem_cons_self
  have hmem : (m, d) ∈ s.pendingCalls p := hsplit ▸ List.mem_append_left _ hy
  have hout : (s.port p).outranks d.priority = true :=
    outranks_mono hr (hafter.elim Nat.le_of_lt fun h => h.1.ge)
  refine ⟨hout, Bool.eq_false_iff.2 fun hud => ?_⟩
  have hbefore : Before c d :=
    hfirst m d hmn ((mem_pendingCalls s p m d).1 hmem).1 (eligible_of_pending ho hroom hnest hmem hout hud)
  simp only [Before, NotAfter] at hbefore hafter
  omega

/-- A call in a new state, with the blocks of its lease changed: what a take and an answer leave of the call table and of the
block table. -/
def callMoved (s : State) (n : SlotNo) (c : Call) (st : CallState) (f : Block → Block) : State :=
  { s with slots := s.slots.set n (some { c with state := st }), blocks := leaseChanged s c.lease f }

/-- A call's move and a port's change commute. -/
theorem callMoved_modPort (s : State) (p : Port) (g : PortState → PortState) (n : SlotNo) (c : Call) (st : CallState)
    (f : Block → Block) : callMoved (s.modPort p g) n c st f = (callMoved s n c st f).modPort p g := rfl

/-- What a take leaves: the slot, the loan, the new top entry over NEST CLOSED (R21, R54, R110). -/
theorem take_eq (s : State) (p : Port) (n : SlotNo) (c : Call) :
    s.take p n c =
      (callMoved s n c (.inService (s.limitOf c.service)) (lentTo c.callee)).modPort p fun ps =>
        { ps with stack := ps.stack ++ [takenEntry n c ps.nest], nest := .closed } := by
  rw [State.take, lend_eq, modLease_eq s (s.setSlot n _)]
  rfl

/-- A take copies its service's limit (R21). -/
theorem limitOf_entry {e : Service} (h : s.entry c.service = some e) : s.limitOf c.service = e.limit := by
  rw [State.limitOf, h]; rfl

/-- The reply's record of a taken call, in the statements' words (R55, R192). -/
theorem takenBytes_eq {e : Service} (h : s.entry c.service = some e) :
    takenBytes s n c =
      [byteOf n.val, byteOf c.caller.val, byteOf c.service, byteOf c.priority] ++ wordBytes c.tag ++
        (match c.lease with
          | none => [0x00, 0x00, 0x00, 0x00]
          | some l => [0x01, byteOf l.first, byteOf l.count, modeValue l.mode]) ++
        wordOf (match e.limit with
          | none => 0
          | some k => k) ++
        [byteOf c.args.length] ++ bytesOfWords c.args := by
  simp only [modeValue_eq]
  rw [takenBytes, limitOf_entry h]
  cases c.lease <;> cases e.limit <;> rfl

/-- A take on the port whose frame has verified, and its reply. -/
theorem take_replied {e : Service} (body : List Byte) (hentry : s.entry c.service = some e) :
    ((s.modPort p (verified req)).take p n c).modPort p (replied req 0x30 .ok body) =
      (callMoved s n c (.inService e.limit) (lentTo c.callee)).modPort p fun ps =>
        replied req 0x30 .ok body { ps with stack := ps.stack ++ [takenEntry n c ps.nest], nest := .closed } := by
  have hlimit : (s.modPort p (verified req)).limitOf c.service = e.limit := limitOf_entry hentry
  rw [take_eq, hlimit, callMoved_modPort, modPort_modPort, modPort_modPort]
  rfl

/-- Settles O35: the search finds the call, and the take is one change of slot, loan and stack. -/
theorem takeCallServesFirstEligibleCall : Obligations.TakeCallServesFirstEligibleCall := by
  intro p n c e req s ht hs he hfirst hentry
  obtain ⟨htake, -, hq, -⟩ := eligibleCall_iff.1 ((eligible_of_slot hs).symm.trans he)
  obtain ⟨ho, hroom, hnest⟩ := (canTake_iff _).1 htake
  have hact := takeCall_searches (req := req) ho hroom hnest
  simp only [chooseCall_first hs he hfirst] at hact
  rw [takenBytes_eq hentry] at hact
  subst hq
  refine congrArg _ ((runCommand_replies ht.1 (not_held_of_online ho) rfl rfl hact ?_).trans (take_replied _ hentry))
  rw [Steps.take_port, if_pos rfl, port_verified]
  rfl

/-! ### Answer Call -/

section
variable {result : Byte} {words : List Byte}

/-- Answer Call with whole words on an ONLINE port comes to the check of its stack (R61, R62). -/
theorem answerCall_good (ho : IsOnline s p) (h : words.length % 2 = 0) (h2 : words.length ≤ 12) :
    answerCall p (byteOf n.val :: result :: byteOf (words.length / 2) :: words) (s.modPort p (verified req)) =
      match (s.port p).stack.getLast? with
      | none => refuse .notInService (s.modPort p (verified req))
      | some e =>
        if e.slot.val ≠ n.val then
          refuseWith .notTop [byteOf e.slot.val, yesNoByte e.orphaned] (s.modPort p (verified req))
        else answerTop p e result (wordsOf words) (s.modPort p (verified req)) := by
  obtain ⟨hcount, hlength, -⟩ := answerCall_words words h h2 (byteOf n.val) result
  have hslot : param (byteOf n.val :: result :: byteOf (words.length / 2) :: words) 0 = n.val := byteOf_toNat n (by omega)
  have hn := n.isLt
  rw [answerCall, if_neg (by rw [hcount, hlength]; exact not_not.2 rfl), if_neg (by omega), whenOnline_verified ho,
    port_verified, verified_stack, hslot]
  cases (s.port p).stack.getLast? <;> rfl

/-- The link port allows the length of such an Answer Call (R190). -/
theorem answerCall_length_allowed (h : words.length % 2 = 0) (h2 : words.length ≤ 12) :
    lengthAllowed 0x31 (byteOf n.val :: result :: byteOf (words.length / 2) :: words).length = true :=
  (answerCall_words words h h2 (byteOf n.val) result).2.2

end

/-- A port's records without the top entry of its stack: NEST has the value that the entry saved, and the notices raised about
it are gone (R60, R81). -/
def withoutTop (below : List StackEntry) (e : StackEntry) (ps : PortState) : PortState :=
  { ps with
    stack := below
    nest := e.saved
    notices := ps.notices.filter fun k => !k.raisedAbout below.length }

/-- The pop of a top entry whose place is known. -/
theorem pop_eq (h : (s.port p).stack = below ++ [e]) : s.pop p e = s.modPort p (withoutTop below e) := by
  refine modPort_congr _ _ ?_
  simp [h, withoutTop]

theorem getLast_of_stack {stack : List StackEntry} (h : stack = below ++ [e]) : stack.getLast? = some e := by
  rw [h, List.getLast?_concat]

/-- Settles O37: one branch of the check of the stack per clause. -/
theorem answerCallWithoutLiveTopEntry : Obligations.AnswerCallWithoutLiveTopEntry := by
  intro p n result words req s ht h h2
  have hh := not_held_of_online ht.2
  have hl := answerCall_length_allowed (n := n) (result := result) h h2
  have hact := answerCall_good (n := n) (result := result) (req := req) ht.2 h h2
  refine ⟨fun hs => ?_, fun below e hs hne => ?_, fun below e hs he ho => ?_⟩
  · rw [hs] at hact
    exact congrArg _ (runCommand_only_replies ht.1 hh hl rfl hact)
  · simp only [getLast_of_stack hs] at hact
    rw [if_pos (Fin.val_ne_of_ne hne)] at hact
    exact congrArg _ (runCommand_only_replies ht.1 hh hl rfl hact)
  · simp only [getLast_of_stack hs] at hact
    rw [if_neg (not_not.2 (congrArg Fin.val he)), answerTop, if_pos ho,
      pop_eq ((congrArg PortState.stack (port_verified s p req)).trans hs)] at hact
    exact congrArg _ (runCommand_changes_port ht.1 hh hl rfl hact fun _ => rfl)

/-- An answer on the port whose frame has verified, and the pop of its entry (R22, R60, R63). -/
theorem answerSlot_pop {result : Byte} {words : List Word} (hs : (s.port p).stack = below ++ [e])
    (hslot : s.slot e.slot = some c) (hi : c.isInService = true) :
    ((s.modPort p (verified req)).answerSlot e.slot result words).pop p e =
      (((callMoved s e.slot c (.answered result words) returned).modPort p (verified req)).modPort c.caller
        (told (.answered e.slot c.tag))).modPort p (withoutTop below e) := by
  have hslot' : (s.modPort p (verified req)).slot e.slot = some c := hslot
  rw [Steps.answerSlot_eq hslot' hi]
  refine pop_eq ?_
  rw [modPort_port]
  split <;> exact (congrArg PortState.stack (port_verified s p req)).trans hs

/-- A notice told to any port leaves the sampled link of a port as it is. -/
theorem verified_told (s : State) (p q : Port) (k : Notice) :
    verified req (((s.modPort p (verified req)).modPort q (told k)).port p) =
      ((s.modPort p (verified req)).modPort q (told k)).port p := by
  rw [modPort_port, port_verified]
  split <;> rfl

/-- Settles O36: the call's answer, told to its caller, and the pop of its entry. -/
theorem answerCallAnswersLiveTopEntry : Obligations.AnswerCallAnswersLiveTopEntry := by
  intro p result words below e c req s ht hs ho hslot hi h h2
  have hact := answerCall_good (n := e.slot) (result := result) (req := req) ht.2 h h2
  simp only [getLast_of_stack hs] at hact
  rw [if_neg (not_not.2 rfl), answerTop, if_neg (by simp [ho]), answerSlot_pop hs hslot hi] at hact
  refine congrArg _ ((runCommand_replies ht.1 (not_held_of_online ht.2) (answerCall_length_allowed h h2) rfl hact ?_).trans ?_)
  · rw [modPort_port_self]
    exact congrArg (withoutTop below e) (verified_told _ p c.caller _)
  · rw [modPort_modPort]
    exact modPort_around _ p c.caller _ _ (fun ps => replied req 0x31 .ok [] (withoutTop below e ps)) (fun _ => rfl)
      fun _ => rfl

end Sys2Proof.ServiceStacks
end

section
/-! SUPPORT. The notice queue's command, Read Notices, and the attention line. -/

namespace Sys2Proof.Notices

open Sys2Proof Sys2Proof.Machine Sys2Proof.Safety Sys2Proof.Statement Sys2Proof.ServiceStacks

variable {s : State} {p : Port} {k : Byte} {req : Request} {taken left : List Notice}

/-- The conditions of R88, with the link live. -/
theorem attn_iff : s.attn p = true ↔
    s.linkLive p = true ∧ ∃ o, (s.port p).mode = .online o ∧
      ((s.port p).notices ≠ [] ∨ (o.wake = true ∧ ∃ n, s.eligible p n = true)) := by
  simp only [State.attn, Bool.and_eq_true, Bool.or_eq_true, Bool.not_eq_true', List.isEmpty_eq_false_iff, waiting_iff,
    and_assoc, State.online]
  refine and_congr_right fun _ => ?_
  cases hm : (s.port p).mode with
  | online o => simp [PortMode.isOnline, PortMode.wake]
  | offline | held k => simp [PortMode.isOnline]

/-- Settles O15: the model's test is R88's conditions on a live link, and a link that is not live releases the line. -/
theorem attentionFollowsNoticesAndWaiting : Obligations.AttentionFollowsNoticesAndWaiting := by
  intro s p
  refine ⟨fun hw hr hp => ?_, fun hlow => Bool.eq_false_iff.2 fun ha => ?_⟩
  · rw [attn_iff, linkLive_iff]
    exact and_iff_right ⟨hw, hr, hp⟩
  · obtain ⟨hw, hr, hp⟩ := linkLive_iff.1 (attn_iff.1 ha).1
    rcases hlow with h | h | h
    · rw [hw] at h; cases h
    · rw [hr] at h; cases h
    · rw [hp] at h; cases h

/-- The oldest `m` notices of a queue that is split where the smaller of `m` and its length says. -/
theorem oldest_of_split {queue : List Notice} {m : Nat} (h : queue = taken ++ left)
    (hl : taken.length = min m queue.length) : queue.take m = taken ∧ queue.drop m = left := by
  subst h
  rcases Nat.le_total m (taken ++ left).length with hk | hk
  · rw [Nat.min_eq_left hk] at hl
    exact ⟨List.take_left' hl, List.drop_left' hl⟩
  · rw [Nat.min_eq_right hk, List.length_append] at hl
    have hnil : left = [] := List.eq_nil_of_length_eq_zero (by omega)
    subst hnil
    rw [List.append_nil] at hk ⊢
    exact ⟨List.take_of_length_le hk, List.drop_of_length_le hk⟩

/-- Read Notices with a number in range, on an ONLINE port whose frame has verified (R82, R83). -/
theorem readNotices_good (ho : IsOnline s p) (h1 : 1 ≤ k.toNat) (h8 : k.toNat ≤ 8) (hq : (s.port p).notices = taken ++ left)
    (hl : taken.length = min k.toNat (s.port p).notices.length) :
    readNotices p (param [k] 0) (s.modPort p (verified req)) =
      reply .ok ([byteOf taken.length, byteOf left.length] ++ taken.flatMap noticeBytes)
        ((s.modPort p (verified req)).modPort p fun ps => { ps with notices := left }) := by
  obtain ⟨htake, hdrop⟩ := oldest_of_split hq hl
  have hk : param [k] 0 = k.toNat := rfl
  rw [readNotices, hk, if_neg (by omega), whenOnline_verified ho]
  simp only [port_verified, verified_notices, htake, hdrop]

/-- Settles O40: the two parts of the queue are its oldest notices and the rest, and the rest is all that the effect leaves. -/
theorem readNoticesTakesTheOldest : Obligations.ReadNoticesTakesTheOldest := by
  intro p n taken left req s ht h1 h8 hq hl
  have hact := readNotices_good (req := req) ht.2 h1 h8 hq hl
  rw [← funext noticeRecord_eq] at hact
  exact congrArg _ (runCommand_changes_port ht.1 (not_held_of_online ht.2) rfl rfl hact fun _ => rfl)

end Sys2Proof.Notices
end

section
/-! SUPPORT. The laws of the notices, queue by queue. A notice about a call's outcome or about a stack entry has a topic; a queue
is lawful when no two of its notices have one topic and each is true of the calls and of its port's stack. -/

namespace Sys2Proof.Notices

open Sys2Proof Sys2Proof.Machine Sys2Proof.Safety Sys2Proof.Statement Sys2Proof.Steps

variable {s t : State} {p : Port} {n m : SlotNo} {c : Call} {e : StackEntry} {k : Notice} {level : Nat}

/-! ### Topics -/

/-- What a queue holds at most one notice about: the outcome of a slot's call (R77), the request to cancel the call of a stack
entry, and the orphaning of a stack entry (R78). -/
inductive Topic where
  | outcome (n : SlotNo)
  | request (level : Nat)
  | orphaning (level : Nat)
deriving DecidableEq

/-- The topic of a notice; one about a departed peer has none. -/
def topic : Notice → Option Topic
  | .answered n _ => some (.outcome n)
  | .failed n _ _ => some (.outcome n)
  | .cancelAsked level _ _ => some (.request level)
  | .overrun level _ _ => some (.orphaning level)
  | .callerGone level _ _ => some (.orphaning level)
  | .peerDetached _ => none

theorem topic_outcome (n : SlotNo) (k : Notice) : (topic k == some (.outcome n)) = k.announces n := by
  rw [Bool.eq_iff_iff]
  cases k <;> simp [topic, Notice.announces]

theorem topic_request (level : Nat) (k : Notice) : (topic k == some (.request level)) = asksAbout level k := by
  rw [Bool.eq_iff_iff]
  cases k <;> simp [topic, asksAbout]

theorem topic_orphaning (level : Nat) (k : Notice) : (topic k == some (.orphaning level)) = orphansAt level k := by
  rw [Bool.eq_iff_iff]
  cases k <;> simp [topic, orphansAt]

/-- The topics of some notices. -/
abbrev topics (ns : List Notice) : List Topic := ns.filterMap topic

/-- No topic comes twice exactly when each of the three counts of the laws is at most one. -/
theorem topics_nodup_iff (ns : List Notice) :
    (topics ns).Nodup ↔
      (∀ n, ns.countP (Notice.announces n) ≤ 1) ∧
      ∀ level, ns.countP (asksAbout level) ≤ 1 ∧ ns.countP (orphansAt level) ≤ 1 := by
  have count : ∀ x, (topics ns).count x = ns.countP fun k => topic k == some x := fun x => List.count_filterMap
  rw [List.nodup_iff_count_le_one]
  simp only [count]
  constructor
  · intro h
    exact ⟨fun n => by simpa only [topic_outcome] using h (.outcome n), fun level =>
      ⟨by simpa only [topic_request] using h (.request level), by simpa only [topic_orphaning] using h (.orphaning level)⟩⟩
  · rintro ⟨h1, h2⟩ (n | level | level)
    · simpa only [topic_outcome] using h1 n
    · simpa only [topic_request] using (h2 level).1
    · simpa only [topic_orphaning] using (h2 level).2

/-! ### Lawful queues -/

/-- What a notice in the queue of a port says is so (R75, R77, R78). -/
def Truthful (s : State) (p : Port) : Notice → Prop
  | .answered n tag => ∃ c, s.slot n = some c ∧ c.caller = p ∧ c.tag = tag ∧ ∃ r ws, c.state = .answered r ws
  | .failed n tag why => ∃ c, s.slot n = some c ∧ c.caller = p ∧ c.tag = tag ∧ c.state = .failed why
  | .cancelAsked level n tag =>
    ∃ e, (s.port p).stack[level]? = some e ∧ e.slot = n ∧ e.tag = tag ∧
      (e.orphaned = true ∨ ∃ c, s.slot n = some c ∧ c.cancelAsked = true)
  | .overrun level n tag => ∃ e, (s.port p).stack[level]? = some e ∧ e.slot = n ∧ e.tag = tag ∧ e.orphaned = true
  | .callerGone level n tag => ∃ e, (s.port p).stack[level]? = some e ∧ e.slot = n ∧ e.tag = tag ∧ e.orphaned = true
  | .peerDetached _ => True

/-- The law of one queue. -/
structure LawfulQueue (s : State) (p : Port) : Prop where
  topics : (topics (s.port p).notices).Nodup
  truthful : ∀ k ∈ (s.port p).notices, Truthful s p k

theorem noticeLaw_iff (s : State) : NoticeLaw s ↔ ∀ p, LawfulQueue s p := by
  constructor
  · rintro ⟨ho, he⟩ p
    obtain ⟨h1, h2, h3⟩ := ho p
    obtain ⟨h4, h5, h6⟩ := he p
    refine ⟨(topics_nodup_iff _).2 ⟨h1, h4⟩, fun k hk => ?_⟩
    cases k with
    | answered n tag => exact h2 n tag hk
    | failed n tag why => exact h3 n tag why hk
    | cancelAsked level n tag => exact h5 level n tag hk
    | overrun level n tag => exact h6 level n tag (.inl hk)
    | callerGone level n tag => exact h6 level n tag (.inr hk)
    | peerDetached q => trivial
  · intro h
    refine ⟨fun p => ⟨((topics_nodup_iff _).1 (h p).topics).1, fun n tag hk => (h p).truthful _ hk,
      fun n tag why hk => (h p).truthful _ hk⟩, fun p => ⟨((topics_nodup_iff _).1 (h p).topics).2,
      fun level n tag hk => (h p).truthful _ hk, fun level n tag hk => ?_⟩⟩
    rcases hk with hk | hk <;> exact (h p).truthful _ hk

/-- A port with an empty queue. -/
theorem lawfulQueue_nil (h : (s.port p).notices = []) : LawfulQueue s p := by
  constructor <;> simp [h]

/-! ### Topics that no notice has yet -/

/-- No notice of the port's queue has the topic. -/
def Fresh (s : State) (p : Port) (x : Topic) : Prop := ∀ k ∈ (s.port p).notices, topic k ≠ some x

/-- An outcome is announced only of a call that has ended (R77). -/
theorem LawfulQueue.fresh_outcome (h : LawfulQueue s p) (hs : s.slot n = some c) (hu : Unended c) : Fresh s p (.outcome n) := by
  have ended : ∀ {d : Call}, s.slot n = some d → (∃ r ws, d.state = .answered r ws) ∨ (∃ why, d.state = .failed why) → False := by
    intro d hd hst
    rw [hs] at hd; cases hd
    rcases hst with ⟨r, ws, hst⟩ | ⟨why, hst⟩ <;> simp [Unended, Call.isPending, Call.isInService, hst] at hu
  intro k hk hx
  have hr := h.truthful k hk
  cases k with
  | answered m tag =>
    cases hx
    obtain ⟨d, hd, -, -, hst⟩ := hr
    exact ended hd (.inl hst)
  | failed m tag why =>
    cases hx
    obtain ⟨d, hd, -, -, hst⟩ := hr
    exact ended hd (.inr ⟨why, hst⟩)
  | cancelAsked | overrun | callerGone | peerDetached => cases hx

/-- No orphaning is told of a live entry (R78). -/
theorem LawfulQueue.fresh_orphaning (h : LawfulQueue s p) (he : (s.port p).stack[level]? = some e) (ho : e.orphaned = false) :
    Fresh s p (.orphaning level) := by
  have live : ∀ {f : StackEntry}, (s.port p).stack[level]? = some f → f.orphaned = true → False := by
    intro f hf h
    rw [he] at hf; cases hf
    rw [ho] at h; cases h
  intro k hk hx
  have hr := h.truthful k hk
  cases k with
  | overrun l m tag | callerGone l m tag =>
    cases hx
    obtain ⟨f, hf, -, -, hfo⟩ := hr
    exact live hf hfo
  | answered | failed | cancelAsked | peerDetached => cases hx

/-- No request is told of a live entry whose call nobody has asked to cancel (R78). -/
theorem LawfulQueue.fresh_request (h : LawfulQueue s p) (he : (s.port p).stack[level]? = some e) (ho : e.orphaned = false)
    (hs : s.slot e.slot = some c) (hc : c.cancelAsked = false) : Fresh s p (.request level) := by
  intro k hk hx
  have hr := h.truthful k hk
  cases k with
  | cancelAsked l m tag =>
    cases hx
    obtain ⟨f, hf, rfl, -, hfo⟩ := hr
    rw [he] at hf; cases hf
    rcases hfo with hfo | ⟨d, hd, hdc⟩
    · rw [ho] at hfo; cases hfo
    · rw [hs] at hd; cases hd
      rw [hc] at hdc; cases hdc
  | answered | failed | overrun | callerGone | peerDetached => cases hx

/-! ### From one state to the next -/

/-- A cancel asked of the slot's call stays asked. -/
def AskStands (s t : State) (n : SlotNo) : Prop :=
  ∀ c, s.slot n = some c → c.cancelAsked = true → ∃ d, t.slot n = some d ∧ d.cancelAsked = true

/-- The entry of the port's stack at the level stands as it is, or orphaned. -/
def EntryStands (s t : State) (p : Port) (level : Nat) : Prop :=
  ∀ e, (s.port p).stack[level]? = some e → ∃ f, (t.port p).stack[level]? = some f ∧ (f = asOrphan e ∨ f = e ∧ AskStands s t e.slot)

/-- What a true notice of the topic says stays so. -/
def Stands (s t : State) (p : Port) : Topic → Prop
  | .outcome n => ∀ c, s.slot n = some c → c.caller = p → ¬Unended c → t.slot n = some c
  | .request level => EntryStands s t p level
  | .orphaning level => EntryStands s t p level

theorem EntryStands.orphaned (h : EntryStands s t p level) (he : (s.port p).stack[level]? = some e) (ho : e.orphaned = true) :
    ∃ f, (t.port p).stack[level]? = some f ∧ f.slot = e.slot ∧ f.tag = e.tag ∧ f.orphaned = true := by
  obtain ⟨f, hf, rfl | ⟨rfl, -⟩⟩ := h e he
  · exact ⟨_, hf, rfl, rfl, rfl⟩
  · exact ⟨_, hf, rfl, rfl, ho⟩

theorem Truthful.of_stands {x : Topic} (h : Truthful s p k) (hx : topic k = some x) (hst : Stands s t p x) : Truthful t p k := by
  cases k with
  | answered n tag =>
    cases hx
    obtain ⟨c, hs, hc, htag, r, ws, hst'⟩ := h
    exact ⟨c, hst c hs hc (by simp [Unended, Call.isPending, Call.isInService, hst']), hc, htag, r, ws, hst'⟩
  | failed n tag why =>
    cases hx
    obtain ⟨c, hs, hc, htag, hst'⟩ := h
    exact ⟨c, hst c hs hc (by simp [Unended, Call.isPending, Call.isInService, hst']), hc, htag, hst'⟩
  | cancelAsked level n tag =>
    cases hx
    obtain ⟨e, he, rfl, htag, ho⟩ := h
    obtain ⟨f, hf, rfl | ⟨rfl, hask⟩⟩ := hst e he
    · exact ⟨_, hf, rfl, htag, .inl rfl⟩
    · exact ⟨_, hf, rfl, htag, ho.imp_right fun ⟨c, hs, hc⟩ => hask c hs hc⟩
  | overrun level n tag | callerGone level n tag =>
    cases hx
    obtain ⟨e, he, rfl, rfl, ho⟩ := h
    exact EntryStands.orphaned hst he ho
  | peerDetached => cases hx

/-- A queue stays lawful when some notices leave it and some join it, each of these true and the first of its topic, and what
the others say stays so. -/
theorem LawfulQueue.of {new : List Notice} (h : LawfulQueue s p)
    (hsub : (t.port p).notices.Sublist ((s.port p).notices ++ new)) (hnodup : (Notices.topics new).Nodup)
    (hnew : ∀ k ∈ new, ∀ x, topic k = some x → Truthful t p k ∧ Fresh s p x)
    (hold : ∀ k ∈ (t.port p).notices, ∀ x, topic k = some x → Stands s t p x) : LawfulQueue t p := by
  refine ⟨List.Nodup.sublist (hsub.filterMap topic) ?_, fun k hk => ?_⟩
  · rw [List.filterMap_append, List.nodup_append]
    refine ⟨h.topics, hnodup, fun x hx y hy hxy => ?_⟩
    obtain ⟨k, hk, hkx⟩ := List.mem_filterMap.1 hx
    obtain ⟨j, hj, hjy⟩ := List.mem_filterMap.1 hy
    exact (hnew j hj y hjy).2 k hk (hxy ▸ hkx)
  · cases hx : topic k with
    | none =>
      cases k with
      | peerDetached => trivial
      | answered | failed | cancelAsked | overrun | callerGone => cases hx
    | some x =>
      rcases List.mem_append.1 (hsub.subset hk) with hks | hkn
      · exact (h.truthful k hks).of_stands hx (hold k hk x hx)
      · exact (hnew k hkn x hx).1

/-- No notice joins. -/
theorem LawfulQueue.shrink (h : LawfulQueue s p) (hsub : (t.port p).notices.Sublist (s.port p).notices)
    (hold : ∀ k ∈ (t.port p).notices, ∀ x, topic k = some x → Stands s t p x) : LawfulQueue t p :=
  h.of (new := []) (by rwa [List.append_nil]) List.nodup_nil (fun k hk => by cases hk) hold

/-- One notice joins. -/
theorem LawfulQueue.join (h : LawfulQueue s p) (hn : (t.port p).notices = (s.port p).notices ++ [k]) (hk : Truthful t p k)
    (hfresh : ∀ x, topic k = some x → Fresh s p x) (hold : ∀ x, Stands s t p x) : LawfulQueue t p := by
  refine h.of (new := [k]) (hn ▸ List.Sublist.refl _) ?_ (fun j hj x hx => ?_) fun _ _ x _ => hold x
  · rw [Notices.topics, List.filterMap_cons]
    split <;> simp
  · rw [List.mem_singleton] at hj
    subst hj
    exact ⟨hk, hfresh x hx⟩

/-- The outcome of the slot's call stays, and so does a cancel asked of it. -/
structure CallStands (s t : State) (n : SlotNo) : Prop where
  ended : ∀ c, s.slot n = some c → ¬Unended c → t.slot n = some c
  asked : AskStands s t n

theorem callStands_of_slot (h : t.slot n = s.slot n) : CallStands s t n :=
  ⟨fun _ hs _ => h.trans hs, fun c hs ha => ⟨c, h.trans hs, ha⟩⟩

theorem callStands_of_slots (h : t.slots = s.slots) (n : SlotNo) : CallStands s t n :=
  callStands_of_slot (by rw [State.slot, h, State.slot])

/-- The call of one slot, which has not ended, is replaced by one of which a cancel is asked if it was before. -/
theorem callStands_of_set {x : Option Call} (hslots : t.slots = s.slots.set m x)
    (hm : ∀ c, s.slot m = some c → Unended c ∧ ∃ d, x = some d ∧ (c.cancelAsked = true → d.cancelAsked = true)) (n : SlotNo) :
    CallStands s t n := by
  by_cases hmn : m = n
  · subst hmn
    have hself : t.slot m = x := by rw [State.slot, hslots, Table.get_set_self]
    refine ⟨fun c hs hu => absurd (hm c hs).1 hu, fun c hs ha => ?_⟩
    obtain ⟨-, d, rfl, hd⟩ := hm c hs
    exact ⟨d, hself, hd ha⟩
  · exact callStands_of_slot (by rw [State.slot, hslots, Table.get_set_ne _ _ hmn, State.slot])

/-- The port's entries stand, some of them orphaned, and so do the calls. -/
theorem stands_of {g : StackEntry → StackEntry} (hg : ∀ e, g e = e ∨ g e = asOrphan e)
    (hstack : (s.port p).stack.map g <+: (t.port p).stack) (hc : ∀ n, CallStands s t n) (x : Topic) : Stands s t p x := by
  have entry : ∀ level, EntryStands s t p level := fun level e he => by
    refine ⟨g e, ?_, (hg e).symm.imp_right fun h => ⟨h, (hc e.slot).asked⟩⟩
    obtain ⟨above, ha⟩ := hstack
    have hlt : level < ((s.port p).stack.map g).length := by
      rw [List.length_map]
      exact (List.getElem?_eq_some_iff.1 he).1
    rw [← ha, List.getElem?_append_left hlt, List.getElem?_map, he]
    rfl
  cases x with
  | outcome n => exact fun c hs _ hu => (hc n).ended c hs hu
  | request level => exact entry level
  | orphaning level => exact entry level

theorem stands_of_stack (hstack : (t.port p).stack = (s.port p).stack) (hc : ∀ n, CallStands s t n) (x : Topic) :
    Stands s t p x :=
  stands_of (g := id) (fun e => .inl rfl) (by rw [List.map_id, hstack]) hc x

/-- Stacks and calls stand, and no notice joins a queue. -/
theorem noticeLaw_standing (hn : ∀ q, (t.port q).notices.Sublist (s.port q).notices)
    (hstack : ∀ q, (t.port q).stack = (s.port q).stack) (hc : ∀ n, CallStands s t n) (h : NoticeLaw s) : NoticeLaw t := by
  rw [noticeLaw_iff] at h ⊢
  exact fun q => (h q).shrink (hn q) fun _ _ x _ => stands_of_stack (hstack q) hc x

theorem noticeLaw_samePart (h : SamePart s t) : NoticeLaw s → NoticeLaw t :=
  noticeLaw_standing (fun q => h.notices q ▸ List.Sublist.refl _) h.stack (callStands_of_slots h.slots)

end Sys2Proof.Notices
end

section
/-! SUPPORT. Which notices join a queue. Only a first Cancel Call of a call in service raises a CANCEL_ASKED notice (R15, R16), and
only the departure of a port raises one about a peer (R79). -/

namespace Sys2Proof.Notices

open Sys2Proof Sys2Proof.Machine Sys2Proof.Safety Sys2Proof.Statement Sys2Proof.Steps

variable {s t u : State} {p q : Port} {k : Notice} {F : Notice → Prop}

/-! ### Notices that join -/

/-- Every queue keeps some of its notices and gets only notices of one kind. -/
def Tells (F : Notice → Prop) (s t : State) : Prop :=
  ∀ q, ∃ new, (t.port q).notices.Sublist ((s.port q).notices ++ new) ∧ ∀ k ∈ new, F k

theorem tells_of_sublist (h : ∀ q, (t.port q).notices.Sublist (s.port q).notices) : Tells F s t := fun q =>
  ⟨[], by rw [List.append_nil]; exact h q, fun k hk => by cases hk⟩

theorem tells_of_notices (h : ∀ q, (t.port q).notices = (s.port q).notices) : Tells F s t :=
  tells_of_sublist fun q => h q ▸ List.Sublist.refl _

theorem tells_refl (s : State) : Tells F s s := tells_of_notices fun _ => rfl

theorem tells_of_ports (h : t.ports = s.ports) : Tells F s t := tells_of_notices fun q => by rw [State.port, h, State.port]

theorem tells_samePart (h : SamePart s t) : Tells F s t := tells_of_notices h.notices

theorem Tells.trans (h : Tells F s t) (h' : Tells F t u) : Tells F s u := fun q => by
  obtain ⟨a, ha, hka⟩ := h q
  obtain ⟨b, hb, hkb⟩ := h' q
  refine ⟨a ++ b, hb.trans (by rw [← List.append_assoc]; exact ha.append_right b), fun k hk => ?_⟩
  exact (List.mem_append.1 hk).elim (hka k) (hkb k)

/-- A change of one port's records that raises no notice. -/
theorem tells_modPort (s : State) (p : Port) (f : PortState → PortState)
    (hf : (f (s.port p)).notices.Sublist (s.port p).notices := by exact List.Sublist.refl _) : Tells F s (s.modPort p f) :=
  tells_of_sublist fun q => by
    rw [modPort_port]
    split
    · next h => exact h ▸ hf
    · exact List.Sublist.refl _

theorem tells_told (s : State) (p : Port) (hk : F k) : Tells F s (s.modPort p (told k)) := fun q => by
  refine ⟨[k], ?_, fun j hj => List.mem_singleton.1 hj ▸ hk⟩
  rw [modPort_port]
  split
  · exact List.Sublist.refl _
  · exact List.sublist_append_left _ _

/-! ### The operations that raise notices -/

section
variable (ho : ∀ k, isOutcome k = true → F k)
include ho

theorem tells_failCall (s : State) (n : SlotNo) (why : Failure) : Tells F s (s.failCall n why) := by
  by_cases h : ∃ c, s.slot n = some c ∧ Unended c
  · obtain ⟨c, hs, hu⟩ := h
    rw [failCall_eq hs hu]
    exact tells_told (F := F) ({ s with slots := _, blocks := _ } : State) c.caller (ho (.failed n c.tag why) rfl)
  · rw [failCall_ended fun c hs hu => h ⟨c, hs, hu⟩]
    exact tells_refl s

theorem tells_failCalls (why : Failure) : ∀ (ns : List SlotNo) (s : State), Tells F s (s.failCalls why ns)
  | [], s => tells_refl s
  | n :: ns, s => (tells_failCall ho s n why).trans (tells_failCalls why ns _)

theorem tells_answerSlot (s : State) (n : SlotNo) (r : Byte) (ws : List Word) : Tells F s (s.answerSlot n r ws) := by
  by_cases h : ∃ c, s.slot n = some c ∧ c.isInService = true
  · obtain ⟨c, hs, hi⟩ := h
    rw [answerSlot_eq hs hi]
    exact tells_told (F := F) ({ s with slots := _, blocks := _ } : State) c.caller (ho (.answered n c.tag) rfl)
  · rw [answerSlot_not fun c hs hi => h ⟨c, hs, hi⟩]
    exact tells_refl s

theorem tells_withdraw (s : State) (p : Port) (id : Nat) : Tells F s (s.withdraw p id) :=
  tells_failCalls ho _ _ (CallTable.without s id)

end

theorem tells_pop (s : State) (p : Port) (e : StackEntry) : Tells F s (s.pop p e) :=
  tells_modPort s p _ List.filter_sublist

theorem tells_collect (s : State) (p : Port) (n : SlotNo) : Tells F s (s.collect p n) :=
  tells_modPort (s.setSlot n none) p _ List.filter_sublist

section
variable (hor : ∀ level k, orphansAt level k = true → F k)
include hor

theorem tells_orphanOverrun (s : State) (p : Port) (n : SlotNo) (tag : Word) : Tells F s (s.orphanOverrun p n tag) := fun q => by
  rw [State.orphanOverrun, modPort_port]
  split
  · cases liveLevel n (s.port q).stack with
    | none => exact ⟨[], by simp, fun k hk => by cases hk⟩
    | some level =>
      exact ⟨[.overrun level n tag], List.Sublist.refl _, fun k hk => by
        rw [List.mem_singleton.1 hk]
        exact hor level _ (beq_self_eq_true level)⟩
  · exact ⟨[], by simp, fun k hk => by cases hk⟩

/-- Once its served calls have failed, a departing port's survivors are told of orphaned entries and of the departure. -/
theorem tells_departure_failed (s : State) (p : Port) (m : PortMode) (hp : F (.peerDetached p)) :
    Tells F (failed s p) (s.departure p m) := fun q => by
  by_cases hq : q = p
  · subst hq
    exact ⟨[], by rw [departure_port]; exact List.nil_sublist _, fun k hk => by cases hk⟩
  · rw [departure_other s m hq _ rfl, List.append_assoc]
    refine ⟨_, List.Sublist.refl _, fun k hk => ?_⟩
    rcases List.mem_append.1 hk with hk | hk
    · rw [callerGoneNotices_eq, List.mem_filterMap] at hk
      obtain ⟨x, -, hx⟩ := hk
      split at hx
      · cases hx
        exact hor x.2 _ (beq_self_eq_true x.2)
      · cases hx
    · split at hk
      · exact List.mem_singleton.1 hk ▸ hp
      · cases hk

theorem tells_departure (ho : ∀ k, isOutcome k = true → F k) (s : State) (p : Port) (m : PortMode) (hp : F (.peerDetached p)) :
    Tells F s (s.departure p m) :=
  (tells_failCalls ho _ _ s).trans (tells_departure_failed hor s p m hp)

end

/-! ### Notices about peers -/

/-- The peer that a notice is about. -/
def detachedPeer : Notice → Option Port
  | .peerDetached q => some q
  | .answered _ _ => none
  | .failed _ _ _ => none
  | .cancelAsked _ _ _ => none
  | .overrun _ _ _ => none
  | .callerGone _ _ _ => none

/-- The peers that a port's queue tells of. -/
abbrev peersTold (s : State) (p : Port) : List Port := (s.port p).notices.filterMap detachedPeer

theorem mem_peersTold : q ∈ peersTold s p ↔ Notice.peerDetached q ∈ (s.port p).notices := by
  rw [List.mem_filterMap]
  constructor
  · rintro ⟨k, hk, hkq⟩
    cases k with
    | peerDetached r => cases hkq; exact hk
    | answered | failed | cancelAsked | overrun | callerGone => cases hkq
  · exact fun h => ⟨_, h, rfl⟩

theorem peerNoticeLaw_iff (s : State) : PeerNoticeLaw s ↔ ∀ p, (peersTold s p).Nodup ∧ p ∉ peersTold s p := by
  have count : ∀ p q, (s.port p).notices.count (.peerDetached q) = (peersTold s p).count q := fun p q => by
    rw [List.count_filterMap, List.count]
    refine List.countP_congr fun k _ => ?_
    cases k <;> simp [detachedPeer]
  simp only [PeerNoticeLaw, count, List.nodup_iff_count_le_one, ← List.count_eq_zero]
  refine forall_congr' fun p => ⟨fun h => ⟨fun q => (h q).trans (by split <;> simp), ?_⟩, fun ⟨h, h0⟩ q => ?_⟩
  · simpa using h p
  · split
    · next hq => rw [← hq, h0]
    · exact h q

/-- The notice is not about a peer. -/
abbrev NotPeer (k : Notice) : Prop := detachedPeer k = none

theorem outcome_notPeer (k : Notice) (h : isOutcome k = true) : NotPeer k := by
  cases k with
  | peerDetached => cases h
  | answered | failed | cancelAsked | overrun | callerGone => rfl

theorem orphaning_notPeer (level : Nat) (k : Notice) (h : orphansAt level k = true) : NotPeer k := by
  cases k with
  | peerDetached => cases h
  | answered | failed | cancelAsked | overrun | callerGone => rfl

/-- With no word of a peer the law of the peers' notices stands. -/
theorem Tells.peerNoticeLaw (h : Tells NotPeer s t) (hs : PeerNoticeLaw s) : PeerNoticeLaw t := by
  rw [peerNoticeLaw_iff] at hs ⊢
  intro q
  obtain ⟨new, hsub, hnew⟩ := h q
  have hp : (peersTold t q).Sublist (peersTold s q) := by
    have := hsub.filterMap detachedPeer
    rwa [List.filterMap_append, List.filterMap_eq_nil_iff.2 hnew, List.append_nil] at this
  exact ⟨(hs q).1.sublist hp, fun hq => (hs q).2 (hp.subset hq)⟩

theorem askCancel_tells (s : State) (n : SlotNo) (c : Call) : Tells NotPeer s (s.askCancel n c) := by
  unfold State.askCancel
  simp only []
  split
  · exact tells_told (F := NotPeer) (s.setSlot n _) c.callee rfl
  · exact tells_of_ports rfl

theorem Quiet.tells (h : Quiet s t) : Tells NotPeer s t := by
  cases h with
  | link h => exact tells_samePart h.toSamePart
  | withdrawn p id => exact tells_withdraw outcome_notPeer s p id
  | cancelled n c => exact tells_of_notices fun q => by rw [cancelPending_port]
  | cancelAsked n c => exact askCancel_tells s n c
  | collected n c => exact tells_collect s c.caller n
  | noticesRead p k => exact tells_modPort s p _ (List.drop_sublist _ _)
  | expired n => exact tells_failCall outcome_notPeer s n _
  | ticked => exact tells_of_notices fun q => by simp only [State.port, Table.get_map]
  | pulseEnded p => exact tells_modPort s p _
  | claimed | released | resetRose | resetPin | scrubbed => exact tells_of_ports rfl

theorem Running.tells (h : Running s t) : Tells NotPeer s t := by
  cases h with
  | quiet h => exact Quiet.tells h
  | answered p e r ws => exact (tells_answerSlot outcome_notPeer s e.slot r ws).trans (tells_pop _ p e)
  | popped p e => exact tells_pop s p e
  | nested p nest => exact tells_modPort s p _
  | overran n c => exact (tells_orphanOverrun orphaning_notPeer s _ n _).trans (tells_failCall outcome_notPeer _ n _)

/-- A survivor of a departure is told of it if it has not been told before, and of no other peer (R79). -/
theorem peersTold_departure (m : PortMode) (hq : q ≠ p) :
    peersTold (s.departure p m) q = peersTold (failed s p) q ∨
      p ∉ peersTold (failed s p) q ∧ peersTold (s.departure p m) q = peersTold (failed s p) q ++ [p] := by
  have hgone : (callerGoneNotices p 0 (s.port q).stack).filterMap detachedPeer = [] := by
    refine List.filterMap_eq_nil_iff.2 fun k hk => ?_
    cases k with
    | peerDetached r => exact absurd hk (CallTable.peerDetached_notMem_callerGoneNotices p r _ 0)
    | answered | failed | cancelAsked | overrun | callerGone => rfl
  have hport := congrArg PortState.notices (departure_other s m hq _ rfl)
  rw [peersTold, hport, List.filterMap_append, List.filterMap_append, hgone, List.append_nil]
  split
  · next hnew => exact .inr ⟨fun hp => hnew.2 (List.mem_append_left _ (mem_peersTold.1 hp)), rfl⟩
  · exact .inl (List.append_nil _)

theorem departure_peerNoticeLaw (m : PortMode) (h : PeerNoticeLaw s) : PeerNoticeLaw (s.departure p m) := by
  have hf := (peerNoticeLaw_iff _).1 ((tells_failCalls outcome_notPeer .peerGone (s.servedSlots p) s).peerNoticeLaw h)
  refine (peerNoticeLaw_iff _).2 fun q => ?_
  by_cases hq : q = p
  · subst hq
    rw [peersTold, departure_port]
    exact ⟨List.nodup_nil, List.not_mem_nil⟩
  · obtain ⟨hn, hself⟩ := hf q
    rcases peersTold_departure m hq with e | ⟨hp, e⟩ <;> rw [e]
    · exact ⟨hn, hself⟩
    · have hdisj : ∀ a ∈ peersTold (failed s p) q, ∀ b ∈ [p], a ≠ b := fun a ha b hb hab =>
        hp (by rwa [hab, List.mem_singleton.1 hb] at ha)
      exact ⟨List.nodup_append.2 ⟨hn, List.nodup_singleton p, hdisj⟩, by simp [hself, hq]⟩

theorem effect_peerNoticeLaw (h : Effect s t) (hs : PeerNoticeLaw s) : PeerNoticeLaw t := by
  cases h with
  | running h => exact (Running.tells h).peerNoticeLaw hs
  | attached p o => exact (tells_modPort s p _).peerNoticeLaw hs
  | registered e => exact hs
  | posted n p c => exact (tells_of_notices fun q => by rw [post_port]).peerNoticeLaw hs
  | taken p n c => exact (tells_of_notices fun q => by rw [take_port]; split <;> rfl).peerNoticeLaw hs
  | departed p m _ _ _ _ _ h => exact (tells_samePart h.toSamePart).peerNoticeLaw (departure_peerNoticeLaw m hs)
  | reset a b _ h =>
    refine (tells_samePart h.toSamePart).peerNoticeLaw ((peerNoticeLaw_iff _).2 fun q => ?_)
    rw [peersTold, resetWith_port]
    exact ⟨List.nodup_nil, List.not_mem_nil⟩

end Sys2Proof.Notices
end

section
/-! SUPPORT. What a step asks of the callees: CANCEL_ASKED notices join a queue only by a first Cancel Call (R15, R16), so that no
command other than that one, and no event, raises one. -/

namespace Sys2Proof.Notices

open Sys2Proof Sys2Proof.Machine Sys2Proof.Safety Sys2Proof.Statement Sys2Proof.Steps

variable {s t u v : State} {p : Port} {n : SlotNo} {c : Call}

/-! ### Steps that ask nothing -/

/-- The notice is not a CANCEL_ASKED. -/
abbrev NotRequest (k : Notice) : Prop := ∀ level, asksAbout level k = false

theorem outcome_notRequest (k : Notice) (h : isOutcome k = true) : NotRequest k := by
  cases k with
  | cancelAsked => cases h
  | answered | failed | overrun | callerGone | peerDetached => exact fun _ => rfl

theorem orphaning_notRequest (level : Nat) (k : Notice) (h : orphansAt level k = true) : NotRequest k := by
  cases k with
  | cancelAsked => cases h
  | answered | failed | overrun | callerGone | peerDetached => exact fun _ => rfl

/-- No CANCEL_ASKED notice joins a queue. -/
abbrev Unasked (s t : State) : Prop := Tells NotRequest s t

theorem Unasked.count_le (h : Unasked s t) (q : Port) (level : Nat) :
    (t.port q).notices.countP (asksAbout level) ≤ (s.port q).notices.countP (asksAbout level) := by
  obtain ⟨new, hsub, hnew⟩ := h q
  have h0 : new.countP (asksAbout level) = 0 := List.countP_eq_zero.2 fun k hk => by simp [hnew k hk level]
  have := hsub.countP_le (p := asksAbout level)
  rwa [List.countP_append, h0, Nat.add_zero] at this

theorem unasked_departure (s : State) (p : Port) (m : PortMode) : Unasked s (s.departure p m) :=
  tells_departure orphaning_notRequest outcome_notRequest s p m fun _ => rfl

/-- What a step asks: nothing, or the first cancel of one call in service. -/
inductive Asks (s t : State) : Prop
  | unasked (h : Unasked s t)
  | asked (u : State) (n : SlotNo) (c : Call) (hu : SamePart s u) (hs : u.slot n = some c) (hi : c.isInService = true)
      (hc : c.cancelAsked = false) (ht : SamePart (u.askCancel n c) t)

theorem asks_samePart (h : SamePart s t) : Asks s t := .unasked (tells_samePart h)

theorem Asks.between (hs : SamePart s u) (h : Asks u v) (ht : SamePart v t) : Asks s t := by
  cases h with
  | unasked h => exact .unasked (((tells_samePart hs).trans h).trans (tells_samePart ht))
  | asked w n c hw hn hi hc hv => exact .asked w n c (hs.trans hw) hn hi hc (hv.trans ht)

/-- A frame asks what its command asks. -/
theorem asks_answer (s : State) (p : Port) (code : Byte) (params : List Byte) (ok : Bool) {act : State → State × Reply}
    (h : ∀ u, Asks u (act u).1) : Asks s (s.answer p code params ok act) := by
  unfold State.answer
  split
  · simp only []
    have hl : Link s ((s.receive p (requestBytes code params)).setFrameBad p false) :=
      (link_receive s p _).trans (link_modPort _ p _)
    split
    · exact asks_samePart ((link_receive s p _).trans (link_startReply _ p _ _)).toSamePart
    · refine .between hl.toSamePart ?_ (samePart_reply _ p code _ _)
      split
      · exact h _
      · exact asks_samePart (.refl _)
  · exact asks_samePart (.refl s)

/-! ### The commands, one after another -/

theorem unasked_whenOnline {act : State → State × Reply} (h : Unasked s (act s).1) : Unasked s (whenOnline p act s).1 := by
  unfold whenOnline
  split
  · exact h
  · exact tells_refl s

theorem unasked_attach (p : Port) (params : List Byte) (s : State) : Unasked s (attach p params s).1 := by
  unfold attach
  split
  · exact tells_refl s
  · split_ifs
    · exact tells_refl s
    · exact tells_refl s
    · exact tells_modPort s p _

theorem unasked_resetPeer (p : Port) (target : Option Port) (s : State) : Unasked s (resetPeer p target s).1 := by
  unfold resetPeer
  split
  · exact tells_refl s
  · next r =>
    refine unasked_whenOnline ?_
    split_ifs
    · exact tells_refl s
    · exact tells_refl s
    · exact tells_refl s
    · exact (unasked_departure s r _).trans (tells_modPort _ r _)

theorem unasked_registerService (p : Port) (params : List Byte) (s : State) : Unasked s (registerService p params s).1 := by
  unfold registerService
  split
  · exact tells_refl s
  · split
    · exact tells_refl s
    · refine unasked_whenOnline ?_
      unfold registerEntry
      split
      · exact tells_refl s
      · split
        · exact tells_refl s
        · exact tells_of_ports rfl

theorem unasked_withdrawService (p : Port) (id : Nat) (s : State) : Unasked s (withdrawService p id s).1 := by
  unfold withdrawService
  split
  · exact tells_refl s
  · refine unasked_whenOnline ?_
    split
    · exact tells_refl s
    · split_ifs
      · exact tells_refl s
      · exact tells_refl s
      · exact tells_withdraw outcome_notRequest s p id

theorem unasked_queryService (p : Port) (id : Nat) (s : State) : Unasked s (queryService p id s).1 := by
  unfold queryService
  split
  · exact tells_refl s
  · refine unasked_whenOnline ?_
    split <;> exact tells_refl s

theorem unasked_postCall (p : Port) (params : List Byte) (s : State) : Unasked s (postCall p params s).1 := by
  unfold postCall
  split
  · exact tells_refl s
  · split
    · exact tells_refl s
    · refine unasked_whenOnline ?_
      unfold postCallOnline
      split
      · exact tells_refl s
      · split_ifs
        · exact tells_refl s
        · exact tells_refl s
        · exact tells_refl s
        · split
          · exact tells_refl s
          · split
            · exact tells_refl s
            · exact tells_of_notices fun q => congrArg PortState.notices (post_port s _ _ q)

theorem asks_withOwnCall {k : Option SlotNo} {act : SlotNo → Call → State → State × Reply}
    (h : ∀ n c, s.slot n = some c → c.caller = p → Asks s (act n c s).1) : Asks s (withOwnCall p k act s).1 := by
  unfold withOwnCall
  split
  · exact asks_samePart (.refl s)
  · next n =>
    unfold whenOnline
    split
    · simp only []
      split
      · exact asks_samePart (.refl s)
      · next c hs =>
        split
        · next hc => exact h n c hs hc
        · exact asks_samePart (.refl s)
    · exact asks_samePart (.refl s)

/-- A second cancel is refused (R16). -/
theorem asks_cancelCall (hs : s.slot n = some c) : Asks s (cancelCall n c s).1 := by
  unfold cancelCall
  split
  · exact .unasked (tells_of_notices fun q => congrArg PortState.notices (cancelPending_port s n c q))
  · next l hst =>
    split
    · exact asks_samePart (.refl s)
    · next hc => exact .asked s n c (.refl s) hs (by simp [Call.isInService, hst]) (by simpa using hc) (.refl _)
  · exact asks_samePart (.refl s)
  · exact asks_samePart (.refl s)

theorem unasked_collectAnswer (p : Port) (n : SlotNo) (c : Call) (s : State) : Unasked s (collectAnswer p n c s).1 := by
  unfold collectAnswer
  split
  · exact tells_collect s p n
  · exact tells_collect s p n
  · exact tells_refl s
  · exact tells_refl s

theorem unasked_takeCall (p : Port) (s : State) : Unasked s (takeCall p s).1 := by
  refine unasked_whenOnline ?_
  split_ifs
  · exact tells_refl s
  · exact tells_refl s
  · split
    · next n c _ =>
      refine tells_of_notices fun q => (congrArg PortState.notices (take_port s p n c q)).trans ?_
      split <;> rfl
    · exact tells_refl s

theorem unasked_answerCall (p : Port) (params : List Byte) (s : State) : Unasked s (answerCall p params s).1 := by
  unfold answerCall
  split_ifs
  · exact tells_refl s
  · exact tells_refl s
  · refine unasked_whenOnline ?_
    split
    · exact tells_refl s
    · next e _ =>
      split
      · exact tells_refl s
      · unfold answerTop
        split
        · exact tells_pop s p e
        · exact (tells_answerSlot outcome_notRequest s e.slot _ _).trans (tells_pop _ p e)

theorem unasked_setNesting (p : Port) (nest : Nest) (s : State) : Unasked s (setNesting p nest s).1 := by
  refine unasked_whenOnline ?_
  split
  · exact tells_refl s
  · exact tells_modPort s p _

theorem unasked_readNotices (p : Port) (n : Nat) (s : State) : Unasked s (readNotices p n s).1 := by
  unfold readNotices
  split
  · exact tells_refl s
  · exact unasked_whenOnline (tells_modPort s p _ (List.drop_sublist _ _))

theorem unasked_claimBlocks (p : Port) (count : Nat) (s : State) : Unasked s (claimBlocks p count s).1 := by
  unfold claimBlocks
  split
  · exact tells_refl s
  · refine unasked_whenOnline ?_
    split
    · exact tells_of_ports rfl
    · exact tells_refl s

theorem unasked_releaseBlocks (p : Port) (first count : Nat) (s : State) : Unasked s (releaseBlocks p first count s).1 := by
  unfold releaseBlocks
  split
  · exact tells_refl s
  · refine unasked_whenOnline ?_
    split
    · exact tells_refl s
    · exact tells_of_ports rfl

theorem unasked_setCursor (p : Port) (k : Option (Fin 2)) (base : Word) (limit : Nat) (s : State) :
    Unasked s (setCursor p k base limit s).1 := by
  unfold setCursor
  split
  · exact tells_refl s
  · exact unasked_whenOnline (tells_modPort s p _)

theorem unasked_rewindCursor (p : Port) (k : Option (Fin 2)) (s : State) : Unasked s (rewindCursor p k s).1 := by
  unfold rewindCursor
  split
  · exact tells_refl s
  · exact unasked_whenOnline (tells_modPort s p _)

theorem unasked_readData (p : Port) (k : Option (Fin 2)) (wanted : Nat) (s : State) : Unasked s (readData p k wanted s).1 := by
  unfold readData
  split
  · exact tells_refl s
  · split
    · exact tells_refl s
    · refine unasked_whenOnline ?_
      split <;> exact tells_refl s

theorem unasked_writeData (p : Port) (k : Option (Fin 2)) (s : State) : Unasked s (writeData p k s).1 := by
  have hd : Unasked s (s.discardStaged p) := tells_samePart (link_discardStaged s p).toSamePart
  unfold writeData
  split
  · exact hd
  · split
    · simp only []
      split
      · exact hd
      · exact tells_samePart (link_commit s p _ _).toSamePart
    · exact hd

/-! ### Every command, every event and every step -/

/-- A frame of a command that asks nothing. -/
theorem asks_runCommand (s : State) (p : Port) (code : Byte) (params : List Byte) {act : State → State × Reply}
    (h : ∀ u, Unasked u (act u).1) : Asks s (s.runCommand p code params act) :=
  asks_answer s p code params _ fun u => .unasked (h u)

/-- The fall of PRST# is a departure at most (R159). -/
theorem asks_prstFalling (p : Port) (s : State) {t : State} (h : execPrstFalling p s = .next t) : Asks s t := by
  cases h
  split
  · split
    · exact .unasked ((unasked_departure s p _).trans (tells_modPort _ p _))
    · exact .unasked (tells_modPort s p _)
  · exact asks_samePart (.refl s)

theorem unasked_reset (s : State) (a b : Bool) : Unasked s (resetWith s a b) := tells_of_sublist fun q => by
  rw [resetWith_port]
  exact List.nil_sublist _

theorem exec_asks (i : Instr) {s t : State} (h : exec i s = .next t) : Asks s t := by
  cases i
  case readDataByte p => exact asks_samePart (link_readDataByte h).toSamePart
  case selFalling p => exact asks_samePart (link_selFalling p s h).toSamePart
  case prstFalling p => exact asks_prstFalling p s h
  all_goals cases h
  case cancelCall p params => exact asks_answer s p _ params _ fun u => asks_withOwnCall fun n c hs _ => asks_cancelCall hs
  case collectAnswer p params =>
    exact asks_answer s p _ params _ fun u => asks_withOwnCall fun n c _ _ => .unasked (unasked_collectAnswer p n c u)
  case callStatus p params => exact asks_answer s p _ params _ fun u => asks_withOwnCall fun n c _ _ => asks_samePart (.refl u)
  case poll p params => exact asks_runCommand s p _ params fun u => tells_refl u
  case portStatus p params => exact asks_runCommand s p _ params fun u => tells_refl u
  case partStatus p params => exact asks_runCommand s p _ params fun u => tells_refl u
  case lastReply p params => exact asks_runCommand s p _ params fun u => by unfold lastReply; split <;> exact tells_refl u
  case attach p params => exact asks_runCommand s p _ params fun u => unasked_attach p params u
  case detach p params => exact asks_runCommand s p _ params fun u => unasked_whenOnline (unasked_departure u p _)
  case resetPeer p params => exact asks_runCommand s p _ params fun u => unasked_resetPeer p _ u
  case registerService p params => exact asks_runCommand s p _ params fun u => unasked_registerService p params u
  case withdrawService p params => exact asks_runCommand s p _ params fun u => unasked_withdrawService p _ u
  case queryService p params => exact asks_runCommand s p _ params fun u => unasked_queryService p _ u
  case postCall p params => exact asks_runCommand s p _ params fun u => unasked_postCall p params u
  case takeCall p params => exact asks_runCommand s p _ params fun u => unasked_takeCall p u
  case answerCall p params => exact asks_runCommand s p _ params fun u => unasked_answerCall p params u
  case openNesting p params => exact asks_runCommand s p _ params fun u => unasked_setNesting p _ u
  case closeNesting p params => exact asks_runCommand s p _ params fun u => unasked_setNesting p _ u
  case stackStatus p params => exact asks_runCommand s p _ params fun u => unasked_whenOnline (tells_refl u)
  case readNotices p params => exact asks_runCommand s p _ params fun u => unasked_readNotices p _ u
  case claimBlocks p params => exact asks_runCommand s p _ params fun u => unasked_claimBlocks p _ u
  case releaseBlocks p params => exact asks_runCommand s p _ params fun u => unasked_releaseBlocks p _ _ u
  case blockStatus p params => exact asks_runCommand s p _ params fun u => unasked_whenOnline (tells_refl u)
  case setCursor p params => exact asks_runCommand s p _ params fun u => unasked_setCursor p _ _ _ u
  case rewindCursor p params => exact asks_runCommand s p _ params fun u => unasked_rewindCursor p _ u
  case readData p params => exact asks_runCommand s p _ params fun u => unasked_readData p _ _ u
  case writeData p params =>
    exact (asks_runCommand _ p _ params fun u => unasked_writeData p _ u).between (link_stage s p params).toSamePart (.refl _)
  case frameCutShort p edges => exact asks_samePart (link_selRise s p edges).toSamePart
  case frameEnd p edges => exact asks_samePart (link_selRise s p edges).toSamePart
  case prstRising p => exact .unasked (tells_modPort s p _)
  case badCommand p code params =>
    split
    · exact asks_samePart (.refl s)
    · exact asks_answer s p code params true fun u => asks_samePart (.refl u)
  case badCheck p code params check =>
    split
    · exact asks_samePart ((((link_receive s p _).trans (link_markFrameBad _ p)).trans (link_discardFrame _ p _)).trans
        (link_startReply _ p _ _)).toSamePart
    · exact asks_samePart (.refl s)
  case resetFalling =>
    split_ifs
    · exact .unasked (unasked_reset s s.powered false)
    · exact .unasked (tells_of_ports rfl)
    · exact asks_samePart (.refl s)
  case resetRising => split_ifs <;> exact .unasked (tells_of_ports rfl)
  case powerBelowRange =>
    split_ifs
    · exact .unasked (unasked_reset s false s.resetHigh)
    · exact asks_samePart (.refl s)
  case powerUp =>
    split_ifs
    · exact asks_samePart (.refl s)
    · exact .unasked ((unasked_reset s true false).trans (tells_of_ports rfl))
  case tick =>
    split_ifs
    · exact .unasked (tells_of_notices fun q => by simp only [State.port, Table.get_map])
    · exact asks_samePart (.refl s)
  case deadlineExpiry n =>
    split
    · exact .unasked (tells_failCall outcome_notRequest s n _)
    all_goals exact asks_samePart (.refl s)
  case overrun n =>
    split
    · exact asks_samePart (.refl s)
    · split
      · exact .unasked ((tells_orphanOverrun orphaning_notRequest s _ n _).trans (tells_failCall outcome_notRequest _ n _))
      · exact asks_samePart (.refl s)
  case pulseEnd p =>
    split
    · exact .unasked (tells_modPort s p _)
    all_goals exact asks_samePart (.refl s)
  case scrubCompletion =>
    split
    · exact asks_samePart (.refl s)
    · split <;> exact .unasked (tells_of_ports rfl)

/-- A step asks what its command asks; an edge of a link's clock asks nothing. -/
theorem step_asks (h : step s = .next t) : Asks s t := by
  cases hp : s.pending with
  | cons c rest =>
    simp only [step, hp] at h
    exact (exec_asks c h).between (link_bookkeeping s _ _ rest).toSamePart (.refl t)
  | nil =>
    have hl := (link_bookkeeping s s.phase (s.freeCount + 1) s.pending).toSamePart
    rw [step_empty hp] at h
    simp only [State.idle] at h
    split at h
    · next p hc =>
      refine .between hl ?_ (.refl t)
      cases hd : State.completedBy { s with freeCount := s.freeCount + 1 } p (Config.mosiLevel s.freeCount) with
      | some c =>
        rw [clock_command hd] at h
        exact exec_asks c h
      | none =>
        rw [clock_edge hd] at h
        cases h
        exact asks_samePart (link_sckEdge _ p _).toSamePart
    · cases h
      exact asks_samePart hl

end Sys2Proof.Notices
end

section
/-! SUPPORT. The laws of the notices about calls and entries (R75, R77, R78, R80, R81) at every step. Each operation that raises a
notice, ends a call or changes a stack keeps every queue lawful; with what a step asks, so does every step. -/

namespace Sys2Proof.Notices

open Sys2Proof Sys2Proof.Machine Sys2Proof.Safety Sys2Proof.Statement Sys2Proof.Steps

variable {s t : State} {n : SlotNo} {c d : Call} {e : StackEntry} {k : Notice} {level : Nat}

/-- One port's records change, and the calls stand: only that port's queue is to be looked at. -/
theorem noticeLaw_port (p : Port) (hother : ∀ q, p ≠ q → t.port q = s.port q) (hc : ∀ m, CallStands s t m)
    (hp : LawfulQueue s p → LawfulQueue t p) (h : NoticeLaw s) : NoticeLaw t := by
  rw [noticeLaw_iff] at h ⊢
  intro q
  by_cases hq : p = q
  · exact hq ▸ hp (h p)
  · have hport := hother q hq
    exact (h q).shrink (by rw [hport]) fun _ _ x _ => stands_of_stack (by rw [hport]) hc x

/-! ### Calls that end -/

/-- A call ends, and its caller is told of the outcome (R77). -/
theorem noticeLaw_ended (hs : s.slot n = some c) (hu : Unended c) (hask : c.cancelAsked = true → d.cancelAsked = true)
    (hk : topic k = some (.outcome n)) (blocks : Table Block 256)
    (htrue : Truthful (State.modPort { s with slots := s.slots.set n (some d), blocks := blocks } c.caller (told k)) c.caller k) :
    NoticeLaw s → NoticeLaw (State.modPort { s with slots := s.slots.set n (some d), blocks := blocks } c.caller (told k)) := by
  have hc := callStands_of_set (s := s) (x := some d)
    (t := State.modPort { s with slots := s.slots.set n (some d), blocks := blocks } c.caller (told k)) rfl fun x hx => by
      rw [hs] at hx; cases hx
      exact ⟨hu, d, rfl, hask⟩
  refine noticeLaw_port c.caller (fun q hq => Steps.modPort_port_ne hq) hc fun h => ?_
  refine h.join (by rw [modPort_port_self]; rfl) htrue (fun x hx => ?_) (stands_of_stack (by rw [modPort_port_self]; rfl) hc)
  rw [hk] at hx; cases hx
  exact h.fresh_outcome hs hu

theorem failCall_noticeLaw (n : SlotNo) (why : Failure) (h : NoticeLaw s) : NoticeLaw (s.failCall n why) := by
  by_cases hc : ∃ c, s.slot n = some c ∧ Unended c
  · obtain ⟨c, hs, hu⟩ := hc
    rw [failCall_eq hs hu]
    exact noticeLaw_ended (d := { c with state := .failed why }) hs hu id rfl _ ⟨_, Table.get_set_self .., rfl, rfl, rfl⟩ h
  · rwa [failCall_ended fun c hs hu => hc ⟨c, hs, hu⟩]

theorem failCalls_noticeLaw (why : Failure) : ∀ (ns : List SlotNo) {s : State}, NoticeLaw s → NoticeLaw (s.failCalls why ns)
  | [], _, h => h
  | n :: ns, _, h => failCalls_noticeLaw why ns (failCall_noticeLaw n why h)

theorem answerSlot_noticeLaw (n : SlotNo) (r : Byte) (ws : List Word) (h : NoticeLaw s) : NoticeLaw (s.answerSlot n r ws) := by
  by_cases hc : ∃ c, s.slot n = some c ∧ c.isInService = true
  · obtain ⟨c, hs, hi⟩ := hc
    rw [answerSlot_eq hs hi]
    exact noticeLaw_ended (d := { c with state := .answered r ws }) hs (.inr hi) id rfl _
      ⟨_, Table.get_set_self .., rfl, rfl, r, ws, rfl⟩ h
  · rwa [answerSlot_not fun c hs hi => hc ⟨c, hs, hi⟩]

/-! ### Slots that are freed -/

/-- The slot of a call that is not in service is freed, and no notice of its outcome is left (R80). -/
theorem noticeLaw_freed (hv : ServiceLaw s) (hs : s.slot n = some c) (hi : c.isInService = false)
    (hslots : t.slots = s.slots.set n none) (hn : ∀ q, (t.port q).notices.Sublist (s.port q).notices)
    (hstack : ∀ q, (t.port q).stack = (s.port q).stack)
    (hgone : ¬Unended c → ∀ k ∈ (t.port c.caller).notices, topic k ≠ some (.outcome n)) (h : NoticeLaw s) : NoticeLaw t := by
  have hslot : ∀ m, n ≠ m → t.slot m = s.slot m := fun m hm => by
    rw [State.slot, hslots, Table.get_set_ne _ _ hm, State.slot]
  have entry : ∀ q level, EntryStands s t q level := by
    intro q level e he
    refine ⟨e, (congrArg (·[level]?) (hstack q)).trans he, ?_⟩
    cases ho : e.orphaned with
    | true => exact .inl (by rw [asOrphan, ← ho])
    | false =>
      obtain ⟨d, hd, hdq⟩ := live_serves hv (mem_live.2 ⟨List.mem_of_getElem? he, ho⟩)
      refine .inr ⟨rfl, (callStands_of_slot (hslot _ fun hne => ?_)).asked⟩
      rw [← hne, hs] at hd; cases hd
      exact absurd hdq.inService (by simp [hi])
  rw [noticeLaw_iff] at h ⊢
  refine fun q => (h q).shrink (hn q) fun k hk x hx => ?_
  cases x with
  | outcome m =>
    intro d hd hdq hu
    rw [← hd]
    refine hslot m fun hne => ?_
    subst hne
    rw [hs] at hd; cases hd
    exact hgone hu k (hdq ▸ hk) hx
  | request level => exact entry q level
  | orphaning level => exact entry q level

theorem cancelPending_noticeLaw (hs : s.slot n = some c) (hp : c.isPending = true) (hv : ServiceLaw s) (h : NoticeLaw s) :
    NoticeLaw (s.cancelPending n c) :=
  noticeLaw_freed hv hs (not_inService_of_pending hp) (cancelPending_slots s n c)
    (fun q => by rw [cancelPending_port]) (fun q => by rw [cancelPending_port]) (fun hu => absurd (.inl hp) hu) h

theorem collect_noticeLaw (hs : s.slot n = some c) (hu : ¬Unended c) (hv : ServiceLaw s) (h : NoticeLaw s) :
    NoticeLaw (s.collect c.caller n) := by
  have hport : ∀ q, (s.collect c.caller n).port q = if c.caller = q then
      { s.port q with notices := (s.port q).notices.filter fun k => !k.announces n } else s.port q :=
    fun q => modPort_port (s.setSlot n none) _ q _
  refine noticeLaw_freed hv hs (Bool.eq_false_iff.2 fun hi => hu (.inr hi)) rfl (fun q => ?_) (fun q => ?_) (fun _ k hk hx => ?_) h
  · rw [hport]
    split
    · exact List.filter_sublist
    · exact List.Sublist.refl _
  · rw [hport]
    split <;> rfl
  · rw [hport, if_pos rfl] at hk
    have ha := (List.mem_filter.1 hk).2
    rw [← topic_outcome, hx] at ha
    simp at ha

/-! ### Requests -/

/-- The level of a slot's live entry (R48). -/
theorem liveLevel_entry {stack : List StackEntry} (h : liveLevel n stack = some level) :
    ∃ e, stack[level]? = some e ∧ e.slot = n ∧ e.orphaned = false := by
  obtain ⟨hlt, he, -⟩ := List.findIdx?_eq_some_iff_getElem.1 h
  simp only [Bool.and_eq_true, beq_iff_eq, Bool.not_eq_true'] at he
  exact ⟨_, List.getElem?_eq_getElem hlt, he⟩

/-- The tag of a live entry is that of its call (R48). -/
theorem live_tag (hv : ServiceLaw s) (hs : s.slot n = some c) (he : (s.port p).stack[level]? = some e) (hn : e.slot = n)
    (ho : e.orphaned = false) : e.tag = c.tag := by
  obtain ⟨d, hd, hdq⟩ := live_serves hv (mem_live.2 ⟨List.mem_of_getElem? he, ho⟩)
  rw [hn, hs] at hd; cases hd
  exact hdq.tag.symm

theorem askCancel_callStands (hs : s.slot n = some c) (hi : c.isInService = true) (m : SlotNo) :
    CallStands s (s.askCancel n c) m :=
  callStands_of_set (askCancel_slots s n c) (fun x hx => by
    rw [hs] at hx; cases hx
    exact ⟨.inr hi, { c with cancelAsked := true }, rfl, fun _ => rfl⟩) m

/-- A call without a live entry is asked of no callee. -/
theorem askCancel_none (hl : liveLevel n (s.port c.callee).stack = none) (q : Port) : (s.askCancel n c).port q = s.port q := by
  simp only [State.askCancel, hl]; rfl

theorem askCancel_some (hl : liveLevel n (s.port c.callee).stack = some level) :
    s.askCancel n c = (s.setSlot n (some { c with cancelAsked := true })).modPort c.callee (told (.cancelAsked level n c.tag)) := by
  simp only [State.askCancel, hl]; rfl

/-- A cancel of a call in service which no CANCEL_ASKED notice follows, or which is the first (R15). -/
theorem askCancel_noticeLaw (hs : s.slot n = some c) (hi : c.isInService = true)
    (hc : Unasked s (s.askCancel n c) ∨ c.cancelAsked = false) (hv : ServiceLaw s) (h : NoticeLaw s) :
    NoticeLaw (s.askCancel n c) := by
  have hcalls := askCancel_callStands hs hi
  cases hl : liveLevel n (s.port c.callee).stack with
  | none =>
    have hport := askCancel_none hl
    exact noticeLaw_standing (fun q => by rw [hport]) (fun q => by rw [hport]) hcalls h
  | some level =>
    have hself : (s.askCancel n c).port c.callee = told (.cancelAsked level n c.tag) (s.port c.callee) := by
      rw [askCancel_some hl, modPort_port_self]; rfl
    have hstack : ((s.askCancel n c).port c.callee).stack = (s.port c.callee).stack := by rw [hself]; rfl
    have hn : ((s.askCancel n c).port c.callee).notices = (s.port c.callee).notices ++ [.cancelAsked level n c.tag] := by
      rw [hself]; rfl
    obtain ⟨e, he, hen, ho⟩ := liveLevel_entry hl
    refine noticeLaw_port c.callee (fun q => askCancel_port_other) hcalls (fun h => ?_) h
    refine h.join hn ?_ (fun x hx => ?_) (stands_of_stack hstack hcalls)
    · refine ⟨e, (congrArg (·[level]?) hstack).trans he, hen, live_tag hv hs he hen ho, .inr ⟨{ c with cancelAsked := true }, ?_, rfl⟩⟩
      rw [State.slot, askCancel_slots, Table.get_set_self]
    · cases hx
      refine h.fresh_request he ho (hen ▸ hs) (hc.resolve_left fun ha => ?_)
      have hle := ha.count_le c.callee level
      rw [hn, List.countP_append] at hle
      simp [asksAbout] at hle

/-! ### Stacks -/

/-- A pop takes the notices about its entry with it (R81). -/
theorem pop_noticeLaw (p : Port) (e : StackEntry) : NoticeLaw s → NoticeLaw (s.pop p e) := by
  refine noticeLaw_port p (fun q => Steps.modPort_port_ne) (callStands_of_slots rfl) fun h => ?_
  have hstack : ((s.pop p e).port p).stack = (s.port p).stack.dropLast := by rw [State.pop, modPort_port_self]
  have hn : ((s.pop p e).port p).notices = (s.port p).notices.filter fun k => !k.raisedAbout ((s.port p).stack.length - 1) := by
    rw [State.pop, modPort_port_self]
  have below : ∀ level, level ≠ (s.port p).stack.length - 1 → EntryStands s (s.pop p e) p level := by
    intro level hne f hf
    have hlt := (List.getElem?_eq_some_iff.1 hf).1
    refine ⟨f, ?_, .inr ⟨rfl, (callStands_of_slots rfl _).asked⟩⟩
    rw [hstack, List.getElem?_dropLast, if_pos (by omega), hf]
  refine h.shrink (by rw [hn]; exact List.filter_sublist) fun k hk x hx => ?_
  rw [hn] at hk
  have hk := (List.mem_filter.1 hk).2
  cases k with
  | answered m tag | failed m tag why => cases hx; exact fun c hs _ _ => hs
  | cancelAsked level m tag | overrun level m tag | callerGone level m tag =>
    cases hx
    exact below level (by simpa [Notice.raisedAbout] using hk)
  | peerDetached => cases hx

/-- An entry that a test orphans, or not. -/
theorem orphaned_or (f : StackEntry → Bool) (e : StackEntry) :
    (if f e && !e.orphaned then { e with orphaned := true } else e) = e ∨
      (if f e && !e.orphaned then { e with orphaned := true } else e) = asOrphan e := by
  split
  · exact .inr rfl
  · exact .inl rfl

theorem orphanOverrun_notices (s : State) (p : Port) (n : SlotNo) (tag : Word) :
    ((s.orphanOverrun p n tag).port p).notices =
      (s.port p).notices ++ ((liveLevel n (s.port p).stack).map fun level => .overrun level n tag).toList := by
  rw [State.orphanOverrun, modPort_port_self]
  cases liveLevel n (s.port p).stack with
  | none => exact (List.append_nil _).symm
  | some level => rfl

/-- The callee of a call that overruns is told of the entry that is orphaned (R68). -/
theorem orphanOverrun_noticeLaw (hs : s.slot n = some c) (hv : ServiceLaw s) :
    NoticeLaw s → NoticeLaw (s.orphanOverrun c.callee n c.tag) := by
  have hc : ∀ m, CallStands s (s.orphanOverrun c.callee n c.tag) m := callStands_of_slots rfl
  refine noticeLaw_port c.callee (fun q => Steps.modPort_port_ne) hc fun h => ?_
  have hstack : ((s.orphanOverrun c.callee n c.tag).port c.callee).stack = orphanSlot n (s.port c.callee).stack := by
    rw [State.orphanOverrun, modPort_port_self]
  have hst := stands_of (t := s.orphanOverrun c.callee n c.tag) (orphaned_or fun e => e.slot == n)
    (by rw [hstack]; exact List.prefix_refl _) hc
  have hn := orphanOverrun_notices s c.callee n c.tag
  cases hl : liveLevel n (s.port c.callee).stack with
  | none =>
    rw [hl] at hn
    exact h.shrink (by rw [hn]; simp) fun _ _ x _ => hst x
  | some level =>
    rw [hl] at hn
    obtain ⟨e, he, hen, ho⟩ := liveLevel_entry hl
    have htag := live_tag hv hs he hen ho
    refine h.join hn ⟨asOrphan e, ?_, hen, htag, rfl⟩ (fun x hx => ?_) hst
    · rw [hstack, orphanSlot, List.getElem?_map, he]
      simp [hen, ho, asOrphan]
    · cases hx
      exact h.fresh_orphaning he ho

end Sys2Proof.Notices
end

section
/-! SUPPORT. The notices at a post, a take and a departure, and with them at every step; and how many notices a queue can hold
(R85). -/

namespace Sys2Proof.Notices

open Sys2Proof Sys2Proof.Machine Sys2Proof.Safety Sys2Proof.Statement Sys2Proof.Steps

variable {s t : State} {p q : Port} {n : SlotNo} {c : Call} {k : Notice}

/-! ### Posts, takes and ticks -/

theorem post_noticeLaw (hfree : s.slot n = none) (h : NoticeLaw s) : NoticeLaw (s.post n c) :=
  noticeLaw_standing (fun q => by rw [post_port]) (fun q => by rw [post_port])
    (callStands_of_set (post_slots s n c) fun d hd => by rw [hfree] at hd; cases hd) h

theorem take_noticeLaw (p : Port) (hs : s.slot n = some c) (hp : c.isPending = true) : NoticeLaw s → NoticeLaw (s.take p n c) := by
  have hc := callStands_of_set (take_slots s p n c) fun x hx => by
    rw [hs] at hx; cases hx
    exact ⟨.inl hp, _, rfl, id⟩
  refine noticeLaw_port p (fun q hq => by rw [take_port, if_neg hq]) hc fun h => ?_
  have hself := take_port s p n c p
  rw [if_pos rfl] at hself
  refine h.shrink (by rw [hself]) fun _ _ x _ => stands_of (g := id) (fun e => .inl rfl) ?_ hc x
  rw [List.map_id, hself]
  exact List.prefix_append _ _

/-- A tick leaves a call that has ended as it is. -/
theorem tick_of_ended (h : ¬Unended c) : c.tick = c := by
  cases c with
  | mk _ _ _ _ _ _ _ _ _ st =>
    cases st with
    | waiting d => exact absurd (.inl rfl) h
    | inService l => exact absurd (.inr rfl) h
    | answered | failed => rfl

theorem callStands_tick (h : ∀ n, t.slot n = (s.slot n).map Call.tick) (n : SlotNo) : CallStands s t n := by
  refine ⟨fun c hs hu => ?_, fun c hs ha => ⟨c.tick, ?_, ha⟩⟩ <;> rw [h, hs, Option.map_some]
  rw [tick_of_ended hu]

/-! ### Departures -/

theorem mem_callerGoneNotices {stack : List StackEntry} (h : k ∈ callerGoneNotices p 0 stack) :
    ∃ level e, k = .callerGone level e.slot e.tag ∧ stack[level]? = some e ∧ e.caller = p ∧ e.orphaned = false := by
  rw [callerGoneNotices_eq, List.mem_filterMap] at h
  obtain ⟨⟨e, level⟩, hx, hk⟩ := h
  split at hk
  · next hc =>
    cases hk
    exact ⟨level, e, rfl, List.mk_mem_zipIdx_iff_getElem?.1 hx, hc⟩
  · cases hk

/-- A departure tells of each level once. -/
theorem callerGone_topics (p : Port) : ∀ (stack : List StackEntry) (level : Nat),
    (topics (callerGoneNotices p level stack)).Sublist ((List.range' level stack.length).map .orphaning)
  | [], _ => List.Sublist.refl _
  | e :: es, level => by
    have ih := callerGone_topics p es (level + 1)
    rw [callerGoneNotices, List.length_cons, List.range'_succ, List.map_cons]
    split
    · exact ih.cons_cons _
    · exact ih.cons _

theorem callerGone_topics_nodup (p : Port) (stack : List StackEntry) : (topics (callerGoneNotices p 0 stack)).Nodup :=
  List.Nodup.sublist (callerGone_topics p stack 0) ((List.nodup_range').map fun _ _ h => Topic.orphaning.inj h)

/-- What the failure of calls leaves of a port's stack. -/
theorem failed_stack (s : State) (p q : Port) : ((failed s p).port q).stack = (s.port q).stack := by
  obtain ⟨l, hl⟩ := failCalls_port .peerGone q (s.servedSlots p) s
  rw [failed, hl]

/-- An entry of a survivor's stack is orphaned by the departure, or its call stays (R70). -/
theorem departure_entryStands (m : PortMode) (hv : ServiceLaw s) (hq : q ≠ p) (level : Nat) :
    EntryStands (failed s p) (s.departure p m) q level := by
  have hstack := congrArg PortState.stack (departure_other s m hq _ rfl)
  intro e he
  rw [failed_stack] at he
  refine ⟨_, by rw [hstack, orphanCaller, List.getElem?_map, he]; rfl, ?_⟩
  by_cases hlive : e.orphaned = false ∧ e.caller ≠ p
  · obtain ⟨ho, hne⟩ := hlive
    refine .inr ⟨if_neg (by simp [hne]), fun c hs ha => ⟨c, departure_slot_of_caller m hs ?_, ha⟩⟩
    obtain ⟨x, hx, hr⟩ := failCalls_older _ _ s _ c hs
    obtain ⟨y, hy, hyq⟩ := live_serves hv (mem_live.2 ⟨List.mem_of_getElem? he, ho⟩)
    rw [hx] at hy; cases hy
    rw [hr.caller, hyq.caller]
    exact hne
  · cases ho : e.orphaned with
    | true => exact .inl ((if_neg (by simp [ho])).trans (by rw [asOrphan, ← ho]))
    | false =>
      have hp : e.caller = p := by
        by_contra hne
        exact hlive ⟨ho, hne⟩
      exact .inl (if_pos (by simp [hp, ho]))

theorem departure_noticeLaw (m : PortMode) (hv : ServiceLaw s) (h : NoticeLaw s) : NoticeLaw (s.departure p m) := by
  have hf := (noticeLaw_iff _).1 (failCalls_noticeLaw .peerGone (s.servedSlots p) h)
  refine (noticeLaw_iff _).2 fun q => ?_
  by_cases hq : q = p
  · subst hq
    exact lawfulQueue_nil (by rw [departure_port])
  · have hport := departure_other s m hq _ rfl
    have hn := congrArg PortState.notices hport
    have hstack := congrArg PortState.stack hport
    simp only [List.append_assoc] at hn
    have hsub := List.Sublist.refl ((s.departure p m).port q).notices
    nth_rw 2 [hn] at hsub
    refine (hf q).of hsub ?_ (fun k hk x hx => ?_) fun k _ x _ => ?_
    · rw [topics, List.filterMap_append]
      have hpeer : ∀ (b : Prop) [Decidable b], (if b then [Notice.peerDetached p] else []).filterMap topic = [] := by
        intro b _
        split <;> rfl
      rw [hpeer, List.append_nil]
      exact callerGone_topics_nodup p _
    · rcases List.mem_append.1 hk with hk | hk
      · obtain ⟨level, e, rfl, he, hp, ho⟩ := mem_callerGoneNotices hk
        cases hx
        refine ⟨⟨asOrphan e, ?_, rfl, rfl, rfl⟩, (hf q).fresh_orphaning ((congrArg (·[level]?) (failed_stack s p q)).trans he) ho⟩
        rw [hstack, orphanCaller, List.getElem?_map, he]
        simp [hp, ho, asOrphan]
      · split at hk
        · rw [List.mem_singleton.1 hk] at hx; cases hx
        · cases hk
    · cases x with
      | outcome n => exact fun c hs hc _ => departure_slot_of_caller m hs (hc ▸ hq)
      | request level => exact departure_entryStands m hv hq level
      | orphaning level => exact departure_entryStands m hv hq level

/-! ### The effects -/

theorem withdraw_noticeLaw (p : Port) (id : Nat) (h : NoticeLaw s) : NoticeLaw (s.withdraw p id) :=
  failCalls_noticeLaw _ _ (s := CallTable.without s id) h

theorem Quiet.noticeLaw (h : Quiet s t) (ha : Unasked s t) (hv : ServiceLaw s) (hs : NoticeLaw s) : NoticeLaw t := by
  have same : (∀ q, (t.port q).notices.Sublist (s.port q).notices) → t.slots = s.slots → NoticeLaw t := fun hn hslots =>
    noticeLaw_standing hn h.sameService.stack (callStands_of_slots hslots) hs
  cases h with
  | link h => exact noticeLaw_samePart h.toSamePart hs
  | withdrawn p id => exact withdraw_noticeLaw p id hs
  | cancelled n c hc hp => exact cancelPending_noticeLaw hc hp hv hs
  | cancelAsked n c hc hi => exact askCancel_noticeLaw hc hi (.inl ha) hv hs
  | collected n c hc hu => exact collect_noticeLaw hc hu hv hs
  | noticesRead p k =>
    refine same (fun q => ?_) rfl
    rw [modPort_port]
    split
    · exact List.drop_sublist _ _
    · exact List.Sublist.refl _
  | expired n => exact failCall_noticeLaw n _ hs
  | ticked =>
    refine noticeLaw_standing (fun q => ?_) (fun q => ?_) (callStands_tick fun n => Table.get_map ..) hs <;>
      simp only [State.port, Table.get_map]
    exact List.Sublist.refl _
  | pulseEnded p =>
    refine same (fun q => ?_) rfl
    rw [modPort_port]
    split <;> exact List.Sublist.refl _
  | claimed | released | resetRose | resetPin | scrubbed => exact same (fun q => List.Sublist.refl _) rfl

theorem Running.noticeLaw (h : Running s t) (ha : Unasked s t) (hv : ServiceLaw s) (hs : NoticeLaw s) : NoticeLaw t := by
  cases h with
  | quiet h => exact Quiet.noticeLaw h ha hv hs
  | answered p e r ws => exact pop_noticeLaw p e (answerSlot_noticeLaw e.slot r ws hs)
  | popped p e => exact pop_noticeLaw p e hs
  | nested p nest =>
    refine noticeLaw_standing (s := s) (fun q => ?_) (fun q => ?_) (callStands_of_slots rfl) hs <;> rw [modPort_port] <;> split
    all_goals rfl
  | overran n c hc => exact failCall_noticeLaw n _ (orphanOverrun_noticeLaw hc hv hs)

theorem effect_noticeLaw (h : Effect s t) (ha : Unasked s t) (hv : ServiceLaw s) (hs : NoticeLaw s) : NoticeLaw t := by
  cases h with
  | running h => exact Running.noticeLaw h ha hv hs
  | attached p o =>
    refine noticeLaw_standing (s := s) (fun q => ?_) (fun q => ?_) (callStands_of_slots rfl) hs <;> rw [modPort_port] <;> split
    all_goals rfl
  | registered e => exact hs
  | posted n p c e hfree => exact post_noticeLaw hfree hs
  | taken p n c _ hc hp => exact take_noticeLaw p hc hp hs
  | departed p m _ _ _ _ _ h => exact noticeLaw_samePart h.toSamePart (departure_noticeLaw m hv hs)
  | reset a b _ h =>
    exact noticeLaw_samePart h.toSamePart ((noticeLaw_iff _).2 fun q => lawfulQueue_nil (by rw [resetWith_port]; rfl))

/-- By what the step asks: nothing, so that its effect keeps the law, or the first cancel of one call. -/
theorem step_noticeLaw (h : step s = .next t) (hv : ServiceLaw s) (hs : NoticeLaw s) : NoticeLaw t := by
  rcases step_asks h with ha | ⟨u, n, c, hu, hc, hi, hna, ht⟩
  · obtain ⟨u, v, h1, h2, h3, -⟩ := step_does h
    have hv' := serviceLaw_samePart h1.toSamePart hv
    have hs' := noticeLaw_samePart h1.toSamePart hs
    have ha' : Unasked u v := fun q => by
      obtain ⟨new, hsub, hnew⟩ := ha q
      rw [h3.notices, ← h1.notices] at hsub
      exact ⟨new, hsub, hnew⟩
    exact noticeLaw_samePart h3 (effect_noticeLaw h2 ha' hv' hs')
  · exact noticeLaw_samePart ht (askCancel_noticeLaw hc hi (.inr hna) (serviceLaw_samePart hu hv) (noticeLaw_samePart hu hs))

/-! ### How many notices a queue holds -/

/-- Notices with distinct keys of a list are no more than the keys. -/
theorem countP_le_of_keys {α : Type} {key : Notice → Option α} {ns : List Notice} {f : Notice → Bool} {keys : List α}
    (hn : (ns.filterMap key).Nodup) (hf : ∀ k ∈ ns, f k = true → ∃ x ∈ keys, key k = some x) : ns.countP f ≤ keys.length := by
  have hkey : ∀ k ∈ ns.filter f, ∃ x ∈ keys, key k = some x := fun k hk => hf k (List.mem_filter.1 hk).1 (List.mem_filter.1 hk).2
  have hlen : ((ns.filter f).filterMap key).length = ns.countP f := by
    rw [List.length_filterMap_eq_countP, List.countP_eq_length_filter (l := ns)]
    refine List.countP_eq_length.2 fun k hk => ?_
    obtain ⟨x, -, hx⟩ := hkey k hk
    rw [hx]; rfl
  rw [← hlen]
  refine (List.subperm_of_subset (hn.sublist (List.filter_sublist.filterMap key)) fun x hx => ?_).length_le
  obtain ⟨k, hk, hkx⟩ := List.mem_filterMap.1 hx
  obtain ⟨y, hy, hky⟩ := hkey k hk
  rw [hky] at hkx; cases hkx
  exact hy

/-- The slots that a port has posted. -/
def postedSlots (s : State) (p : Port) : List SlotNo :=
  s.slots.indices fun c => c.any fun c => c.caller == p

theorem postedSlots_length (s : State) (p : Port) : (postedSlots s p).length = s.allocatedCount p := by
  rw [postedSlots, Table.indices_eq_filter, State.allocatedCount, count_eq_finRange, List.countP_eq_length_filter]

/-- Every outcome notice is about a slot that the port posted. -/
theorem LawfulQueue.outcomes_le (h : LawfulQueue s p) : (s.port p).notices.countP isOutcome ≤ s.allocatedCount p := by
  have posted : ∀ {n c}, s.slot n = some c → c.caller = p → .outcome n ∈ (postedSlots s p).map Topic.outcome := fun hs hc =>
    List.mem_map_of_mem ((Table.mem_indices _ _ _).2 ((any_slot s _ _).2 ⟨_, hs, by simp [hc]⟩))
  have := countP_le_of_keys (f := isOutcome) (keys := (postedSlots s p).map Topic.outcome) h.topics fun k hk hf => by
    have ht := h.truthful k hk
    cases k with
    | answered n tag | failed n tag why =>
      obtain ⟨c, hs, hc, -⟩ := ht
      exact ⟨_, posted hs hc, rfl⟩
    | cancelAsked | overrun | callerGone | peerDetached => cases hf
  rwa [List.length_map, postedSlots_length] at this

/-- Every level of a stack has a request and an orphaning at most. -/
theorem LawfulQueue.aboutEntries_le (h : LawfulQueue s p) :
    (s.port p).notices.countP isAboutEntry ≤ 2 * (s.port p).stack.length := by
  have hkeys := countP_le_of_keys (f := isAboutEntry)
    (keys := (List.range (s.port p).stack.length).map Topic.request ++ (List.range (s.port p).stack.length).map Topic.orphaning)
    h.topics fun k hk hf => by
      have ht := h.truthful k hk
      cases k with
      | cancelAsked level n tag =>
        obtain ⟨e, he, -⟩ := ht
        exact ⟨_, List.mem_append_left _ (List.mem_map_of_mem (List.mem_range.2 (List.getElem?_eq_some_iff.1 he).1)), rfl⟩
      | overrun level n tag | callerGone level n tag =>
        obtain ⟨e, he, -⟩ := ht
        exact ⟨_, List.mem_append_right _ (List.mem_map_of_mem (List.mem_range.2 (List.getElem?_eq_some_iff.1 he).1)), rfl⟩
      | answered | failed | peerDetached => cases hf
  simp only [List.length_append, List.length_map, List.length_range] at hkeys
  omega

theorem otherPorts_length : ∀ p : Port, ((List.finRange 4).filter fun q => q ≠ p).length = 3 := by decide

/-- The peers of a port are three. -/
theorem peers_le (h : PeerNoticeLaw s) (p : Port) : (s.port p).notices.countP isAboutPeer ≤ 3 := by
  obtain ⟨hn, hself⟩ := (peerNoticeLaw_iff s).1 h p
  rw [← otherPorts_length p]
  refine countP_le_of_keys (key := detachedPeer) hn fun k hk hf => ?_
  cases k with
  | peerDetached q =>
    refine ⟨q, List.mem_filter.2 ⟨List.mem_finRange q, decide_eq_true ?_⟩, rfl⟩
    rintro rfl
    exact hself (mem_peersTold.2 hk)
  | answered | failed | cancelAsked | overrun | callerGone => cases hf

/-- The three kinds are all there are. -/
theorem length_eq_kinds (ns : List Notice) :
    ns.length = ns.countP isOutcome + ns.countP isAboutEntry + ns.countP isAboutPeer := by
  induction ns with
  | nil => rfl
  | cons k ns ih =>
    simp only [List.length_cons, List.countP_cons, ih]
    cases k <;> simp [isOutcome, isAboutEntry, isAboutPeer] <;> omega

/-- Settles O58: the peers' notices by what each effect tells of peers, the others by what each operation leaves of topics and
truth, and the bounds by the topics that a quota and a stack of four leave. -/
theorem everyStepKeepsNoticeLaws : Obligations.EveryStepKeepsNoticeLaws := by
  refine ⟨fun s t h => ⟨?_, fun hp hs => ?_⟩, fun s hp hf hn hd p => ?_⟩
  · exact step_keeps (fun h => (tells_samePart h).peerNoticeLaw) effect_peerNoticeLaw h
  · obtain ⟨-, -, -, -, hv, -⟩ := hp
    exact step_noticeLaw h hv hs
  · obtain ⟨hstack, -, hquota, -, -, -, -, hdeparted, -⟩ := hp
    have hq := (noticeLaw_iff s).1 hn p
    obtain ⟨-, -, hports⟩ := hf
    obtain ⟨-, hrange, -⟩ := hports p
    have houtcomes : (s.port p).notices.countP isOutcome ≤ 16 := (hq.outcomes_le.trans (hquota p)).trans hrange
    have hentries : (s.port p).notices.countP isAboutEntry ≤ 8 := hq.aboutEntries_le.trans (Nat.mul_le_mul_left 2 (hstack p).1)
    have hpeers := peers_le hd p
    have hlen := length_eq_kinds (s.port p).notices
    exact ⟨by omega, houtcomes, hentries, hpeers, fun hoff => (hdeparted p hoff).2.1⟩

end Sys2Proof.Notices
end

section
/-! SUPPORT. What a step does to the bytes of the block memory, said once: it leaves them and makes no block FREE, or writes bytes
that a port may write, or clears the block whose scrub completes, or resets the part. -/

namespace Sys2Proof.BlockMemory

open Sys2Proof Sys2Proof.Machine Sys2Proof.Safety Sys2Proof.Statement Sys2Proof.Steps

variable {s t u v : State} {p : Port} {n : SlotNo} {c : Call} {b : BlockNo}

/-! ### Changes that leave the memory's bytes -/

/-- The bytes and the block table stand. -/
structure SameMemory (s t : State) : Prop where
  mem : t.mem = s.mem
  blocks : t.blocks = s.blocks

theorem SameMemory.refl (s : State) : SameMemory s s := ⟨rfl, rfl⟩

theorem SameMemory.trans (h : SameMemory s t) (k : SameMemory t u) : SameMemory s u :=
  ⟨k.mem.trans h.mem, k.blocks.trans h.blocks⟩

theorem SameMemory.block (h : SameMemory s t) (b : BlockNo) : t.block b = s.block b := by
  rw [State.block, h.blocks, State.block]

theorem sameMemory_modPort (s : State) (p : Port) (f : PortState → PortState) : SameMemory s (s.modPort p f) := ⟨rfl, rfl⟩

theorem sameMemory_clocked (h : OnlyClocked p s t) : SameMemory s t := by
  obtain ⟨k, rfl⟩ := h
  exact sameMemory_modPort s p _

theorem sameMemory_markFrameBad (s : State) (p : Port) : SameMemory s (s.markFrameBad p) := by
  unfold State.markFrameBad
  split
  · exact .refl s
  · exact sameMemory_modPort s p _

theorem sameMemory_discardFrame (s : State) (p : Port) (code : Byte) : SameMemory s (s.discardFrame p code) := by
  unfold State.discardFrame
  split
  · exact sameMemory_modPort s p _
  · exact .refl s

theorem sameMemory_endFrame (s : State) (p : Port) : SameMemory s (s.endFrame p) := by
  unfold State.endFrame
  split
  · exact .refl s
  · split
    · exact ((sameMemory_markFrameBad s p).trans (sameMemory_discardFrame _ p _)).trans (sameMemory_modPort _ p _)
    · exact sameMemory_modPort s p _
  · exact sameMemory_modPort s p _
  · exact sameMemory_modPort s p _

theorem sameMemory_selRise (s : State) (p : Port) (edges : List Bool) : SameMemory s (s.selRise p edges) := by
  unfold State.selRise
  simp only []
  split
  · exact .refl s
  · exact ((sameMemory_clocked (onlyClocked_sckEdges p edges s)).trans (sameMemory_endFrame _ p)).trans (sameMemory_modPort _ p _)

theorem sameMemory_selFalling (h : execSelFalling p s = .next t) : SameMemory s t := by
  cases h
  split_ifs
  · exact sameMemory_modPort s p _
  · exact sameMemory_modPort s p _
  · exact .refl s

theorem sameMemory_stage (s : State) (p : Port) (params : List Byte) : SameMemory s (s.stage p params) := by
  unfold State.stage
  split
  · exact sameMemory_modPort s p _
  · exact .refl s

theorem sameMemory_reply (s : State) (p : Port) (code shown : Byte) (r : Reply) :
    SameMemory s ((if isStatusCode code then s else s.recordReply p code r).startReply p shown r) := by
  refine SameMemory.trans ?_ (sameMemory_modPort _ p _)
  split
  · exact .refl s
  · exact sameMemory_modPort s p _

/-! ### Changes that make no block FREE -/

/-- The bytes stand, and no block becomes FREE. -/
structure Kept (s t : State) : Prop where
  mem : t.mem = s.mem
  free : ∀ b, t.block b = .free → s.block b = .free

theorem SameMemory.kept (h : SameMemory s t) : Kept s t := ⟨h.mem, fun b hb => h.block b ▸ hb⟩

theorem Kept.refl (s : State) : Kept s s := (SameMemory.refl s).kept

theorem Kept.trans (h : Kept s t) (k : Kept t u) : Kept s u :=
  ⟨k.mem.trans h.mem, fun b hb => h.free b (k.free b hb)⟩

theorem kept_modPort (s : State) (p : Port) (f : PortState → PortState) : Kept s (s.modPort p f) :=
  (sameMemory_modPort s p f).kept

theorem returned_free (k : Block) : returned k = .free ↔ k = .free := by cases k <;> simp [returned]

/-- Blocks that go back to their owners are FREE neither before nor after. -/
theorem kept_of_returned (hb : ∀ b, t.block b = s.block b ∨ t.block b = returned (s.block b))
    (hm : t.mem = s.mem := by rfl) : Kept s t :=
  ⟨hm, fun b hf => by
    rcases hb b with e | e <;> rw [e] at hf
    · exact hf
    · exact (returned_free _).1 hf⟩

/-- A lease's change that maps none but a FREE block to FREE. -/
theorem kept_modLease (s : State) (l : Option Lease) {f : Block → Block} (hf : ∀ k, f k = .free → k = .free) :
    Kept s (s.modLease l f) :=
  ⟨modLease_mem s l f, fun b hb => by
    rw [modLease_block] at hb
    split at hb
    · exact hf _ hb
    · exact hb⟩

theorem kept_failCall (s : State) (n : SlotNo) (why : Failure) : Kept s (s.failCall n why) :=
  kept_of_returned (failCall_block s n why) (by rw [failCall_frame])

theorem kept_withdraw (s : State) (p : Port) (id : Nat) : Kept s (s.withdraw p id) :=
  kept_of_returned (fun b => failCalls_block _ b _ (CallTable.without s id)) (by rw [CallTable.withdraw_frame])

theorem kept_cancelPending (s : State) (n : SlotNo) (c : Call) : Kept s (s.cancelPending n c) :=
  kept_of_returned (cancelPending_block s n c) (by rw [CallTable.cancelPending_eq])

theorem kept_askCancel (s : State) (n : SlotNo) (c : Call) : Kept s (s.askCancel n c) := by
  unfold State.askCancel
  simp only []
  split <;> exact SameMemory.kept ⟨rfl, rfl⟩

theorem kept_answerSlot (s : State) (n : SlotNo) (r : Byte) (ws : List Word) : Kept s (s.answerSlot n r ws) := by
  refine kept_of_returned (answerSlot_block s n r ws) ?_
  by_cases h : ∃ c, s.slot n = some c ∧ c.isInService = true
  · obtain ⟨c, hs, hi⟩ := h
    rw [answerSlot_eq hs hi]
    rfl
  · rw [answerSlot_not fun c hs hi => h ⟨c, hs, hi⟩]

theorem kept_post (s : State) (n : SlotNo) (c : Call) : Kept s (s.post n c) := by
  have hset : Kept s (State.setSlot { s with posts := s.posts + 1 } n (some c)) := SameMemory.kept ⟨rfl, rfl⟩
  refine hset.trans (kept_modLease _ c.lease fun k => ?_)
  cases c.lease with
  | none => exact id
  | some l => cases k <;> simp [Block.pledge]

theorem kept_take (s : State) (p : Port) (n : SlotNo) (c : Call) : Kept s (s.take p n c) := by
  have hset : Kept s (s.setSlot n (some { c with state := .inService (s.limitOf c.service) })) := SameMemory.kept ⟨rfl, rfl⟩
  refine (hset.trans (kept_modLease _ c.lease fun k => ?_)).trans (kept_modPort _ p _)
  cases k <;> simp [Block.lend]

theorem kept_departure (s : State) (p : Port) (m : PortMode) : Kept s (s.departure p m) := by
  refine ⟨by rw [departure_frame], fun b hb => ?_⟩
  rw [departure_block, Block.afterDeparture, giveBack_eq] at hb
  have hfailed : (failed s p).block b = .free → s.block b = .free := by
    rcases failCalls_block .peerGone b (s.servedSlots p) s with e | e <;> rw [failed, e]
    · exact id
    · exact (returned_free _).1
  split_ifs at hb
  · exact hfailed ((returned_free _).1 hb)
  · exact hfailed hb

theorem kept_claim (s : State) (p : Port) (first count : Nat) : Kept s (s.claim p first count) :=
  ⟨rfl, fun b hb => by
    simp only [State.block, State.claim, Table.get_map] at hb
    split at hb
    · cases hb
    · exact hb⟩

theorem kept_release (s : State) (first count : Nat) : Kept s (s.release first count) :=
  ⟨rfl, fun b hb => by
    simp only [State.block, State.release, appendScrub_blocks, Table.get_map] at hb
    split at hb
    · cases hb
    · exact hb⟩

/-! ### The commands that leave the memory's bytes -/

theorem kept_whenOnline {act : State → State × Reply} (h : Kept s (act s).1) : Kept s (whenOnline p act s).1 := by
  unfold whenOnline
  split
  · exact h
  · exact .refl s

theorem kept_reply {st : Status} {body : List Byte} (h : Kept s t) : Kept s (reply st body t).1 := h

theorem kept_attach (p : Port) (params : List Byte) (s : State) : Kept s (attach p params s).1 := by
  unfold attach
  split
  · exact .refl s
  · split_ifs
    · exact .refl s
    · exact .refl s
    · exact kept_reply (kept_modPort s p _)

theorem kept_resetPeer (p : Port) (target : Option Port) (s : State) : Kept s (resetPeer p target s).1 := by
  unfold resetPeer
  split
  · exact .refl s
  · next r =>
    refine kept_whenOnline ?_
    split_ifs
    · exact .refl s
    · exact .refl s
    · exact .refl s
    · exact kept_reply ((kept_departure s r _).trans (kept_modPort _ r _))

theorem kept_registerService (p : Port) (params : List Byte) (s : State) : Kept s (registerService p params s).1 := by
  unfold registerService
  split
  · exact .refl s
  · split
    · exact .refl s
    · refine kept_whenOnline ?_
      unfold registerEntry
      split
      · exact .refl s
      · split
        · exact .refl s
        · exact kept_reply (SameMemory.kept ⟨rfl, rfl⟩)

theorem kept_withdrawService (p : Port) (id : Nat) (s : State) : Kept s (withdrawService p id s).1 := by
  unfold withdrawService
  split
  · exact .refl s
  · refine kept_whenOnline ?_
    split
    · exact .refl s
    · split_ifs
      · exact .refl s
      · exact .refl s
      · exact kept_reply (kept_withdraw s p id)

theorem kept_queryService (p : Port) (id : Nat) (s : State) : Kept s (queryService p id s).1 := by
  unfold queryService
  split
  · exact .refl s
  · refine kept_whenOnline ?_
    split <;> exact .refl s

theorem kept_postCall (p : Port) (params : List Byte) (s : State) : Kept s (postCall p params s).1 := by
  unfold postCall
  split
  · exact .refl s
  · split
    · exact .refl s
    · refine kept_whenOnline ?_
      unfold postCallOnline
      split
      · exact .refl s
      · split_ifs
        · exact .refl s
        · exact .refl s
        · exact .refl s
        · split
          · exact .refl s
          · split
            · exact .refl s
            · exact kept_reply (kept_post s _ _)

theorem kept_withOwnCall {k : Option SlotNo} {act : SlotNo → Call → State → State × Reply}
    (h : ∀ n c, Kept s (act n c s).1) : Kept s (withOwnCall p k act s).1 := by
  unfold withOwnCall
  split
  · exact .refl s
  · refine kept_whenOnline ?_
    split
    · exact .refl s
    · split
      · exact h _ _
      · exact .refl s

theorem kept_cancelCall (n : SlotNo) (c : Call) (s : State) : Kept s (cancelCall n c s).1 := by
  unfold cancelCall
  split
  · exact kept_reply (kept_cancelPending s n c)
  · split
    · exact .refl s
    · exact kept_reply (kept_askCancel s n c)
  · exact .refl s
  · exact .refl s

theorem kept_collectAnswer (p : Port) (n : SlotNo) (c : Call) (s : State) : Kept s (collectAnswer p n c s).1 := by
  have hc : Kept s (s.collect p n) := SameMemory.kept ⟨rfl, rfl⟩
  unfold collectAnswer
  split
  · exact kept_reply hc
  · exact kept_reply hc
  · exact .refl s
  · exact .refl s

theorem kept_takeCall (p : Port) (s : State) : Kept s (takeCall p s).1 := by
  refine kept_whenOnline ?_
  split_ifs
  · exact .refl s
  · exact .refl s
  · split
    · exact kept_reply (kept_take s p _ _)
    · exact .refl s

theorem kept_answerCall (p : Port) (params : List Byte) (s : State) : Kept s (answerCall p params s).1 := by
  unfold answerCall
  split_ifs
  · exact .refl s
  · exact .refl s
  · refine kept_whenOnline ?_
    split
    · exact .refl s
    · next e _ =>
      split
      · exact .refl s
      · unfold answerTop
        split
        · exact kept_reply (kept_modPort s p _)
        · exact kept_reply ((kept_answerSlot s e.slot _ _).trans (kept_modPort _ p _))

theorem kept_setNesting (p : Port) (nest : Nest) (s : State) : Kept s (setNesting p nest s).1 := by
  refine kept_whenOnline ?_
  split
  · exact .refl s
  · exact kept_reply (kept_modPort s p _)

theorem kept_readNotices (p : Port) (n : Nat) (s : State) : Kept s (readNotices p n s).1 := by
  unfold readNotices
  split
  · exact .refl s
  · exact kept_whenOnline (kept_reply (kept_modPort s p _))

theorem kept_claimBlocks (p : Port) (count : Nat) (s : State) : Kept s (claimBlocks p count s).1 := by
  unfold claimBlocks
  split
  · exact .refl s
  · refine kept_whenOnline ?_
    split
    · exact kept_reply (kept_claim s p _ _)
    · exact .refl s

theorem kept_releaseBlocks (p : Port) (first count : Nat) (s : State) : Kept s (releaseBlocks p first count s).1 := by
  unfold releaseBlocks
  split
  · exact .refl s
  · refine kept_whenOnline ?_
    split
    · exact .refl s
    · exact kept_reply (kept_release s _ _)

theorem kept_setCursor (p : Port) (k : Option (Fin 2)) (base : Word) (limit : Nat) (s : State) :
    Kept s (setCursor p k base limit s).1 := by
  unfold setCursor
  split
  · exact .refl s
  · exact kept_whenOnline (kept_reply (kept_modPort s p _))

theorem kept_rewindCursor (p : Port) (k : Option (Fin 2)) (s : State) : Kept s (rewindCursor p k s).1 := by
  unfold rewindCursor
  split
  · exact .refl s
  · exact kept_whenOnline (kept_reply (kept_modPort s p _))

theorem kept_readData (p : Port) (k : Option (Fin 2)) (wanted : Nat) (s : State) : Kept s (readData p k wanted s).1 := by
  unfold readData
  split
  · exact .refl s
  · split
    · exact .refl s
    · refine kept_whenOnline ?_
      split <;> exact .refl s

/-! ### What a step does to the memory -/

/-- What a step does to the bytes and to FREE blocks: it leaves the bytes and makes no block FREE; or a port writes bytes that it
may write (R134); or a block's scrub completes (R140); or the part is reset (R118, R166). -/
inductive Stores (s t : State) : Prop
  | kept (h : Kept s t)
  | written (p : Port) (ws : List (Word × Byte)) (hw : ∀ w ∈ ws, s.mayWrite p w.1 = true) (hm : t.mem = s.mem.writeAll ws)
      (hb : t.blocks = s.blocks)
  | scrubbed (b : BlockNo) (hm : t.mem = s.mem.clearBlock b) (hb : t.blocks = s.blocks.set b .free)
  | reset (epoch : Nat) (hm : t.mem = .reset epoch) (hb : ∀ b, t.block b = .scrub)

theorem SameMemory.stores (h : SameMemory s t) : Stores s t := .kept h.kept

theorem Stores.between (hs : SameMemory s u) (h : Stores u v) (ht : SameMemory v t) : Stores s t := by
  cases h with
  | kept h => exact .kept ((hs.kept.trans h).trans ht.kept)
  | written p ws hw hm hb =>
    refine .written p ws (fun w h => ?_) (ht.mem.trans (hs.mem ▸ hm)) ((ht.blocks.trans hb).trans hs.blocks)
    rw [State.mayWrite, ← hs.block]
    exact hw w h
  | scrubbed b hm hb => exact .scrubbed b (ht.mem.trans (hs.mem ▸ hm)) (ht.blocks.trans (hs.blocks ▸ hb))
  | reset epoch hm hb => exact .reset epoch (ht.mem.trans hm) fun b => (ht.block b).trans (hb b)

/-- When the search finds no byte that may not be written, all may be. -/
theorem mayWrite_of_firstUnwritable : ∀ {l : List Word} {k : Nat}, firstUnwritable s p k l = none →
    ∀ a ∈ l, s.mayWrite p a = true
  | [], _, _, _, ha => nomatch ha
  | w :: ws, _, h, a, ha => by
    rw [firstUnwritable] at h
    split_ifs at h with hw
    rcases List.mem_cons.1 ha with rfl | ha
    · exact hw
    · exact mayWrite_of_firstUnwritable h a ha

theorem stores_writeData (p : Port) (k : Option (Fin 2)) (s : State) : Stores s (writeData p k s).1 := by
  have hd : Stores s (s.discardStaged p) := (sameMemory_modPort s p _).stores
  unfold writeData
  split
  · exact hd
  · split
    · simp only []
      split
      · exact hd
      · next hn =>
        refine .written p _ (fun w hw => ?_) rfl rfl
        exact mayWrite_of_firstUnwritable hn w.1 (List.of_mem_zip hw).1
    · exact hd

/-- A frame does what its command does. -/
theorem stores_answer (s : State) (p : Port) (code : Byte) (params : List Byte) (ok : Bool) {act : State → State × Reply}
    (h : ∀ u, Stores u (act u).1) : Stores s (s.answer p code params ok act) := by
  unfold State.answer
  split
  · simp only []
    have hl : SameMemory s ((s.receive p (requestBytes code params)).setFrameBad p false) :=
      (sameMemory_modPort s p _).trans (sameMemory_modPort _ p _)
    split
    · exact ((sameMemory_modPort s p _).trans (sameMemory_modPort _ p _)).stores
    · refine .between hl ?_ (sameMemory_reply _ p code _ _)
      split
      · exact h _
      · exact (SameMemory.refl _).stores
  · exact (SameMemory.refl s).stores

/-- A frame of a command that leaves the bytes. -/
theorem stores_runCommand (s : State) (p : Port) (code : Byte) (params : List Byte) {act : State → State × Reply}
    (h : ∀ u, Kept u (act u).1) : Stores s (s.runCommand p code params act) :=
  stores_answer s p code params _ fun u => .kept (h u)

theorem stores_prstFalling (h : execPrstFalling p s = .next t) : Stores s t := by
  cases h
  split_ifs
  · exact .kept ((kept_departure s p _).trans (kept_modPort _ p _))
  · exact .kept (kept_modPort s p _)
  · exact .kept (.refl s)

theorem stores_badCheck {code check : Byte} {params : List Byte} (h : execBadCheck p code params check s = .next t) :
    Stores s t := by
  cases h
  split
  · exact ((((sameMemory_modPort s p _).trans (sameMemory_markFrameBad _ p)).trans (sameMemory_discardFrame _ p _)).trans
      (sameMemory_modPort _ p _)).stores
  · exact (SameMemory.refl s).stores

/-- After a reset every byte is unknown and no block is FREE (R118, R166). -/
theorem stores_resetWith (s : State) (a b : Bool) : Stores s (resetWith s a b) := .reset s.freeCount rfl (resetWith_block s a b)

theorem stores_deadlineExpiry (h : execDeadlineExpiry n s = .next t) : Stores s t := by
  cases h
  split
  · exact .kept (kept_failCall s n _)
  all_goals exact .kept (.refl s)

theorem stores_overrun (h : execOverrun n s = .next t) : Stores s t := by
  cases h
  split
  · exact .kept (.refl s)
  · split
    · exact .kept ((kept_modPort s _ _).trans (kept_failCall _ n _))
    · exact .kept (.refl s)

theorem stores_scrubCompletion (h : execScrubCompletion s = .next t) : Stores s t := by
  cases h
  split
  · exact .kept (.refl s)
  · split
    · exact .scrubbed _ rfl rfl
    · exact .kept (.refl s)

theorem exec_stores (i : Instr) (h : exec i s = .next t) : Stores s t := by
  cases i
  case selFalling p => exact (sameMemory_selFalling h).stores
  case prstFalling p => exact stores_prstFalling h
  case badCheck p code params check => exact stores_badCheck h
  case deadlineExpiry n => exact stores_deadlineExpiry h
  case overrun n => exact stores_overrun h
  case scrubCompletion => exact stores_scrubCompletion h
  case readDataByte p =>
    obtain ⟨t', ht, hc⟩ := execReadDataByte_next p s
    cases ht.symm.trans h
    exact (sameMemory_clocked hc).stores
  all_goals cases h
  case poll p params => exact stores_runCommand s p _ params fun u => .refl u
  case portStatus p params => exact stores_runCommand s p _ params fun u => .refl u
  case partStatus p params => exact stores_runCommand s p _ params fun u => .refl u
  case lastReply p params => exact stores_runCommand s p _ params fun u => by unfold lastReply; split <;> exact .refl u
  case attach p params => exact stores_runCommand s p _ params fun u => kept_attach p params u
  case detach p params => exact stores_runCommand s p _ params fun u => kept_whenOnline (kept_departure u p _)
  case resetPeer p params => exact stores_runCommand s p _ params fun u => kept_resetPeer p _ u
  case registerService p params => exact stores_runCommand s p _ params fun u => kept_registerService p params u
  case withdrawService p params => exact stores_runCommand s p _ params fun u => kept_withdrawService p _ u
  case queryService p params => exact stores_runCommand s p _ params fun u => kept_queryService p _ u
  case postCall p params => exact stores_runCommand s p _ params fun u => kept_postCall p params u
  case cancelCall p params => exact stores_runCommand s p _ params fun u => kept_withOwnCall fun n c => kept_cancelCall n c u
  case collectAnswer p params =>
    exact stores_runCommand s p _ params fun u => kept_withOwnCall fun n c => kept_collectAnswer p n c u
  case callStatus p params => exact stores_runCommand s p _ params fun u => kept_withOwnCall fun _ _ => .refl u
  case takeCall p params => exact stores_runCommand s p _ params fun u => kept_takeCall p u
  case answerCall p params => exact stores_runCommand s p _ params fun u => kept_answerCall p params u
  case openNesting p params => exact stores_runCommand s p _ params fun u => kept_setNesting p _ u
  case closeNesting p params => exact stores_runCommand s p _ params fun u => kept_setNesting p _ u
  case stackStatus p params => exact stores_runCommand s p _ params fun u => kept_whenOnline (.refl u)
  case readNotices p params => exact stores_runCommand s p _ params fun u => kept_readNotices p _ u
  case claimBlocks p params => exact stores_runCommand s p _ params fun u => kept_claimBlocks p _ u
  case releaseBlocks p params => exact stores_runCommand s p _ params fun u => kept_releaseBlocks p _ _ u
  case blockStatus p params => exact stores_runCommand s p _ params fun u => kept_whenOnline (.refl u)
  case setCursor p params => exact stores_runCommand s p _ params fun u => kept_setCursor p _ _ _ u
  case rewindCursor p params => exact stores_runCommand s p _ params fun u => kept_rewindCursor p _ u
  case readData p params => exact stores_runCommand s p _ params fun u => kept_readData p _ _ u
  case writeData p params =>
    exact .between (sameMemory_stage s p params) (stores_answer _ p _ params _ fun u => stores_writeData p _ u) (.refl _)
  case badCommand p code params =>
    split
    · exact .kept (.refl s)
    · exact stores_answer s p code params true fun u => .kept (.refl u)
  case frameCutShort p edges => exact (sameMemory_selRise s p edges).stores
  case frameEnd p edges => exact (sameMemory_selRise s p edges).stores
  case prstRising p => exact .kept (kept_modPort s p _)
  case pulseEnd p =>
    split
    · exact .kept (kept_modPort s p _)
    all_goals exact .kept (.refl s)
  case resetFalling =>
    split_ifs
    · exact stores_resetWith s s.powered false
    · exact SameMemory.stores ⟨rfl, rfl⟩
    · exact .kept (.refl s)
  case resetRising => split_ifs <;> exact SameMemory.stores ⟨rfl, rfl⟩
  case powerBelowRange =>
    split_ifs
    · exact stores_resetWith s false s.resetHigh
    · exact .kept (.refl s)
  case powerUp =>
    split_ifs
    · exact .kept (.refl s)
    · exact .between (.refl s) (stores_resetWith s true false) ⟨rfl, rfl⟩
  case tick => split_ifs <;> exact SameMemory.stores ⟨rfl, rfl⟩

/-- A step does what its command does; an edge of a link's clock leaves bytes and blocks. -/
theorem step_stores (h : step s = .next t) : Stores s t := by
  cases hp : s.pending with
  | cons c rest =>
    simp only [step, hp] at h
    exact .between (u := { s with pending := rest }) ⟨rfl, rfl⟩ (exec_stores c h) (.refl t)
  | nil =>
    rw [step_empty hp] at h
    simp only [State.idle] at h
    split at h
    · next p hc =>
      refine .between (u := { s with freeCount := s.freeCount + 1 }) ⟨rfl, rfl⟩ ?_ (.refl t)
      cases hd : State.completedBy { s with freeCount := s.freeCount + 1 } p (Config.mosiLevel s.freeCount) with
      | some c =>
        rw [clock_command hd] at h
        exact exec_stores c h
      | none =>
        rw [clock_edge hd] at h
        cases h
        exact (sameMemory_clocked (onlyClocked_sckEdge _ p _)).stores
    · cases h
      exact SameMemory.stores ⟨rfl, rfl⟩

/-! ### FREE blocks -/

theorem not_free_of_mayWrite {a : Word} (h : s.mayWrite p a = true) : s.block (blockOf a) ≠ .free := by
  intro hf
  rw [State.mayWrite, hf] at h
  cases h

/-- FREE blocks hold 00h after every change of the memory: a written block is not FREE, and a block becomes FREE by a scrub. -/
theorem Stores.cleanLaw (h : Stores s t) (hs : CleanLaw s) : CleanLaw t := by
  intro a ha
  cases h with
  | kept h => rw [h.mem]; exact hs a (h.free _ ha)
  | written p ws hw hm hb =>
    have hf : s.block (blockOf a) = .free := by rwa [State.block, hb] at ha
    have hn : a ∉ ws.map Prod.fst := fun hm => by
      obtain ⟨w, hmem, rfl⟩ := List.mem_map.1 hm
      exact not_free_of_mayWrite (hw w hmem) hf
    rw [hm, Memory.read_writeAll_of_not_mem _ _ _ hn]
    exact hs a hf
  | scrubbed b hm hb =>
    rw [hm, Memory.read_clearBlock]
    split
    · rfl
    · next hne =>
      rw [State.block, hb, Table.get_set_ne _ _ (Ne.symm hne)] at ha
      exact hs a ha
  | reset epoch hm hb =>
    rw [hb] at ha
    cases ha

/-- Settles O56: the scrub queue's law is kept by a link's changes and by every effect, the other by what a step does to the
memory. -/
theorem everyStepKeepsScrubAndCleanLaws : Obligations.EveryStepKeepsScrubAndCleanLaws := fun _ _ hs hc h =>
  ⟨step_keeps scrubLaw_samePart effect_scrubLaw h hs, (step_stores h).cleanLaw hc⟩

end Sys2Proof.BlockMemory
end

section
/-! SUPPORT. The scrub engine's start, the events of RESET# and of the supply, the access that a block's entry gives, and the
commands Claim Blocks and Release Blocks. -/

namespace Sys2Proof.BlockMemory

open Sys2Proof Sys2Proof.Machine Sys2Proof.Safety Sys2Proof.Statement

variable {s t : State} {p : Port} {req : Request} {first count : Nat}

/-! ### The start of the scrub engine -/

/-- With RESET# high a queue that holds a block makes the engine BUSY (R139). -/
theorem startScrub_of_ne_nil (hr : s.resetHigh = true) (hq : s.scrubQueue ≠ []) :
    s.startScrub = { s with scrubBusy := true } := by
  simp [State.startScrub, hr, hq]

/-- An empty queue starts nothing. -/
theorem startScrub_of_nil (hq : s.scrubQueue = []) : s.startScrub = s := by
  have hbusy : (s.scrubBusy || (s.resetHigh && !s.scrubQueue.isEmpty)) = s.scrubBusy := by simp [hq]
  rw [State.startScrub, hbusy]

/-! ### RESET# and the supply -/

theorem resetFalling_powered (hw : s.powered = true) (hr : s.resetHigh = true) :
    exec .resetFalling s = .next s.resetPart := by
  rw [exec, execResetFalling, if_pos hr, if_pos hw]

theorem resetFalling_low (hr : s.resetHigh = false) : exec .resetFalling s = .next s := by
  rw [exec, execResetFalling, if_neg (ne_true_of_eq_false hr)]

theorem resetFalling_unpowered (hw : s.powered = false) (hr : s.resetHigh = true) :
    exec .resetFalling s = .next { s with resetHigh := false } := by
  rw [exec, execResetFalling, if_pos hr, if_neg (ne_true_of_eq_false hw)]

theorem powerBelowRange_powered (hw : s.powered = true) :
    exec .powerBelowRange s = .next { s.resetPart with powered := false, resetHigh := s.resetHigh } := by
  rw [exec, execPowerBelowRange, if_pos hw]

theorem powerBelowRange_unpowered (hw : s.powered = false) : exec .powerBelowRange s = .next s := by
  rw [exec, execPowerBelowRange, if_neg (ne_true_of_eq_false hw)]

theorem powerUp_unpowered (hw : s.powered = false) :
    exec .powerUp s = .next { s.resetPart with powered := true, phase := Config.freePhase s.freeCount } := by
  rw [exec, execPowerUp, if_neg (ne_true_of_eq_false hw)]

theorem powerUp_powered (hw : s.powered = true) : exec .powerUp s = .next s := by
  rw [exec, execPowerUp, if_pos hw]

theorem resetRising_powered (hw : s.powered = true) (hr : s.resetHigh = false) :
    exec .resetRising s = .next (State.startScrub { s with resetHigh := true }) := by
  rw [exec, execResetRising, if_neg (ne_true_of_eq_false hr), if_pos hw]

theorem resetRising_unpowered (hw : s.powered = false) (hr : s.resetHigh = false) :
    exec .resetRising s = .next { s with resetHigh := true } := by
  rw [exec, execResetRising, if_neg (ne_true_of_eq_false hr), if_neg (ne_true_of_eq_false hw)]

theorem resetRising_high (hr : s.resetHigh = true) : exec .resetRising s = .next s := by
  rw [exec, execResetRising, if_pos hr]

/-- Settles O5: the reset state is the one that `State.resetPart` gives, and each event has an equation per level of its pin and
of the supply. -/
theorem resetAndPowerEvents : Obligations.ResetAndPowerEvents := by
  intro s inReset h
  have hreset : inReset = s.resetPart := h
  subst hreset
  refine ⟨resetFalling_powered, resetFalling_low, resetFalling_unpowered, powerBelowRange_powered, powerBelowRange_unpowered,
    powerUp_unpowered, powerUp_powered, fun hw hr hq => ?_, fun hw hr hq => ?_, resetRising_unpowered, resetRising_high⟩
  · exact (resetRising_powered hw hr).trans (congrArg Host.Outcome.next (startScrub_of_ne_nil rfl hq))
  · exact (resetRising_powered hw hr).trans (congrArg Host.Outcome.next (startScrub_of_nil hq))

/-! ### Access -/

/-- Who may read a byte of a block, by its entry (R97). -/
theorem readableBy_iff (p : Port) (k : Block) :
    k.readableBy p = true ↔
      k = .owned p ∨ (∃ m n, k = .pledged p m n) ∨ (∃ q m n, k = .lent p q m n) ∨ ∃ o m n, k = .lent o p m n := by
  cases k <;> simp [Block.readableBy]

/-- Who may write a byte of a block, by its entry (R98). -/
theorem writableBy_iff (p : Port) (k : Block) :
    k.writableBy p = true ↔ k = .owned p ∨ ∃ o n, k = .lent o p .readWrite n := by
  cases k <;> simp [Block.writableBy]

/-- Settles O43: by the entry of the block that holds the byte. -/
theorem accessFollowsBlockEntry : Obligations.AccessFollowsBlockEntry := by
  intro s p a b hb
  have hblock : blockOf a = b := Fin.ext hb.symm
  rw [State.mayRead, State.mayWrite, hblock]
  exact ⟨readableBy_iff p _, writableBy_iff p _⟩

/-! ### Claim Blocks -/

/-- A command of an ONLINE port whose effect leaves the port's records alone: the effect on the state before the frame, and the
reply on the port. -/
theorem runCommand_changes_part {code : Byte} {params : List Byte} {act : State → State × Reply} {st : Status}
    {body : List Byte} (ht : TakenOnline s p code params req)
    (hact : act (s.modPort p (verified req)) = (t.modPort p (verified req), { status := st, body := body }))
    (hl : lengthAllowed code params.length = true := by rfl) (hc : isStatusCode code = false := by rfl) :
    s.runCommand p code params act = t.modPort p (replied req code st body) := by
  rw [runCommand_replies ht.1 (not_held_of_online ht.2) hl hc hact (by rw [port_verified]; rfl), modPort_modPort]
  rfl

/-- The lowest run of FREE blocks is claimed (R101). -/
theorem claimBlocks_run (hc : 1 ≤ count) (hc' : count ≤ 64) (ho : IsOnline s p) (hf : FreeRun s first count)
    (hlow : ∀ b, b < first → ¬FreeRun s b count) :
    claimBlocks p count (s.modPort p (verified req)) =
      ((s.claim p first count).modPort p (verified req), { status := .ok, body := [byteOf first] }) := by
  rw [claimBlocks, if_neg (by omega), whenOnline_verified ho, lowestRun_some hf hc hlow]
  rfl

theorem isScrub_eq : Block.isScrub = fun k => k == .scrub := by
  funext k
  cases k <;> rfl

/-- Without a run of that many blocks the longest run is reported, and the blocks in SCRUB (R102). -/
theorem claimBlocks_noRun {longest : Nat} (hc : 1 ≤ count) (hc' : count ≤ 64) (ho : IsOnline s p)
    (hno : ∀ b, ¬FreeRun s b count) (hex : ∃ b, FreeRun s b longest) (hmax : ∀ b, ¬FreeRun s b (longest + 1)) :
    claimBlocks p count (s.modPort p (verified req)) =
      (s.modPort p (verified req),
        { status := .noRoom, body := [byteOf longest] ++ wordOf (s.blocks.count fun k => k == .scrub) }) := by
  rw [claimBlocks, if_neg (by omega), whenOnline_verified ho, lowestRun_none hno, modPort_blocks, longestRun_eq hex hmax,
    isScrub_eq]
  rfl

/-- Settles O41: the search finds the lowest run, or it finds none and the longest run is reported. -/
theorem claimBlocksTakesLowestFreeRun : Obligations.ClaimBlocksTakesLowestFreeRun := by
  intro p count req s ht h1 h2
  refine ⟨fun first hf hlow => ?_, fun longest hno hex hmax => ?_⟩
  · exact congrArg Host.Outcome.next (runCommand_changes_part ht (claimBlocks_run h1 h2 ht.2 hf hlow))
  · exact congrArg Host.Outcome.next (runCommand_changes_part ht (claimBlocks_noRun h1 h2 ht.2 hno hex hmax))

/-! ### Release Blocks -/

/-- The first block that is not OWNED by the port decides the refusal (R105). -/
theorem releaseBlocks_refused {b : BlockNo} {st : Status} (hc : 1 ≤ count) (hc' : count ≤ 64) (hw : first + count ≤ 256)
    (ho : IsOnline s p) (hd : Decides s p first count b st) :
    releaseBlocks p first count (s.modPort p (verified req)) =
      (s.modPort p (verified req), { status := st, body := [byteOf b.val] }) := by
  rw [releaseBlocks, if_neg (by omega), whenOnline_verified ho, decidingBlock_of_decides hd]
  rfl

/-- A span that is OWNED throughout is released (R106). -/
theorem releaseBlocks_owned (hc : 1 ≤ count) (hc' : count ≤ 64) (hw : first + count ≤ 256) (ho : IsOnline s p)
    (ha : AllOwned s p first count) :
    releaseBlocks p first count (s.modPort p (verified req)) =
      ((s.release first count).modPort p (verified req), { status := .ok, body := [] }) := by
  rw [releaseBlocks, if_neg (by omega), whenOnline_verified ho, decidingBlock_of_allOwned ha]
  rfl

theorem spanBlocks_ne_nil (hc : 1 ≤ count) (hw : first + count ≤ 256) : spanBlocks first count ≠ [] :=
  List.ne_nil_of_mem ((mem_spanBlocks first count ⟨first, by omega⟩).2 ⟨Nat.le_refl first, Nat.lt_add_of_pos_right hc⟩)

/-- With RESET# high a release leaves the engine BUSY, since the queue has got a block (R106, R139). -/
theorem release_eq (hr : s.resetHigh = true) (hc : 1 ≤ count) (hw : first + count ≤ 256) :
    s.release first count =
      { s with
        blocks := s.blocks.map fun b k => if first ≤ b.val ∧ b.val < first + count then .scrub else k
        scrubQueue := s.scrubQueue ++ spanBlocks first count
        scrubBusy := true } := by
  rw [State.release, State.appendScrub]
  exact startScrub_of_ne_nil hr (List.append_ne_nil_of_right_ne_nil _ (spanBlocks_ne_nil hc hw))

/-- Settles O42: the first block that is not OWNED decides the refusal, or the whole span is given up. -/
theorem releaseBlocksGivesUpWholeSpan : Obligations.ReleaseBlocksGivesUpWholeSpan := by
  intro p first count req s ht h1 h2 h3
  refine ⟨fun b st hd => ?_, fun ha bs hbs => ?_⟩
  · exact congrArg Host.Outcome.next (runCommand_changes_part ht (releaseBlocks_refused h1 h2 h3 ht.2 hd))
  · obtain ⟨-, hr, -⟩ := ht.1
    rw [eq_spanBlocks _ _ h3 bs hbs, ← release_eq hr h1 h3]
    exact congrArg Host.Outcome.next (runCommand_changes_part ht (releaseBlocks_owned h1 h2 h3 ht.2 ha))

end Sys2Proof.BlockMemory
end

section
/-! SUPPORT. One edge of a link's SCK by the assembler's state, and the events that clock a link: READ_DATA_BYTE, FRAME_CUT_SHORT
and FRAME_END. -/

namespace Sys2Proof.DataTransfer

open Sys2Proof Sys2Proof.Machine Sys2Proof.Safety Sys2Proof.Statement

variable {s : State} {p : Port} {level : Bool} {v : Byte} {k : Nat} {rest : List Byte} {x : Transfer}
  {data : Option Transfer} {received : List Bool}

/-! ### The pins -/

/-- A port whose SCK has an edge, its MOSI at a level. -/
def edged (level : Bool) (ps : PortState) : PortState := { ps with sck := !ps.sck, mosi := level }

@[simp] theorem edged_asm (level : Bool) (ps : PortState) : (edged level ps).asm = ps.asm := rfl

@[simp] theorem edged_staging (level : Bool) (ps : PortState) : (edged level ps).staging = ps.staging := rfl

theorem sckEdge_rising (h : (s.port p).sck = false) (level : Bool) :
    s.sckEdge p level = (s.modPort p (edged level)).sckRise p level := by
  rw [State.sckEdge, h]; rfl

theorem sckEdge_falling (h : (s.port p).sck = true) (level : Bool) :
    s.sckEdge p level = (s.modPort p (edged level)).sckFall p := by
  rw [State.sckEdge, h]; rfl

/-- With no frame open only the pins change (R169). -/
theorem sckEdge_idle (h : (s.port p).asm = .idle) (level : Bool) : s.sckEdge p level = s.modPort p (edged level) := by
  cases hk : (s.port p).sck with
  | false => simp only [sckEdge_rising hk, State.sckRise, modPort_port_self, edged_asm, h]
  | true => simp only [sckEdge_falling hk, State.sckFall, modPort_port_self, edged_asm, h]

/-! ### The staging of a data byte -/

/-- The bit that completes a data byte for which the buffer has a place stages it (R131). -/
theorem stagedAfter_completes {b : Byte} (h : CompletesDataByte received level k b) (staging : List Byte) :
    stagedAfter received level staging = if k ≤ staging.length then staging.take k ++ [b] else staging := by
  obtain ⟨len, cursor, data, hbits, rfl, hlen, hk⟩ := h
  rw [sent_eq] at hbits
  have hall : bytesOfBits (received ++ [level]) = (0x4B :: len :: cursor :: data) ++ [b] := by
    rw [hbits, bytesOfBits_bitsOf, List.cons_append, List.cons_append, List.cons_append]
  obtain ⟨c, -, hc⟩ | ⟨hodd, -⟩ := bytesOfBits_snoc received level
  · obtain ⟨hbefore, -⟩ := List.append_inj' (hc.symm.trans hall) rfl
    rw [stagedAfter_byte hbefore (hbefore ▸ hall)]
    simp only [hlen, hk, true_and]
  · rw [hbits, bitsOf_length] at hodd
    omega

/-- Any other bit stages none. -/
theorem stagedAfter_not_completes (h : ∀ k b, ¬CompletesDataByte received level k b) (staging : List Byte) :
    stagedAfter received level staging = staging := by
  obtain ⟨b, hbits, hb⟩ | ⟨-, hsame⟩ := bytesOfBits_snoc received level
  · by_cases hearly : (bytesOfBits received).length < 3
    · exact stagedAfter_early hearly hb staging
    · obtain ⟨code, len, cursor, data, hm⟩ :
          ∃ code len cursor data, bytesOfBits received = code :: len :: cursor :: data := by
        match bytesOfBits received, hearly with
        | code :: len :: cursor :: data, _ => exact ⟨code, len, cursor, data, rfl⟩
        | [], h => exact absurd (by simp) h
        | [_], h => exact absurd (by simp) h
        | [_, _], h => exact absurd (by simp) h
      rw [stagedAfter_byte hm hb]
      refine if_neg fun ⟨hcode, hlen, hk, _⟩ => h data.length b ⟨len, cursor, data, ?_, rfl, hlen, hk⟩
      rw [hbits, hm, hcode, sent_eq]
  · exact stagedAfter_partial hsame staging

/-! ### A rising edge -/

theorem sckEdge_rising_request (hk : (s.port p).sck = false) (h : (s.port p).asm = .request v received) (level : Bool) :
    s.sckEdge p level =
      s.modPort p fun ps =>
        { edged level ps with
          asm := .request v (received ++ [level])
          staging := stagedAfter received level (s.port p).staging } := by
  simp only [sckEdge_rising hk, State.sckRise, modPort_port_self, edged_asm, h, modPort_modPort]
  exact modPort_congr _ _ rfl

theorem sckEdge_rising_reply (hk : (s.port p).sck = false) (h : (s.port p).asm = .reply v k rest data) (hlt : k < 7)
    (level : Bool) :
    s.sckEdge p level = s.modPort p fun ps => { edged level ps with asm := .reply v (k + 1) rest data } := by
  simp only [sckEdge_rising hk, State.sckRise, modPort_port_self, edged_asm, h, if_pos hlt, modPort_modPort]

/-- The eighth bit of a reply's byte goes out. -/
theorem sckEdge_rising_last (hk : (s.port p).sck = false) (h : (s.port p).asm = .reply v 7 rest data) (level : Bool) :
    s.sckEdge p level = (s.modPort p (edged level)).byteShifted p v rest data := by
  simp only [sckEdge_rising hk, State.sckRise, modPort_port_self, edged_asm, h, Nat.lt_irrefl, if_false]

theorem sckEdge_rising_trailer (hk : (s.port p).sck = false) (h : (s.port p).asm = .trailer v k) (level : Bool) :
    s.sckEdge p level = s.modPort p fun ps => { edged level ps with asm := .trailer v (k + 1) } := by
  simp only [sckEdge_rising hk, State.sckRise, modPort_port_self, edged_asm, h, modPort_modPort]

theorem byteShifted_more (s : State) (p : Port) (v b : Byte) (rest : List Byte) :
    s.byteShifted p v (b :: rest) none = s.modPort p fun ps => { ps with asm := .reply v 8 (b :: rest) none } := rfl

theorem byteShifted_check (s : State) (p : Port) (v : Byte) :
    s.byteShifted p v [] none = s.modPort p fun ps => { ps with asm := .trailer v 8 } := rfl

/-- A data byte of a streamed read is credited as its eighth bit goes out (R127, R128). -/
theorem byteShifted_stream (s : State) (p : Port) (v : Byte) (rest : List Byte) (x : Transfer) :
    s.byteShifted p v rest (some x) =
      s.modPort p fun ps => { credited x ps with asm := .reply v 8 rest (some { x with inFlight := false }) } := by
  have : s.byteShifted p v rest (some x) =
      (s.creditByte p x).modPort p fun ps => { ps with asm := .reply v 8 rest (some { x with inFlight := false }) } := by
    cases rest <;> rfl
  rw [this, creditByte_eq, modPort_modPort]

/-! ### A falling edge -/

theorem summary_edged (s : State) (p : Port) (level : Bool) : (s.modPort p (edged level)).summary p = s.summary p :=
  summary_modPort_self s p _ rfl rfl rfl rfl rfl

/-- After the eighth bit of a request's byte the summary byte stands on MISO anew (R178). -/
theorem sckEdge_falling_request (hk : (s.port p).sck = true) (h : (s.port p).asm = .request v received)
    (hne : received ≠ []) (h8 : received.length % 8 = 0) (level : Bool) :
    s.sckEdge p level = s.modPort p fun ps => { edged level ps with asm := .request (s.summary p) received } := by
  simp only [sckEdge_falling hk, State.sckFall, modPort_port_self, edged_asm, h, ne_eq, hne, not_false_eq_true, h8, and_self,
    if_true, modPort_modPort, summary_edged]

theorem sckEdge_falling_request_inside (hk : (s.port p).sck = true) (h : (s.port p).asm = .request v received)
    (hin : received = [] ∨ received.length % 8 ≠ 0) (level : Bool) : s.sckEdge p level = s.modPort p (edged level) := by
  have hn : ¬(received ≠ [] ∧ received.length % 8 = 0) := by tauto
  simp only [sckEdge_falling hk, State.sckFall, modPort_port_self, edged_asm, h, if_neg hn]

theorem sckEdge_falling_reply_inside (hk : (s.port p).sck = true) (h : (s.port p).asm = .reply v k rest data)
    (hlt : k < 8) (level : Bool) : s.sckEdge p level = s.modPort p (edged level) := by
  simp only [sckEdge_falling hk, State.sckFall, modPort_port_self, edged_asm, h, if_neg (Nat.ne_of_lt hlt)]

/-- After the eighth bit of a reply's byte the next one begins. -/
theorem sckEdge_falling_reply (hk : (s.port p).sck = true) (h : (s.port p).asm = .reply v 8 rest data) (level : Bool) :
    s.sckEdge p level = (s.modPort p (edged level)).nextReplyByte p rest data := by
  simp only [sckEdge_falling hk, State.sckFall, modPort_port_self, edged_asm, h, if_true]

theorem sckEdge_falling_trailer_inside (hk : (s.port p).sck = true) (h : (s.port p).asm = .trailer v k) (hlt : k < 8)
    (level : Bool) : s.sckEdge p level = s.modPort p (edged level) := by
  simp only [sckEdge_falling hk, State.sckFall, modPort_port_self, edged_asm, h, if_neg (Nat.ne_of_lt hlt)]

theorem sckEdge_falling_trailer (hk : (s.port p).sck = true) (h : (s.port p).asm = .trailer v 8) (level : Bool) :
    s.sckEdge p level = s.modPort p fun ps => { edged level ps with asm := .trailer (s.summary p) 0 } := by
  simp only [sckEdge_falling hk, State.sckFall, modPort_port_self, edged_asm, h, if_true, modPort_modPort, summary_edged]

theorem nextReplyByte_more (s : State) (p : Port) (b : Byte) (rest : List Byte) (data : Option Transfer) :
    s.nextReplyByte p (b :: rest) data = s.modPort p fun ps => { ps with asm := .reply b 0 rest data } := rfl

theorem nextReplyByte_data (s : State) (p : Port) (hx : x.begun < x.wanted) :
    s.nextReplyByte p [] (some x) = s.beginDataByte p x := if_pos hx

/-- After the last data byte the tail begins, and the reply check byte follows it (R126, R175). -/
theorem nextReplyByte_tail (s : State) (p : Port) (hx : x.wanted ≤ x.begun) {first : Byte}
    (ht : tailBytes x.valid x.lost = first :: rest) :
    s.nextReplyByte p [] (some x) =
      s.modPort p fun ps =>
        { ps with asm := .reply first 0 (rest ++ [crc8 (0x00 :: (x.sent ++ first :: rest))]) none } := by
  rw [State.nextReplyByte, if_neg (by omega), State.beginTail, ht]
  rfl

/-! ### READ_DATA_BYTE -/

/-- Without a streamed read in progress, or with no data byte to come, READ_DATA_BYTE does not occur. -/
theorem readDataByte_none (h : ∀ x, (s.port p).asm.stream? = some x → x.wanted ≤ x.begun) :
    exec (.readDataByte p) s = .next s := by
  refine congrArg Host.Outcome.next ?_
  split
  · next x hx => exact if_neg (Nat.not_lt.2 (h x hx))
  · rfl

/-- The byte on MISO has gone out whole, and SCK is low again (R127, R169). -/
def landed (x : Transfer) (ps : PortState) : PortState := { credited x ps with sck := false }

theorem cursor_landed (s : State) (p : Port) (x : Transfer) (j : Fin 2) :
    (s.modPort p (landed x)).cursor p j = (credited x (s.port p)).cursors.get j := by
  rw [State.cursor, modPort_port_self, landed]

/-- The link is clocked to the falling edge with which the next data byte begins. -/
theorem readDataByte_next (h : (s.port p).asm = .reply v k rest (some x)) (hx : x.begun < x.wanted) :
    exec (.readDataByte p) s = .next ((s.modPort p (landed x)).beginDataByte p x) := by
  have : exec (.readDataByte p) s =
      .next (((s.creditByte p x).modPort p fun ps => { ps with sck := false }).beginDataByte p x) := by
    refine congrArg Host.Outcome.next ?_
    rw [h]
    exact if_pos hx
  rw [this, creditByte_eq, modPort_modPort]
  rfl

/-- A data byte that is readable as it begins goes out with its value (R124). -/
theorem beginDataByte_valid (s : State) (p : Port) {w : Byte} (hl : x.lost = false) (hd : x.departed = false)
    (hr : s.mayRead p (s.cursor p x.cursor).address = true) (hw : s.mem.read (s.cursor p x.cursor).address = w) :
    s.beginDataByte p x =
      s.modPort p fun ps =>
        { ps with
          asm := .reply w 0 []
            (some { x with begun := x.begun + 1, valid := x.valid + 1, inFlight := true, sent := x.sent ++ [w] }) } := by
  subst hw
  simp only [State.beginDataByte, hl, hd, hr]
  rfl

/-- From the first data byte that is not readable, or after a departure, filler goes out (R125, R130). -/
theorem beginDataByte_filler (s : State) (p : Port)
    (h : x.lost = true ∨ x.departed = true ∨ s.mayRead p (s.cursor p x.cursor).address = false) :
    s.beginDataByte p x =
      s.modPort p fun ps =>
        { ps with
          record := if x.departed then ps.record else ps.record.map fun r => { r with body := tailBytes x.valid true }
          asm := .reply 0x00 0 []
            (some { x with begun := x.begun + 1, lost := true, inFlight := false, sent := x.sent ++ [0x00] }) } := by
  have hn : (!x.lost && !x.departed && s.mayRead p (s.cursor p x.cursor).address) = false := by
    rcases h with h | h | h <;> simp [h]
  simp only [State.beginDataByte, hn, Bool.false_eq_true, if_false]
  cases x.departed with
  | true => exact modPort_congr _ _ rfl
  | false =>
    simp only [Bool.false_eq_true, if_false, State.setTail, State.streaming, modPort_modPort]

theorem credited_departed (hd : x.departed = true) (ps : PortState) : credited x ps = ps := by
  simp [credited, hd]

theorem credited_landed (hf : x.inFlight = false) (ps : PortState) : credited x ps = ps := by
  simp [credited, hf]

/-- Settles O46: the byte before is credited, and the next one begins, by what the port may read. -/
theorem readDataByteIsCheckedAsItGoesOut : Obligations.ReadDataByteIsCheckedAsItGoesOut := by
  constructor
  · intro p s h
    refine readDataByte_none fun x hx => ?_
    cases ha : (s.port p).asm with
    | reply v k rest data =>
      rw [ha, Assembler.stream?] at hx
      exact absurd (hx ▸ ha) (h v k rest x)
    | idle | request | trailer => rw [ha] at hx; cases hx
  · intro p v k rest x c s ha hc
    rw [← cursor_landed] at hc
    refine ⟨fun hx hl hd hr w hw => ?_, fun hx h => ?_, fun hx => readDataByte_none fun y hy => ?_⟩
    · subst hc
      rw [readDataByte_next ha hx, beginDataByte_valid _ p hl hd hr hw.symm, modPort_modPort]
      rfl
    · subst hc
      rw [readDataByte_next ha hx, beginDataByte_filler _ p h, modPort_modPort]
      refine congrArg _ (modPort_congr _ _ ?_)
      cases hd : x.departed with
      | true => simp only [landed, credited_departed hd, if_true]
      | false => simp only [landed, Bool.false_eq_true, if_false, readTail_eq]
    · rw [ha] at hy
      cases hy
      exact hx

/-- Settles O3: one equation per state of the assembler and level of SCK. -/
theorem sckEdgeFollowsAssembler : Obligations.SckEdgeFollowsAssembler := by
  intro s p level pins hpins
  obtain rfl : pins = edged level := hpins
  refine ⟨fun h => sckEdge_idle h level, fun hk => ⟨fun v received h => ?_, fun v k rest data h hlt => ?_,
    fun v b rest h => ?_, fun v h => ?_, fun v rest x h => ?_, fun v k h _ => sckEdge_rising_trailer hk h level⟩,
    fun hk => ⟨fun v received h => ⟨fun hne h8 => sckEdge_falling_request hk h hne h8 level,
      fun hin => sckEdge_falling_request_inside hk h hin level⟩,
    fun v k rest data h hlt => sckEdge_falling_reply_inside hk h hlt level, fun v b rest data h => ?_,
    fun v x h hx hf => ?_, fun v x first rest h hx ht => ?_, fun v h => sckEdge_falling_trailer hk h level,
    fun v k h hlt => sckEdge_falling_trailer_inside hk h hlt level⟩⟩
  · exact ⟨_, sckEdge_rising_request hk h level, fun k b hb => stagedAfter_completes hb _,
      fun hn => stagedAfter_not_completes hn _⟩
  · exact sckEdge_rising_reply hk h hlt level
  · rw [sckEdge_rising_last hk h, byteShifted_more, modPort_modPort]
  · rw [sckEdge_rising_last hk h, byteShifted_check, modPort_modPort]
  · rw [sckEdge_rising_last hk h, byteShifted_stream, modPort_modPort]
  · rw [sckEdge_falling_reply hk h, nextReplyByte_more, modPort_modPort]
  · rw [sckEdge_falling_reply hk h, nextReplyByte_data _ p hx, readDataByte_next (v := v) (k := 8) (rest := [])
      (by rw [modPort_port_self]; exact h) hx, modPort_modPort]
    refine congrArg _ (congrArg (fun t => t.beginDataByte p x) (modPort_congr _ _ ?_))
    rw [landed, credited_landed hf, edged, hk]
    rfl
  · rw [readTail_eq] at ht
    rw [sckEdge_falling_reply hk h, nextReplyByte_tail _ p hx ht, modPort_modPort, checkValue_eq]

/-! ### The rise of SEL# -/

/-- Without an edge of SEL#, or with edges of SCK that complete a request, the rise does not occur. -/
theorem selRise_none {edges : List Bool}
    (h : (s.port p).sel = true ∨ ((s.sckEdges p edges).port p).asm.unfinished = false) : s.selRise p edges = s := by
  refine if_pos ?_
  rcases h with h | h <;> simp [h]

/-- The rise of SEL# ends the frame that is open after the edges of SCK. -/
theorem selRise_ends {edges : List Bool} (hs : (s.port p).sel = false)
    (hu : ((s.sckEdges p edges).port p).asm.unfinished = true) :
    s.selRise p edges = ((s.sckEdges p edges).endFrame p).modPort p fun ps => { ps with sel := true } := by
  refine if_neg ?_
  simp [hs, hu]

/-- LAST_FRAME_BAD as a bad frame leaves it (R180). -/
def badMarked (ps : PortState) : PortState := { ps with lastFrameBad := !ps.mode.isHeld || ps.lastFrameBad }

theorem markFrameBad_eq (s : State) (p : Port) : s.markFrameBad p = s.modPort p badMarked := by
  rw [State.markFrameBad]
  split
  · next hh =>
    refine (modPort_id s p).symm.trans (modPort_congr s p ?_)
    rw [badMarked, hh]
    rfl
  · next hh =>
    refine modPort_congr s p ?_
    rw [badMarked, Bool.eq_false_iff.2 hh]
    rfl

theorem discardFrame_eq (s : State) (p : Port) (code : Byte) : s.discardFrame p code = s.modPort p (discarding code) := by
  rw [State.discardFrame]
  by_cases hc : code = 0x4B
  · rw [if_pos hc]
    exact modPort_congr s p (if_pos hc).symm
  · rw [if_neg hc]
    exact (modPort_id s p).symm.trans (modPort_congr s p (if_neg hc).symm)

/-- A request on a live link that SEL# ends is discarded (R174). -/
theorem endFrame_request (h : (s.port p).asm = .request v received) (hl : s.linkLive p = true) :
    s.endFrame p =
      s.modPort p fun ps =>
        { discarding ((bytesOfBits received).getD 0 0x00) (badMarked ps) with asm := .idle } := by
  simp only [State.endFrame, h, hl, if_true, markFrameBad_eq, discardFrame_eq, State.closeFrame, modPort_modPort]

theorem endFrame_reply (h : (s.port p).asm = .reply v k rest data) :
    s.endFrame p = s.modPort p fun ps => { ps with asm := .idle } := by
  simp only [State.endFrame, h, State.closeFrame]

theorem endFrame_trailer (h : (s.port p).asm = .trailer v k) :
    s.endFrame p = s.modPort p fun ps => { ps with asm := .idle } := by
  simp only [State.endFrame, h, State.closeFrame]

theorem endFrame_idle (h : (s.port p).asm = .idle) : s.endFrame p = s := by
  simp only [State.endFrame, h]

/-- Both rows are the rise of SEL#. -/
theorem exec_selRise {row : Instr} {edges : List Bool} (h : row = .frameCutShort p edges ∨ row = .frameEnd p edges)
    (s : State) : exec row s = .next (s.selRise p edges) := by
  rcases h with rfl | rfl <;> rfl

/-- Settles O8: one case per state of the assembler after the edges. -/
theorem selRisingEndsFrame : Obligations.SelRisingEndsFrame := by
  intro p edges row s t hrow ht
  subst ht
  refine ⟨rfl, fun _ _ => rfl, fun h => ?_, fun hs => ⟨fun v received bytes h hb => ⟨fun hp hw hr hprst => ?_, fun hp => ?_⟩,
    fun v k rest data h => ?_, fun v k h => ?_, fun h => ?_⟩⟩ <;> rw [exec_selRise hrow] <;> refine congrArg _ ?_
  · exact selRise_none (.inl h)
  · subst hb
    have hl : (s.sckEdges p edges).linkLive p = true := by simp only [State.linkLive, hw, hr, hprst, Bool.and_self]
    rw [selRise_ends hs (by rw [h]; exact hp), endFrame_request h hl, modPort_modPort]
    refine modPort_congr _ p ?_
    unfold discarding badMarked
    split <;> rfl
  · subst hb
    exact selRise_none (.inr (by rw [h]; exact hp))
  · rw [selRise_ends hs (by rw [h]; rfl), endFrame_reply h, modPort_modPort]
  · rw [selRise_ends hs (by rw [h]; rfl), endFrame_trailer h, modPort_modPort]
  · rw [selRise_ends hs (by rw [h]; rfl), endFrame_idle h]

end Sys2Proof.DataTransfer
end

section
/-! SUPPORT. What a step leaves of the laws of one port's link (R119, R127, R131, R165, R169, R174, R180), and what a command's
effect does to the port that sent it and to the others: a refusal changes nothing, and an effect keeps the laws. -/

namespace Sys2Proof.DataTransfer

open Sys2Proof Sys2Proof.Machine Sys2Proof.Safety Sys2Proof.Statement Sys2Proof.Steps

variable {s t u v w : State} {p q : Port} {a b c : PortState} {l l' l'' : Bool}

/-! ### The laws of one port -/

/-- Power is on and RESET# is high. -/
def supplied (s : State) : Bool := s.powered && s.resetHigh

/-- R119 of one cursor. -/
abbrev InWindow (c : Cursor) : Prop := c.pointer < c.limit ∧ c.limit ≤ 65536

/-- R119 of a port's two cursors. -/
abbrev Windows (ps : PortState) : Prop := ∀ k, InWindow (ps.cursors.get k)

/-- The laws of RSTO#, of a HELD port, of an open frame, of its bits and of its staged bytes, of one port; `l` says that power is
on and RESET# high. -/
structure Lawful (l : Bool) (ps : PortState) : Prop where
  pulse : ps.rsto = ps.mode.isHeld
  held : ps.mode.isHeld = true → ps.record = none ∧ ps.lastFrameBad = false
  frame : ps.asm ≠ .idle → (l && ps.prst) = true ∧ ps.sel = false
  bits : lawfulBits ps.sck ps.asm = true
  staged : ps.mode.isOnline = true → lawfulStaging ps.staging ps.asm = true

theorem lawful_iff (s : State) :
    (∀ p, Lawful (supplied s) (s.port p)) ↔ PulseLaw s ∧ HeldLaw s ∧ FrameLaw s ∧ LinkLaw s ∧ StagingLaw s :=
  ⟨fun h => ⟨fun p => (h p).pulse, fun p => (h p).held, fun p => (h p).frame, fun p => (h p).bits, fun p => (h p).staged⟩,
    fun ⟨h1, h2, h3, h4, h5⟩ p => ⟨h1 p, h2 p, h3 p, h4 p, h5 p⟩⟩

/-- What a step keeps of a port: the windows of its cursors, and the laws of its link. -/
structure Keeps (l l' : Bool) (a b : PortState) : Prop where
  windows : Windows a → Windows b
  lawful : Lawful l a → Lawful l' b

theorem Keeps.refl (l : Bool) (a : PortState) : Keeps l l a a := ⟨id, id⟩

theorem Keeps.trans (h : Keeps l l' a b) (k : Keeps l' l'' b c) : Keeps l l'' a c :=
  ⟨k.windows ∘ h.windows, k.lawful ∘ h.lawful⟩

theorem windows_set {k : Fin 2} {x : Cursor} (h : Windows a) (hx : InWindow x) :
    Windows { a with cursors := a.cursors.set k x } := by
  intro j
  simp only [Table.get_set]
  split
  · exact hx
  · exact h j

theorem windows_reset (h : a.cursors = .replicate 2 .reset) : Windows a := by
  intro k
  rw [h, Table.get_replicate]
  exact ⟨by decide, by decide⟩

/-- A cursor advanced by some bytes stays in its window (R120). -/
theorem inWindow_advance {x : Cursor} (h : InWindow x) (n : Nat) : InWindow (x.advance n) :=
  ⟨Nat.mod_lt _ (by have := h.1; omega), h.2⟩

/-- A frame that is not open is lawful. -/
theorem lawful_closed (hp : a.rsto = a.mode.isHeld)
    (hh : a.mode.isHeld = true → a.record = none ∧ a.lastFrameBad = false) (ha : a.asm = .idle) : Lawful l a :=
  ⟨hp, hh, fun h => absurd ha h, by rw [ha]; rfl, fun _ => by rw [ha]; rfl⟩

theorem depart_idle (x : Assembler) : x.depart = .idle ↔ x = .idle := by cases x <;> simp [Assembler.depart]

theorem lawfulBits_depart (k : Bool) (x : Assembler) (h : lawfulBits k x = true) : lawfulBits k x.depart = true := by
  cases x with
  | reply v n rest data => cases data <;> exact h
  | idle | request | trailer => exact h

/-- The departure of a port keeps the laws, when RSTO# goes with what it passes to (R156, R162). -/
theorem keeps_depart {m : PortMode} {rsto : Bool} (hm : m.isOnline = false) (hr : a.mode.isHeld = false → rsto = m.isHeld)
    (hon : a.mode.isOnline = true) : Keeps l l a { a.depart m with rsto := rsto } := by
  refine ⟨fun _ => windows_reset rfl, fun h => ⟨hr ?_, fun _ => ⟨rfl, rfl⟩, fun hi => h.frame ?_, lawfulBits_depart _ _ h.bits,
    fun ho => ?_⟩⟩
  · cases hk : a.mode with
    | online o => rfl
    | offline | held k => rw [hk] at hon; cases hon
  · exact fun e => hi ((depart_idle _).2 e)
  · exact absurd (hm.symm.trans ho) (by simp)

/-! ### Changes of the other records -/

/-- Every port's link stands, and so do the supply and RESET#: stacks, NEST and notice queues alone may change. -/
structure SameLinks (s t : State) : Prop where
  supply : supplied t = supplied s
  port : ∀ q, ∃ stack nest notices, t.port q = { s.port q with stack := stack, nest := nest, notices := notices }

theorem SameLinks.trans (h : SameLinks s t) (k : SameLinks t u) : SameLinks s u := by
  refine ⟨k.supply.trans h.supply, fun q => ?_⟩
  obtain ⟨_, _, _, e⟩ := h.port q
  obtain ⟨st, n, k, e'⟩ := k.port q
  exact ⟨st, n, k, by rw [e', e]⟩

theorem sameLinks_of_ports (h : ∀ q, t.port q = s.port q) (hl : supplied t = supplied s := by rfl) :
    SameLinks s t :=
  ⟨hl, fun q => ⟨_, _, _, h q⟩⟩

theorem SameLinks.refl (s : State) : SameLinks s s := sameLinks_of_ports fun _ => rfl

theorem sameLinks_of_notices (h : ∀ q, ∃ l, t.port q = { s.port q with notices := l })
    (hl : supplied t = supplied s := by rfl) : SameLinks s t :=
  ⟨hl, fun q => (h q).elim fun k e => ⟨_, _, k, e⟩⟩

/-- One port's stack, NEST and notices change. -/
theorem sameLinks_modPort (s : State) (p : Port) {f : PortState → PortState}
    (hf : ∀ ps, ∃ stack nest notices, f ps = { ps with stack := stack, nest := nest, notices := notices }) :
    SameLinks s (s.modPort p f) := by
  refine ⟨rfl, fun q => ?_⟩
  rw [modPort_port]
  split
  · exact hf _
  · exact ⟨_, _, _, rfl⟩

theorem sameLinks_failCall (s : State) (n : SlotNo) (why : Failure) : SameLinks s (s.failCall n why) :=
  sameLinks_of_notices (fun q => (failCall_port s n why q).imp' _ fun _ h => h) (by rw [failCall_frame]; rfl)

theorem sameLinks_modLease (s : State) (x : Option Lease) (f : Block → Block) : SameLinks s (s.modLease x f) :=
  sameLinks_of_ports (fun q => modLease_port s x f q) (by simp [supplied])

theorem sameLinks_setSlot (s : State) (n : SlotNo) (c : Option Call) : SameLinks s (s.setSlot n c) :=
  sameLinks_of_ports fun _ => rfl

theorem sameLinks_withdraw (s : State) (p : Port) (id : Nat) : SameLinks s (s.withdraw p id) :=
  sameLinks_of_notices (fun q => ⟨_, CallTable.withdraw_port s p q id⟩) (by rw [CallTable.withdraw_frame]; rfl)

theorem sameLinks_cancelPending (s : State) (n : SlotNo) (c : Call) : SameLinks s (s.cancelPending n c) :=
  (sameLinks_setSlot s n none).trans (sameLinks_modLease _ c.lease _)

theorem sameLinks_askCancel (s : State) (n : SlotNo) (c : Call) : SameLinks s (s.askCancel n c) :=
  sameLinks_of_notices (askCancel_notices s n c) (by unfold State.askCancel; simp only []; split <;> rfl)

theorem sameLinks_collect (s : State) (p : Port) (n : SlotNo) : SameLinks s (s.collect p n) :=
  (sameLinks_setSlot s n none).trans (sameLinks_modPort _ p fun _ => ⟨_, _, _, rfl⟩)

theorem sameLinks_post (s : State) (n : SlotNo) (c : Call) : SameLinks s (s.post n c) :=
  SameLinks.trans (t := State.setSlot { s with posts := s.posts + 1 } n (some c)) (sameLinks_of_ports fun _ => rfl)
    (sameLinks_modLease _ c.lease _)

theorem sameLinks_take (s : State) (p : Port) (n : SlotNo) (c : Call) : SameLinks s (s.take p n c) :=
  ((sameLinks_setSlot s n _).trans (sameLinks_modLease _ c.lease _)).trans (sameLinks_modPort _ p fun _ => ⟨_, _, _, rfl⟩)

theorem sameLinks_pop (s : State) (p : Port) (e : StackEntry) : SameLinks s (s.pop p e) :=
  sameLinks_modPort s p fun _ => ⟨_, _, _, rfl⟩

theorem sameLinks_answerSlot (s : State) (n : SlotNo) (r : Byte) (ws : List Word) : SameLinks s (s.answerSlot n r ws) := by
  refine sameLinks_of_notices (answerSlot_notices s n r ws) ?_
  by_cases h : ∃ c, s.slot n = some c ∧ c.isInService = true
  · obtain ⟨c, hs, hi⟩ := h
    rw [answerSlot_eq hs hi]
    rfl
  · rw [answerSlot_not fun c hs hi => h ⟨c, hs, hi⟩]

theorem sameLinks_overrun (s : State) (q : Port) (n : SlotNo) (tag : Word) :
    SameLinks s ((s.orphanOverrun q n tag).failCall n .overrun) :=
  (sameLinks_modPort s q fun _ => ⟨_, _, _, rfl⟩).trans (sameLinks_failCall _ n _)

theorem SameLinks.keeps (h : SameLinks s t) (q : Port) : Keeps (supplied s) (supplied t) (s.port q) (t.port q) := by
  obtain ⟨_, _, _, e⟩ := h.port q
  rw [h.supply, e]
  exact ⟨id, fun h => ⟨h.pulse, h.held, h.frame, h.bits, h.staged⟩⟩

/-! ### What an effect does -/

/-- What a command's effect leaves of its own port: pins, RSTO# and the windows; and it does not make the port HELD. -/
structure OwnKept (a b : PortState) : Prop where
  sel : b.sel = a.sel
  sck : b.sck = a.sck
  prst : b.prst = a.prst
  rsto : b.rsto = a.rsto
  held : a.mode.isHeld = false → b.mode.isHeld = false
  windows : Windows a → Windows b

/-- What a command of port `p` does to the ports: its own port's pins and windows stand, and the other ports keep their laws. -/
structure Acts (p : Port) (s t : State) : Prop where
  supply : supplied t = supplied s
  own : OwnKept (s.port p) (t.port p)
  peers : ∀ q, q ≠ p → Keeps (supplied s) (supplied s) (s.port q) (t.port q)

theorem SameLinks.acts (h : SameLinks s t) (p : Port) : Acts p s t := by
  refine ⟨h.supply, ?_, fun q _ => h.supply ▸ h.keeps q⟩
  obtain ⟨_, _, _, e⟩ := h.port p
  rw [e]
  exact ⟨rfl, rfl, rfl, rfl, id, id⟩

theorem Acts.refl (p : Port) (s : State) : Acts p s s := (SameLinks.refl s).acts p

/-- A command changes its own port. -/
theorem acts_modPort (s : State) (p : Port) {f : PortState → PortState} (h : OwnKept (s.port p) (f (s.port p))) :
    Acts p s (s.modPort p f) :=
  ⟨rfl, by rw [modPort_port_self]; exact h, fun q hq => by rw [modPort_port_ne s f (Ne.symm hq)]; exact .refl _ _⟩

theorem acts_discardStaged (p : Port) (s : State) : Acts p s (s.discardStaged p) :=
  acts_modPort s p ⟨rfl, rfl, rfl, rfl, id, id⟩

theorem supplied_departure (s : State) (p : Port) (m : PortMode) : supplied (s.departure p m) = supplied s := by
  rw [departure_frame]; rfl

theorem keeps_departure_other (s : State) {p q : Port} (m : PortMode) (h : q ≠ p) :
    Keeps (supplied s) (supplied s) (s.port q) ((s.departure p m).port q) := by
  obtain ⟨k, e⟩ := departure_port_other s m h
  rw [e]
  exact ⟨id, fun h => ⟨h.pulse, h.held, h.frame, h.bits, h.staged⟩⟩

/-- The port that departs takes the state of `PortState.depart`. -/
theorem departure_port_depart (s : State) (p : Port) (m : PortMode) : (s.departure p m).port p = (s.port p).depart m := by
  rw [departure_port]; rfl

theorem acts_departure (s : State) (p : Port) : Acts p s (s.departure p .offline) := by
  refine ⟨supplied_departure s p _, ?_, fun q hq => keeps_departure_other s _ hq⟩
  rw [departure_port_depart]
  exact ⟨rfl, rfl, rfl, rfl, fun _ => rfl, fun _ => windows_reset rfl⟩

theorem acts_resetTarget (s : State) {p r : Port} (hr : r ≠ p) (ho : s.online r = true) : Acts p s (s.resetTarget r) := by
  have hport : ∀ q, q ≠ r → (s.resetTarget r).port q = (s.departure r (.held Config.pulseTicks)).port q :=
    fun q hq => modPort_port_ne _ _ (Ne.symm hq)
  refine ⟨supplied_departure s r (.held Config.pulseTicks), ?_, fun q hq => ?_⟩
  · obtain ⟨k, e⟩ := departure_port_other s (.held Config.pulseTicks) (Ne.symm hr)
    rw [hport p (Ne.symm hr), e]
    exact ⟨rfl, rfl, rfl, rfl, id, id⟩
  · by_cases he : q = r
    · subst he
      rw [State.resetTarget, modPort_port_self, departure_port_depart]
      exact keeps_depart rfl (fun _ => rfl) ho
    · rw [hport q he]
      exact keeps_departure_other s _ he

/-! ### What a command's meaning answers -/

/-- The statuses from 10h up are refusals (R193). -/
abbrev IsRefusal (st : Status) : Prop := 0x10 ≤ st.byte.toNat

/-- What a command's meaning answers from a state: a refusal, which leaves the state `kept`; or an effect, with a status below
10h, and no data byte of a streamed read in flight. -/
inductive Replies (p : Port) (kept s : State) : State × Reply → Prop
  | refused {st : Status} {body : List Byte} (h : IsRefusal st) : Replies p kept s (refuseWith st body kept)
  | acted {t : State} {r : Reply} (hst : ¬IsRefusal r.status) (ht : Acts p s t) (hs : ∀ x ∈ r.stream, x.inFlight = false) :
      Replies p kept s (t, r)

theorem replies_refuse (p : Port) {kept : State} (s : State) {st : Status} (h : IsRefusal st) :
    Replies p kept s (refuse st kept) := .refused h

theorem replies_reply {kept : State} {st : Status} {body : List Byte} (h : Acts p s t) (hst : ¬IsRefusal st := by decide) :
    Replies p kept s (reply st body t) := .acted hst h fun _ hx => by cases hx

theorem replies_same (p : Port) (st : Status) (body : List Byte) (s : State) (hst : ¬IsRefusal st := by decide) :
    Replies p s s (reply st body s) := replies_reply (.refl p s) hst

theorem replies_links {kept : State} {st : Status} {body : List Byte} (h : SameLinks s t)
    (hst : ¬IsRefusal st := by decide) : Replies p kept s (reply st body t) := replies_reply (h.acts p) hst

theorem replies_whenOnline {act : State → State × Reply} (h : Replies p s s (act s)) : Replies p s s (whenOnline p act s) := by
  unfold whenOnline
  split
  · exact h
  · exact replies_refuse p s (by decide)

/-! ### The commands, one after another -/

theorem replies_lastReply (p : Port) (s : State) : Replies p s s (lastReply p s) := by
  unfold lastReply
  split
  · exact replies_same p _ _ s
  · exact replies_refuse p s (by decide)

theorem replies_attach (p : Port) (params : List Byte) (s : State) : Replies p s s (attach p params s) := by
  unfold attach
  split
  · exact replies_refuse p s (by decide)
  · split_ifs
    · exact replies_refuse p s (by decide)
    · exact replies_refuse p s (by decide)
    · exact replies_reply (acts_modPort s p ⟨rfl, rfl, rfl, rfl, fun _ => rfl, id⟩)

theorem replies_detach (p : Port) (s : State) : Replies p s s (detach p s) :=
  replies_whenOnline (replies_reply (acts_departure s p))

theorem replies_resetPeer (p : Port) (target : Option Port) (s : State) : Replies p s s (resetPeer p target s) := by
  unfold resetPeer
  split
  · exact replies_refuse p s (by decide)
  · next r =>
    refine replies_whenOnline ?_
    split_ifs with hr ho
    · exact replies_refuse p s (by decide)
    · exact .refused (by decide)
    · exact replies_refuse p s (by decide)
    · exact replies_reply (acts_resetTarget s hr (by simpa using ho))

theorem replies_registerService (p : Port) (params : List Byte) (s : State) :
    Replies p s s (registerService p params s) := by
  unfold registerService
  split
  · exact replies_refuse p s (by decide)
  · split
    · exact replies_refuse p s (by decide)
    · refine replies_whenOnline ?_
      unfold registerEntry
      split
      · exact .refused (by decide)
      · split
        · exact replies_refuse p s (by decide)
        · exact replies_links (sameLinks_of_ports fun _ => rfl)

theorem replies_withdrawService (p : Port) (id : Nat) (s : State) : Replies p s s (withdrawService p id s) := by
  unfold withdrawService
  split
  · exact replies_refuse p s (by decide)
  · refine replies_whenOnline ?_
    split
    · exact replies_refuse p s (by decide)
    · split_ifs
      · exact replies_refuse p s (by decide)
      · exact .refused (by decide)
      · exact replies_links (sameLinks_withdraw s p id)

theorem replies_queryService (p : Port) (id : Nat) (s : State) : Replies p s s (queryService p id s) := by
  unfold queryService
  split
  · exact replies_refuse p s (by decide)
  · refine replies_whenOnline ?_
    split
    · exact replies_refuse p s (by decide)
    · exact replies_same p _ _ s

/-- A block that decides a refusal decides BLOCK_BUSY or NOT_OWNER. -/
theorem decidingBlock_isRefusal {st : Status} {b : BlockNo} : ∀ {bs : List BlockNo},
    decidingBlock s p bs = some (st, b) → IsRefusal st
  | [], h => by cases h
  | k :: ks, h => by
    rw [decidingBlock] at h
    split_ifs at h
    · exact decidingBlock_isRefusal h
    · cases h; decide
    · cases h; decide

theorem replies_postCallOnline (p : Port) (r : PostRequest) (s : State) : Replies p s s (postCallOnline p r s) := by
  unfold postCallOnline
  split
  · exact replies_refuse p s (by decide)
  · split_ifs
    · exact replies_refuse p s (by decide)
    · exact replies_refuse p s (by decide)
    · exact replies_refuse p s (by decide)
    · split
      · next st b hd =>
        unfold leaseRefusal at hd
        split at hd
        · cases hd
        · exact .refused (decidingBlock_isRefusal hd)
      · split
        · exact replies_refuse p s (by decide)
        · exact replies_links (sameLinks_post s _ _)

theorem replies_postCall (p : Port) (params : List Byte) (s : State) : Replies p s s (postCall p params s) := by
  unfold postCall
  split
  · exact replies_refuse p s (by decide)
  · split
    · exact replies_refuse p s (by decide)
    · exact replies_whenOnline (replies_postCallOnline p _ s)

theorem replies_withOwnCall {k : Option SlotNo} {act : SlotNo → Call → State → State × Reply}
    (h : ∀ n c, Replies p s s (act n c s)) : Replies p s s (withOwnCall p k act s) := by
  unfold withOwnCall
  split
  · exact replies_refuse p s (by decide)
  · refine replies_whenOnline ?_
    split
    · exact replies_refuse p s (by decide)
    · split
      · exact h _ _
      · exact replies_refuse p s (by decide)

theorem replies_cancelCall (p : Port) (n : SlotNo) (c : Call) (s : State) : Replies p s s (cancelCall n c s) := by
  unfold cancelCall
  split
  · exact replies_links (sameLinks_cancelPending s n c)
  · split
    · exact replies_refuse p s (by decide)
    · exact replies_links (sameLinks_askCancel s n c)
  · exact .refused (by decide)
  · exact .refused (by decide)

theorem replies_collectAnswer (p : Port) (n : SlotNo) (c : Call) (s : State) : Replies p s s (collectAnswer p n c s) := by
  unfold collectAnswer
  split
  · exact replies_links (sameLinks_collect s p n)
  · exact replies_links (sameLinks_collect s p n)
  · exact replies_refuse p s (by decide)
  · exact replies_refuse p s (by decide)

theorem replies_takeCall (p : Port) (s : State) : Replies p s s (takeCall p s) := by
  refine replies_whenOnline ?_
  split_ifs
  · exact replies_refuse p s (by decide)
  · exact replies_refuse p s (by decide)
  · split
    · exact replies_links (sameLinks_take s p _ _)
    · exact .refused (by decide)

theorem replies_answerCall (p : Port) (params : List Byte) (s : State) : Replies p s s (answerCall p params s) := by
  unfold answerCall
  split_ifs
  · exact replies_refuse p s (by decide)
  · exact replies_refuse p s (by decide)
  · refine replies_whenOnline ?_
    split
    · exact replies_refuse p s (by decide)
    · next e _ =>
      split
      · exact .refused (by decide)
      · unfold answerTop
        split
        · exact replies_links (sameLinks_pop s p e)
        · exact replies_links ((sameLinks_answerSlot s e.slot _ _).trans (sameLinks_pop _ p e))

theorem replies_setNesting (p : Port) (nest : Nest) (s : State) : Replies p s s (setNesting p nest s) := by
  refine replies_whenOnline ?_
  split
  · exact replies_refuse p s (by decide)
  · exact replies_links (sameLinks_modPort s p fun _ => ⟨_, _, _, rfl⟩)

theorem replies_readNotices (p : Port) (n : Nat) (s : State) : Replies p s s (readNotices p n s) := by
  unfold readNotices
  split
  · exact replies_refuse p s (by decide)
  · exact replies_whenOnline (replies_links (sameLinks_modPort s p fun _ => ⟨_, _, _, rfl⟩))

theorem replies_claimBlocks (p : Port) (count : Nat) (s : State) : Replies p s s (claimBlocks p count s) := by
  unfold claimBlocks
  split
  · exact replies_refuse p s (by decide)
  · refine replies_whenOnline ?_
    split
    · exact replies_links (sameLinks_of_ports fun _ => rfl)
    · exact .refused (by decide)

theorem replies_releaseBlocks (p : Port) (first count : Nat) (s : State) :
    Replies p s s (releaseBlocks p first count s) := by
  unfold releaseBlocks
  split
  · exact replies_refuse p s (by decide)
  · refine replies_whenOnline ?_
    split
    · next hd => exact .refused (decidingBlock_isRefusal hd)
    · exact replies_links (sameLinks_of_ports fun _ => rfl)

/-- A command moves one cursor of its port. -/
theorem acts_modCursor (s : State) (p : Port) (k : Fin 2) {f : Cursor → Cursor} (hf : ∀ x, InWindow x → InWindow (f x)) :
    Acts p s (s.modCursor p k f) :=
  acts_modPort s p ⟨rfl, rfl, rfl, rfl, id, fun h => windows_set h (hf _ (h k))⟩

theorem replies_setCursor (p : Port) (k : Option (Fin 2)) (base limit : Word) (s : State) :
    Replies p s s (setCursor p k base limit.toNat s) := by
  unfold setCursor
  split
  · exact replies_refuse p s (by decide)
  · refine replies_whenOnline (replies_reply (acts_modCursor s p _ fun _ _ => ?_))
    have := limit.isLt
    split
    · exact ⟨Nat.zero_lt_succ _, Nat.le_refl _⟩
    · exact ⟨by simp only; omega, by simp only; omega⟩

theorem replies_rewindCursor (p : Port) (k : Option (Fin 2)) (s : State) : Replies p s s (rewindCursor p k s) := by
  unfold rewindCursor
  split
  · exact replies_refuse p s (by decide)
  · refine replies_whenOnline (replies_reply (acts_modCursor s p _ fun x hx => ⟨?_, hx.2⟩))
    exact Nat.zero_lt_of_lt hx.1

theorem replies_readData (p : Port) (k : Option (Fin 2)) (wanted : Nat) (s : State) :
    Replies p s s (readData p k wanted s) := by
  unfold readData
  split
  · exact replies_refuse p s (by decide)
  · split
    · exact replies_refuse p s (by decide)
    · refine replies_whenOnline ?_
      split
      · exact .acted (r := { status := .ok, body := tailBytes 0 false, stream := some _ }) (show ¬IsRefusal .ok by decide) (.refl p s) fun x hx => by cases hx; rfl
      · exact replies_refuse p s (by decide)

theorem acts_commit (p : Port) (k : Fin 2) (data : List Byte) (s : State) : Acts p s (s.commit p k data) := by
  have h := acts_modCursor s p k fun x hx => inWindow_advance hx data.length
  exact ⟨h.supply, h.own, h.peers⟩

/-- A Write Data that is refused discards what it staged (R135). -/
theorem replies_writeData (p : Port) (k : Option (Fin 2)) (s : State) :
    Replies p (s.discardStaged p) s (writeData p k s) := by
  unfold writeData
  split
  · exact replies_refuse p s (by decide)
  · split
    · simp only []
      split
      · exact .refused (by decide)
      · exact replies_reply (acts_commit p _ _ s)
    · exact replies_refuse p s (by decide)

end Sys2Proof.DataTransfer
end

section
/-! SUPPORT. What the frame of a request does, whatever its command: it is ignored, answered HELD or BAD_LENGTH, or its command
answers it. -/

namespace Sys2Proof.DataTransfer

open Sys2Proof Sys2Proof.Machine Sys2Proof.Safety Sys2Proof.Statement Sys2Proof.Steps

variable {s t : State} {p q : Port} {code : Byte} {params : List Byte} {req : Request} {i : Instr}

/-! ### The data bytes that arrive with a frame -/

/-- A port's records with the bytes that a Write Data has staged; the frame of any other code stages none. -/
def arriving (code : Byte) (staging : List Byte) (ps : PortState) : PortState :=
  if code = 0x4B then { ps with staging := staging } else ps

theorem arriving_not {code : Byte} (h : code ≠ 0x4B) (staging : List Byte) (ps : PortState) :
    arriving code staging ps = ps := if_neg h

/-- The state in which a frame is examined: the data bytes of a Write Data have been staged (R131). -/
def arrived (s : State) (p : Port) (code : Byte) (params : List Byte) : State :=
  if code = 0x4B then s.stage p params else s

theorem arrived_ignored (h : s.receiving p (requestBytes code params) = false) : arrived s p code params = s := by
  unfold arrived
  split
  · next hc =>
    subst hc
    rw [State.stage, h]
    rfl
  · rfl

/-- The bytes that a frame leaves staged: none where it is answered HELD or BAD_LENGTH. -/
theorem arrived_eq (h : Receives s p (frame code params) req) :
    arrived s p code params =
      s.modPort p (arriving code
        (if !(s.port p).mode.isHeld && lengthAllowed code params.length then params.drop 1 else [])) := by
  unfold arrived
  split
  · next hc =>
    subst hc
    rw [State.stage, ← frame_eq, if_pos (receiving_of_receives h)]
    exact modPort_congr s p rfl
  · next hc => exact (modPort_id s p).symm.trans (modPort_congr s p (arriving_not hc _ _).symm)

theorem arrived_discarding (h : Receives s p (frame code params) req)
    (hd : (s.port p).mode.isHeld = true ∨ lengthAllowed code params.length = false) :
    arrived s p code params = s.modPort p (discarding code) := by
  have hn : (!(s.port p).mode.isHeld && lengthAllowed code params.length) = false := by
    rcases hd with h | h <;> simp [h]
  rw [arrived_eq h, hn]
  rfl

theorem receives_arrived (h : Receives s p (frame code params) req) :
    Receives (arrived s p code params) p (frame code params) req := by
  rw [arrived_eq h]
  by_cases hc : code = 0x4B
  · subst hc
    exact receives_staging h fun _ => _
  · rw [show s.modPort p (arriving code _) = s from
      (modPort_congr s p (arriving_not hc _ _)).trans (modPort_id s p)]
    exact h

theorem arrived_mode (h : Receives s p (frame code params) req) :
    ((arrived s p code params).port p).mode = (s.port p).mode := by
  rw [arrived_eq h, modPort_port_self, arriving]
  split <;> rfl

/-! ### Which command a frame runs -/

/-- A frame whose check byte verifies, but for a BAD_COMMAND with a code of R190, is answered by its command's meaning, the
lengths being those of R190. -/
theorem exec_request (hi : i.request = some (p, code, params))
    (hk : ∀ q, i = .badCommand q code params → knownCode code = false) :
    ∃ ok act,
      (∀ s, exec i s = .next ((arrived s p code params).answer p code params ok act)) ∧
      (knownCode code = true → ok = lengthAllowed code params.length) ∧
      ∀ u, Replies p (u.discardFrame p code) u (act u) := by
  have key : ∀ {act : State → State × Reply}, (∀ u, Replies p u u (act u)) →
      (∀ s, exec i s = .next (s.runCommand p code params act)) → code ≠ 0x4B →
      ∃ ok act,
        (∀ s, exec i s = .next ((arrived s p code params).answer p code params ok act)) ∧
        (knownCode code = true → ok = lengthAllowed code params.length) ∧
        ∀ u, Replies p (u.discardFrame p code) u (act u) := by
    intro act h e hc
    refine ⟨_, act, fun s => ?_, fun _ => rfl, fun u => ?_⟩
    · rw [e, arrived, if_neg hc, State.runCommand]
    · rw [State.discardFrame, if_neg hc]
      exact h u
  cases i <;> cases hi
  case poll => exact key (fun u => replies_same p _ _ u) (fun _ => rfl) (by decide)
  case portStatus => exact key (fun u => replies_same p _ _ u) (fun _ => rfl) (by decide)
  case partStatus => exact key (fun u => replies_same p _ _ u) (fun _ => rfl) (by decide)
  case lastReply => exact key (replies_lastReply p) (fun _ => rfl) (by decide)
  case attach => exact key (replies_attach p params) (fun _ => rfl) (by decide)
  case detach => exact key (replies_detach p) (fun _ => rfl) (by decide)
  case resetPeer => exact key (replies_resetPeer p _) (fun _ => rfl) (by decide)
  case registerService => exact key (replies_registerService p params) (fun _ => rfl) (by decide)
  case withdrawService => exact key (replies_withdrawService p _) (fun _ => rfl) (by decide)
  case queryService => exact key (replies_queryService p _) (fun _ => rfl) (by decide)
  case postCall => exact key (replies_postCall p params) (fun _ => rfl) (by decide)
  case cancelCall =>
    exact key (fun u => replies_withOwnCall fun n c => replies_cancelCall p n c u) (fun _ => rfl) (by decide)
  case collectAnswer =>
    exact key (fun u => replies_withOwnCall fun n c => replies_collectAnswer p n c u) (fun _ => rfl) (by decide)
  case callStatus =>
    exact key (fun u => replies_withOwnCall fun _ _ => replies_same p _ _ u) (fun _ => rfl) (by decide)
  case takeCall => exact key (replies_takeCall p) (fun _ => rfl) (by decide)
  case answerCall => exact key (replies_answerCall p params) (fun _ => rfl) (by decide)
  case openNesting => exact key (replies_setNesting p _) (fun _ => rfl) (by decide)
  case closeNesting => exact key (replies_setNesting p _) (fun _ => rfl) (by decide)
  case stackStatus => exact key (fun u => replies_whenOnline (replies_same p _ _ u)) (fun _ => rfl) (by decide)
  case readNotices => exact key (replies_readNotices p _) (fun _ => rfl) (by decide)
  case claimBlocks => exact key (replies_claimBlocks p _) (fun _ => rfl) (by decide)
  case releaseBlocks => exact key (replies_releaseBlocks p _ _) (fun _ => rfl) (by decide)
  case blockStatus => exact key (fun u => replies_whenOnline (replies_same p _ _ u)) (fun _ => rfl) (by decide)
  case setCursor => exact key (replies_setCursor p _ _ _) (fun _ => rfl) (by decide)
  case rewindCursor => exact key (replies_rewindCursor p _) (fun _ => rfl) (by decide)
  case readData => exact key (replies_readData p _ _) (fun _ => rfl) (by decide)
  case writeData => exact ⟨_, _, fun _ => rfl, fun _ => rfl, replies_writeData p _⟩
  case badCommand =>
    have hu := hk p rfl
    have hc : code ≠ 0x4B := by rintro rfl; exact absurd hu (by decide)
    refine ⟨true, refuse .badCommand, fun s => ?_, fun h => absurd (hu.symm.trans h) (by decide), fun u => ?_⟩
    · rw [arrived, if_neg hc]
      exact congrArg Host.Outcome.next (if_neg (by simp [hu]))
    · rw [State.discardFrame, if_neg hc]
      exact replies_refuse p u (by decide)

/-! ### The answer -/

/-- A port's records once its frame is answered: the reply is due, and recorded but for the four status commands. -/
def concluded (req : Request) (code : Byte) (r : Reply) (ps : PortState) : PortState :=
  { ps with
    asm := .reply req.shown 8 r.bytes r.stream
    record :=
      if isStatusCode code then ps.record
      else some { number := nextNumber ps.record, code := code, status := r.status, body := r.body } }

theorem nextRecord_eq (old : Option LastReply) (code : Byte) (st : Status) (body : List Byte) :
    nextRecord old code st body = { number := nextNumber old, code := code, status := st, body := body } := by
  cases old <;> rfl

/-- The same in the statements' words. -/
theorem concluded_eq (req : Request) (code : Byte) (st : Status) (body : List Byte) (ps : PortState) :
    concluded req code { status := st, body := body } (verified req ps) =
      if isStatusCode code then answered req st body ps else replied req code st body ps := by
  unfold concluded
  split
  · rw [answered, due_eq]
  · rw [replied, nextRecord_eq, answered, due_eq]
    rfl

/-- The frame of a port that is not HELD is answered, with BAD_LENGTH or as its command's meaning answers. -/
theorem answer_concluded (h : Receives s p (frame code params) req) (hh : (s.port p).mode.isHeld = false) {ok : Bool}
    {act : State → State × Reply} {r : State × Reply}
    (hr : (if ok then act (s.modPort p (verified req)) else refuse .badLength (s.modPort p (verified req))) = r) :
    s.answer p code params ok act = r.1.modPort p (concluded req code r.2) := by
  subst hr
  have hrec := receiving_of_receives h
  rw [← verified_eq h]
  simp only [State.answer, ← frame_eq, if_pos hrec, hh, Bool.false_eq_true, if_false, lastShown_eq h]
  generalize (if ok then act ((s.receive p (frame code params)).setFrameBad p false)
    else refuse .badLength ((s.receive p (frame code params)).setFrameBad p false)) = r
  unfold concluded
  split
  · rfl
  · exact recordReply_startReply _ _ _ _ _

/-- The frame of a HELD port is answered HELD, and what it staged is discarded (R135, R151). -/
theorem exec_held (hi : i.request = some (p, code, params))
    (hk : ∀ q, i = .badCommand q code params → knownCode code = false) (h : Receives s p (frame code params) req)
    (hh : (s.port p).mode.isHeld = true) :
    exec i s = .next (s.modPort p fun ps => { discarding code (sampled req ps) with asm := due req .held [] }) := by
  obtain ⟨ok, act, he, -, -⟩ := exec_request hi hk
  have h' := receives_arrived h
  have hheld : ((arrived s p code params).port p).mode.isHeld = true := by rw [arrived_mode h]; exact hh
  rw [he, answer_held (receiving_of_receives h') hheld, ← frame_eq, receive_eq h', lastShown_eq h',
    arrived_discarding h (.inl hh), State.startReply, modPort_modPort, modPort_modPort]
  refine congrArg _ (modPort_congr s p ?_)
  rw [due_eq]
  unfold discarding
  split <;> rfl

/-- A frame that its link is not receiving is ignored. -/
theorem exec_ignored (hi : i.request = some (p, code, params))
    (hk : ∀ q, i = .badCommand q code params → knownCode code = false)
    (h : s.receiving p (requestBytes code params) = false) : exec i s = .next s := by
  obtain ⟨ok, act, he, -, -⟩ := exec_request hi hk
  rw [he, arrived_ignored h, answer_ignored h]

/-- A command that is an event of the part is no BAD_COMMAND with a code of R190. -/
theorem unknown_of_wf (hw : i.wf = true) (q : Port) (h : i = .badCommand q code params) : knownCode code = false := by
  subst h
  simp only [Instr.wf, Bool.and_eq_true, Bool.not_eq_true'] at hw
  exact hw.2

/-- Settles O10: the frame is ignored, or answered HELD, or answered BAD_LENGTH, by its port's state and its length. -/
theorem frameAnsweredBeforeItsCommand : Obligations.FrameAnsweredBeforeItsCommand := by
  intro i p code params s hi hw
  have hk := fun q => unknown_of_wf (code := code) (params := params) hw q
  refine ⟨fun h => exec_ignored hi hk (not_receiving h), fun req => ⟨fun n h hm => ?_, fun ht hc hl => ?_⟩⟩
  · exact exec_held hi hk h ((isHeld_iff _).2 ⟨n, hm⟩)
  · obtain ⟨ok, act, he, hok, -⟩ := exec_request hi hk
    have hheld : ((arrived s p code params).port p).mode.isHeld = false := by
      rw [arrived_mode ht.1]; exact not_held_of_taken ht.2
    obtain rfl : ok = false := (hok hc).trans hl
    rw [he, answer_concluded (receives_arrived ht.1) hheld rfl, arrived_discarding ht.1 (.inr hl)]
    simp only [Bool.false_eq_true, if_false, refuse, modPort_modPort, concluded_eq]

/-- What a refusal leaves before the reply, for a Write Data as for any other frame. -/
theorem discardFrame_arrived (h : Receives s p (frame code params) req) :
    ((arrived s p code params).modPort p (verified req)).discardFrame p code =
      s.modPort p fun ps => discarding code (verified req ps) := by
  rw [arrived_eq h, discardFrame_eq, modPort_modPort, modPort_modPort]
  refine modPort_congr s p ?_
  unfold discarding arriving
  split <;> rfl

/-- The same of a BAD_LENGTH, before which nothing has been staged. -/
theorem arrived_badLength (h : Receives s p (frame code params) req) (hl : lengthAllowed code params.length = false) :
    (arrived s p code params).modPort p (verified req) = s.modPort p fun ps => discarding code (verified req ps) := by
  rw [arrived_discarding h (.inr hl), modPort_modPort]
  refine modPort_congr s p ?_
  unfold discarding
  split <;> rfl

/-- A length that the command does not allow is the only one that is not passed on to its meaning. -/
theorem lengthAllowed_false (h : knownCode code = true → false = lengthAllowed code params.length) :
    lengthAllowed code params.length = false := by
  cases hl : lengthAllowed code params.length with
  | false => rfl
  | true => rw [← h (CallTable.knownCode_of_lengthAllowed hl)] at hl; cases hl

/-- What a refusal changes before its reply: LAST_FRAME_BAD, and what a Write Data has staged. -/
theorem refusal_state (h : Receives s p (frame code params) req) {ok : Bool} {act : State → State × Reply}
    (hok : knownCode code = true → ok = lengthAllowed code params.length)
    (hact : ∀ u, Replies p (u.discardFrame p code) u (act u)) {r : State × Reply}
    (hr : (if ok then act ((arrived s p code params).modPort p (verified req))
      else refuse .badLength ((arrived s p code params).modPort p (verified req))) = r)
    (hst : IsRefusal r.2.status) : r.1 = s.modPort p fun ps => discarding code (verified req ps) := by
  subst hr
  cases ok with
  | false => exact arrived_badLength h (lengthAllowed_false hok)
  | true =>
    simp only [if_true] at hst ⊢
    generalize act _ = r, hact ((arrived s p code params).modPort p (verified req)) = hu at hst ⊢
    cases hu with
    | refused => exact discardFrame_arrived h
    | acted hn => exact absurd hst hn

/-- Settles O12: a reply's first byte is its status, and a status from 10h up is a refusal's. -/
theorem refusalChangesLinkRecordsAlone : Obligations.RefusalChangesLinkRecordsAlone := by
  intro i p code params req s hi hw ht
  obtain ⟨ok, act, he, hok, hact⟩ := exec_request hi fun q => unknown_of_wf hw q
  have hheld : ((arrived s p code params).port p).mode.isHeld = false := by
    rw [arrived_mode ht.1]; exact not_held_of_taken ht.2
  rw [he, answer_concluded (receives_arrived ht.1) hheld rfl]
  refine ⟨_, _, _, _, rfl, by rw [modPort_port_self]; rfl, fun hst => ?_⟩
  rw [refusal_state ht.1 hok hact rfl hst, modPort_modPort, modPort_port_self]
  exact modPort_congr s p rfl

end Sys2Proof.DataTransfer
end

section
/-! SUPPORT. Every step keeps the windows of the cursors and the laws of the links: the edges of SCK bit by bit, the frames by
what their commands answer, and every other event by what it changes. -/

namespace Sys2Proof.DataTransfer

open Sys2Proof Sys2Proof.Machine Sys2Proof.Safety Sys2Proof.Statement Sys2Proof.Steps

variable {s t u : State} {p q : Port} {a b : PortState} {l l' : Bool} {level : Bool} {v : Byte} {received : List Bool}
  {x : Transfer} {code : Byte} {params : List Byte}

/-! ### What clocking keeps -/

/-- What any edges of SCK keep: an empty last-reply record, and the windows. -/
structure ClockKept (a b : PortState) : Prop where
  record : a.record = none → b.record = none
  windows : Windows a → Windows b

theorem ClockKept.refl (a : PortState) : ClockKept a a := ⟨id, id⟩

theorem ClockKept.trans {c : PortState} (h : ClockKept a b) (k : ClockKept b c) : ClockKept a c :=
  ⟨k.record ∘ h.record, k.windows ∘ h.windows⟩

theorem clockKept_credited (x : Transfer) (ps : PortState) : ClockKept ps (credited x ps) := by
  unfold credited
  split
  · refine ⟨fun h => by simp only [h, Option.map_none], fun h => windows_set h ?_⟩
    exact inWindow_advance (h x.cursor) 1
  · exact .refl ps

/-- A data byte begins, valid or filler. -/
theorem beginDataByte_form (s : State) (p : Port) (x : Transfer) :
    ∃ record w y,
      (s.beginDataByte p x = s.modPort p fun ps => { ps with record := record, asm := .reply w 0 [] (some y) }) ∧
      ((s.port p).record = none → record = none) := by
  by_cases h : x.lost = true ∨ x.departed = true ∨ s.mayRead p (s.cursor p x.cursor).address = false
  · refine ⟨_, _, _, (beginDataByte_filler s p h).trans (modPort_congr s p rfl), fun hn => ?_⟩
    split
    · exact hn
    · rw [hn]; rfl
  · simp only [not_or, Bool.not_eq_true, Bool.not_eq_false] at h
    exact ⟨_, _, _, (beginDataByte_valid s p h.1 h.2.1 h.2.2 rfl).trans (modPort_congr s p rfl), id⟩

theorem clockKept_beginDataByte (s : State) (p : Port) (x : Transfer) :
    ClockKept (s.port p) ((s.beginDataByte p x).port p) := by
  obtain ⟨record, w, y, e, hr⟩ := beginDataByte_form s p x
  rw [e, modPort_port_self]
  exact ⟨hr, id⟩

theorem clockKept_byteShifted (s : State) (p : Port) (v : Byte) (rest : List Byte) (data : Option Transfer) :
    ClockKept (s.port p) ((s.byteShifted p v rest data).port p) := by
  cases data with
  | some x =>
    rw [byteShifted_stream, modPort_port_self]
    exact (clockKept_credited x _).trans ⟨id, id⟩
  | none =>
    cases rest with
    | nil => rw [byteShifted_check, modPort_port_self]; exact ⟨id, id⟩
    | cons b rest => rw [byteShifted_more, modPort_port_self]; exact ⟨id, id⟩

theorem clockKept_sckRise (s : State) (p : Port) (level : Bool) : ClockKept (s.port p) ((s.sckRise p level).port p) := by
  unfold State.sckRise
  split
  · exact .refl _
  · rw [modPort_port_self]; exact ⟨id, id⟩
  · split
    · rw [modPort_port_self]; exact ⟨id, id⟩
    · exact clockKept_byteShifted s p _ _ _
  · rw [modPort_port_self]; exact ⟨id, id⟩

theorem clockKept_sckFall (s : State) (p : Port) : ClockKept (s.port p) ((s.sckFall p).port p) := by
  unfold State.sckFall
  split
  · exact .refl _
  · split
    · rw [modPort_port_self]; exact ⟨id, id⟩
    · exact .refl _
  · split
    · unfold State.nextReplyByte
      split
      · rw [modPort_port_self]; exact ⟨id, id⟩
      · split
        · exact clockKept_beginDataByte s p _
        · unfold State.beginTail; rw [modPort_port_self]; exact ⟨id, id⟩
      · exact .refl _
    · exact .refl _
  · split
    · rw [modPort_port_self]; exact ⟨id, id⟩
    · exact .refl _

theorem clockKept_sckEdge (s : State) (p : Port) (level : Bool) : ClockKept (s.port p) ((s.sckEdge p level).port p) := by
  have h : ClockKept (s.port p) ((s.modPort p (edged level)).port p) := by rw [modPort_port_self]; exact ⟨id, id⟩
  cases hk : (s.port p).sck with
  | false => rw [sckEdge_rising hk]; exact h.trans (clockKept_sckRise _ p level)
  | true => rw [sckEdge_falling hk]; exact h.trans (clockKept_sckFall _ p)

theorem clockKept_sckEdges (p : Port) : ∀ (edges : List Bool) (s : State),
    ClockKept (s.port p) ((s.sckEdges p edges).port p)
  | [], _ => .refl _
  | level :: levels, s => (clockKept_sckEdge s p level).trans (clockKept_sckEdges p levels _)

/-! ### The bits of an open frame -/

/-- A bit that completes no frame leaves a request unfinished. -/
theorem partialFrame_snoc (h : partialFrame (bytesOfBits received) = true)
    (hn : frameCommand p (bytesOfBits (received ++ [level])) = none) :
    partialFrame (bytesOfBits (received ++ [level])) = true := by
  obtain ⟨b, -, hb⟩ | ⟨-, hsame⟩ := bytesOfBits_snoc received level
  · rw [hb] at hn ⊢
    match bytesOfBits received, h, hn with
    | [], _, _ => rfl
    | [_], _, _ => rfl
    | code :: len :: rest, h, hn =>
      have hle : rest.length ≤ len.toNat := of_decide_eq_true h
      have hne : (rest ++ [b]).length ≠ len.toNat + 1 := by
        intro e
        simp only [List.cons_append, frameCommand, if_pos e] at hn
        split at hn <;> cases hn
      rw [List.length_append, List.length_singleton] at hne
      refine decide_eq_true (p := (rest ++ [b]).length ≤ len.toNat) ?_
      rw [List.length_append, List.length_singleton]
      omega
  · rw [hsame]; exact h

/-- The staged bytes of a request are lawful exactly when they are the data bytes that have arrived, up to the buffer's places. -/
theorem lawfulStaging_request (staging : List Byte) (v : Byte) (received : List Bool) :
    lawfulStaging staging (.request v received) = true ↔
      ∀ len cursor b data, bytesOfBits received = 0x4B :: len :: cursor :: b :: data →
        staging = (b :: data).take 248 := by
  rw [lawfulStaging]
  split
  · next code _ _ b data hm =>
    rw [hm]
    simp only [Bool.or_eq_true, bne_iff_ne, beq_iff_eq, List.cons.injEq]
    constructor
    · rintro h len cursor b' data' ⟨rfl, -, -, rfl, rfl⟩
      exact h.resolve_left (not_not.2 rfl)
    · intro h
      by_cases hc : code = 0x4B
      · exact .inr (h _ _ _ _ ⟨hc, rfl, rfl, rfl, rfl⟩)
      · exact .inl hc
  · next hm => exact ⟨fun _ _ _ _ _ e => absurd e (hm _ _ _ _ _), fun _ => rfl⟩

/-- With the next bit of a request that is still unfinished the staged bytes stay lawful (R131). -/
theorem lawfulStaging_snoc {staging : List Byte} (hp : partialFrame (bytesOfBits (received ++ [level])) = true)
    (h : lawfulStaging staging (.request v received) = true) :
    lawfulStaging (stagedAfter received level staging) (.request v (received ++ [level])) = true := by
  rw [lawfulStaging_request] at h ⊢
  intro len cursor b data hnew
  obtain ⟨c, -, hc⟩ | ⟨-, hsame⟩ := bytesOfBits_snoc received level
  · obtain ⟨data', last, hd⟩ : ∃ data' last, b :: data = data' ++ [last] :=
      ⟨_, _, (List.dropLast_append_getLast (List.cons_ne_nil b data)).symm⟩
    have hm : bytesOfBits received = 0x4B :: len :: cursor :: data' := by
      rw [hnew, hd] at hc
      exact (List.append_inj' (s₁ := 0x4B :: len :: cursor :: data') hc rfl).1.symm
    have hlen : data'.length + 1 < len.toNat := by
      rw [hnew, hd] at hp
      have : (cursor :: (data' ++ [last])).length ≤ len.toNat := of_decide_eq_true hp
      simp only [List.length_cons, List.length_append, List.length_nil] at this
      omega
    have hlast : bytesOfBits (received ++ [level]) = bytesOfBits received ++ [last] := by rw [hnew, hm, hd]; rfl
    have hst : data' ≠ [] → staging = data'.take 248 := by
      intro hne
      obtain ⟨d, ds, rfl⟩ := List.exists_cons_of_ne_nil hne
      exact h len cursor d ds hm
    rw [stagedAfter_byte hm hlast, hd]
    by_cases hroom : data'.length < 248
    · have hfit : data'.length ≤ staging.length ∧ staging.take data'.length = data' := by
        by_cases hne : data' = []
        · subst hne; exact ⟨Nat.zero_le _, rfl⟩
        · rw [hst hne, List.take_of_length_le (by omega), List.take_length]
          exact ⟨Nat.le_refl _, rfl⟩
      rw [if_pos ⟨rfl, hlen, hroom, hfit.1⟩, hfit.2, List.take_of_length_le]
      rw [List.length_append, List.length_singleton]
      omega
    · have hne : data' ≠ [] := by rintro rfl; exact hroom (by decide)
      rw [if_neg fun hcond => hroom hcond.2.2.1, hst hne, List.take_append_of_le_length (by omega)]
  · rw [stagedAfter_partial hsame]
    exact h len cursor b data (hsame ▸ hnew)

/-- The bits and the staged bytes of one port's frame are lawful. -/
def LawfulFrame (ps : PortState) : Prop :=
  lawfulBits ps.sck ps.asm = true ∧ (ps.mode.isOnline = true → lawfulStaging ps.staging ps.asm = true)

/-- A byte of a reply that is going out. -/
theorem lawfulFrame_reply {k : Nat} {rest : List Byte} {data : Option Transfer} (h : a.asm = .reply v k rest data)
    (hk : k < 8) : LawfulFrame a := by
  refine ⟨?_, fun _ => by rw [h]; rfl⟩
  rw [h]
  simp [lawfulBits, hk, hk.le]

/-- A byte of a reply whose eighth bit has just gone out, with more to come. -/
theorem lawfulFrame_sent {rest : List Byte} {data : Option Transfer} (h : a.asm = .reply v 8 rest data)
    (hk : a.sck = true) (hd : ∀ x ∈ data, x.inFlight = false) (hm : rest ≠ [] ∨ data.isSome = true) : LawfulFrame a := by
  refine ⟨?_, fun _ => by rw [h]; rfl⟩
  have hall : (data.all fun t => !t.inFlight) = true := by
    cases data with
    | none => rfl
    | some x => simp [hd x rfl]
  have hmore : (!rest.isEmpty || data.isSome) = true := by
    rcases hm with hm | hm
    · simp [hm]
    · simp [hm]
  rw [h, hk]
  simp [lawfulBits, hall, hmore]

theorem lawfulFrame_trailer {k : Nat} (h : a.asm = .trailer v k) (hk : k < 8 ∨ (k = 8 ∧ a.sck = true)) : LawfulFrame a := by
  refine ⟨?_, fun _ => by rw [h]; rfl⟩
  rw [h]
  rcases hk with hk | ⟨rfl, hs⟩
  · simp [lawfulBits, hk, hk.le]
  · simp [lawfulBits, hs]

theorem lawfulFrame_idle (h : a.asm = .idle) : LawfulFrame a := ⟨by rw [h]; rfl, fun _ => by rw [h]; rfl⟩

/-- Of a reply, at most eight bits have gone out, and the eighth only with SCK high and more to come. -/
theorem LawfulFrame.reply {k : Nat} {rest : List Byte} {data : Option Transfer} (h : LawfulFrame a)
    (ha : a.asm = .reply v k rest data) : k < 8 ∨ (k = 8 ∧ a.sck = true ∧ (rest ≠ [] ∨ data.isSome = true)) := by
  obtain ⟨hb, -⟩ := h
  rw [ha] at hb
  simp only [lawfulBits, Bool.and_eq_true, Bool.or_eq_true, decide_eq_true_eq, Bool.not_eq_true', List.isEmpty_eq_false_iff] at hb
  obtain ⟨hle, hlt | ⟨⟨hs, -⟩, hm⟩⟩ := hb
  · exact .inl hlt
  · by_cases hk : k < 8
    · exact .inl hk
    · exact .inr ⟨by omega, hs, hm⟩

theorem LawfulFrame.trailer {k : Nat} (h : LawfulFrame a) (ha : a.asm = .trailer v k) : k < 8 ∨ (k = 8 ∧ a.sck = true) := by
  obtain ⟨hb, -⟩ := h
  rw [ha] at hb
  simp only [lawfulBits, Bool.and_eq_true, Bool.or_eq_true, decide_eq_true_eq] at hb
  obtain ⟨hle, hlt | hs⟩ := hb
  · exact .inl hlt
  · by_cases hk : k < 8
    · exact .inl hk
    · exact .inr ⟨by omega, hs⟩

theorem credited_sck (x : Transfer) (ps : PortState) : (credited x ps).sck = ps.sck := by unfold credited; split <;> rfl

/-- A rising edge that completes no frame. -/
theorem lawfulFrame_rising (hk : (s.port p).sck = false) (h : LawfulFrame (s.port p)) (hn : s.completedBy p level = none) :
    LawfulFrame ((s.sckEdge p level).port p) := by
  cases ha : (s.port p).asm with
  | idle =>
    rw [sckEdge_idle ha, modPort_port_self]
    exact lawfulFrame_idle ha
  | request v received =>
    obtain ⟨hb, hs⟩ := h
    rw [ha] at hb hs
    simp only [State.completedBy, ha, hk, Bool.false_eq_true, if_false] at hn
    rw [sckEdge_rising_request hk ha, modPort_port_self]
    have hp := partialFrame_snoc hb hn
    exact ⟨hp, fun ho => lawfulStaging_snoc hp (hs ho)⟩
  | reply v k rest data =>
    obtain hlt | ⟨-, hs, -⟩ := h.reply ha
    · by_cases h7 : k < 7
      · rw [sckEdge_rising_reply hk ha h7, modPort_port_self]
        exact lawfulFrame_reply rfl (by omega)
      · obtain rfl : k = 7 := by omega
        have hup : (edged level (s.port p)).sck = true := by rw [edged, hk]; rfl
        rw [sckEdge_rising_last hk ha]
        cases data with
        | some x =>
          rw [byteShifted_stream, modPort_port_self, modPort_port_self]
          exact lawfulFrame_sent rfl ((credited_sck x _).trans hup) (fun y hy => by cases hy; rfl) (.inr rfl)
        | none =>
          cases rest with
          | nil =>
            rw [byteShifted_check, modPort_port_self, modPort_port_self]
            exact lawfulFrame_trailer rfl (.inr ⟨rfl, hup⟩)
          | cons b rest =>
            rw [byteShifted_more, modPort_port_self, modPort_port_self]
            exact lawfulFrame_sent rfl hup (fun y hy => by cases hy) (.inl (List.cons_ne_nil b rest))
    · rw [hk] at hs; cases hs
  | trailer v k =>
    obtain hlt | ⟨-, hs⟩ := h.trailer ha
    · rw [sckEdge_rising_trailer hk ha, modPort_port_self]
      refine lawfulFrame_trailer rfl ?_
      by_cases h7 : k < 7
      · exact .inl (by omega)
      · exact .inr ⟨by omega, by simp only [edged, hk]; rfl⟩
    · rw [hk] at hs; cases hs

/-- A falling edge. -/
theorem lawfulFrame_falling (hk : (s.port p).sck = true) (h : LawfulFrame (s.port p)) (level : Bool) :
    LawfulFrame ((s.sckEdge p level).port p) := by
  cases ha : (s.port p).asm with
  | idle =>
    rw [sckEdge_idle ha, modPort_port_self]
    exact lawfulFrame_idle ha
  | request v received =>
    obtain ⟨hb, hs⟩ := h
    rw [ha] at hb hs
    by_cases hend : received ≠ [] ∧ received.length % 8 = 0
    · rw [sckEdge_falling_request hk ha hend.1 hend.2, modPort_port_self]
      exact ⟨hb, hs⟩
    · rw [sckEdge_falling_request_inside hk ha (by tauto), modPort_port_self]
      exact ⟨by rw [edged_asm, ha]; exact hb, fun ho => by rw [edged_asm, ha]; exact hs ho⟩
  | reply v k rest data =>
    obtain hlt | ⟨rfl, -, hm⟩ := h.reply ha
    · rw [sckEdge_falling_reply_inside hk ha hlt, modPort_port_self]
      exact lawfulFrame_reply ha hlt
    · rw [sckEdge_falling_reply hk ha]
      match rest, data, hm with
      | b :: rest, data, _ =>
        rw [nextReplyByte_more, modPort_port_self]
        exact lawfulFrame_reply rfl (by decide)
      | [], none, hm => simp at hm
      | [], some x, _ =>
        by_cases hx : x.begun < x.wanted
        · obtain ⟨record, w, y, e, -⟩ := beginDataByte_form (s.modPort p (edged level)) p x
          rw [nextReplyByte_data _ p hx, e, modPort_port_self]
          exact lawfulFrame_reply rfl (by decide)
        · rw [nextReplyByte_tail _ p (Nat.not_lt.1 hx) rfl, modPort_port_self]
          exact lawfulFrame_reply rfl (by decide)
  | trailer v k =>
    obtain hlt | ⟨rfl, -⟩ := h.trailer ha
    · rw [sckEdge_falling_trailer_inside hk ha hlt, modPort_port_self]
      exact lawfulFrame_trailer ha (.inl hlt)
    · rw [sckEdge_falling_trailer hk ha, modPort_port_self]
      exact lawfulFrame_trailer rfl (.inl (by decide))

/-! ### The events of one link -/

/-- Every port keeps its windows and its link's laws. -/
def StepKeeps (s t : State) : Prop := ∀ q, Keeps (supplied s) (supplied t) (s.port q) (t.port q)

theorem StepKeeps.refl (s : State) : StepKeeps s s := fun _ => .refl _ _

theorem StepKeeps.trans (h : StepKeeps s t) (k : StepKeeps t u) : StepKeeps s u := fun q => (h q).trans (k q)

theorem SameLinks.stepKeeps (h : SameLinks s t) : StepKeeps s t := h.keeps

theorem stepKeeps_modPort (s : State) (p : Port) {f : PortState → PortState}
    (h : Keeps (supplied s) (supplied s) (s.port p) (f (s.port p))) : StepKeeps s (s.modPort p f) := by
  intro q
  rw [modPort_port]
  split
  · next e => subst e; exact h
  · exact .refl _ _

/-- Clocking that leaves a lawful frame open, where one was open. -/
theorem stepKeeps_clocked (hc : OnlyClocked p s t) (hk : ClockKept (s.port p) (t.port p))
    (hi : (s.port p).asm = .idle → (t.port p).asm = .idle)
    (hf : LawfulFrame (s.port p) → LawfulFrame (t.port p)) : StepKeeps s t := by
  obtain ⟨k, rfl⟩ := hc
  rw [modPort_port_self] at hk hi hf
  refine stepKeeps_modPort s p ⟨hk.windows, fun h => ?_⟩
  obtain ⟨hb, hs⟩ := hf ⟨h.bits, h.staged⟩
  exact ⟨h.pulse, fun hh => ⟨hk.record (h.held hh).1, (h.held hh).2⟩, fun hne => h.frame fun e => hne (hi e), hb, hs⟩

theorem stepKeeps_sckEdge (hn : s.completedBy p level = none) : StepKeeps s (s.sckEdge p level) := by
  refine stepKeeps_clocked (onlyClocked_sckEdge s p level) (clockKept_sckEdge s p level) (fun h => ?_) fun h => ?_
  · rw [sckEdge_idle h, modPort_port_self]
    exact h
  · cases hk : (s.port p).sck with
    | false => exact lawfulFrame_rising hk h hn
    | true => exact lawfulFrame_falling hk h level

theorem stepKeeps_readDataByte (h : exec (.readDataByte p) s = .next t) : StepKeeps s t := by
  by_cases hx : ∃ v k rest x, (s.port p).asm = .reply v k rest (some x) ∧ x.begun < x.wanted
  · obtain ⟨v, k, rest, x, ha, hlt⟩ := hx
    have hc : OnlyClocked p s t := by
      obtain ⟨t', ht, hc⟩ := execReadDataByte_next p s
      cases ht.symm.trans h
      exact hc
    rw [readDataByte_next ha hlt] at h
    cases h
    obtain ⟨record, w, y, e, hr⟩ := beginDataByte_form (s.modPort p (landed x)) p x
    refine stepKeeps_clocked hc ?_ (fun hi => absurd (ha.symm.trans hi) (by simp)) fun _ => ?_
    · have hl : ClockKept (s.port p) ((s.modPort p (landed x)).port p) := by
        rw [modPort_port_self]
        exact (clockKept_credited x _).trans ⟨id, id⟩
      exact hl.trans (clockKept_beginDataByte _ p x)
    · rw [e, modPort_port_self]
      exact lawfulFrame_reply rfl (by decide)
  · rw [readDataByte_none fun x hs => ?_] at h
    · cases h; exact .refl s
    · by_contra hlt
      cases ha : (s.port p).asm with
      | reply v k rest data =>
        rw [ha, Assembler.stream?] at hs
        exact hx ⟨v, k, rest, x, hs ▸ ha, Nat.not_le.1 hlt⟩
      | idle | request | trailer => rw [ha] at hs; cases hs

/-- The end of a frame, with the assembler idle: RSTO#, mode, record and cursors stand, and a HELD port's LAST_FRAME_BAD. -/
structure Closes (a b : PortState) : Prop where
  asm : b.asm = .idle
  rsto : b.rsto = a.rsto
  mode : b.mode = a.mode
  record : b.record = a.record
  bad : a.mode.isHeld = true → b.lastFrameBad = a.lastFrameBad
  cursors : b.cursors = a.cursors

theorem Closes.keeps (h : Closes a b) (l l' : Bool) : Keeps l l' a b := by
  refine ⟨fun hw => by unfold Windows; rw [h.cursors]; exact hw, fun hl => lawful_closed ?_ (fun hh => ?_) h.asm⟩
  · rw [h.rsto, h.mode, hl.pulse]
  · rw [h.mode] at hh
    rw [h.record, h.bad hh]
    exact hl.held hh

theorem discarding_closes (code : Byte) (ps : PortState) :
    Closes ps { discarding code (badMarked ps) with asm := .idle } := by
  have hb : ps.mode.isHeld = true → (badMarked ps).lastFrameBad = ps.lastFrameBad := fun hh => by
    rw [badMarked, hh]; rfl
  unfold discarding
  split <;> exact ⟨rfl, rfl, rfl, rfl, hb, rfl⟩

theorem endFrame_closes (s : State) (p : Port) : ∃ f, s.endFrame p = s.modPort p f ∧ Closes (s.port p) (f (s.port p)) := by
  have hclose : Closes (s.port p) { s.port p with asm := .idle } := ⟨rfl, rfl, rfl, rfl, fun _ => rfl, rfl⟩
  cases ha : (s.port p).asm with
  | idle => exact ⟨fun ps => ps, by rw [endFrame_idle ha, modPort_id], ha, rfl, rfl, rfl, fun _ => rfl, rfl⟩
  | reply v k rest data => exact ⟨fun ps => { ps with asm := .idle }, endFrame_reply ha, hclose⟩
  | trailer v k => exact ⟨fun ps => { ps with asm := .idle }, endFrame_trailer ha, hclose⟩
  | request v received =>
    cases hl : s.linkLive p with
    | true =>
      exact ⟨fun ps => { discarding ((bytesOfBits received).getD 0 0x00) (badMarked ps) with asm := .idle },
        endFrame_request ha hl, discarding_closes _ _⟩
    | false =>
      refine ⟨fun ps => { ps with asm := .idle }, ?_, hclose⟩
      simp only [State.endFrame, ha, hl, Bool.false_eq_true, if_false]
      rfl

/-- The rise of SEL# leaves no frame open. -/
theorem stepKeeps_selRise (s : State) (p : Port) (edges : List Bool) : StepKeeps s (s.selRise p edges) := by
  by_cases h : (s.port p).sel = true ∨ ((s.sckEdges p edges).port p).asm.unfinished = false
  · rw [selRise_none h]
    exact .refl s
  · simp only [not_or, Bool.not_eq_true, Bool.not_eq_false] at h
    have hk := clockKept_sckEdges p edges s
    obtain ⟨k, hc⟩ := onlyClocked_sckEdges p edges s
    rw [selRise_ends h.1 h.2]
    rw [hc, modPort_port_self] at hk
    rw [hc]
    obtain ⟨f, hf, hcl⟩ := endFrame_closes (s.modPort p k.on) p
    rw [modPort_port_self] at hcl
    rw [hf, modPort_modPort, modPort_modPort]
    refine stepKeeps_modPort s p ⟨fun hw => ?_, fun hl => ?_⟩
    · exact (hcl.keeps true true).windows (hk.windows hw)
    · refine lawful_closed ?_ (fun hh => ?_) hcl.asm
      · exact (hcl.rsto.trans hl.pulse).trans (congrArg PortMode.isHeld hcl.mode.symm)
      · have hheld : (s.port p).mode.isHeld = true := (congrArg PortMode.isHeld hcl.mode).symm.trans hh
        exact ⟨hcl.record.trans (hk.record (hl.held hheld).1), (hcl.bad hheld).trans (hl.held hheld).2⟩

theorem stepKeeps_selFalling (h : exec (.selFalling p) s = .next t) : StepKeeps s t := by
  cases h
  split_ifs with hs hl
  · refine stepKeeps_modPort s p ⟨id, fun h => ⟨h.pulse, h.held, fun _ => ⟨hl, rfl⟩, rfl, fun _ => rfl⟩⟩
  · exact stepKeeps_modPort s p ⟨id, fun h => ⟨h.pulse, h.held, fun hne => ⟨(h.frame hne).1, rfl⟩, h.bits, h.staged⟩⟩
  · exact .refl s

theorem stepKeeps_prstRising (h : exec (.prstRising p) s = .next t) : StepKeeps s t := by
  cases h
  refine stepKeeps_modPort s p ⟨id, fun h => ⟨h.pulse, h.held, fun hne => ⟨?_, (h.frame hne).2⟩, h.bits, h.staged⟩⟩
  have hlive := (h.frame hne).1
  simp only [Bool.and_eq_true] at hlive ⊢
  exact ⟨hlive.1, trivial⟩

theorem stepKeeps_departure (hon : s.online p = true) : StepKeeps s (s.departure p .offline) := by
  intro q
  rw [supplied_departure]
  by_cases hq : q = p
  · subst hq
    rw [departure_port_depart]
    refine ⟨fun _ => windows_reset rfl, fun h => ?_⟩
    exact (keeps_depart (rsto := (s.port q).rsto) rfl (fun hh => h.pulse.trans hh) hon).lawful h
  · exact keeps_departure_other s _ hq

/-- The fall of PRST# leaves no frame open; an ONLINE port departs. -/
theorem stepKeeps_prstFalling (h : exec (.prstFalling p) s = .next t) : StepKeeps s t := by
  have hclose : ∀ u : State, StepKeeps u (u.modPort p fun ps => { ps with prst := false, asm := .idle, staging := [] }) :=
    fun u => stepKeeps_modPort u p
      (Closes.keeps (a := u.port p) (b := { u.port p with prst := false, asm := .idle, staging := [] }) ⟨rfl, rfl, rfl, rfl, fun _ => rfl, rfl⟩ _ _)
  cases h
  split_ifs with hp hc
  · simp only [Bool.and_eq_true] at hc
    exact (stepKeeps_departure hc.2).trans (hclose _)
  · exact hclose s
  · exact .refl s

theorem stepKeeps_pulseEnd (h : exec (.pulseEnd p) s = .next t) : StepKeeps s t := by
  cases h
  split
  · refine stepKeeps_modPort s p ⟨id, fun h => ⟨rfl, fun hh => ?_, h.frame, h.bits, fun ho => ?_⟩⟩
    · cases hh
    · cases ho
  all_goals exact .refl s

/-! ### The frames -/

/-- A reply that has just become due, in place of the request. -/
theorem lawful_due {rest : List Byte} {data : Option Transfer} (h : Lawful l a) (ha : a.asm ≠ .idle)
    (hb : b.asm = .reply v 8 rest data) (hr : rest ≠ []) (hd : ∀ x ∈ data, x.inFlight = false) (hsck : b.sck = true)
    (hsel : b.sel = a.sel) (hprst : b.prst = a.prst) (hp : b.rsto = b.mode.isHeld)
    (hh : b.mode.isHeld = true → b.record = none ∧ b.lastFrameBad = false) : Lawful l b := by
  obtain ⟨hbits, hst⟩ := lawfulFrame_sent hb hsck hd (.inl hr)
  exact ⟨hp, hh, fun _ => by rw [hprst, hsel]; exact h.frame ha, hbits, hst⟩

theorem not_idle_of_receives {bytes : List Byte} {req : Request} (h : Receives s p bytes req) : (s.port p).asm ≠ .idle := by
  obtain ⟨-, -, -, v, received, rest, ha, -⟩ := h
  rw [ha]
  simp

theorem replyBytes_ne_nil (st : Status) (body : List Byte) : replyBytes st body ≠ [] := by simp [replyBytes]

/-- The reply to a HELD port's frame. -/
theorem stepKeeps_held {req : Request} (h : Receives s p (frame code params) req) :
    StepKeeps s (s.modPort p fun ps => { discarding code (sampled req ps) with asm := due req .held [] }) := by
  refine stepKeeps_modPort s p ?_
  have hf : ∀ st : List Byte, Keeps (supplied s) (supplied s) (s.port p)
      { sampled req (s.port p) with staging := st, asm := due req .held [] } := fun st =>
    ⟨id, fun hl => lawful_due hl (not_idle_of_receives h) rfl (replyBytes_ne_nil _ _) (fun _ hx => by cases hx) rfl rfl rfl
      hl.pulse hl.held⟩
  unfold discarding
  split
  · exact hf []
  · exact hf _

/-- A frame that is answered: its command's effect, then its reply. -/
theorem stepKeeps_answered {req : Request} {staging : List Byte} {r : State × Reply}
    (h : Receives s p (frame code params) req) (hh : (s.port p).mode.isHeld = false)
    (hr : Acts p (s.modPort p fun ps => verified req (arriving code staging ps)) r.1)
    (hs : ∀ x ∈ r.2.stream, x.inFlight = false) : StepKeeps s (r.1.modPort p (concluded req code r.2)) := by
  have hport : ∀ ps, Windows ps → Windows (verified req (arriving code staging ps)) := by
    intro ps hw
    unfold arriving
    split <;> exact hw
  have hfields : ∀ ps, (verified req (arriving code staging ps)).sel = ps.sel ∧
      (verified req (arriving code staging ps)).prst = ps.prst ∧ (verified req (arriving code staging ps)).rsto = ps.rsto ∧
      (verified req (arriving code staging ps)).mode = ps.mode := by
    intro ps
    unfold arriving
    split <;> exact ⟨rfl, rfl, rfl, rfl⟩
  have hsup : supplied r.1 = supplied s := hr.supply
  intro q
  have hsup' : supplied (r.1.modPort p (concluded req code r.2)) = supplied s := hsup
  rw [hsup', modPort_port]
  split
  · next e =>
    subst e
    obtain ⟨hsel, hsck, hprst, hrsto, hheld, hwin⟩ := hr.own
    rw [modPort_port_self] at hsel hsck hprst hrsto hheld hwin
    obtain ⟨esel, eprst, ersto, emode⟩ := hfields (s.port p)
    rw [emode] at hheld
    refine ⟨fun hw => hwin (hport _ hw), fun hl => ?_⟩
    have hnot : (concluded req code r.2 (r.1.port p)).mode.isHeld = false := hheld hh
    refine lawful_due hl (not_idle_of_receives h) rfl (List.cons_ne_nil _ _) hs (hsck.trans rfl) (hsel.trans esel)
      (hprst.trans eprst) ?_ fun hc => ?_
    · rw [hnot]
      exact (hrsto.trans ersto).trans (hl.pulse.trans hh)
    · rw [hnot] at hc; cases hc
  · next hne =>
    have hk := hr.peers q fun e => hne e.symm
    rw [modPort_port_ne s _ hne] at hk
    exact hk

theorem acts_of_replies {kept : State} {r : State × Reply} (h : Replies p kept s r) (hk : Acts p s kept) :
    Acts p s r.1 ∧ ∀ x ∈ r.2.stream, x.inFlight = false := by
  cases h with
  | refused => exact ⟨hk, fun _ hx => by cases hx⟩
  | acted _ ht hs => exact ⟨ht, hs⟩

theorem acts_discardFrame (p : Port) (code : Byte) (s : State) : Acts p s (s.discardFrame p code) := by
  unfold State.discardFrame
  split
  · exact acts_discardStaged p s
  · exact .refl p s

theorem stepKeeps_request {i : Instr} (hi : i.request = some (p, code, params)) (h : exec i s = .next t) :
    StepKeeps s t := by
  by_cases hk : ∀ q, i = .badCommand q code params → knownCode code = false
  · by_cases hrec : s.receiving p (requestBytes code params) = true
    · obtain ⟨req, hreq⟩ := receives_of_receiving hrec
      cases hh : (s.port p).mode.isHeld with
      | true =>
        rw [exec_held hi hk hreq hh] at h
        cases h
        exact stepKeeps_held hreq
      | false =>
        obtain ⟨ok, act, he, -, hact⟩ := exec_request hi hk
        rw [he, answer_concluded (receives_arrived hreq) (by rw [arrived_mode hreq]; exact hh) rfl] at h
        cases h
        rw [arrived_eq hreq, modPort_modPort]
        have hrep : ∀ u : State, Acts p u (if ok then act u else refuse .badLength u).1 ∧
            ∀ x ∈ (if ok then act u else refuse .badLength u).2.stream, x.inFlight = false := by
          intro u
          split
          · exact acts_of_replies (hact u) (acts_discardFrame p code u)
          · exact ⟨.refl p u, fun _ hx => by cases hx⟩
        exact stepKeeps_answered hreq hh (hrep _).1 (hrep _).2
    · rw [exec_ignored hi hk (by simpa using hrec)] at h
      cases h
      exact .refl s
  · simp only [not_forall, Bool.not_eq_false] at hk
    obtain ⟨q, rfl, hc⟩ := hk
    have : exec (.badCommand q code params) s = .next s := congrArg _ (if_pos hc)
    rw [this] at h
    cases h
    exact .refl s

/-- A frame whose check byte does not verify is answered BAD_CHECK (R174). -/
theorem stepKeeps_badCheck {check : Byte} (h : exec (.badCheck p code params check) s = .next t) : StepKeeps s t := by
  cases h
  split
  · next hc =>
    obtain ⟨req, hreq⟩ := receives_of_receiving hc.1
    rw [receive_eq hreq, markFrameBad_eq, discardFrame_eq, modPort_modPort, modPort_modPort, State.startReply, modPort_modPort]
    refine stepKeeps_modPort s p ?_
    have hf : ∀ st : List Byte, Keeps (supplied s) (supplied s) (s.port p)
        { badMarked (sampled req (s.port p)) with
          staging := st
          asm := .reply (s.lastShown p (requestHead code params ++ [check])) 8
            (Reply.bytes { status := .badCheck, body := [] }) none } := by
      refine fun st => ⟨id, fun hl => lawful_due hl (not_idle_of_receives hreq) rfl (List.cons_ne_nil _ _)
        (fun _ hx => by cases hx) rfl rfl rfl hl.pulse fun hh => ⟨(hl.held hh).1, ?_⟩⟩
      have hm : (s.port p).mode.isHeld = true := hh
      simp only [badMarked, sampled, hm, (hl.held hm).2]
      rfl
    unfold discarding
    split
    · exact hf []
    · exact hf _
  · exact .refl s

/-! ### The other events -/

theorem stepKeeps_resetWith (s : State) (x y : Bool) : StepKeeps s (resetWith s x y) := by
  intro q
  rw [resetWith_port]
  exact ⟨fun _ => windows_reset rfl, fun _ => lawful_closed rfl (fun h => by cases h) rfl⟩

/-- Without power or with RESET# low no frame is open, so that a rise of either keeps the laws. -/
theorem stepKeeps_unsupplied (hs : supplied s = false) (ht : t.ports = s.ports) : StepKeeps s t := by
  intro q
  rw [State.port, State.port, ht, hs]
  refine ⟨id, fun h => ⟨h.pulse, h.held, fun hne => ?_, h.bits, h.staged⟩⟩
  have := (h.frame hne).1
  simp at this

theorem stepKeeps_resetFalling (h : exec .resetFalling s = .next t) : StepKeeps s t := by
  cases h
  split_ifs with hr hw
  · exact stepKeeps_resetWith s s.powered false
  · exact stepKeeps_unsupplied (by simp [supplied, hw]) rfl
  · exact .refl s

theorem stepKeeps_resetRising (h : exec .resetRising s = .next t) : StepKeeps s t := by
  cases h
  split_ifs with hr hw
  · exact .refl s
  · exact stepKeeps_unsupplied (by simp [supplied, hr]) rfl
  · exact stepKeeps_unsupplied (by simp [supplied, hr]) rfl

theorem stepKeeps_powerBelowRange (h : exec .powerBelowRange s = .next t) : StepKeeps s t := by
  cases h
  split_ifs
  · exact stepKeeps_resetWith s false s.resetHigh
  · exact .refl s

theorem stepKeeps_powerUp (h : exec .powerUp s = .next t) : StepKeeps s t := by
  cases h
  split_ifs
  · exact .refl s
  · exact (stepKeeps_resetWith s true false).trans (sameLinks_of_ports fun _ => rfl).stepKeeps

theorem isHeld_tick (m : PortMode) : m.tick.isHeld = m.isHeld := by cases m <;> rfl

theorem isOnline_tick (m : PortMode) : m.tick.isOnline = m.isOnline := by cases m <;> rfl

theorem stepKeeps_tick (h : exec .tick s = .next t) : StepKeeps s t := by
  cases h
  split_ifs
  · intro q
    suffices key : Keeps (supplied s) (supplied s) (s.port q) { s.port q with mode := (s.port q).mode.tick } by
      simp only [State.port, Table.get_map]
      exact key
    refine ⟨id, fun h => ⟨h.pulse.trans (isHeld_tick _).symm, fun hh => h.held ?_, h.frame, h.bits, fun ho => h.staged ?_⟩⟩
    · exact (isHeld_tick _).symm.trans hh
    · exact (isOnline_tick _).symm.trans ho
  · exact .refl s

theorem stepKeeps_deadlineExpiry {n : SlotNo} (h : exec (.deadlineExpiry n) s = .next t) : StepKeeps s t := by
  cases h
  split
  · exact (sameLinks_failCall s n _).stepKeeps
  all_goals exact .refl s

theorem stepKeeps_overrun {n : SlotNo} (h : exec (.overrun n) s = .next t) : StepKeeps s t := by
  cases h
  split
  · exact .refl s
  · split
    · exact (sameLinks_overrun s _ n _).stepKeeps
    · exact .refl s

theorem stepKeeps_scrubCompletion (h : exec .scrubCompletion s = .next t) : StepKeeps s t := by
  cases h
  split
  · exact .refl s
  · split
    · exact (sameLinks_of_ports fun _ => rfl).stepKeeps
    · exact .refl s

/-! ### Every command, and every step -/

/-- The events that are no frame with a check byte that verifies. -/
theorem stepKeeps_event {i : Instr} (hi : i.request = none) (h : exec i s = .next t) : StepKeeps s t := by
  cases i <;> cases hi
  case readDataByte p => exact stepKeeps_readDataByte h
  case badCheck p code params check => exact stepKeeps_badCheck h
  case frameCutShort p edges => cases h; exact stepKeeps_selRise s p edges
  case frameEnd p edges => cases h; exact stepKeeps_selRise s p edges
  case prstFalling p => exact stepKeeps_prstFalling h
  case prstRising p => exact stepKeeps_prstRising h
  case resetFalling => exact stepKeeps_resetFalling h
  case resetRising => exact stepKeeps_resetRising h
  case tick => exact stepKeeps_tick h
  case deadlineExpiry n => exact stepKeeps_deadlineExpiry h
  case overrun n => exact stepKeeps_overrun h
  case pulseEnd p => exact stepKeeps_pulseEnd h
  case scrubCompletion => exact stepKeeps_scrubCompletion h
  case selFalling p => exact stepKeeps_selFalling h
  case powerBelowRange => exact stepKeeps_powerBelowRange h
  case powerUp => exact stepKeeps_powerUp h

theorem exec_stepKeeps (i : Instr) (h : exec i s = .next t) : StepKeeps s t := by
  cases hr : i.request with
  | some r => exact stepKeeps_request hr h
  | none => exact stepKeeps_event hr h

/-- A step keeps what its command keeps; an edge of SCK that completes no frame keeps it too. -/
theorem step_stepKeeps (h : step s = .next t) : StepKeeps s t := by
  cases hp : s.pending with
  | cons c rest =>
    simp only [step, hp] at h
    exact (sameLinks_of_ports (t := { s with pending := rest }) fun _ => rfl).stepKeeps.trans (exec_stepKeeps c h)
  | nil =>
    have hl : StepKeeps s { s with freeCount := s.freeCount + 1 } := (sameLinks_of_ports fun _ => rfl).stepKeeps
    rw [step_empty hp] at h
    simp only [State.idle] at h
    split at h
    · next p hc =>
      refine hl.trans ?_
      cases hd : State.completedBy { s with freeCount := s.freeCount + 1 } p (Config.mosiLevel s.freeCount) with
      | some c =>
        rw [clock_command hd] at h
        exact exec_stepKeeps c h
      | none =>
        rw [clock_edge hd] at h
        cases h
        exact stepKeeps_sckEdge hd
    · cases h
      exact hl

/-- Each change of the memory keeps the form of its data (log 2). -/
theorem stores_wf (h : BlockMemory.Stores s t) (hs : s.mem.wf) : t.mem.wf := by
  cases h with
  | kept h => rw [h.mem]; exact hs
  | written p ws _ hm => rw [hm]; exact Memory.wf_writeAll hs ws
  | scrubbed b hm => rw [hm]; exact Memory.wf_clearBlock hs b
  | reset epoch hm => rw [hm]; exact Memory.wf_reset epoch

/-- Settles O54: the windows port by port, and the memory by what a step does to its bytes. -/
theorem everyStepKeepsCursorLawAndMemoryCanonical : Obligations.EveryStepKeepsCursorLawAndMemoryCanonical := fun _ _ h =>
  ⟨fun hs p => (step_stepKeeps h p).windows (hs p), stores_wf (BlockMemory.step_stores h)⟩

/-- Settles O55: the five laws port by port. -/
theorem everyStepKeepsPortLaws : Obligations.EveryStepKeepsPortLaws := fun s t h1 h2 h3 h4 h5 h =>
  (lawful_iff t).1 fun p => (step_stepKeeps h p).lawful ((lawful_iff s).2 ⟨h1, h2, h3, h4, h5⟩ p)

end Sys2Proof.DataTransfer
end

section
/-! SUPPORT. The cursor unit's commands: Set Cursor, Rewind Cursor, Read Data and Write Data. -/

namespace Sys2Proof.DataTransfer

open Sys2Proof Sys2Proof.Machine Sys2Proof.Safety Sys2Proof.Statement Sys2Proof.Steps

variable {s : State} {p : Port} {k : Fin 2} {req : Request} {data : List Byte}

/-! ### Set Cursor and Rewind Cursor -/

/-- A command whose effect is a change of one cursor of its port. -/
theorem runCommand_modCursor {code : Byte} {params body : List Byte} {act : State → State × Reply} {f : Cursor → Cursor}
    (ht : TakenOnline s p code params req)
    (hact : act (s.modPort p (verified req)) =
      ((s.modPort p (verified req)).modCursor p k f, { status := .ok, body := body }))
    (hl : lengthAllowed code params.length = true := by rfl) (hc : isStatusCode code = false := by rfl) :
    s.runCommand p code params act =
      s.modPort p fun ps =>
        replied req code .ok body { ps with cursors := ps.cursors.set k (f (ps.cursors.get k)) } :=
  runCommand_changes_port ht.1 (not_held_of_online ht.2) hl hc hact fun _ => rfl

/-- A limit sent as 0 means 65536 (R121). -/
theorem limit_sent (w : Word) : (if w.toNat = 0 then 65536 else w.toNat) = if w = 0 then 65536 else w.toNat :=
  if_congr (by rw [BitVec.toNat_eq]; rfl) rfl rfl

/-- Set Cursor on the port whose frame has verified. -/
theorem setCursor_verified (ho : IsOnline s p) (base limit : Word) :
    setCursor p (some k) base limit.toNat (s.modPort p (verified req)) =
      ((s.modPort p (verified req)).modCursor p k fun _ =>
          { base := base, limit := if limit = 0 then 65536 else limit.toNat, pointer := 0 },
        { status := .ok, body := [] }) := by
  simp only [setCursor, whenOnline_verified ho, limit_sent]
  rfl

/-- Rewind Cursor on the port whose frame has verified. -/
theorem rewindCursor_verified (ho : IsOnline s p) :
    rewindCursor p (some k) (s.modPort p (verified req)) =
      ((s.modPort p (verified req)).modCursor p k fun c => { c with pointer := 0 },
        { status := .ok, body := wordOf ((s.port p).cursors.get k).pointer }) := by
  simp only [rewindCursor, whenOnline_verified ho, State.cursor, port_verified, verified_cursors]
  rfl

/-- Settles O44: either command changes one cursor, and Rewind Cursor answers where the pointer stood. -/
theorem setAndRewindCursor : Obligations.SetAndRewindCursor := by
  intro p k bh bl lh ll req s
  constructor
  · intro ht
    have hbase : paramWord [byteOf k.val, bh, bl, lh, ll] 1 = bh ++ bl := rfl
    have hlimit : paramWord [byteOf k.val, bh, bl, lh, ll] 3 = lh ++ ll := rfl
    have hact := setCursor_verified (k := k) (req := req) ht.2 (bh ++ bl) (lh ++ ll)
    have hexec : exec (.setCursor p [byteOf k.val, bh, bl, lh, ll]) s =
        .next (s.runCommand p 0x48 [byteOf k.val, bh, bl, lh, ll]
          (setCursor p (some k) (bh ++ bl) (lh ++ ll : Word).toNat)) := by
      rw [← hbase, ← hlimit, ← cursor_operand k [bh, bl, lh, ll]]
      rfl
    rw [hexec, runCommand_modCursor ht hact]
  · intro ht
    have hact := rewindCursor_verified (k := k) (req := req) ht.2
    rw [← cursor_operand k []] at hact
    exact congrArg Host.Outcome.next ((runCommand_modCursor ht hact).trans (modPort_congr s p rfl))

/-! ### Read Data -/

/-- Read Data on the port whose frame has verified: the check of the first byte. -/
theorem readData_verified {n : Nat} (ho : IsOnline s p) (h1 : 1 ≤ n) (h2 : n ≤ 256) :
    readData p (some k) n (s.modPort p (verified req)) =
      if s.mayRead p (s.cursor p k).address then
        (s.modPort p (verified req),
          { status := .ok
            body := tailBytes 0 false
            stream := some
              { cursor := k, wanted := n, begun := 0, valid := 0, lost := false, inFlight := false
                departed := false, sent := [] } })
      else refuse .access (s.modPort p (verified req)) := by
  have hc : (s.modPort p (verified req)).cursor p k = s.cursor p k := by
    rw [State.cursor, port_verified, verified_cursors, State.cursor]
  simp only [readData, if_neg (show ¬(n < 1 ∨ 256 < n) by omega), whenOnline_verified ho, hc]
  rfl

/-- Settles O45: the first byte is readable, and the stream's reply begins, or it is not. -/
theorem readDataBeginsStreamOrIsRefused : Obligations.ReadDataBeginsStreamOrIsRefused := by
  intro p k nh nl req s ht h1 h2
  have hexec : exec (.readData p [byteOf k.val, nh, nl]) s =
      .next (s.runCommand p 0x4A [byteOf k.val, nh, nl] (readData p (some k) (nh ++ nl : Word).toNat)) := by
    rw [← cursor_operand k [nh, nl]]
    rfl
  have hact := readData_verified (req := req) (s := s) (k := k) ht.2 h1 h2
  rw [hexec]
  constructor
  · intro hr
    rw [if_pos (show s.mayRead p (s.cursor p k).address = true from hr)] at hact
    refine congrArg Host.Outcome.next
      ((answer_concluded ht.1 (not_held_of_online ht.2)
        (ok := true) (act := readData p (some k) (nh ++ nl : Word).toNat) hact).trans ?_)
    rw [modPort_modPort]
    refine modPort_congr s p ?_
    rw [replied, nextRecord_eq]
    rfl
  · intro hr
    rw [if_neg (by rw [show s.mayRead p (s.cursor p k).address = false from hr]; simp)] at hact
    exact congrArg Host.Outcome.next (runCommand_only_replies ht.1 (not_held_of_online ht.2) rfl rfl hact)

/-! ### Write Data -/

/-- A Write Data brings a cursor number and 1 to 248 data bytes (R190). -/
theorem lengthAllowed_writeData (h1 : 1 ≤ data.length) (h2 : data.length ≤ 248) :
    lengthAllowed 0x4B (byteOf k.val :: data).length = true := by
  simp only [lengthAllowed, List.any_eq_true, Bool.and_eq_true, decide_eq_true_eq, List.length_cons]
  exact ⟨⟨0x4B, 2, 249⟩, by decide, ⟨rfl, by simp only; omega⟩, by simp only; omega⟩

/-- The port's records as a Write Data that has verified finds them, its data bytes staged. -/
def staged (data : List Byte) (req : Request) (ps : PortState) : PortState :=
  verified req { ps with staging := data }

/-- The frame of a Write Data of an ONLINE port, from what its effect does on the staged bytes. -/
theorem exec_writeData {s' : State} {st : Status} {body : List Byte}
    (ht : TakenOnline s p 0x4B (byteOf k.val :: data) req) (h1 : 1 ≤ data.length) (h2 : data.length ≤ 248)
    (hact : writeData p (some k) (s.modPort p (staged data req)) = (s', { status := st, body := body }))
    (hf : verified req (s'.port p) = s'.port p) :
    exec (.writeData p (byteOf k.val :: data)) s = .next (s'.modPort p (replied req 0x4B st body)) := by
  have hl := lengthAllowed_writeData (k := k) h1 h2
  have hh := not_held_of_online ht.2
  have he : exec (.writeData p (byteOf k.val :: data)) s =
      .next ((s.stage p (byteOf k.val :: data)).runCommand p 0x4B (byteOf k.val :: data)
        (writeData p (cursor? (param (byteOf k.val :: data) 0)))) := rfl
  rw [he, stage_eq ht.1 hh hl, cursor_operand]
  refine congrArg _ (runCommand_replies (receives_staging ht.1 fun _ => data) (by simpa using hh) hl rfl ?_ hf)
  rw [modPort_modPort]
  exact hact

theorem cursor_staged : (s.modPort p (staged data req)).cursor p k = s.cursor p k := by
  rw [State.cursor, modPort_port_self]
  rfl

/-- A change of a port's records leaves what the ports may write. -/
theorem firstUnwritable_modPort (s : State) (p : Port) (f : PortState → PortState) : ∀ (l : List Word) (n : Nat),
    firstUnwritable (s.modPort p f) p n l = firstUnwritable s p n l
  | [], _ => rfl
  | a :: as, n => by
    have ha : (s.modPort p f).mayWrite p a = s.mayWrite p a := rfl
    rw [firstUnwritable, firstUnwritable, ha, firstUnwritable_modPort s p f as]

theorem online_staged (ho : IsOnline s p) : (s.modPort p (staged data req)).online p = true := by
  rw [online_modPort _ _ _ _ (by rfl)]
  exact online_of_isOnline ho

theorem port_staged : ((s.modPort p (staged data req)).port p).staging = data := by
  rw [modPort_port_self]
  rfl

/-- With every target byte writable the staged bytes are committed. -/
theorem writeData_commits (ho : IsOnline s p)
    (hn : firstUnwritable s p 0 (targets (s.cursor p k) data.length) = none) :
    writeData p (some k) (s.modPort p (staged data req)) =
      reply .ok [] ((s.modPort p (staged data req)).commit p k data) := by
  simp only [writeData, if_pos (online_staged ho), port_staged, cursor_staged, firstUnwritable_modPort, hn]

/-- The first target byte that may not be written refuses them. -/
theorem writeData_refuses {i : Nat} {b : BlockNo} (ho : IsOnline s p)
    (hb : firstUnwritable s p 0 (targets (s.cursor p k) data.length) = some (i, b)) :
    writeData p (some k) (s.modPort p (staged data req)) =
      refuseWith .access [byteOf i, byteOf b.val] ((s.modPort p (staged data req)).discardStaged p) := by
  simp only [writeData, if_pos (online_staged ho), port_staged, cursor_staged, firstUnwritable_modPort, hb]

/-- The port's records after a commit: the staged bytes stay, and the pointer has moved (R134). -/
def committed (k : Fin 2) (data : List Byte) (ps : PortState) : PortState :=
  { ps with cursors := ps.cursors.set k ((ps.cursors.get k).advance data.length), staging := data }

theorem commit_staged (s : State) (p : Port) (k : Fin 2) (data : List Byte) (req : Request) :
    (s.modPort p (staged data req)).commit p k data =
      ({ s with mem := s.mem.writeAll ((targets (s.cursor p k) data.length).zip data) } : State).modPort p fun ps =>
        verified req (committed k data ps) := by
  have h : (s.modPort p (staged data req)).commit p k data =
      (({ s with mem := s.mem.writeAll ((targets ((s.modPort p (staged data req)).cursor p k) data.length).zip data) } :
        State).modPort p (staged data req)).modCursor p k fun c => c.advance data.length := rfl
  rw [h, cursor_staged, State.modCursor, modPort_modPort]
  rfl

/-- Settles O47: the search finds no target that may not be written, and the commit is one change of memory and cursor. -/
theorem writeDataCommitsAllBytes : Obligations.WriteDataCommitsAllBytes := by
  intro p k data req s ht h1 h2 hw
  have hnone : firstUnwritable s p 0 (targets (s.cursor p k) data.length) = none := by
    refine firstUnwritable_none fun a ha => ?_
    rw [targets_eq, List.mem_map] at ha
    obtain ⟨i, hi, rfl⟩ := ha
    exact hw i (List.mem_range.1 hi)
  have hact := writeData_commits (req := req) ht.2 hnone
  rw [commit_staged] at hact
  refine ⟨_, exec_writeData ht h1 h2 hact (by rw [modPort_port_self]; rfl), ?_, fun a ha => ?_, fun i hi hlast => ?_⟩
  · rw [modPort_modPort]
    rfl
  · exact read_commit_other _ _ _ a ha
  · exact read_commit_last _ _ _ i hi hlast

/-- Settles O48: the search finds the first target that may not be written, and nothing is committed. -/
theorem writeDataRefusedWhole : Obligations.WriteDataRefusedWhole := by
  intro p k data i req s ht h2 hi hno hyes
  have hact := writeData_refuses (req := req) ht.2 (firstUnwritable_targets hi hno hyes)
  have hf : verified req (((s.modPort p (staged data req)).discardStaged p).port p) =
      ((s.modPort p (staged data req)).discardStaged p).port p := by
    rw [State.discardStaged, modPort_port_self, modPort_port_self]
    rfl
  rw [exec_writeData ht (by omega) h2 hact hf, State.discardStaged, modPort_modPort, modPort_modPort]
  rfl

end Sys2Proof.DataTransfer
end

section
/-! SUPPORT. The completion of a scrub, by the state of the engine. -/

namespace Sys2Proof.ScrubEngine

open Sys2Proof Sys2Proof.Machine Sys2Proof.Statement

variable {s : State} {b : BlockNo} {rest : List BlockNo}

/-- A completion while the engine is BUSY with the queue's head (R140, R145). -/
theorem exec_scrubCompletion_of_busy (hq : s.scrubQueue = b :: rest) (hb : s.scrubBusy = true) :
    exec .scrubCompletion s =
      .next
        { s with
          mem := s.mem.clearBlock b
          blocks := s.blocks.set b .free
          scrubQueue := rest
          scrubBusy := !rest.isEmpty
          ready := s.ready || rest.isEmpty } := by
  change execScrubCompletion s = _
  simp only [execScrubCompletion, hq, hb, if_true]

/-- With no block in the queue there is nothing to complete. -/
theorem exec_scrubCompletion_of_empty (hq : s.scrubQueue = []) : exec .scrubCompletion s = .next s := by
  change execScrubCompletion s = _
  simp only [execScrubCompletion, hq]

/-- With the engine IDLE there is nothing to complete, whatever the queue holds. -/
theorem exec_scrubCompletion_of_idle (hb : s.scrubBusy = false) : exec .scrubCompletion s = .next s := by
  change execScrubCompletion s = _
  cases hq : s.scrubQueue with
  | nil => simp only [execScrubCompletion, hq]
  | cons b rest => simp only [execScrubCompletion, hq, hb, Bool.false_eq_true, if_false]

/-- A byte after a completion, by its address: the block's 256 bytes read 00h (R140). -/
theorem read_clearBlock_address (m : Memory) (b : BlockNo) (a : Word) :
    (m.clearBlock b).read a = if a.toNat / 256 = b.val then 0x00 else m.read a :=
  (Memory.read_clearBlock m b a).trans (if_congr Fin.ext_iff rfl rfl)

/-- Settles O52: the engine is BUSY with the queue's head, or there is nothing to complete. -/
theorem scrubCompletionFreesTheHeadBlock : Obligations.ScrubCompletionFreesTheHeadBlock := by
  intro s
  constructor
  · intro b rest hq hb
    refine ⟨_, exec_scrubCompletion_of_busy hq hb, ?_, read_clearBlock_address s.mem b⟩
    cases rest <;> rfl
  · rintro (hq | hb)
    · exact exec_scrubCompletion_of_empty hq
    · exact exec_scrubCompletion_of_idle hb

end Sys2Proof.ScrubEngine
end

section
/-! SUPPORT. The events of the port controller (chapter 8): the edges of PRST# and the end of a reset pulse, Attach, Detach and
Reset Peer. -/

namespace Sys2Proof.PortLifecycle

open Sys2Proof Sys2Proof.Machine Sys2Proof.Statement

variable {s : State} {p q : Port} {req : Request} {o : Options}

/-! ### The edges of PRST# -/

/-- What the fall of PRST# leaves of its port's link: the pin is low, and no frame is open (R152, R157). -/
def abandonFrame (ps : PortState) : PortState := { ps with prst := false, asm := .idle, staging := [] }

/-- On a part with power and RESET# high an ONLINE port departs (R159). -/
theorem exec_prstFalling_of_online (hw : s.powered = true) (hr : s.resetHigh = true) (hp : (s.port p).prst = true)
    (ho : IsOnline s p) : exec (.prstFalling p) s = .next ((s.departure p .offline).modPort p abandonFrame) := by
  change execPrstFalling p s = _
  simp only [execPrstFalling, hp, hw, hr, online_of_isOnline ho, Bool.and_self, if_true]
  rfl

/-- A port that is not ONLINE has nothing to depart from (R152). -/
theorem exec_prstFalling_of_not_online (hp : (s.port p).prst = true) (ho : ¬IsOnline s p) :
    exec (.prstFalling p) s = .next (s.modPort p abandonFrame) := by
  change execPrstFalling p s = _
  simp only [execPrstFalling, hp, not_online_of_not ho, Bool.and_false, Bool.false_eq_true, if_true, if_false]
  rfl

/-- A pin that is low does not fall. -/
theorem exec_prstFalling_of_low (hp : (s.port p).prst = false) : exec (.prstFalling p) s = .next s := by
  change execPrstFalling p s = _
  simp only [execPrstFalling, hp, Bool.false_eq_true, if_false]

/-! ### The end of a reset pulse -/

/-- A due pulse ends: the port is OFFLINE and its RSTO# released (R164). -/
theorem exec_pulseEnd_of_due (h : (s.port p).mode = .held 0) :
    exec (.pulseEnd p) s = .next (s.modPort p fun ps => { ps with mode := .offline, rsto := false }) := by
  change execPulseEnd p s = _
  simp only [execPulseEnd, h]

/-- Without a due pulse the event does not occur. -/
theorem exec_pulseEnd_of_not_due (h : (s.port p).mode ≠ .held 0) : exec (.pulseEnd p) s = .next s := by
  change execPulseEnd p s = _
  cases hm : (s.port p).mode with
  | offline | online o => simp only [execPulseEnd, hm]
  | held n =>
    cases n with
    | zero => exact absurd hm h
    | succ n => simp only [execPulseEnd, hm]

/-- Settles O6: the fall of PRST# by the port's state, its rise as the pin alone, and the end of the pulse by what is due. -/
theorem prstEdgesAndPulseEnd : Obligations.PrstEdgesAndPulseEnd := fun _ _ =>
  ⟨exec_prstFalling_of_online, exec_prstFalling_of_not_online, exec_prstFalling_of_low, rfl, exec_pulseEnd_of_due,
    exec_pulseEnd_of_not_due⟩

/-! ### Attach -/

section
variable {quota wake consent : Byte}

/-- The options that Attach's three parameters describe. -/
def requestedOptions (quota wake consent : Byte) : Options :=
  { quota := quota.toNat
    wake := decide (wake.toNat = 1)
    consent := ([0, 1, 2, 3] : List Port).filter fun r => consent.getLsbD r.val }

/-- With parameters in range, what is left of Attach is the check that its port is not ONLINE (R153, R154). -/
theorem attach_inRange (h1 : 1 ≤ quota.toNat) (h2 : quota.toNat ≤ 16) (hw : wake.toNat ≤ 1) (h3 : consent.toNat < 16)
    (h4 : consent.getLsbD p.val = false) (u : State) :
    attach p [quota, wake, consent] u =
      if u.online p then refuse .alreadyOnline u
      else reply .ok [] (u.modPort p fun ps => { ps with mode := .online (requestedOptions quota wake consent) }) := by
  have hwake : yesNo? (param [quota, wake, consent] 1) = some (decide (wake.toNat = 1)) := ServiceDirectory.yesNo_of_le hw
  have hconsent : consentInRange p consent = true := by rw [consentInRange, h4, decide_eq_true h3]; rfl
  have hrange : ¬(quota.toNat < 1 ∨ 16 < quota.toNat ∨ consentInRange p consent = false) := by
    simp only [hconsent, Bool.true_eq_false, or_false]
    omega
  simp only [attach, hwake]
  exact if_neg hrange

/-- A form that R153 refuses, in the statements' words. -/
theorem attach_formRefusal
    (h : quota.toNat < 1 ∨ 16 < quota.toNat ∨ 1 < wake.toNat ∨ 16 ≤ consent.toNat ∨ consent.getLsbD p.val = true) :
    formRefusal (.attach p [quota, wake, consent]) = some .badParam := by
  refine if_neg fun (hgood : 1 ≤ quota.toNat ∧ quota.toNat ≤ 16 ∧ wake.toNat ≤ 1 ∧ consent.toNat < 16 ∧
    consent.getLsbD p.val = false) => ?_
  obtain ⟨h1, h2, h3, h4, h5⟩ := hgood
  simp only [h5, Bool.false_eq_true, or_false] at h
  omega

/-- Settles O17: the form is refused, or what is left is the check of the port's state. -/
theorem attachMakesOfflinePortOnline : Obligations.AttachMakesOfflinePortOnline := by
  intro p quota wake consent req s ht
  have hh := not_held_of_taken ht.2
  refine ⟨fun hbad => ?_, fun h1 h2 hw h3 h4 => ?_⟩
  · exact congrArg _
      (CallTable.runCommand_refused ht rfl rfl (CallTable.attach_badForm p _ (attach_formRefusal hbad) _))
  · have hact := attach_inRange h1 h2 hw h3 h4 (s.modPort p (verified req))
    rw [online_verified] at hact
    refine ⟨fun ho => ?_, fun ho => ?_⟩
    · rw [if_pos (online_of_isOnline ho)] at hact
      exact congrArg _ (CallTable.runCommand_refused ht rfl rfl hact)
    · rw [not_online_of_offline ho, if_neg Bool.false_ne_true] at hact
      exact congrArg _ (runCommand_changes_port ht.1 hh rfl rfl hact fun _ => rfl)

end

/-! ### Detach -/

/-- The first reply after a departure has number 1, since the departure has emptied the record (R181, R187). -/
theorem nextRecord_departure (u : State) (p : Port) (m : PortMode) (code : Byte) (st : Status) (body : List Byte) :
    nextRecord ((u.departure p m).port p).record code st body =
      { number := 1, code := code, status := st, body := body } := by
  rw [departure_port]
  rfl

/-- Settles O18: the effect is the departure of the port whose frame has verified, and the reply is the first one after it. -/
theorem detachDepartsAndRecordsItsReply : Obligations.DetachDepartsAndRecordsItsReply := by
  intro p req s ⟨hr, ho⟩
  refine congrArg Host.Outcome.next ((runCommand_records hr (not_held_of_online ho) rfl rfl (act := detach p)
    (whenOnline_verified ho fun u => reply .ok [] (u.departure p .offline))).trans (modPort_congr _ _ ?_))
  rw [nextRecord_departure]

/-! ### Reset Peer -/

/-- Reset Peer on the port whose frame has verified: the checks of R161 that its range and its own port have passed. -/
theorem resetPeer_verified (ho : IsOnline s p) :
    resetPeer p (some q) (s.modPort p (verified req)) =
      if q = p then refuse .badParam (s.modPort p (verified req))
      else if s.online q = false then
        refuseWith .notOnline [portModeByte (s.port q).mode] (s.modPort p (verified req))
      else if (s.port q).mode.consent.contains p = false then refuse .notPermitted (s.modPort p (verified req))
      else reply .ok [] ((s.modPort p (verified req)).resetTarget q) := by
  have hmode : ((s.modPort p (verified req)).port q).mode = (s.port q).mode := by
    rw [modPort_port]
    split <;> rfl
  simp only [resetPeer, whenOnline_verified ho, online_verified, hmode]

/-- The frame of a Reset Peer that is refused. -/
theorem exec_resetPeer_refused {st : Status} {body : List Byte} (ht : TakenOnline s p 0x0A [byteOf q.val] req)
    (hact : resetPeer p (some q) (s.modPort p (verified req)) = refuseWith st body (s.modPort p (verified req))) :
    exec (.resetPeer p [byteOf q.val]) s = .next (s.modPort p (replied req 0x0A st body)) := by
  rw [← port_operand q []] at hact
  exact congrArg _ (runCommand_only_replies ht.1 (not_held_of_online ht.2) rfl rfl hact)

/-- A target that is not ONLINE refuses with its state (R161). -/
theorem resetPeer_notOnline (ho : IsOnline s p) (hq : q ≠ p) (hon : s.online q = false) :
    resetPeer p (some q) (s.modPort p (verified req)) =
      refuseWith .notOnline [portModeByte (s.port q).mode] (s.modPort p (verified req)) := by
  rw [resetPeer_verified ho, if_neg hq, if_pos hon]

/-- An ONLINE target's consent set decides (R161, R162). -/
theorem resetPeer_online (ho : IsOnline s p) (hq : q ≠ p) (hm : (s.port q).mode = .online o) :
    resetPeer p (some q) (s.modPort p (verified req)) =
      if p ∈ o.consent then reply .ok [] ((s.modPort p (verified req)).resetTarget q)
      else refuse .notPermitted (s.modPort p (verified req)) := by
  have hon : ¬s.online q = false := by rw [online_of_isOnline ⟨o, hm⟩]; exact Bool.noConfusion
  rw [resetPeer_verified ho, if_neg hq, if_neg hon, hm]
  by_cases hc : p ∈ o.consent <;> simp [PortMode.consent, hc]

/-- The reset of a peer leaves the link of the port that asked for it as the verified check byte left it. -/
theorem verified_resetTarget (hq : q ≠ p) :
    verified req (((s.modPort p (verified req)).resetTarget q).port p) =
      ((s.modPort p (verified req)).resetTarget q).port p := by
  obtain ⟨l, h⟩ := Steps.departure_port_other (s.modPort p (verified req)) (.held Config.pulseTicks) (Ne.symm hq)
  rw [State.resetTarget, modPort_port_ne _ _ hq, h, port_verified]
  rfl

/-- Settles O19: one refusal per check of R161, the checks before it passed, and the reset of the target. -/
theorem resetPeerResetsConsentingTarget : Obligations.ResetPeerResetsConsentingTarget := by
  intro p q req s ht
  have ho := ht.2
  refine ⟨fun hq => ?_, fun hq hm => ?_, fun n hq hm => ?_, fun o hq hm hc => ?_, fun o hq hm hc => ?_⟩
  · exact exec_resetPeer_refused ht ((resetPeer_verified ho).trans (if_pos hq))
  · have hact := resetPeer_notOnline (req := req) ho hq (not_online_of_offline hm)
    rw [hm] at hact
    exact exec_resetPeer_refused ht hact
  · have hact := resetPeer_notOnline (req := req) ho hq (by rw [State.online, hm]; rfl)
    rw [hm] at hact
    exact exec_resetPeer_refused ht hact
  · exact exec_resetPeer_refused ht ((resetPeer_online ho hq hm).trans (if_neg hc))
  · have hact := (resetPeer_online (req := req) ho hq hm).trans (if_pos hc)
    rw [← port_operand q []] at hact
    exact congrArg _ (runCommand_replies ht.1 (not_held_of_online ho) rfl rfl hact (verified_resetTarget hq))

end Sys2Proof.PortLifecycle
end

section
/-! SUPPORT. The state right after reset and the laws of the part: no slot is allocated, every port is OFFLINE with nothing of its
own, the directory is empty, and every block waits for its scrub. -/

namespace Sys2Proof.ResetLaws

open Sys2Proof Sys2Proof.Machine Sys2Proof.Safety Sys2Proof.Statement Sys2Proof.Steps Sys2Proof.CallTable

theorem reset_no_call (n : SlotNo) (c : Call) : State.reset.slot n ≠ some c := by
  rw [reset_slot]
  exact nofun

theorem reset_stack (p : Port) : (State.reset.port p).stack = [] := by rw [reset_port]; rfl

theorem reset_notices (p : Port) : (State.reset.port p).notices = [] := by rw [reset_port]; rfl

/-! ### The laws of one port -/

theorem reset_stackLaw : StackLaw State.reset := (stackLaw_iff _).2 fun p => by
  rw [reset_port]
  exact lawfulStack_nil

theorem reset_cursorLaw : CursorLaw State.reset := fun p => by
  have h : DataTransfer.Windows (State.reset.port p) := DataTransfer.windows_reset (by rw [reset_port]; rfl)
  exact h

/-- No frame is open and no port is HELD, so the laws of the links hold. -/
theorem reset_linkLaws : PulseLaw State.reset ∧ HeldLaw State.reset ∧ FrameLaw State.reset ∧ LinkLaw State.reset ∧
    StagingLaw State.reset := (DataTransfer.lawful_iff _).1 fun p => by
  rw [reset_port]
  exact DataTransfer.lawful_closed rfl (fun h => Bool.noConfusion h) rfl

theorem reset_peerNoticeLaw : PeerNoticeLaw State.reset := (Notices.peerNoticeLaw_iff _).2 fun p => by
  rw [Notices.peersTold, reset_notices]
  exact ⟨List.nodup_nil, List.not_mem_nil⟩

theorem reset_noticeLaw : NoticeLaw State.reset :=
  (Notices.noticeLaw_iff _).2 fun p => Notices.lawfulQueue_nil (reset_notices p)

theorem reset_fieldLaw : FieldLaw State.reset := by
  refine (fieldLaw_iff _).2 ⟨⟨fun n c h => absurd h (reset_no_call n c), nofun, fun p => ?_, fun p => ?_⟩, fun p => ?_⟩
  · rw [reset_port]
    exact modeInRange_notOnline rfl (Nat.zero_le _)
  · rw [reset_stack]
    exact ⟨Nat.zero_le _, nofun⟩
  · rw [reset_port]
    exact linkInRange_empty rfl rfl

/-! ### The laws of blocks and memory -/

/-- The scrub queue names every block, and the engine is BUSY on its head (R139, R144). -/
theorem reset_scrubLaw : ScrubLaw State.reset := by
  refine ⟨initialScrubQueue_nodup, fun b => ⟨fun _ => reset_block b, fun _ => mem_initialScrubQueue b⟩, ?_⟩
  have hq : initialScrubQueue.isEmpty = false :=
    List.isEmpty_eq_false_iff.2 (List.ne_nil_of_mem (mem_initialScrubQueue 0))
  change true = (true && true && !initialScrubQueue.isEmpty)
  rw [hq]
  rfl

/-- No block is FREE yet. -/
theorem reset_cleanLaw : CleanLaw State.reset := fun a h => by
  rw [reset_block] at h
  cases h

/-! ### The laws of the whole part -/

theorem reset_directoryLaw : DirectoryLaw State.reset := ⟨Nat.zero_le _, List.nodup_nil, nofun⟩

theorem reset_quotaLaw : QuotaLaw State.reset := fun p => by
  have h : State.reset.allocatedCount p = 0 := allocatedCount_zero fun n c hc => absurd hc (reset_no_call n c)
  exact h.le.trans (Nat.zero_le _)

theorem reset_callLaw : CallLaw State.reset :=
  ⟨fun n c h => absurd h (reset_no_call n c), fun n _ c _ h => absurd h (reset_no_call n c)⟩

theorem reset_serviceLaw : ServiceLaw State.reset := by
  refine ⟨fun p e he => ?_, fun n c h => absurd h (reset_no_call n c), fun p => ?_⟩
  · rw [reset_stack] at he
    cases he
  · rw [reset_stack]
    exact List.nodup_nil

theorem reset_leaseLaw : LeaseLaw State.reset := by
  refine (leaseLaw_iff _).2 ⟨fun n c _ _ h => absurd h (reset_no_call n c), fun b n h => ?_⟩
  rw [reset_block] at h
  cases h

theorem reset_departedLaw : DepartedLaw State.reset := fun p _ =>
  ⟨reset_stack p, reset_notices p, fun b => by rw [reset_block]; exact ⟨nofun, nofun⟩⟩

theorem reset_partLaw : PartLaw State.reset :=
  ⟨reset_stackLaw, reset_directoryLaw, reset_quotaLaw, reset_callLaw, reset_serviceLaw, reset_leaseLaw, nofun,
    reset_departedLaw, reset_scrubLaw⟩

/-- Settles O60: one law after another. -/
theorem resetStateMeetsEveryLaw : Obligations.ResetStateMeetsEveryLaw := by
  obtain ⟨hpulse, hheld, hframe, hlink, hstaging⟩ := reset_linkLaws
  exact ⟨reset_stackLaw, reset_cursorLaw, hpulse, hheld, hframe, hlink, hstaging, reset_scrubLaw, reset_cleanLaw,
    reset_directoryLaw, reset_quotaLaw, Memory.wf_reset 0, reset_peerNoticeLaw, reset_partLaw, reset_fieldLaw,
    reset_noticeLaw⟩

end Sys2Proof.ResetLaws
end

section
/-! SUPPORT. The bytes of the frames and of their fields: which command a frame stands for, the check byte of R172, the
request table of R190, and the field encodings of R189. -/

namespace Sys2Proof.LinkFrames

open Sys2Proof Sys2Proof.Machine Sys2Proof.Statement

/-! ### The check byte (R172) -/

/-- A byte that equals the register empties it. -/
theorem crcByte_self (r : Byte) : crcByte r r = 0x00 := by
  rw [crcByte, BitVec.xor_self]
  decide

/-- Bytes followed by their own check value have the check value 00h. -/
theorem crc8_append_crc8 (bytes : List Byte) : crc8 (bytes ++ [crc8 bytes]) = 0x00 := by
  have h : crc8 (bytes ++ [crc8 bytes]) = crcByte (crc8 bytes) (crc8 bytes) := by
    rw [crc8, List.foldl_concat, ← crc8]
  rw [h, crcByte_self]

/-! ### Whole frames and the beginnings of frames (R171, R173, R174) -/

/-- The bytes up to the parameters, with some check byte, are a whole frame; the check byte decides what it stands for. -/
theorem frameCommand_head (p : Port) (code check : Byte) {params : List Byte} (h : params.length ≤ 255) :
    frameCommand p (requestHead code params ++ [check]) =
      if check = crc8 (requestHead code params) then
        some ((requestCommand p code params).getD (.badCommand p code params))
      else some (.badCheck p code params check) := by
  have hl : (BitVec.ofNat 8 params.length).toNat = params.length := by
    rw [BitVec.toNat_ofNat]; omega
  have hwhole : (params ++ [check]).length = params.length + 1 := by simp
  have hparams : (params ++ [check]).take params.length = params := List.take_left
  have hcheck : (params ++ [check]).getD params.length 0 = check := by simp
  rw [requestHead, List.cons_append, List.cons_append, frameCommand, hl, if_pos hwhole, hparams, hcheck]

/-- Bytes stand for a command exactly when they are three more than their length byte says. -/
theorem frameCommand_ne_none_iff (p : Port) : ∀ bytes : List Byte,
    frameCommand p bytes ≠ none ↔ 2 ≤ bytes.length ∧ bytes.length = (bytes.getD 1 0x00).toNat + 3
  | [] => by simp [frameCommand]
  | [_] => by simp [frameCommand]
  | code :: len :: rest => by
    have hlen : (code :: len :: rest).length = len.toNat + 3 ↔ rest.length = len.toNat + 1 := by
      simp only [List.length_cons]; omega
    rw [List.getD_cons_succ, List.getD_cons_zero, hlen]
    by_cases h : rest.length = len.toNat + 1
    · simp only [frameCommand, if_pos h]
      split <;> simp [h]
    · simp [frameCommand, h]

/-- Bytes are the beginning of a frame exactly when they are fewer than their length byte says. -/
theorem partialFrame_iff : ∀ bytes : List Byte,
    partialFrame bytes = true ↔ bytes.length < 2 ∨ bytes.length < (bytes.getD 1 0x00).toNat + 3
  | [] => by simp [partialFrame]
  | [_] => by simp [partialFrame]
  | code :: len :: rest => by
    rw [partialFrame, decide_eq_true_iff, List.getD_cons_succ, List.getD_cons_zero]
    simp only [List.length_cons]
    omega

/-- Every command's frame stands for it, one lemma per row of the operation table. -/
theorem frame_stands : ∀ i : Instr, Laws.Frame.Statement i
  | .poll p l => Laws.Frame.poll p l
  | .portStatus p l => Laws.Frame.portStatus p l
  | .partStatus p l => Laws.Frame.partStatus p l
  | .lastReply p l => Laws.Frame.lastReply p l
  | .attach p l => Laws.Frame.attach p l
  | .detach p l => Laws.Frame.detach p l
  | .resetPeer p l => Laws.Frame.resetPeer p l
  | .registerService p l => Laws.Frame.registerService p l
  | .withdrawService p l => Laws.Frame.withdrawService p l
  | .queryService p l => Laws.Frame.queryService p l
  | .postCall p l => Laws.Frame.postCall p l
  | .cancelCall p l => Laws.Frame.cancelCall p l
  | .collectAnswer p l => Laws.Frame.collectAnswer p l
  | .callStatus p l => Laws.Frame.callStatus p l
  | .takeCall p l => Laws.Frame.takeCall p l
  | .answerCall p l => Laws.Frame.answerCall p l
  | .openNesting p l => Laws.Frame.openNesting p l
  | .closeNesting p l => Laws.Frame.closeNesting p l
  | .stackStatus p l => Laws.Frame.stackStatus p l
  | .readNotices p l => Laws.Frame.readNotices p l
  | .claimBlocks p l => Laws.Frame.claimBlocks p l
  | .releaseBlocks p l => Laws.Frame.releaseBlocks p l
  | .blockStatus p l => Laws.Frame.blockStatus p l
  | .setCursor p l => Laws.Frame.setCursor p l
  | .rewindCursor p l => Laws.Frame.rewindCursor p l
  | .readData p l => Laws.Frame.readData p l
  | .readDataByte p => Laws.Frame.readDataByte p
  | .writeData p l => Laws.Frame.writeData p l
  | .badCommand p code l => Laws.Frame.badCommand p code l
  | .badCheck p code l check => Laws.Frame.badCheck p code l check
  | .frameCutShort p edges => Laws.Frame.frameCutShort p edges
  | .frameEnd p edges => Laws.Frame.frameEnd p edges
  | .prstFalling p => Laws.Frame.prstFalling p
  | .prstRising p => Laws.Frame.prstRising p
  | .resetFalling => Laws.Frame.resetFalling
  | .resetRising => Laws.Frame.resetRising
  | .tick => Laws.Frame.tick
  | .deadlineExpiry n => Laws.Frame.deadlineExpiry n
  | .overrun n => Laws.Frame.overrun n
  | .pulseEnd p => Laws.Frame.pulseEnd p
  | .scrubCompletion => Laws.Frame.scrubCompletion
  | .selFalling p => Laws.Frame.selFalling p
  | .powerBelowRange => Laws.Frame.powerBelowRange
  | .powerUp => Laws.Frame.powerUp

/-- The frame of a command in the statements' words, and the command read back from it. -/
theorem frameBytes_frameCommand {i : Instr} {p : Port} {code : Byte} {params : List Byte} (hw : i.wf = true)
    (hi : i.request = some (p, code, params)) :
    frameBytes i = some (frame code params) ∧ frameCommand p (frame code params) = some i := by
  have hb : frameBytes i = some (frame code params) := by rw [frameBytes, hi, Option.map_some, frame_eq]
  exact ⟨hb, frame_stands i hw (p, code, params) _ hi hb⟩

/-! ### The request table (R190) -/

/-- The model's rows are the codes and lengths of the request table. -/
theorem requestForms_eq : requestForms = requestTable.map fun row => ⟨row.2.1, row.2.2.1, row.2.2.2⟩ := rfl

theorem knownCode_iff (code : Byte) : knownCode code = true ↔ ∃ row ∈ requestTable, row.2.1 = code := by
  rw [knownCode, requestForms_eq, List.any_map, List.any_eq_true]
  simp only [Function.comp_apply, beq_iff_eq]

theorem lengthAllowed_iff (code : Byte) (len : Nat) :
    lengthAllowed code len = true ↔ ∃ row ∈ requestTable, row.2.1 = code ∧ row.2.2.1 ≤ len ∧ len ≤ row.2.2.2 := by
  rw [lengthAllowed, requestForms_eq, List.any_map, List.any_eq_true]
  simp only [Function.comp_apply, Bool.and_eq_true, beq_iff_eq, decide_eq_true_eq, and_assoc]

/-- The command of a row is a request with the row's code. -/
theorem request_of_row : ∀ row ∈ requestTable, ∀ (p : Port) (params : List Byte),
    (row.1 p params).request = some (p, row.2.1, params) := by
  simp [requestTable, Instr.request]

/-- The four status commands have the codes 1 to 4. -/
theorem isStatusCode_iff (code : Byte) : isStatusCode code = true ↔ 1 ≤ code.toNat ∧ code.toNat ≤ 4 := by
  simp only [isStatusCode, Bool.or_eq_true, beq_iff_eq, ← BitVec.toNat_inj, BitVec.reduceToNat]
  omega

/-! ### The fields (R189) -/

theorem byteOf_toNat_of_le {n : Nat} (h : n ≤ 255) : (byteOf n).toNat = n := by
  rw [byteOf, BitVec.toNat_ofNat]
  omega

theorem wordOf_eq {n : Nat} (h : n ≤ 65535) : wordOf n = [byteOf (n / 256), byteOf (n % 256)] := by
  have hdiv : n % 65536 / 256 % 256 = n / 256 % 256 := by omega
  have hhigh : (BitVec.ofNat 16 n).extractLsb' 8 8 = byteOf (n / 256) :=
    BitVec.eq_of_toNat_eq (by simpa [byteOf, Nat.shiftRight_eq_div_pow] using hdiv)
  have hlow : (BitVec.ofNat 16 n).extractLsb' 0 8 = byteOf (n % 256) :=
    BitVec.eq_of_toNat_eq (by simp [byteOf])
  rw [wordOf, wordBytes, hhigh, hlow]

/-- A word is its high byte and its low byte. -/
theorem high_append_low (w : Word) : high w ++ low w = w := by
  have h : high w ++ low w = w.extractLsb' 0 16 :=
    BitVec.extractLsb'_append_extractLsb'_eq_extractLsb' (x := w) rfl
  rw [h, BitVec.extractLsb'_eq_self]

theorem bytesOfWords_cons (w : Word) (ws : List Word) : bytesOfWords (w :: ws) = high w :: low w :: bytesOfWords ws := rfl

/-- Words are read back from their bytes. -/
theorem wordsOf_bytesOfWords : ∀ ws : List Word, wordsOf (bytesOfWords ws) = ws
  | [] => rfl
  | w :: ws => by rw [bytesOfWords_cons, wordsOf, high_append_low, wordsOf_bytesOfWords ws]

/-- Four flags, weighted from 1 up, are the bits of a byte from bit 0 up, with bits 4 to 7 clear. -/
theorem weighted_flags : ∀ a b c d : Bool,
    let byte := BitVec.ofNat 8 (bitIf a 1 + bitIf b 2 + bitIf c 4 + bitIf d 8)
    byte.getLsbD 0 = a ∧ byte.getLsbD 1 = b ∧ byte.getLsbD 2 = c ∧ byte.getLsbD 3 = d ∧ byte.toNat < 16 := by
  decide

theorem portSetByte_bits (ps : List Port) :
    (portSetByte ps).getLsbD 0 = ps.contains 0 ∧ (portSetByte ps).getLsbD 1 = ps.contains 1 ∧
    (portSetByte ps).getLsbD 2 = ps.contains 2 ∧ (portSetByte ps).getLsbD 3 = ps.contains 3 ∧ (portSetByte ps).toNat < 16 :=
  weighted_flags (ps.contains 0) (ps.contains 1) (ps.contains 2) (ps.contains 3)

/-- Bit `q` of a port set's byte says whether port `q` is in the set. -/
theorem portSetByte_getLsbD (ps : List Port) (q : Port) : (portSetByte ps).getLsbD q.val = true ↔ q ∈ ps := by
  obtain ⟨h0, h1, h2, h3, -⟩ := portSetByte_bits ps
  rw [← List.contains_iff_mem]
  match q with
  | 0 => exact Bool.eq_iff_iff.1 h0
  | 1 => exact Bool.eq_iff_iff.1 h1
  | 2 => exact Bool.eq_iff_iff.1 h2
  | 3 => exact Bool.eq_iff_iff.1 h3

theorem paramByte_of_getElem? {params : List Byte} {k : Nat} {b : Byte} (h : params[k]? = some b) : paramByte params k = b := by
  rw [paramByte, List.getD_eq_getElem?_getD, h, Option.getD_some]

/-- Settles O13: one lemma per format. -/
theorem framesAndFieldsFollowTheFormats : Obligations.FramesAndFieldsFollowTheFormats := by
  refine ⟨fun i p code params hw hi => frameBytes_frameCommand hw hi, fun bytes short => bytesOfBits_bitsOf_append bytes,
    frameCommand_ne_none_iff, partialFrame_iff, fun p code params check hl hc => ?_, crc8_append_crc8,
    by decide, by decide, request_of_row, knownCode_iff, lengthAllowed_iff,
    isStatusCode_iff, fun n => byteOf_toNat_of_le, fun n => wordOf_eq, fun w => ⟨rfl, high_append_low w⟩,
    fun w ws => ⟨rfl, bytesOfWords_cons w ws⟩, wordsOf_bytesOfWords, rfl, rfl, portSetByte_getLsbD,
    fun ps => ?_, fun params k => ⟨fun b hb => ?_, fun b c hb hc => ?_⟩⟩
  · exact (frameCommand_head p code check hl).trans (if_neg hc)
  · obtain ⟨-, -, -, -, h⟩ := portSetByte_bits ps
    exact h
  · rw [param, paramByte_of_getElem? hb]
    exact ⟨rfl, rfl⟩
  · rw [paramWord, paramByte_of_getElem? hb, paramByte_of_getElem? hc]

end Sys2Proof.LinkFrames
end

section
/-! SUPPORT. The events of a link: the fall of SEL#, an empty queue's edge of SCK, and the frames that are no command of R190. -/

namespace Sys2Proof.LinkFrames

open Sys2Proof Sys2Proof.Machine Sys2Proof.Statement

variable {s : State} {p : Port} {code check : Byte} {params : List Byte} {req : Request}

/-! ### The fall of SEL# -/

/-- On a live link a frame opens (R170). -/
theorem exec_selFalling_of_live (hs : (s.port p).sel = true) (hl : s.linkLive p = true) :
    exec (.selFalling p) s =
      .next (s.modPort p fun ps => { ps with sel := false, sck := false, asm := .request (s.summary p) [] }) :=
  congrArg Host.Outcome.next ((if_pos hs).trans (if_pos hl))

/-- Else the pin falls and no more (R152, R166, R194). -/
theorem exec_selFalling_of_dead (hs : (s.port p).sel = true) (hl : s.linkLive p = false) :
    exec (.selFalling p) s = .next (s.modPort p fun ps => { ps with sel := false }) :=
  congrArg Host.Outcome.next ((if_pos hs).trans (if_neg (Bool.not_eq_true _ ▸ hl)))

/-- A pin that is low does not fall. -/
theorem exec_selFalling_of_low (hs : (s.port p).sel = false) : exec (.selFalling p) s = .next s :=
  congrArg Host.Outcome.next (if_neg (Bool.not_eq_true _ ▸ hs))

theorem linkLive_eq_false_iff :
    s.linkLive p = false ↔ s.powered = false ∨ s.resetHigh = false ∨ (s.port p).prst = false := by
  simp only [State.linkLive, Bool.and_eq_false_iff, or_assoc]

/-- Settles O7: by SEL# and by whether the link is live. -/
theorem selFallingOpensFrame : Obligations.SelFallingOpensFrame := fun _ _ =>
  ⟨fun hs hw hr hp => exec_selFalling_of_live hs (ServiceStacks.linkLive_iff.2 ⟨hw, hr, hp⟩),
    fun hs hlow => exec_selFalling_of_dead hs (linkLive_eq_false_iff.2 hlow), exec_selFalling_of_low⟩

/-! ### An edge of SCK on an empty queue -/

theorem idle_none (h : Config.clockedPort s.freeCount = none) : s.idle = .next { s with freeCount := s.freeCount + 1 } := by
  rw [State.idle, h]

theorem idle_some (h : Config.clockedPort s.freeCount = some p) :
    s.idle = { s with freeCount := s.freeCount + 1 }.clock p (Config.mosiLevel s.freeCount) := by
  rw [State.idle, h]

/-- A falling edge completes no frame, nor does one with which the bits received are no whole frame. -/
theorem completedBy_eq_none {level : Bool}
    (h : (s.port p).sck = true ∨ ∀ shown received, (s.port p).asm = .request shown received →
      frameCommand p (bytesOfBits (received ++ [level])) = none) : s.completedBy p level = none := by
  refine Option.eq_none_iff_forall_ne_some.2 fun c hc => ?_
  obtain ⟨shown, received, ha, hk, hf⟩ := completedBy_eq_some.1 hc
  rcases h with h | h
  · rw [hk] at h; cases h
  · rw [h shown received ha] at hf; cases hf

/-- Settles O2: the free value names no port, or an edge of that port's SCK completes a frame, or it is the edge alone. -/
theorem emptyQueueClocksAtMostOneLink : Obligations.EmptyQueueClocksAtMostOneLink := by
  intro s t hq ht
  subst ht
  rw [step_empty hq]
  refine ⟨idle_none, fun p level hp hlevel => ?_⟩
  subst hlevel
  rw [idle_some hp]
  exact ⟨fun shown received c ha hk hf => clock_command (completedBy_eq_some.2 ⟨shown, received, ha, hk, hf⟩),
    fun h => clock_edge (completedBy_eq_none h)⟩

/-! ### Frames that are no command of R190 -/

/-- The frame is answered BAD_CHECK, and what it staged is discarded (R174, R180). -/
theorem exec_badCheck_of_receives (hc : check ≠ crc8 (requestHead code params))
    (h : Receives s p (requestHead code params ++ [check]) req) :
    exec (.badCheck p code params check) s =
      .next (s.modPort p fun ps =>
        { discarding code (sampled req ps) with
          asm := due req .badCheck [], lastFrameBad := !ps.mode.isHeld || ps.lastFrameBad }) := by
  refine congrArg Host.Outcome.next ((if_pos ⟨receiving_of_receives h, hc⟩).trans ?_)
  rw [receive_eq h, lastShown_eq h, DataTransfer.markFrameBad_eq, DataTransfer.discardFrame_eq, State.startReply,
    modPort_modPort, modPort_modPort, modPort_modPort]
  refine modPort_congr s p ?_
  rw [due_eq]
  unfold discarding DataTransfer.badMarked
  split <;> rfl

/-- A frame that the link is not receiving is not examined. -/
theorem exec_badCheck_of_not_receiving (h : s.receiving p (requestHead code params ++ [check]) = false) :
    exec (.badCheck p code params check) s = .next s :=
  congrArg Host.Outcome.next (if_neg fun hr => Bool.false_ne_true (h.symm.trans hr.1))

/-- The four status commands are commands of R190. -/
theorem not_isStatusCode_of_unknown (h : knownCode code = false) : isStatusCode code = false := by
  refine Bool.eq_false_iff.2 fun hs => ?_
  simp only [isStatusCode, Bool.or_eq_true, beq_iff_eq] at hs
  obtain ((rfl | rfl) | rfl) | rfl := hs <;> exact absurd h (by decide)

/-- An unknown code is answered BAD_COMMAND, whatever the frame's length, and recorded (R173, R181). -/
theorem exec_badCommand_of_taken (hu : knownCode code = false) (ht : Taken s p code params req) :
    exec (.badCommand p code params) s = .next (s.modPort p (replied req code .badCommand [])) := by
  refine congrArg Host.Outcome.next ((if_neg (Bool.not_eq_true _ ▸ hu)).trans ?_)
  rw [DataTransfer.answer_concluded ht.1 (not_held_of_taken ht.2) rfl, if_pos rfl, refuse_fst, refuse_snd, modPort_modPort]
  refine modPort_congr s p ?_
  rw [DataTransfer.concluded_eq, not_isStatusCode_of_unknown hu]
  rfl

/-- Settles O9: a frame whose check byte does not verify, received or not, and a frame with an unknown code. -/
theorem badFramesAreAnswered : Obligations.BadFramesAreAnswered := fun _ _ _ _ _ _ =>
  ⟨fun hc => ⟨fun _ h => exec_badCheck_of_receives hc h, fun h => exec_badCheck_of_not_receiving (not_receiving h)⟩,
    fun _ hu ht => exec_badCommand_of_taken hu ht⟩

end Sys2Proof.LinkFrames
end

section
/-! SUPPORT. The four status commands: Poll, Last Reply, Port Status and Part Status. -/

namespace Sys2Proof.LinkFrames

open Sys2Proof Sys2Proof.Machine Sys2Proof.Statement

variable {s : State} {p : Port} {req : Request}

/-- A status command that is taken: its reply alone. -/
theorem runCommand_reports {code : Byte} {act : State → State × Reply} {st : Status} {body : List Byte}
    (ht : Taken s p code [] req)
    (hact : act (s.modPort p (verified req)) = (s.modPort p (verified req), { status := st, body := body }))
    (hl : lengthAllowed code 0 = true := by rfl) (hc : isStatusCode code = true := by rfl) :
    s.runCommand p code [] act = s.modPort p (answered req st body) :=
  runCommand_answers ht.1 (not_held_of_taken ht.2) hl hc hact

/-! ### Last Reply (R182) -/

theorem lastReply_some {r : LastReply} (h : (s.port p).record = some r) :
    lastReply p (s.modPort p (verified req)) =
      reply .ok ([byteOf r.number, r.code, statusValue r.status, byteOf r.body.length] ++ r.body)
        (s.modPort p (verified req)) := by
  simp only [lastReply, port_verified, verified_record, h, statusValue_eq]

theorem lastReply_none (h : (s.port p).record = none) :
    lastReply p (s.modPort p (verified req)) = refuse .noReply (s.modPort p (verified req)) := by
  simp only [lastReply, port_verified, verified_record, h]

/-! ### Port Status (R184) -/

/-- The number of a last-reply record, in the statement's words. -/
theorem recordNumber_eq (r : Option LastReply) :
    recordNumber r =
      match r with
      | none => 0
      | some r => r.number := by
  cases r <;> rfl

/-- The port's state and options, in the statement's words. -/
theorem modeBytes_eq {m : PortMode} {state quota wake consent : Byte}
    (h : (∃ o, m = .online o ∧ quota = byteOf o.quota ∧ wake = yesNoByte o.wake ∧ consent = portSetByte o.consent ∧
        state = (0x01 : Byte)) ∨
      (m = .offline ∧ quota = 0x00 ∧ wake = 0x00 ∧ consent = 0x00 ∧ state = 0x00)) :
    portModeByte m = state ∧ byteOf m.quota = quota ∧ yesNoByte m.wake = wake ∧ portSetByte m.consent = consent := by
  obtain ⟨o, rfl, rfl, rfl, rfl, rfl⟩ | ⟨rfl, rfl, rfl, rfl, rfl⟩ := h <;> exact ⟨rfl, rfl, rfl, rfl⟩

/-- The report of a port whose frame has verified. -/
theorem portStatus_verified :
    portStatus p (s.modPort p (verified req)) = reply .ok
      ([portModeByte (s.port p).mode, byteOf (s.port p).mode.quota, yesNoByte (s.port p).mode.wake,
        portSetByte (s.port p).mode.consent, 0x00, 0x00, byteOf (allocatedOf s p),
        byteOf (s.directory.countP fun e => e.provider == p), byteOf (s.port p).stack.length,
        (if (s.port p).nest = .opened then 0x01 else 0x00), byteOf (s.port p).notices.length] ++
      wordOf (s.blocks.count fun k => k.owner == some p) ++ wordOf (s.blocks.count fun k => k.borrower == some p) ++
      [byteOf (recordNumber (s.port p).record), (s.modPort p (verified req)).summary p])
      (s.modPort p (verified req)) := by
  rw [portStatus, portStatusBody, port_verified, ← ServiceStacks.nestByte_eq]
  rfl

/-! ### Part Status (R185) -/

/-- The ports in some state, in ascending order (R149). -/
theorem portsIn_eq_filter (s : State) (t : PortMode → Bool) :
    s.portsIn t = ([0, 1, 2, 3] : List Port).filter fun q => t (s.port q).mode :=
  Table.indices_eq_filter s.ports fun ps => t ps.mode

/-- No port's state changes as a check byte verifies. -/
theorem portsIn_verified (t : PortMode → Bool) :
    (s.modPort p (verified req)).portsIn t = ([0, 1, 2, 3] : List Port).filter fun q => t (s.port q).mode := by
  rw [portsIn_eq_filter]
  refine congrArg (fun f => List.filter f ([0, 1, 2, 3] : List Port)) (funext fun q => congrArg t ?_)
  rw [modPort_port]
  split <;> rfl

theorem isFree_eq : Block.isFree = fun k => k == .free := by
  funext k
  cases k <;> rfl

/-- The report of the part after a frame has verified. -/
theorem partStatus_verified :
    partStatus (s.modPort p (verified req)) = reply .ok
      ([0x34, 0x16, 0x01,
        portSetByte (([0, 1, 2, 3] : List Port).filter fun q => (s.port q).mode.isOnline),
        portSetByte (([0, 1, 2, 3] : List Port).filter fun q => (s.port q).mode.isHeld),
        byteOf (s.slots.count fun c => c.isNone)] ++
      wordOf (s.blocks.count fun k => k == .free) ++ wordOf s.scrubQueue.length ++ [byteOf s.directory.length])
      (s.modPort p (verified req)) := by
  rw [partStatus, partStatusBody, portsIn_verified, portsIn_verified, isFree_eq]
  rfl

/-- Settles O16: each command's reply on the port whose frame has verified. -/
theorem statusCommandsReport : Obligations.StatusCommandsReport := by
  intro p req s
  refine ⟨fun ht => ?_, fun ht => ⟨fun r hr => ?_, fun hn => ?_⟩, fun ht quota wake consent state hm => ?_, fun ht => ?_⟩
  · exact congrArg _ (runCommand_reports ht rfl)
  · exact congrArg _ (runCommand_reports ht (lastReply_some hr))
  · exact congrArg _ (runCommand_reports ht (lastReply_none hn))
  · obtain ⟨rfl, rfl, rfl, rfl⟩ := modeBytes_eq hm
    have hact := portStatus_verified (s := s) (p := p) (req := req)
    rw [recordNumber_eq] at hact
    exact congrArg _ (runCommand_reports ht hact)
  · exact congrArg _ (runCommand_reports ht partStatus_verified)

end Sys2Proof.LinkFrames
end

section
/-! SUPPORT. A step with a command waiting: the front of the queue is what it runs. With `step_empty` this says what `step` is for
every queue. -/

namespace Sys2Proof.QueueFront

open Sys2Proof.Machine

/-- With `c` at the front of the queue, a step is `c`'s effect on the state with the queue's rest. -/
theorem step_front {s : State} {c : Instr} {rest : List Instr} (h : s.pending = c :: rest) :
    step s = exec c { s with pending := rest } := by
  simp only [step, h]

/-- Settles O1, by the branch of `step` that the queue's front selects. -/
theorem stepRunsFrontCommand : Obligations.StepRunsFrontCommand := by
  intro s c rest h
  exact step_front h

end Sys2Proof.QueueFront
end
